-- ==== Sys2Proof/Word.lean ====
section
/-! DEFINITION. Word types of the Belscap 418 and their plainest arithmetic. -/

namespace Sys2Proof

/-- One byte on the line port or on the head link (R169). -/
abbrev Byte := BitVec 8

/-- A 32-bit count that wraps: time base, pitch count, jar number, trace write count (R1, R5, R11, R149). -/
abbrev Word32 := BitVec 32

/-- A head or pocket. Head or pocket n (1 to 18) is the value n - 1, so the wrap of pocket numbering
(18 is followed by 1) is that of `Fin`. -/
abbrev Head := Fin 18

/-- The number 1 to 18 of a head or pocket. -/
def Head.number (h : Head) : Nat := h.val + 1

/-- A saturating rise by one: stops at `top` (section 0.6.3). -/
def satInc (top n : Nat) : Nat := if n < top then n + 1 else n

/-- The largest value of a 32-bit saturating count. -/
def max32 : Nat := 4294967295

/-- The value `n` moved to the nearer end of the range `lo` to `hi` when it lies outside (section 0.6.4, R2). -/
def clampTo (lo hi n : Nat) : Nat := if n < lo then lo else if hi < n then hi else n

/-- The same clamp on integers (R121, R123). -/
def clampInt (lo hi n : Int) : Int := if n < lo then lo else if hi < n then hi else n

end Sys2Proof
end

