-- ==== Sys2Proof/Syntax.lean ====
section
/-! DEFINITION. The commands of the Belscap 418: one constructor per row of spec/opcode_table.json.
The table lists no operands. The operands here are what the rule of each row makes the part read
when the step is taken: levels of input pins, bytes of a frame, and the free order of one pitch
(log entries 4, 5, 16, 26). -/

namespace Sys2Proof

/-- Levels of the two lift inputs at a step that reads them (R111, R113, R117). -/
structure LiftPins where
  liftHome : Bool
  liftFlt : Bool
  deriving DecidableEq, Repr, Inhabited

/-- What the part reads from its inputs at a forward pitch: the jar sensors (R13, R14, R16), the two
analogue inputs (R120, R122), and the lift inputs, since a pitch can start a lift move (R58, R59). -/
structure PitchPins where
  jarIn : Bool
  jarChk : Bool
  defl : BitVec 12
  irt : BitVec 12
  lift : LiftPins
  deriving DecidableEq, Repr, Inhabited

/-- What start-up reads from the inputs (R168): the BAUD strap, CAP_LOW and the lift inputs. -/
structure StartupPins where
  capLow : Bool
  /-- the strap selects 115,200 baud -/
  baudHigh : Bool
  lift : LiftPins
  deriving DecidableEq, Repr, Inhabited

/-- The acts of one forward pitch that R15 leaves in no fixed order: the deadline test of R140, the
arrivals at the five stations, and the act at the infeed. -/
inductive PitchAct where
  | deadlines | atA | atE | atX | atK | atJ | infeed
  deriving DecidableEq, Repr, Inhabited

/-- The address of a HOLD, RESUME or STOP RUN frame: the unit's own, or broadcast (R158). -/
inductive Address where
  | unit | broadcast
  deriving DecidableEq, Repr, Inhabited

/-- The commands. `payload` is the payload of the request frame as received (R156, Table 12-4). -/
inductive Instr where
  /-- FORWARD_PITCH (R15). The acts named in `order` are taken first, in its order; the others follow. -/
  | forwardPitch (pins : PitchPins) (order : List PitchAct)
  /-- REVERSE_PITCH (R8) -/
  | reversePitch
  /-- INDEX (R7) -/
  | indexPulse
  /-- REJ_CONF (R141) -/
  | rejConf
  /-- CAP_LOW_ASSERTED (R31) -/
  | capLowAsserted
  /-- CAP_LOW_RELEASED (R31) -/
  | capLowReleased
  /-- LIFT_FLT_ASSERTED (R113) -/
  | liftFltAsserted
  /-- POWER_ON (R167) -/
  | powerOn
  /-- RESET_INPUT (R167) -/
  | resetInput
  /-- STARTUP (R168) -/
  | startup (pins : StartupPins)
  /-- FRAME_IGNORED (R156): bytes at LP_RXD of which the part serves no frame. -/
  | frameIgnored (bytes : List Byte)
  /-- FRAME_GAP_TIMEOUT (R156) -/
  | frameGapTimeout
  /-- UNKNOWN (R157): a good frame whose message code names no message. -/
  | unknown (code : Byte) (payload : List Byte)
  /-- QUERY_UNIT (R159) -/
  | queryUnit (payload : List Byte)
  /-- READ_STATUS (R160) -/
  | readStatus (payload : List Byte) (lift : LiftPins)
  /-- READ_SETTINGS (R161) -/
  | readSettings (payload : List Byte)
  /-- READ_COUNTS (R143) -/
  | readCounts (payload : List Byte)
  /-- READ_HEAD (R74) -/
  | readHead (payload : List Byte)
  /-- READ_RECIPE (R47) -/
  | readRecipe (payload : List Byte)
  /-- READ_DISPOSITION (R136) -/
  | readDisposition (payload : List Byte)
  /-- FETCH_RECORDS (R148) -/
  | fetchRecords (payload : List Byte)
  /-- READ_TRACE (R151) -/
  | readTrace (payload : List Byte)
  /-- ARM_CAPTURE (R153) -/
  | armCapture (payload : List Byte)
  /-- RELEASE_CAPTURE (R155) -/
  | releaseCapture (payload : List Byte)
  /-- STAGE_RECIPE (R48) -/
  | stageRecipe (payload : List Byte)
  /-- DISCARD_STAGED (R49) -/
  | discardStaged (payload : List Byte)
  /-- SET_DISPOSITION (R136) -/
  | setDisposition (payload : List Byte)
  /-- SET_GEOMETRY (R4) -/
  | setGeometry (payload : List Byte)
  /-- SET_HEAD_SERVICE (R66) -/
  | setHeadService (payload : List Byte)
  /-- SET_LINE_PARAMETERS (R161) -/
  | setLineParameters (payload : List Byte)
  /-- SET_ALERT_MASK (R164) -/
  | setAlertMask (payload : List Byte)
  /-- SET_ZERO_REFERENCE (R119) -/
  | setZeroReference (payload : List Byte)
  /-- SET_TRACE_MODE (R152) -/
  | setTraceMode (payload : List Byte)
  /-- COMMIT_SETTINGS (R166) -/
  | commitSettings (payload : List Byte)
  /-- START_RUN (R25) -/
  | startRun (payload : List Byte) (lift : LiftPins)
  /-- STOP_RUN (R27) -/
  | stopRun (addr : Address) (payload : List Byte)
  /-- HOLD (R32) -/
  | hold (addr : Address) (payload : List Byte)
  /-- RESUME (R32) -/
  | resume (addr : Address) (payload : List Byte)
  /-- REQUEST_CHANGEOVER (R53) -/
  | requestChangeover (payload : List Byte) (lift : LiftPins)
  /-- CANCEL_CHANGEOVER (R60) -/
  | cancelChangeover (payload : List Byte)
  /-- INSERT_GAPS (R42) -/
  | insertGaps (payload : List Byte)
  /-- CLEAR_FAULT (R37) -/
  | clearFault (payload : List Byte) (lift : LiftPins)
  /-- HOME_LIFT (R114) -/
  | homeLift (payload : List Byte) (lift : LiftPins)
  /-- ACK_ALERTS (R164) -/
  | ackAlerts (payload : List Byte)
  /-- CLEAR_HEAD_STATS (R73) -/
  | clearHeadStats (payload : List Byte)
  /-- LINK_TIMEOUT (R162) -/
  | linkTimeout
  /-- COMMIT_WRITE_END (R166) -/
  | commitWriteEnd
  /-- REJ_OUT_PULSE_END (R138) -/
  | rejOutPulseEnd
  /-- HOME_STEP (R111): LIFT_HOME as read at this home step period. -/
  | homeStep (liftHome : Bool)
  /-- HOME_FAILURE (R111) -/
  | homeFailure
  /-- SEEK_STEP (R112) -/
  | seekStep
  /-- SETTLE_END (R115) -/
  | settleEnd
  /-- EXCHANGE_START (R82) -/
  | exchangeStart
  /-- REPLY_RECEIVED (R77): the bytes of the reply frame, from the head number to the CRC-8. -/
  | replyReceived (frame : List Byte)
  /-- REPLY_WINDOW_EXPIRY (R76) -/
  | replyWindowExpiry
  /-- REPLY_GAP_TIMEOUT (R77) -/
  | replyGapTimeout
  /-- CONFIRM_DEADLINE (R140) -/
  | confirmDeadline
  /-- ZERO_STALE (R130) -/
  | zeroStale
  /-- BATCH_END (R29) -/
  | batchEnd (lift : LiftPins)
  /-- RETIRING_EMPTIED (R51) -/
  | retiringEmptied (lift : LiftPins)
  /-- WAIT_TURRET_END (R58) -/
  | waitTurretEnd (lift : LiftPins)
  /-- DRAIN_END (R30) -/
  | drainEnd
  /-- AUTO_MARK_OUT (R68) of one head -/
  | autoMarkOut (head : Head)
  /-- LINK_MARK_OUT (R69) of one head -/
  | linkMarkOut (head : Head)
  /-- CAPTURE_FROZEN (R154) -/
  | captureFrozen
  /-- MILLISECOND_TIME_BASE_TICK (R1) -/
  | millisecondTick
  /-- LINE_REPLY_SENT (R157) -/
  | lineReplySent
  deriving DecidableEq, Repr

end Sys2Proof
end

