-- ==== Sys2Proof/Decode.lean ====
section
/-! DEFINITION. The command a word of spec/opcode_table.json spells. -/

namespace Sys2Proof

/-- No row of the table has bits ("n_rows_with_fixed": 0), so no word spells a command (log entry 28). -/
def decodeTableWord (_nbits _w : Nat) : Option Instr := none

end Sys2Proof
end

