-- ==== Sys2Proof/Machine/Types.lean ====
section
/-! DEFINITION. The values the blocks of the Belscap 418 hold: enumerations, records and the state of
each block, under the names the spec gives them. -/

namespace Sys2Proof.Machine

/-! ### Run control (chapter 2 and 3) -/

/-- Run states (Table 2-1). -/
inductive RunState where
  | idle | prepare | run | hold | drain | change | fault
  deriving DecidableEq, Repr, Inhabited

/-- Change phases (R24). -/
inductive ChangePhase where
  | none | waitTurret | lift | swap
  deriving DecidableEq, Repr, Inhabited

/-- Members of the hold-reason set, in the bit order of Table 12-2 (R31). -/
inductive HoldReason where
  | host | linkSilent | capLow | fewHeads
  deriving DecidableEq, Repr, Inhabited

/-- Fault causes, in the bit order of Table 12-2 (Table 2-3). -/
inductive Cause where
  | encoderSlip | reverseMotion | jarMissing | strayJar | rejectUnconfirmed | liftFault | homeFail
  deriving DecidableEq, Repr, Inhabited

/-- Alert kinds, in the order of Table 11-5. -/
inductive AlertKind where
  | faultEntered | holdEntered | headMarked | classAlert | queueOverrun | captureFrozen | batchDone
  | changeoverDone | liftDone | liftFailed | zeroStale | strayReject | settingsDefaulted
  deriving DecidableEq, Repr, Inhabited

/-- The standing decision of the Infeed Gate (R38). -/
inductive Decision where
  | closed | admitJar | gap
  deriving DecidableEq, Repr, Inhabited

/-- A set of hold reasons (R31). -/
abbrev HoldSet := Vector Bool 4
/-- A set of fault causes (R33). -/
abbrev CauseSet := Vector Bool 7
/-- A set of alert kinds (R163). -/
abbrev AlertSet := Vector Bool 13
/-- A set of Jar Entry flags (R12). -/
abbrev JarFlags := Vector Bool 11

/-- Mode of a changeover request (R53). -/
inductive ChangeoverMode where
  | now | atBatchEnd
  deriving DecidableEq, Repr, Inhabited

/-- Kind of a changeover request (R50). -/
inductive ChangeoverKind where
  | flying | drained
  deriving DecidableEq, Repr, Inhabited

/-- Stage of a changeover request (Table 3-3). -/
inductive ChangeoverStage where
  | waiting | atAdmission | atRetire | inChange
  deriving DecidableEq, Repr, Inhabited

/-- The pending changeover request (R53). -/
structure Changeover where
  mode : ChangeoverMode
  kind : ChangeoverKind
  nextNumber : Nat
  nextSize : Nat
  stage : ChangeoverStage
  deriving DecidableEq, Repr, Inhabited

/-- State of the Run Controller (R24). -/
structure RunControl where
  state : RunState
  phase : ChangePhase
  hold : HoldSet
  causes : CauseSet
  /-- LSTOP (R35) -/
  lstop : Bool
  batchNumber : Nat
  batchSize : Nat
  admitted : Nat
  batchEnded : Bool
  request : Option Changeover
  deriving DecidableEq, Repr

/-- State of the Infeed Gate (R38, R40, R41, R42). -/
structure InfeedGate where
  decision : Decision
  /-- GATE_OUT (R40) -/
  gateOut : Bool
  gapCount : Nat
  emptyPockets : Nat
  deriving DecidableEq, Repr

/-! ### The Jar Track (chapter 1) -/

/-- Machine Geometry (R3): the five station offsets. -/
structure Geometry where
  a : Nat
  e : Nat
  x : Nat
  k : Nat
  j : Nat
  deriving DecidableEq, Repr, Inhabited

/-- The bank a Jar Entry references (Table 1-10). -/
inductive BankRef where
  | active | retiring
  deriving DecidableEq, Repr, Inhabited

/-- Outcome of a capping cycle (Table 1-10, Table 12-2). -/
inductive CycleOutcome where
  | seated | crossThread | noCap | overAngle | aborted
  deriving DecidableEq, Repr, Inhabited

/-- Capping class of a jar (Table 1-10, R104). -/
inductive CapClass where
  | cappedOk | noCap | headFault | interrupted | crossThread | overTorque | underTorque | angleOut
  | steamLow
  deriving DecidableEq, Repr, Inhabited

/-- Final class of a jar, in the order of Table 8-4 (R128). Class 0, "no class", is the absent value. -/
inductive FinalClass where
  | noCap | headFault | interrupted | crossThread | overTorque | underTorque | angleOut | steamLow
  | bulge | unverified | dud | lowVacuum | good
  deriving DecidableEq, Repr, Inhabited

/-- Action of a disposition entry (R134). -/
inductive Action where
  | pass | reject
  deriving DecidableEq, Repr, Inhabited

/-- Record policy of a disposition entry (R134). -/
inductive RecordPolicy where
  | none | record | trace
  deriving DecidableEq, Repr, Inhabited

/-- One entry of the Disposition Table (R134). -/
structure DispEntry where
  action : Action
  policy : RecordPolicy
  alert : Bool
  deriving DecidableEq, Repr, Inhabited

/-- Disposition of a departed jar (R17). -/
inductive Disposition where
  | passed | rejected | missing | purged
  deriving DecidableEq, Repr, Inhabited

/-- Flags of a Jar Entry, in the bit order of the Jar Record (R172, Table 1-11). -/
inductive JarFlag where
  | tempAbsent | coldFill | zeroStale | dtClamped | firstOfRecipe | afterFault | retried
  | tracePresent | traceLost | traceFrozen | traceOff
  deriving DecidableEq, Repr, Inhabited

/-- A trace reference: start write count and length (Table 1-10). -/
structure TraceRef where
  start : Word32
  length : Nat
  deriving DecidableEq, Repr, Inhabited

/-- A Jar Entry (Table 1-10). -/
structure Entry where
  jar : Word32
  pocket : Head
  bank : BankRef
  recipeId : Nat
  batch : Nat
  position : Nat
  admissionPitch : Word32
  admissionTime : Word32
  fillTemp : Option Nat
  attempts : Nat
  lastOutcome : Option CycleOutcome
  peakTorque : Option Nat
  seatAngle : Option Nat
  steam : Bool
  sealTime : Option Word32
  capClass : Option CapClass
  d : Option Int
  dReq : Option Nat
  dt : Option Nat
  finalClass : Option FinalClass
  action : Option Action
  policy : Option RecordPolicy
  alertFlag : Bool
  disposition : Option Disposition
  flags : JarFlags
  trace : Option TraceRef
  deriving DecidableEq, Repr

/-- State of the Jar Track (R3, R5, R6, R9, R11, R18). `entries` is oldest first. -/
structure JarTrack where
  entries : List Entry
  pitchCount : Word32
  pocket : Head
  synced : Bool
  nextJar : Word32
  activeCount : Nat
  retiringCount : Nat
  geometry : Geometry
  deriving DecidableEq, Repr

/-! ### The Recipe Store (chapter 3) -/

/-- A recipe record (Table 3-1). The name is its bytes as received. -/
structure Recipe where
  id : Nat
  name : List Byte
  liftHeight : Nat
  stepPeriod : Nat
  torqueSet : Nat
  torqueLo : Nat
  torqueHi : Nat
  angleLo : Nat
  angleHi : Nat
  angleMax : Nat
  steamDwell : Nat
  attemptsLimit : Nat
  dFull : Nat
  tau : Nat
  dudFraction : Nat
  bulgeLimit : Nat
  gain : Nat
  tRef : Nat
  tAmb : Nat
  tMin : Nat
  deriving DecidableEq, Repr, Inhabited

/-- State of the Recipe Store (R47, R50). -/
structure RecipeStore where
  staged : Option Recipe
  active : Option Recipe
  retiring : Option Recipe
  firstMark : Bool
  deriving DecidableEq, Repr

/-! ### The Head Map (chapter 4) -/

/-- Why a head is marked out (R63). -/
inductive MarkReason where
  | host | failures | link
  deriving DecidableEq, Repr, Inhabited

/-- Service state with its mark reason. The reason is NONE exactly while the state is IN_SERVICE (R63). -/
inductive Service where
  | inService
  | markedOut (reason : MarkReason)
  deriving DecidableEq, Repr, Inhabited

/-- The eight statistics of a head, in the order of Table 4-3 (R72). -/
structure HeadStats where
  applySent : Nat
  seated : Nat
  crossThread : Nat
  noCap : Nat
  overAngle : Nat
  aborted : Nat
  noReply : Nat
  stale : Nat
  deriving DecidableEq, Repr, Inhabited

/-- A Head Record (Table 4-1). `riseOpen` and `silenceOpen` are the model's own (log entry 6): a rise of
the failure count not yet compared with F (R68), a failed exchange whose no-reply count is not yet compared
with 3 (R69). -/
structure HeadRecord where
  service : Service
  failures : Nat
  noReplies : Nat
  stats : HeadStats
  riseOpen : Bool
  silenceOpen : Bool
  deriving DecidableEq, Repr, Inhabited

/-! ### The Head Link (chapter 5) -/

/-- An APPLY with its contents (Table 5-1). -/
structure ApplyCmd where
  tag : Byte
  attempt : Nat
  torqueSet : Nat
  angleMax : Nat
  steamDwell : Nat
  deriving DecidableEq, Repr, Inhabited

/-- A command frame's command (R173). -/
inductive HeadCommand where
  | apply (cmd : ApplyCmd)
  | abort
  | poll
  | curve
  deriving DecidableEq, Repr, Inhabited

/-- A command slot (Table 5-2). -/
inductive Slot where
  | empty
  | apply (cmd : ApplyCmd)
  | abort
  | curve
  deriving DecidableEq, Repr, Inhabited

/-- Stage of a curve fetch (R89). -/
inductive FetchStage where
  | wanted | sent
  deriving DecidableEq, Repr, Inhabited

/-- A curve fetch (R89). -/
structure CurveFetch where
  jar : Word32
  tag : Byte
  stage : FetchStage
  deriving DecidableEq, Repr, Inhabited

/-- What the Head Link holds for one head (Table 5-2). -/
structure HeadLine where
  slot : Slot
  tag : Byte
  unconfirmed : Option ApplyCmd
  fetch : Option CurveFetch
  applyConfirmed : Bool
  deriving DecidableEq, Repr, Inhabited

/-- The exchange in flight (Table 5-2). -/
structure Exchange where
  head : Head
  command : HeadCommand
  window : Nat
  deriving DecidableEq, Repr, Inhabited

/-- State of the Head Link (R81). -/
structure HeadLink where
  pointer : Head
  lines : Vector HeadLine 18
  exchange : Option Exchange
  /-- HL_DE (R76) -/
  hlDe : Bool
  /-- the last command frame sent on HL_TXD (R173) -/
  hlTxd : List Byte
  deriving DecidableEq, Repr

/-- One sample of a curve: angle in 0.1 degree, torque in cN m (R149). -/
structure Sample where
  angle : BitVec 16
  torque : BitVec 16
  deriving DecidableEq, Repr, Inhabited

/-- The contents of a DONE report (R80). -/
structure DoneReport where
  tag : Byte
  attempt : Nat
  outcome : CycleOutcome
  peakTorque : Nat
  seatAngle : Nat
  steam : Bool
  seatAge : Nat
  curveLength : Nat
  deriving DecidableEq, Repr, Inhabited

/-- A report of a head (R80). -/
inductive Report where
  | idle
  | busy (tag : Byte) (attempt : Nat)
  | done (r : DoneReport)
  | curve (tag : Byte) (samples : List Sample)
  deriving DecidableEq, Repr, Inhabited

/-! ### Capping Control (chapter 6) -/

/-- Cycle stage of a head binding (Table 6-1). -/
inductive CycleStage where
  | none | applied | result
  deriving DecidableEq, Repr, Inhabited

/-- A head binding (Table 6-1). -/
structure Binding where
  bound : Option Word32
  stage : CycleStage
  lateWatch : Option Byte
  deriving DecidableEq, Repr, Inhabited

/-! ### The Lift (chapter 7) -/

/-- Lift states (Table 7-1). -/
inductive LiftState where
  | unknown | homing | ready | seeking | failed
  deriving DecidableEq, Repr, Inhabited

/-- Requester of a lift move (Table 7-1). -/
inductive Requester where
  | host | run
  deriving DecidableEq, Repr, Inhabited

/-- State of the Lift Controller (R109, R110). `period`, `settleTime` are taken when a move begins;
`settleSince` is the time base at which the settle wait began; `dirDown` is LIFT_DIR. -/
structure Lift where
  state : LiftState
  position : Nat
  known : Bool
  target : Option Nat
  stepCount : Nat
  requester : Option Requester
  settling : Bool
  period : Nat
  settleTime : Nat
  settleSince : Word32
  dirDown : Bool
  deriving DecidableEq, Repr

/-! ### Check Station, Reject Gate, Records and Traces (chapters 8, 9, 10) -/

/-- State of the Check Station (R118, R119). `testOpen` is the model's own (log entry 6): a pitch has been
taken and the test of R130, step 2, not yet made on it. -/
structure CheckStation where
  z : Nat
  sinceZero : Nat
  staleGiven : Bool
  disturbances : Nat
  z0 : Nat
  testOpen : Bool
  deriving DecidableEq, Repr

/-- A confirm entry (R139). -/
structure ConfirmEntry where
  jar : Word32
  deadline : Word32
  deriving DecidableEq, Repr, Inhabited

/-- State of the Reject Gate (R138, R139, R142). `since` is the time base of the running pulse. -/
structure RejectGate where
  confirms : List ConfirmEntry
  /-- REJ_OUT (R138) -/
  rejOut : Bool
  since : Word32
  passed : Nat
  rejected : Nat
  missing : Nat
  purged : Nat
  deriving DecidableEq, Repr

/-- A Jar Record (R146). Absent fields are `none` here and take their codes on the line (R169). -/
structure JarRecord where
  jar : Word32
  batch : Nat
  recipeId : Nat
  head : Head
  finalClass : Option FinalClass
  disposition : Disposition
  flags : JarFlags
  admissionPitch : Word32
  admissionTime : Word32
  sealTime : Option Word32
  attempts : Nat
  lastOutcome : Option CycleOutcome
  peakTorque : Option Nat
  seatAngle : Option Nat
  fillTemp : Option Nat
  d : Option Int
  dReq : Option Nat
  dt : Option Nat
  trace : Option TraceRef
  deriving DecidableEq, Repr

/-- The Record Queue (R145), oldest first. -/
structure RecordQueue where
  queue : List JarRecord
  overruns : Nat
  deriving DecidableEq, Repr

/-- A segment protected in the Trace Store: the jar it belongs to and its start count (R150). -/
structure ProtectedSeg where
  jar : Word32
  start : Word32
  deriving DecidableEq, Repr, Inhabited

/-- The Trace Store (R149, R150, R152). `slots` lists the slots written since reset, slots strictly
rising; `protectedSegs` lists the segments of entries in the Track in the order they were stored;
`epoch` counts resets and is the model's own. -/
structure TraceStore where
  slots : List (Nat × Sample)
  writeCount : Word32
  protectedSegs : List ProtectedSeg
  modeAll : Bool
  epoch : Nat
  deriving DecidableEq, Repr

/-- States of the Capture Unit (R153). -/
inductive CaptureState where
  | off | armed | triggered | frozen
  deriving DecidableEq, Repr, Inhabited

/-- The Capture Unit (R153). -/
structure Capture where
  state : CaptureState
  trigger : Nat
  post : Nat
  remaining : Nat
  deriving DecidableEq, Repr

/-! ### The Line Port (chapter 11) -/

/-- Result codes (Table 11-1). -/
inductive ResultCode where
  | done | doneClamped | wrongState | badValue | busy | gone | unknown | badLength
  deriving DecidableEq, Repr, Inhabited

/-- Line parameters (Table 11-3). -/
structure LineParams where
  unitAddress : Nat
  linkTimeout : Nat
  failLimit : Nat
  minHeads : Nat
  zeroWindow : Nat
  staleLimit : Nat
  replyWindow : Nat
  homePeriod : Nat
  settleTime : Nat
  confirmWindow : Nat
  deriving DecidableEq, Repr, Inhabited

/-- States of the link timer (R162). -/
inductive TimerState where
  | stopped | running | expired
  deriving DecidableEq, Repr, Inhabited

/-- The link timer (R162): its state and the time at which it expires. No rule gives or reads that time
while the timer is STOPPED, and it is 0 there (log entry 35). -/
structure LinkTimer where
  state : TimerState
  expiresAt : Word32
  deriving DecidableEq, Repr

/-- A reply built and not yet sent (R157). -/
structure LineReply where
  address : Nat
  code : Byte
  result : ResultCode
  payload : List Byte
  deriving DecidableEq, Repr

/-- State of the Line Port (R156, R157, R162, R168). -/
structure LinePort where
  rxBuf : List Byte
  reply : Option LineReply
  /-- LP_DE: asserted while a reply is being sent (R156, R167) -/
  lpDe : Bool
  /-- the last reply frame sent on LP_TXD (R157) -/
  lpTxd : List Byte
  baudHigh : Bool
  timer : LinkTimer
  deriving DecidableEq, Repr

/-- The Alert Latch, the alert mask and the ALERT output (R163). -/
structure Alerts where
  latch : AlertSet
  mask : AlertSet
  /-- ALERT -/
  pin : Bool
  deriving DecidableEq, Repr

/-- The retained image: the settings of Table 11-4 (R165). -/
structure Image where
  params : LineParams
  geometry : Geometry
  dispTable : Vector DispEntry 13
  service : Vector Service 18
  alertMask : AlertSet
  z0 : Nat
  traceAll : Bool
  deriving DecidableEq, Repr

/-- What the Retained Store holds: an image, and the CRC-16 written with it (R165). -/
structure StoredImage where
  image : Image
  crc : BitVec 16
  deriving DecidableEq, Repr

/-- In reset, from POWER_ON or RESET_INPUT to STARTUP, or running (R167, R168). -/
inductive PowerState where
  | inReset | running
  deriving DecidableEq, Repr, Inhabited

/-- Cause of the last reset (R160, R167). -/
inductive ResetCause where
  | powerOn | resetInput
  deriving DecidableEq, Repr, Inhabited

/-- Levels of the input pins as last seen (section 0.8). -/
structure Inputs where
  jarIn : Bool
  jarChk : Bool
  defl : BitVec 12
  irt : BitVec 12
  capLow : Bool
  liftHome : Bool
  liftFlt : Bool
  deriving DecidableEq, Repr, Inhabited

end Sys2Proof.Machine
end

