-- ==== Sys2Proof/Machine/Bytes.lean ====
section
/-! DEFINITION. Byte order and check codes of both lines (R169, R170). -/

namespace Sys2Proof.Machine

/-- The low `width` bytes of `n`, high byte first (R169). -/
def beBytes : Nat → Nat → List Byte
  | 0, _ => []
  | k + 1, n => beBytes k (n / 256) ++ [BitVec.ofNat 8 n]

/-- The number whose bytes, high byte first, are the list (R169). -/
def beValue (bs : List Byte) : Nat := bs.foldl (fun acc b => acc * 256 + b.toNat) 0

/-- The `len`-byte field at offset `off` of a payload. -/
def field (p : List Byte) (off len : Nat) : Nat := beValue ((p.drop off).take len)

/-- A flag byte (R169). -/
def flagByte (b : Bool) : Byte := if b then 1 else 0

/-- The bits of a byte, high bit first (R170). -/
def byteBits (b : Byte) : List Bool := [b[7], b[6], b[5], b[4], b[3], b[2], b[1], b[0]]

/-- Bits entering a CRC-16 register, with generator 1021h (R170). -/
def crc16Bits : List Bool → BitVec 16 → BitVec 16
  | [], r => r
  | b :: bs, r => if r.msb == b then crc16Bits bs (r <<< 1) else crc16Bits bs ((r <<< 1) ^^^ 0x1021#16)

/-- The line CRC-16: start value FFFFh, no final inversion (R170). -/
def crc16 (bs : List Byte) : BitVec 16 := crc16Bits (bs.flatMap byteBits) 0xFFFF#16

/-- Bits entering a CRC-8 register, with generator 07h (R170). -/
def crc8Bits : List Bool → BitVec 8 → BitVec 8
  | [], r => r
  | b :: bs, r => if r.msb == b then crc8Bits bs (r <<< 1) else crc8Bits bs ((r <<< 1) ^^^ 0x07#8)

/-- The head-link CRC-8: start value 00h, no final inversion (R170). -/
def crc8 (bs : List Byte) : BitVec 8 := crc8Bits (bs.flatMap byteBits) 0x00#8

/-- A CRC-16 as sent, high byte first (R170). -/
def crc16Bytes (bs : List Byte) : List Byte := beBytes 2 (crc16 bs).toNat

/-- The lead byte of a line frame (R156). -/
def leadByte : Byte := 0xC5

/-- A request frame (R156, R171). -/
def requestFrame (addr : Nat) (code : Byte) (payload : List Byte) : List Byte :=
  let body := [BitVec.ofNat 8 addr, code, BitVec.ofNat 8 payload.length] ++ payload
  [leadByte] ++ body ++ crc16Bytes body

/-- Result codes (Table 11-1). -/
def ResultCode.byte : ResultCode → Byte
  | .done => 0x00 | .doneClamped => 0x01 | .wrongState => 0x10 | .badValue => 0x11
  | .busy => 0x12 | .gone => 0x13 | .unknown => 0x20 | .badLength => 0x21

/-- A reply frame (R157, R171). -/
def replyFrame (r : LineReply) : List Byte :=
  let body := [BitVec.ofNat 8 r.address, r.code + 0x80, r.result.byte,
    BitVec.ofNat 8 r.payload.length] ++ r.payload
  [leadByte] ++ body ++ crc16Bytes body

end Sys2Proof.Machine
end

