-- ==== Sys2Proof/Machine/Flags.lean ====
section
/-! DEFINITION. The sets of named members: alert kinds, hold reasons, fault causes and jar flags. Each
is carried on the line as a bit set whose members are numbered in Table 12-2 (R169). -/

namespace Sys2Proof.Machine

/-- Place of an alert kind: kind n of Table 11-5 is bit n - 1. -/
def alertIx : AlertKind → Fin 13
  | .faultEntered => 0 | .holdEntered => 1 | .headMarked => 2 | .classAlert => 3
  | .queueOverrun => 4 | .captureFrozen => 5 | .batchDone => 6 | .changeoverDone => 7
  | .liftDone => 8 | .liftFailed => 9 | .zeroStale => 10 | .strayReject => 11
  | .settingsDefaulted => 12

/-- Place of a hold reason (Table 12-2). -/
def holdIx : HoldReason → Fin 4
  | .host => 0 | .linkSilent => 1 | .capLow => 2 | .fewHeads => 3

/-- Place of a fault cause (Table 12-2). -/
def causeIx : Cause → Fin 7
  | .encoderSlip => 0 | .reverseMotion => 1 | .jarMissing => 2 | .strayJar => 3
  | .rejectUnconfirmed => 4 | .liftFault => 5 | .homeFail => 6

/-- Place of a jar flag (R172, the list under Table 12-6). -/
def flagIx : JarFlag → Fin 11
  | .tempAbsent => 0 | .coldFill => 1 | .zeroStale => 2 | .dtClamped => 3 | .firstOfRecipe => 4
  | .afterFault => 5 | .retried => 6 | .tracePresent => 7 | .traceLost => 8 | .traceFrozen => 9
  | .traceOff => 10

/-- The set with no member. -/
def noMembers (n : Nat) : Vector Bool n := Vector.replicate n false

/-- The set with every member. -/
def allMembers (n : Nat) : Vector Bool n := Vector.replicate n true

/-- The set holds no member. -/
def isEmptySet {n : Nat} (v : Vector Bool n) : Bool := v.toList.all (fun b => !b)

/-- The two sets share a member. -/
def meets {n : Nat} (v w : Vector Bool n) : Bool := (List.finRange n).any (fun i => v[i] && w[i])

/-- The members of the first set that are not in the second. -/
def without {n : Nat} (v w : Vector Bool n) : Vector Bool n := Vector.ofFn (fun i => v[i] && !w[i])

/-- The number whose bit i is member i of the list. -/
def bitsOfList : List Bool → Nat
  | [] => 0
  | b :: bs => (if b then 1 else 0) + 2 * bitsOfList bs

/-- A set as the number of its bit set (R169). -/
def setBits {n : Nat} (v : Vector Bool n) : Nat := bitsOfList v.toList

/-- The set whose bit set is the number `w` (R169). -/
def bitsSet (n w : Nat) : Vector Bool n := Vector.ofFn (fun i => w.testBit i.val)

/-- Whether the jar flag `k` is in the set. -/
def JarFlags.has (v : JarFlags) (k : JarFlag) : Bool := v[flagIx k]

/-- The set with the jar flag `k` added (R12). -/
def JarFlags.add (v : JarFlags) (k : JarFlag) : JarFlags := v.set (flagIx k) true

/-- The set with `k` added when `b` holds. -/
def JarFlags.addIf (v : JarFlags) (b : Bool) (k : JarFlag) : JarFlags := if b then v.add k else v

end Sys2Proof.Machine
end

