-- ==== Sys2Proof/Machine/Factory.lean ====
section
/-! DEFINITION. Factory values of the retained settings (Table 11-4) and the reset values of records
the State is built from. -/

namespace Sys2Proof.Machine

/-- Factory line parameters (Table 11-3). -/
def factoryParams : LineParams :=
  { unitAddress := 1, linkTimeout := 2000, failLimit := 5, minHeads := 12, zeroWindow := 40,
    staleLimit := 600, replyWindow := 500, homePeriod := 20, settleTime := 150, confirmWindow := 4 }

/-- Factory Machine Geometry (Table 1-9). -/
def factoryGeometry : Geometry := { a := 2, e := 10, x := 13, k := 93, j := 101 }

/-- Place of a final class: class n of Table 8-4 is place n - 1. -/
def classIx : FinalClass → Fin 13
  | .noCap => 0 | .headFault => 1 | .interrupted => 2 | .crossThread => 3 | .overTorque => 4
  | .underTorque => 5 | .angleOut => 6 | .steamLow => 7 | .bulge => 8 | .unverified => 9
  | .dud => 10 | .lowVacuum => 11 | .good => 12

/-- Factory Disposition Table (Table 9-1), classes 1 to 13. -/
def factoryDispTable : Vector DispEntry 13 :=
  #v[⟨.reject, .trace, false⟩, ⟨.reject, .trace, true⟩, ⟨.reject, .trace, false⟩,
    ⟨.reject, .trace, false⟩, ⟨.reject, .trace, false⟩, ⟨.reject, .trace, false⟩,
    ⟨.reject, .trace, false⟩, ⟨.reject, .trace, false⟩, ⟨.reject, .trace, true⟩,
    ⟨.reject, .record, true⟩, ⟨.reject, .trace, true⟩, ⟨.pass, .record, false⟩,
    ⟨.pass, .none, false⟩]

/-- The image of factory values that start-up loads when the Retained Store is found defaulted (R168). -/
def factoryImage : Image :=
  { params := factoryParams, geometry := factoryGeometry, dispTable := factoryDispTable,
    service := Vector.replicate 18 .inService, alertMask := allMembers 13, z0 := 2048,
    traceAll := true }

/-- Statistics after reset (R64). -/
def clearStats : HeadStats := ⟨0, 0, 0, 0, 0, 0, 0, 0⟩

/-- A Head Record after reset, with its retained service state (R64). -/
def resetHead (sv : Service) : HeadRecord :=
  { service := sv, failures := 0, noReplies := 0, stats := clearStats,
    riseOpen := false, silenceOpen := false }

/-- What the Head Link holds for a head after reset (Table 5-2). -/
def resetHeadLine : HeadLine :=
  { slot := .empty, tag := 0, unconfirmed := none, fetch := none, applyConfirmed := false }

/-- A free head binding (Table 6-1). -/
def freeBinding : Binding := { bound := none, stage := .none, lateWatch := none }

/-- The Lift Controller after reset (Table 7-1). -/
def resetLift : Lift :=
  { state := .unknown, position := 0, known := false, target := none, stepCount := 0,
    requester := none, settling := false, period := 0, settleTime := 0, settleSince := 0,
    dirDown := false }

end Sys2Proof.Machine
end

