-- ==== Sys2Proof/Machine/Operands.lean ====
section
/-! DEFINITION. How the payload of a request is read: the fields of each message (R171), the codes of
enumerated fields (Table 12-2), the ranges with their clamps, and the relations between fields. -/

namespace Sys2Proof.Machine

/-- A flag byte of a request: a byte other than 0 or 1 holds no code (R169). -/
def flagOf (n : Nat) : Option Bool :=
  if n = 0 then some false else if n = 1 then some true else none

/-- Changeover mode code (Table 12-2). Code 0, "none pending", is no mode of a request (R53). -/
def modeOf (n : Nat) : Option ChangeoverMode :=
  if n = 1 then some .now else if n = 2 then some .atBatchEnd else none

/-- Action code (Table 12-2). -/
def actionOf (n : Nat) : Option Action :=
  if n = 0 then some .pass else if n = 1 then some .reject else none

/-- Record policy code (Table 12-2). -/
def policyOf (n : Nat) : Option RecordPolicy :=
  if n = 0 then some .none else if n = 1 then some .record else if n = 2 then some .trace else none

/-- The final class of a number 1 to 13 (Table 8-4). -/
def classOf (n : Nat) : Option FinalClass :=
  match n with
  | 1 => some .noCap | 2 => some .headFault | 3 => some .interrupted | 4 => some .crossThread
  | 5 => some .overTorque | 6 => some .underTorque | 7 => some .angleOut | 8 => some .steamLow
  | 9 => some .bulge | 10 => some .unverified | 11 => some .dud | 12 => some .lowVacuum
  | 13 => some .good | _ => none

/-- The outcome of an outcome code 1 to 5 (Table 12-2). -/
def outcomeOf (n : Nat) : Option CycleOutcome :=
  match n with
  | 1 => some .seated | 2 => some .crossThread | 3 => some .noCap | 4 => some .overAngle
  | 5 => some .aborted | _ => none

/-- The head of a number 1 to 18. -/
def headOf (n : Nat) : Option Head := if h : 1 ≤ n ∧ n ≤ 18 then some ⟨n - 1, by omega⟩ else none

/-- An alert set of a request: a set with a bit above its last member is refused (R164, R169). -/
def alertSetOf (w : Nat) : Option AlertSet := if w < 8192 then some (bitsSet 13 w) else none

/-! ### Recipe records (R45, R46, Table 12-5) -/

/-- The recipe record carried in 46 bytes (Table 12-5), before any clamp. -/
def recipeOfBytes (p : List Byte) : Recipe :=
  { id := field p 0 2, name := (p.drop 2).take 12, liftHeight := field p 14 2
    stepPeriod := field p 16 1, torqueSet := field p 17 2, torqueLo := field p 19 2
    torqueHi := field p 21 2, angleLo := field p 23 2, angleHi := field p 25 2
    angleMax := field p 27 2, steamDwell := field p 29 2, attemptsLimit := field p 31 1
    dFull := field p 32 2, tau := field p 34 2, dudFraction := field p 36 1
    bulgeLimit := field p 37 2, gain := field p 39 1, tRef := field p 40 2, tAmb := field p 42 2
    tMin := field p 44 2 }

/-- The first stage of R46: each numeric field moved into its range of Table 3-1. -/
def clampRecipe (r : Recipe) : Recipe :=
  { id := clampTo 0 65535 r.id, name := r.name, liftHeight := clampTo 0 15000 r.liftHeight
    stepPeriod := clampTo 5 200 r.stepPeriod, torqueSet := clampTo 50 1000 r.torqueSet
    torqueLo := clampTo 0 1200 r.torqueLo, torqueHi := clampTo 0 1200 r.torqueHi
    angleLo := clampTo 0 3600 r.angleLo, angleHi := clampTo 0 3600 r.angleHi
    angleMax := clampTo 0 3600 r.angleMax, steamDwell := clampTo 0 800 r.steamDwell
    attemptsLimit := clampTo 1 4 r.attemptsLimit, dFull := clampTo 0 2000 r.dFull
    tau := clampTo 1000 60000 r.tau, dudFraction := clampTo 0 100 r.dudFraction
    bulgeLimit := clampTo 0 2000 r.bulgeLimit, gain := clampTo 1 255 r.gain
    tRef := clampTo 300 1000 r.tRef, tAmb := clampTo 0 400 r.tAmb, tMin := clampTo 0 1000 r.tMin }

/-- The place, from 1, of the first relation that does not hold, or none when all hold. -/
def firstBroken (n : Nat) : List Bool → Option Nat
  | [] => none
  | b :: bs => if b then firstBroken (n + 1) bs else some n

/-- The number of the first broken relation of Table 3-2 (R46). -/
def brokenRelation (r : Recipe) : Option Nat :=
  firstBroken 1 [r.torqueLo ≤ r.torqueSet, r.torqueSet ≤ r.torqueHi, r.angleLo ≤ r.angleHi,
    r.angleHi ≤ r.angleMax, r.tAmb + 50 ≤ r.tRef]

/-! ### Machine Geometry (R3, R4) -/

/-- The five offsets of SET GEOMETRY (R171). -/
def geometryOfBytes (p : List Byte) : Geometry :=
  { a := field p 0 1, e := field p 1 1, x := field p 2 1, k := field p 3 1, j := field p 4 1 }

/-- The order number of the first broken relation of Table 1-9 (R4). -/
def brokenGeometry (g : Geometry) : Option Nat :=
  firstBroken 1 [1 ≤ g.a, g.a < g.e, decide (g.e < g.x ∧ g.x ≤ 17),
    decide (g.x < g.k ∧ g.k ≤ g.x + 200), decide (g.k < g.j ∧ g.j ≤ g.k + 32)]

/-! ### Line parameters (R161, Table 11-3) -/

/-- The 15 bytes of SET LINE PARAMETERS (R171). -/
def paramsOfBytes (p : List Byte) : LineParams :=
  { unitAddress := field p 0 1, linkTimeout := field p 1 2, failLimit := field p 3 1
    minHeads := field p 4 1, zeroWindow := field p 5 2, staleLimit := field p 7 2
    replyWindow := field p 9 2, homePeriod := field p 11 1, settleTime := field p 12 2
    confirmWindow := field p 14 1 }

/-- Every field moved into its range of Table 11-3. A link timeout of 0 is off and stays 0 (R161). -/
def clampParams (q : LineParams) : LineParams :=
  { unitAddress := clampTo 1 30 q.unitAddress
    linkTimeout := if q.linkTimeout = 0 then 0 else clampTo 100 10000 q.linkTimeout
    failLimit := clampTo 0 20 q.failLimit, minHeads := clampTo 1 18 q.minHeads
    zeroWindow := clampTo 0 1023 q.zeroWindow, staleLimit := clampTo 18 4000 q.staleLimit
    replyWindow := clampTo 100 2000 q.replyWindow, homePeriod := clampTo 5 200 q.homePeriod
    settleTime := clampTo 0 1000 q.settleTime, confirmWindow := clampTo 1 8 q.confirmWindow }

/-! ### Lists (R66, R136) -/

/-- The pairs of SET HEAD SERVICE after the count byte: head number and state code (R171). -/
def pairsOf : List Byte → List (Nat × Nat)
  | h :: st :: rest => (h.toNat, st.toNat) :: pairsOf rest
  | _ => []

/-- One list entry of SET DISPOSITION as received: class, action, policy, alert flag (R171). -/
structure RawDisp where
  cls : Nat
  action : Nat
  policy : Nat
  alert : Nat
  deriving DecidableEq, Repr

/-- The list entries of SET DISPOSITION after the count byte (R171). -/
def rawDispsOf : List Byte → List RawDisp
  | c :: a :: q :: f :: rest => ⟨c.toNat, a.toNat, q.toNat, f.toNat⟩ :: rawDispsOf rest
  | _ => []

/-- A list payload fits: its count lies in 1 to `top` and its length is 1 + `size` × count (R66, R136). -/
def listFits (top size : Nat) (p : List Byte) : Bool :=
  1 ≤ field p 0 1 && field p 0 1 ≤ top && p.length == 1 + size * field p 0 1 && p.length != 0

end Sys2Proof.Machine
end

