-- ==== Sys2Proof/Config.lean ====
section
/-! DEFINITION. What the spec leaves open, as constants with no body: nothing can be proved of their
values, so a claim that holds here holds for every value. -/

namespace Sys2Proof.Config

open Sys2Proof.Machine

/-- The hardware issue number in the reply of QUERY UNIT (R159). The spec gives no value (log entry 10). -/
opaque hardwareIssue : Byte

/-- What a Trace Store slot that has not been written since the reset numbered `epoch` holds: "the
contents of the slots have no meaning" (R149; log entry 11). -/
opaque unwrittenSample (epoch slot : Nat) : Sample

/-- The values read from a bank that holds no recipe record. Every entry's bank holds one (R47), so no
reachable state reads this (log entry 12). -/
opaque missingRecipe : Recipe

end Sys2Proof.Config
end

