-- ==== Sys2Proof/Machine/Retained.lean ====
section
/-! DEFINITION. The bytes of the retained settings, the image of the Retained Store with its CRC-16, and
which settings a start-up takes from it (R165, R166, R168, R170). -/

namespace Sys2Proof.Machine

/-! ### Codes and layouts of the settings (R169, R171) -/

/-- A flag as the number 0 or 1 (R169). -/
def bit (b : Bool) : Nat := if b then 1 else 0

/-- Service state codes (Table 12-2). -/
def serviceCode : Service → Nat
  | .inService => 0 | .markedOut _ => 1

/-- Mark reason codes (Table 12-2). -/
def reasonCode : Service → Nat
  | .inService => 0 | .markedOut .host => 1 | .markedOut .failures => 2 | .markedOut .link => 3

/-- Action codes (Table 12-2). -/
def Action.code : Action → Nat
  | .pass => 0 | .reject => 1

/-- Record policy codes (Table 12-2). -/
def RecordPolicy.code : RecordPolicy → Nat
  | .none => 0 | .record => 1 | .trace => 2

/-- The 15 bytes of the line parameters (R171). -/
def paramsBytes (q : LineParams) : List Byte :=
  beBytes 1 q.unitAddress ++ beBytes 2 q.linkTimeout ++ beBytes 1 q.failLimit ++ beBytes 1 q.minHeads
    ++ beBytes 2 q.zeroWindow ++ beBytes 2 q.staleLimit ++ beBytes 2 q.replyWindow
    ++ beBytes 1 q.homePeriod ++ beBytes 2 q.settleTime ++ beBytes 1 q.confirmWindow

/-- The five bytes of the Machine Geometry (R171). -/
def geometryBytes (g : Geometry) : List Byte :=
  beBytes 1 g.a ++ beBytes 1 g.e ++ beBytes 1 g.x ++ beBytes 1 g.k ++ beBytes 1 g.j

/-- The 39 bytes of the Disposition Table (R136, R171). -/
def dispositionBytes (t : Vector DispEntry 13) : List Byte :=
  t.toList.flatMap (fun e => beBytes 1 e.action.code ++ beBytes 1 e.policy.code ++ beBytes 1 (bit e.alert))

/-! ### The image and its CRC (R165, R166, R170) -/

/-- The bytes of an image: the settings of Table 11-4 in its order, each as its message carries it. The
order is the model's choice (log entry 13). -/
def imageBytes (i : Image) : List Byte :=
  paramsBytes i.params ++ geometryBytes i.geometry ++ dispositionBytes i.dispTable
    ++ i.service.toList.flatMap (fun v => beBytes 1 (serviceCode v) ++ beBytes 1 (reasonCode v))
    ++ beBytes 2 (setBits i.alertMask) ++ beBytes 2 i.z0 ++ beBytes 1 (bit i.traceAll)

/-- The CRC-16 over the whole image, with the generator and start value of the line frames (R165, R170). -/
def imageCrc (i : Image) : BitVec 16 := crc16 (imageBytes i)

/-- An image with its CRC-16, as a commit takes it and its write leaves it (R166). -/
def withCrc (i : Image) : StoredImage := ⟨i, imageCrc i⟩

/-- What a write of `i` that was cut short leaves: an image whose CRC does not match (R166). The rule says
no more of it, and nothing reads more (log entry 14). -/
def cutShort (i : Image) : StoredImage := ⟨i, ~~~ imageCrc i⟩

/-- The CRC check of start-up (R168, step 1). -/
def crcMatches (t : StoredImage) : Bool := t.crc == imageCrc t.image

/-- The settings start-up takes: the image of the store when its CRC matches, else the factory values
(R168, step 1). -/
def startImage (t : StoredImage) : Image := if crcMatches t then t.image else factoryImage

end Sys2Proof.Machine
end

