-- ==== Sys2Proof/Machine/State.lean ====
section
/-! DEFINITION. The state of the Belscap 418 as plain data, one field per block of Table 1-1 and one
per setting that a block shares, the queue of waiting commands, and the state after reset. -/

namespace Sys2Proof.Machine

/-- Faults. The spec lets no command stop the part: a fault cause is a run state of the part (R33), so
no fault is ever raised. -/
inductive Fault where
  deriving DecidableEq, Repr

/-- Refusals. -/
inductive Refusal where
  /-- Raised by the arm of `exec` of a command that has no meaning yet. No arm raises it. Safe. -/
  | notModelled (mnemonic : String)
  deriving DecidableEq, Repr

structure State where
  power : PowerState
  resetCause : ResetCause
  /-- the last start-up found the Retained Store defaulted (R160) -/
  storeDefaulted : Bool
  /-- millisecond time base (R1) -/
  timeBase : Word32
  inputs : Inputs
  port : LinePort
  alerts : Alerts
  params : LineParams
  /-- the Retained Store: one image and its CRC-16 (R165) -/
  store : StoredImage
  /-- what is being written while the commit is WRITING, or none while it is IDLE (R166) -/
  commit : Option StoredImage
  run : RunControl
  gate : InfeedGate
  track : JarTrack
  recipes : RecipeStore
  heads : Vector HeadRecord 18
  link : HeadLink
  capping : Vector Binding 18
  lift : Lift
  check : CheckStation
  reject : RejectGate
  records : RecordQueue
  traces : TraceStore
  capture : Capture
  dispTable : Vector DispEntry 13
  classCounts : Vector Nat 13
  /-- commands that wait, first in, first out -/
  pending : List Instr
  deriving DecidableEq, Repr

/-- The machine after power-on and start-up with a Retained Store that was never committed (R168;
log entries 1, 2, 34 name the values the spec does not give). -/
def State.reset : State :=
  { power := .running
    resetCause := .powerOn
    storeDefaulted := true
    timeBase := 0
    inputs := ⟨false, false, 0, 0, false, false, false⟩
    port := { rxBuf := [], reply := none, lpDe := false, lpTxd := [], baudHigh := false
              timer := ⟨.running, 2000⟩ }
    alerts := { latch := (noMembers 13).set (alertIx .settingsDefaulted) true
                mask := allMembers 13
                pin := true }
    params := factoryParams
    store := cutShort factoryImage
    commit := none
    run := { state := .idle, phase := .none, hold := noMembers 4, causes := noMembers 7
             lstop := false, batchNumber := 0, batchSize := 0, admitted := 0, batchEnded := true
             request := none }
    gate := { decision := .closed, gateOut := false, gapCount := 0, emptyPockets := 0 }
    track := { entries := [], pitchCount := 0, pocket := 0, synced := false, nextJar := 1
               activeCount := 0, retiringCount := 0, geometry := factoryGeometry }
    recipes := { staged := none, active := none, retiring := none, firstMark := false }
    heads := Vector.replicate 18 (resetHead .inService)
    link := { pointer := 0, lines := Vector.replicate 18 resetHeadLine
              exchange := none, hlDe := false, hlTxd := [] }
    capping := Vector.replicate 18 freeBinding
    lift := resetLift
    check := { z := 2048, sinceZero := 0, staleGiven := false, disturbances := 0, z0 := 2048
               testOpen := false }
    reject := { confirms := [], rejOut := false, since := 0, passed := 0, rejected := 0
                missing := 0, purged := 0 }
    records := { queue := [], overruns := 0 }
    traces := { slots := [], writeCount := 0, protectedSegs := [], modeAll := true, epoch := 0 }
    capture := { state := .off, trigger := 0, post := 0, remaining := 0 }
    dispTable := factoryDispTable
    classCounts := Vector.replicate 13 0
    pending := [] }

end Sys2Proof.Machine
end

