-- ==== Sys2Proof/Machine/Ops.lean ====
section
/-! DEFINITION. The operations every family of commands shares: the Alert Latch, the standing decision,
the hold-reason set, fault causes, command slots, lift moves, the swap, service states of heads, and
the departure of a jar. Each is a total function on State that leaves the queue alone. -/

namespace Sys2Proof.Machine

/-! ### Alert Latch and ALERT (R163, R164) -/

/-- ALERT takes its value from the latch and the mask (R163). -/
def driveAlert (s : State) : State :=
  { s with alerts.pin := meets s.alerts.latch s.alerts.mask }

/-- An alert kind is latched (R163). -/
def latchAlert (k : AlertKind) (s : State) : State :=
  driveAlert { s with alerts.latch := s.alerts.latch.set (alertIx k) true }

/-! ### Reading the Track -/

/-- The Track is frozen while ENCODER_SLIP or REVERSE_MOTION is among the fault causes (R20). -/
def frozen (s : State) : Bool :=
  s.run.causes[causeIx .encoderSlip] || s.run.causes[causeIx .reverseMotion]

/-- The tracking states (section 2.1). -/
def tracking : RunState → Bool
  | .run | .hold | .drain | .change => true
  | .idle | .prepare | .fault => false

/-- The entry at a position. No two entries share one (R9). -/
def entryAt (pos : Nat) (s : State) : Option Entry :=
  s.track.entries.find? (fun e => e.position == pos)

/-- The entry of a jar number. -/
def entryOf (jar : Word32) (s : State) : Option Entry :=
  s.track.entries.find? (fun e => e.jar == jar)

/-- The turret entry of pocket `p`: its entry at a position below x (Table 4-2, note 1). -/
def turretEntry (p : Head) (s : State) : Option Entry :=
  s.track.entries.find? (fun e => e.pocket == p && decide (e.position < s.track.geometry.x))

/-- A change of the entry of one jar. -/
def modEntry (jar : Word32) (f : Entry → Entry) (s : State) : State :=
  { s with track.entries := s.track.entries.map (fun e => if e.jar == jar then f e else e) }

/-- A flag is added to the entry of a jar (R12). -/
def addFlag (jar : Word32) (k : JarFlag) (s : State) : State :=
  modEntry jar (fun e => { e with flags := e.flags.add k }) s

/-- The recipe a jar takes its values from: the one in the bank its entry references (R10, R47). -/
def recipeOf (b : BankRef) (s : State) : Recipe :=
  match b with
  | .active => s.recipes.active.getD Config.missingRecipe
  | .retiring => s.recipes.retiring.getD Config.missingRecipe

/-! ### The standing decision (R38, R39, R40) -/

/-- The decision for the coming pocket (R38). -/
def decideGate (s : State) : Decision :=
  if s.run.state == .run && !s.run.batchEnded
      && s.heads[s.track.pocket + 1].service == .inService then
    if s.gate.gapCount == 0 then .admitJar else .gap
  else .closed

/-- The standing decision is remade and GATE_OUT follows it (R39, R40). -/
def remakeDecision (s : State) : State :=
  { s with gate.decision := decideGate s, gate.gateOut := decideGate s == .admitJar }

/-! ### Run states and the hold-reason set (R28, R30, R31) -/

/-- The run state changes. LSTOP is asserted exactly in FAULT (R35), the change phase is NONE outside
CHANGE (R24), and the decision is remade (R39). -/
def setRunState (st : RunState) (s : State) : State :=
  remakeDecision { s with run.state := st, run.lstop := st == .fault
                          run.phase := if st == .change then s.run.phase else .none }

/-- An entry to HOLD: HOLD_ENTERED is latched (R28). -/
def enterHold (s : State) : State := latchAlert .holdEntered (setRunState .hold s)

/-- A rule makes the state RUN: HOLD instead while the hold-reason set is not empty (R28). -/
def enterRunOrHold (s : State) : State :=
  if isEmptySet s.run.hold then setRunState .run s else enterHold s

/-- A hold reason is added (`b`) or removed, and the change is handed to R28 (R31). -/
def setHold (r : HoldReason) (b : Bool) (s : State) : State :=
  let t := { s with run.hold := s.run.hold.set (holdIx r) b }
  if s.run.state == .run && isEmptySet s.run.hold && !isEmptySet t.run.hold then enterHold t
  else if s.run.state == .hold && !isEmptySet s.run.hold && isEmptySet t.run.hold then
    setRunState .run t
  else t

/-- An entry to IDLE: the gap count becomes 0, a pending request is dropped, the phase is NONE (R30). -/
def enterIdle (s : State) : State :=
  setRunState .idle { s with run.request := none, gate.gapCount := 0 }

/-- DRAIN ends when the Track is empty (R30). -/
def drainEnd (s : State) : State :=
  if s.run.state == .drain && s.track.entries.isEmpty then enterIdle s else s

/-- An entry to DRAIN. With the Track already empty it becomes IDLE at once (R30). -/
def enterDrain (s : State) : State := drainEnd (setRunState .drain s)

/-- The batch-ended flag is set, and the decision is remade (R39). -/
def endBatchFlag (s : State) : State := remakeDecision { s with run.batchEnded := true }

/-! ### Command slots (R84, R86) -/

/-- A change of what the Head Link holds for one head. -/
def modLine (p : Head) (f : HeadLine → HeadLine) (s : State) : State :=
  { s with link.lines := s.link.lines.set p (f s.link.lines[p]) }

/-- An open curve fetch is displaced: it is closed and its jar gets TRACE_LOST (R90, R101). -/
def displaceFetch (p : Head) (s : State) : State :=
  match s.link.lines[p].fetch with
  | none => s
  | some f => addFlag f.jar .traceLost (modLine p (fun l => { l with fetch := none }) s)

/-- An ABORT is placed (Table 5-3). -/
def placeAbort (p : Head) (s : State) : State :=
  match s.link.lines[p].slot with
  | .abort => s
  | .curve => displaceFetch p (modLine p (fun l => { l with slot := .abort }) s)
  | .empty | .apply _ => modLine p (fun l => { l with slot := .abort }) s

/-- Whether the slot of a head holds ABORT, which no later placement displaces (R84). -/
def slotHoldsAbort (p : Head) (s : State) : Bool := s.link.lines[p].slot == .abort

/-- An APPLY is placed (Table 5-3): the tag rises whatever the slot does with it (R86), an open fetch is
displaced (R90), and the APPLY enters the slot unless the slot holds ABORT. -/
def placeApply (p : Head) (attempt torque angle dwell : Nat) (s : State) : State :=
  let tag := s.link.lines[p].tag + 1
  let t := displaceFetch p (modLine p (fun l => { l with tag := tag }) s)
  if slotHoldsAbort p s then t
  else modLine p (fun l => { l with slot := .apply ⟨tag, attempt, torque, angle, dwell⟩ }) t

/-- A CURVE is placed for the curve of `jar` (Table 5-3): placed, it opens the fetch (R89); refused by
an APPLY or ABORT, the fetch is displaced (R90). -/
def placeCurve (p : Head) (jar : Word32) (s : State) : State :=
  match s.link.lines[p].slot with
  | .empty =>
    modLine p (fun l => { l with slot := .curve, fetch := some ⟨jar, l.tag, .wanted⟩ }) s
  | .curve => s
  | .apply _ | .abort => displaceFetch p (addFlag jar .traceLost s)

/-- The CURVE of an open fetch is placed again (R89). -/
def placeCurveAgain (p : Head) (s : State) : State :=
  match s.link.lines[p].slot with
  | .empty | .curve =>
    modLine p (fun l => { l with slot := .curve,
                                 fetch := l.fetch.map (fun f => { f with stage := .wanted }) }) s
  | .apply _ | .abort => displaceFetch p s

/-! ### Fault causes (R33, R34, R35) -/

/-- The writes of the Run Controller to one entry on entering FAULT (R34, steps 2 and 3). -/
def faultMark (x : Nat) (e : Entry) : Entry :=
  { e with flags := e.flags.add .afterFault
           capClass := if e.position < x && e.capClass.isNone then some .interrupted
                       else e.capClass }

/-- FAULT is entered from another state (R34). -/
def enterFault (s : State) : State :=
  let x := s.track.geometry.x
  let stopped := s.track.entries.filter (fun e => decide (e.position < x) && e.capClass.isNone)
  let t := { s with run.request := none, run.batchEnded := true
                    track.entries := s.track.entries.map (faultMark x) }
  stopped.foldl (fun u e => placeAbort e.pocket u) (setRunState .fault t)

/-- A fault cause is raised (R33). -/
def raiseCause (c : Cause) (s : State) : State :=
  let t := latchAlert .faultEntered { s with run.causes := s.run.causes.set (causeIx c) true }
  if t.run.state == .fault then t else enterFault t

/-! ### The swap and the completed changeover (R19, R50, R57) -/

/-- A swap may be made only while STAGED holds a record and RETIRING is empty (R50, R18). -/
def swapAllowed (s : State) : Bool :=
  s.recipes.staged.isSome && s.recipes.retiring.isNone && s.track.retiringCount == 0

/-- The swap (R50) with its effect on entries and counts (R19). -/
def doSwap (s : State) : State :=
  let t :=
    if 0 < s.track.activeCount then
      { s with recipes.retiring := s.recipes.active
               track.entries := s.track.entries.map (fun e => { e with bank := .retiring })
               track.retiringCount := s.track.activeCount
               track.activeCount := 0 }
    else s
  { t with recipes.active := s.recipes.staged, recipes.staged := none, recipes.firstMark := true }

/-- A changeover is completed (R57). A drained changeover is completed in CHANGE (R59), and a flying one
leaves the run state as it is. -/
def completeChangeover (r : Changeover) (s : State) : State :=
  let t := latchAlert .changeoverDone
    { s with run.batchNumber := r.nextNumber, run.batchSize := r.nextSize, run.admitted := 0
             run.batchEnded := false, run.request := none }
  if r.kind == .drained && t.run.state == .change then enterRunOrHold t else remakeDecision t

/-- The swap of a pending request, and the completion of its changeover. -/
def swapAndComplete (r : Changeover) (s : State) : State := completeChangeover r (doSwap s)

/-! ### Lift moves (R111, R112, R113, R115) -/

/-- LIFT_FLT acts on the Lift Controller (R113). -/
def liftFault (s : State) : State :=
  let t := { s with lift.state := .failed, lift.known := false, lift.target := none
                    lift.requester := none, lift.settling := false }
  if t.run.state == .idle then latchAlert .liftFailed t else raiseCause .liftFault t

/-- LIFT_HOME is found: position 0, and the settle wait begins (R111, step 3). -/
def homeFound (s : State) : State :=
  { s with lift.position := 0, lift.known := true, lift.settling := true
           lift.settleSince := s.timeBase }

/-- Steps 1 and 2 of a home at one reading of LIFT_HOME, below the step limit (R111): found, or one step
upward. -/
def homeReading (active : Bool) (s : State) : State :=
  if active then homeFound s else { s with lift.stepCount := s.lift.stepCount + 1 }

/-- A home is started (R111): with LIFT_FLT asserted R113 is applied at once, before the first step; else
LIFT_HOME is read and, inactive, the first step is made at once. -/
def startHome (r : Requester) (s : State) : State :=
  let t := { s with lift.state := .homing, lift.known := false, lift.stepCount := 0
                    lift.target := none, lift.requester := some r, lift.settling := false
                    lift.period := s.params.homePeriod, lift.settleTime := s.params.settleTime
                    lift.dirDown := false }
  if s.inputs.liftFlt then liftFault t
  else homeReading s.inputs.liftHome t

/-- A home fails (R111). -/
def homeFails (s : State) : State :=
  let t := { s with lift.state := .failed, lift.known := false, lift.requester := none }
  match s.run.state with
  | .prepare | .change => raiseCause .homeFail t
  | .idle | .run | .hold | .drain | .fault => latchAlert .liftFailed t

/-- A seek of the Run Controller ended READY (R115): PREPARE ends (R26), or the LIFT phase goes on to
SWAP, where the swap is made at once (R59), as R50 allows it. -/
def seekEnded (s : State) : State :=
  match s.run.state with
  | .prepare => enterRunOrHold s
  | .change =>
    match s.run.phase, s.run.request with
    | .lift, some r =>
      if swapAllowed s then swapAndComplete r { s with run.phase := .swap }
      else { s with run.phase := .swap }
    | _, _ => s
  | _ => s

/-- A seek is started from READY (R112). With no step to make it ends at once. -/
def startSeek (target period : Nat) (s : State) : State :=
  let t := { s with lift.stepCount := 0, lift.period := period
                    lift.settleTime := s.params.settleTime, lift.settling := false }
  if target = s.lift.position then
    seekEnded { t with lift.state := .ready, lift.target := none, lift.requester := none }
  else
    { t with lift.state := .seeking, lift.target := some target, lift.requester := some .run
             lift.dirDown := decide (s.lift.position < target) }

/-- The seek the Run Controller asks for next: to the ACTIVE height in PREPARE, to the STAGED height in
the LIFT phase (R26, R59, R115). -/
def seekForRun (s : State) : State :=
  match s.run.state with
  | .prepare =>
    match s.recipes.active with
    | some r => startSeek r.liftHeight r.stepPeriod s
    | none => s
  | .change =>
    match s.run.phase, s.recipes.staged with
    | .lift, some r => startSeek r.liftHeight r.stepPeriod s
    | _, _ => s
  | _ => s

/-- PREPARE with a lift that already stands at the ACTIVE height (R26). -/
def atActiveHeight (s : State) : Bool :=
  s.run.state == .prepare && s.recipes.active.map (·.liftHeight) == some s.lift.position

/-- The lift sequence on entering PREPARE (R26) or the LIFT phase (R59). At the ACTIVE height PREPARE ends
at once, and no seek is asked for. -/
def liftForRun (s : State) : State :=
  match s.lift.state with
  | .ready => if atActiveHeight s then enterRunOrHold s else seekForRun s
  | .unknown | .failed => startHome .run s
  | .homing | .seeking => s

/-- In WAIT_TURRET, with no entry below x and RETIRING empty, the phase becomes LIFT (R58, R59). -/
def waitTurretEnd (s : State) : State :=
  if s.run.state == .change && s.run.phase == .waitTurret && s.recipes.retiring.isNone
      && s.track.entries.all (fun e => decide (s.track.geometry.x ≤ e.position)) then
    liftForRun { s with run.phase := .lift }
  else s

/-- The state becomes CHANGE with phase WAIT_TURRET, whose conditions are tested at once (R55, R56, R58). -/
def enterChange (s : State) : State :=
  waitTurretEnd (setRunState .change { s with run.phase := .waitTurret })

/-! ### Batch end and RETIRING (R29, R51, R56) -/

/-- A request at stage AT_RETIRE makes its swap as soon as RETIRING is empty (R56). -/
def retireSwap (s : State) : State :=
  match s.run.request with
  | some r => if r.stage == .atRetire && swapAllowed s then swapAndComplete r s else s
  | none => s

/-- The states in which a run admits or waits to admit. -/
def runOrHold (s : State) : Bool := s.run.state == .run || s.run.state == .hold

/-- A batch ends (R29), and with a request pending it is handed to the changeover (R56). The run state
moves only from RUN or HOLD (Table 2-2; log entry 20). -/
def batchEnd (s : State) : State :=
  let t := latchAlert .batchDone (endBatchFlag s)
  match t.run.request with
  | none => if runOrHold t then enterDrain t else t
  | some r =>
    match r.stage, r.kind with
    | .waiting, .drained =>
      let u := { t with run.request := some { r with stage := .inChange } }
      if runOrHold t then enterChange u else u
    | .waiting, .flying | .atAdmission, _ =>
      retireSwap { t with run.request := some { r with stage := .atRetire } }
    | .inChange, _ | .atRetire, _ => t

/-- RETIRING is emptied, and a request at stage AT_RETIRE makes its swap (R51). -/
def retiringEmptied (s : State) : State :=
  retireSwap { s with recipes.retiring := none }

/-! ### Service states of heads (R65, R68 to R71, R82, R83) -/

/-- A change of one Head Record. -/
def modHead (p : Head) (f : HeadRecord → HeadRecord) (s : State) : State :=
  { s with heads := s.heads.set p (f s.heads[p]) }

/-- The in-service count (R65). -/
def inServiceCount (hs : Vector HeadRecord 18) : Nat :=
  (hs.toList.filter (fun h => h.service == .inService)).length

/-- FEW_HEADS follows the in-service count and M (R65, R75). -/
def updateFewHeads (s : State) : State :=
  setHold .fewHeads (decide (inServiceCount s.heads < s.params.minHeads)) s

/-- Whether the head holds a jar in the turret (Table 4-2, note 1). -/
def holdsTurretJar (p : Head) (s : State) : Bool := (turretEntry p s).isSome

/-- Membership in the scan set (R82). -/
def inScanSet (p : Head) (s : State) : Bool :=
  match s.heads[p].service with
  | .inService => true
  | .markedOut .link => false
  | .markedOut .host | .markedOut .failures => holdsTurretJar p s

/-- Head `p` leaves the scan set (R83): its slot is emptied, its fetch is displaced and its unconfirmed
APPLY is removed. The tag is kept. -/
def leaveScan (p : Head) (s : State) : State :=
  displaceFetch p (modLine p (fun l => { l with slot := .empty, unconfirmed := none }) s)

/-- What a changed service state or reason of head `p` does to the scan set (R83) and to the jar of the
head in the turret (R71). -/
def serviceChanged (p : Head) (s : State) : State :=
  match s.heads[p].service with
  | .inService => s
  | .markedOut .link =>
    match turretEntry p s with
    | some e =>
      modEntry e.jar (fun e => { e with capClass := e.capClass.or (some .headFault) })
        (leaveScan p s)
    | none => leaveScan p s
  | .markedOut .host | .markedOut .failures =>
    if holdsTurretJar p s then s else leaveScan p s

/-- Head `p` is marked out by the Head Map (R68, R69), with the effects of R70. -/
def markOut (p : Head) (r : MarkReason) (s : State) : State :=
  let t := latchAlert .headMarked (modHead p (fun h => { h with service := .markedOut r }) s)
  remakeDecision (updateFewHeads (serviceChanged p t))

/-- The comparison with F after a rise of the failure count, once for each rise (R68, R75): a head with F
or more failures is marked out while it is IN_SERVICE. Without an open rise nothing is compared. -/
def autoMarkOut (p : Head) (s : State) : State :=
  if s.heads[p].riseOpen then
    let t := modHead p (fun h => { h with riseOpen := false }) s
    if s.params.failLimit != 0 && decide (s.params.failLimit ≤ s.heads[p].failures)
        && s.heads[p].service == .inService then markOut p .failures t
    else t
  else s

/-- The test of the no-reply count after a failed exchange, once for each (R69): at 3 the head is marked out
with reason LINK. Without an open failure nothing is tested. -/
def linkMarkOut (p : Head) (s : State) : State :=
  if s.heads[p].silenceOpen then
    let t := modHead p (fun h => { h with silenceOpen := false }) s
    if s.heads[p].noReplies == 3 && s.heads[p].service != .markedOut .link then markOut p .link t
    else t
  else s

/-! ### Records and departures (R17, R18, R142, R146, R147) -/

/-- Places of the Record Queue (R145). -/
def queueCapacity : Nat := 512

/-- A record is appended; a full queue discards its oldest (R147). -/
def appendRecord (r : JarRecord) (s : State) : State :=
  let t :=
    if queueCapacity ≤ s.records.queue.length then
      latchAlert .queueOverrun
        { s with records.queue := s.records.queue.drop 1
                 records.overruns := satInc 65535 s.records.overruns }
    else s
  { t with records.queue := t.records.queue ++ [r] }

/-- The final class a capping class stands as: none for CAPPED_OK (R17, R128). -/
def CapClass.final : CapClass → Option FinalClass
  | .cappedOk => none
  | .noCap => some .noCap | .headFault => some .headFault | .interrupted => some .interrupted
  | .crossThread => some .crossThread | .overTorque => some .overTorque
  | .underTorque => some .underTorque | .angleOut => some .angleOut | .steamLow => some .steamLow

/-- The final class a MISSING or PURGED departure fills in when it is absent (R17, step 2). -/
def earlyFinal (e : Entry) : Option FinalClass := e.finalClass.or (e.capClass.bind CapClass.final)

/-- The Jar Record of an entry, with or without its trace reference (R146). -/
def recordOf (withTrace : Bool) (disp : Disposition) (e : Entry) : JarRecord :=
  { jar := e.jar, batch := e.batch, recipeId := e.recipeId, head := e.pocket
    finalClass := e.finalClass, disposition := disp, flags := e.flags
    admissionPitch := e.admissionPitch, admissionTime := e.admissionTime, sealTime := e.sealTime
    attempts := e.attempts, lastOutcome := e.lastOutcome, peakTorque := e.peakTorque
    seatAngle := e.seatAngle, fillTemp := e.fillTemp, d := e.d, dReq := e.dReq, dt := e.dt
    trace := if withTrace then e.trace else none }

/-- Which record, if any, a departure appends (the table of R146). -/
def recordFor (disp : Disposition) (e : Entry) : Option JarRecord :=
  match disp with
  | .passed | .rejected =>
    match e.policy with
    | some .record => some (recordOf false disp e)
    | some .trace => some (recordOf true disp e)
    | some .none | none => none
  | .missing | .purged => some (recordOf true disp e)

/-- The disposition counters rise at a departure (R142). -/
def countDisposition (disp : Disposition) (g : RejectGate) : RejectGate :=
  match disp with
  | .passed => { g with passed := satInc max32 g.passed }
  | .rejected => { g with rejected := satInc max32 g.rejected }
  | .missing => { g with missing := satInc max32 g.missing }
  | .purged => { g with purged := satInc max32 g.purged }

/-- The class counter of a final class rises; no class adds to none (R142). -/
def countClass (c : Option FinalClass) (v : Vector Nat 13) : Vector Nat 13 :=
  match c with
  | some c => v.set (classIx c) (satInc max32 v[classIx c])
  | none => v

/-- The entry as it departs: its disposition, and for an early departure its final class (R17, steps 1
and 2). -/
def departing (disp : Disposition) (e : Entry) : Entry :=
  { e with disposition := some disp
           finalClass := match disp with
             | .missing | .purged => earlyFinal e
             | .passed | .rejected => e.finalClass }

/-- The entry is removed and the count of its bank falls by one (R17, steps 3 and 4; R18). Its segment,
if any, is no longer protected (R150). -/
def removeEntry (e : Entry) (s : State) : State :=
  let t := { s with
    track.entries := s.track.entries.filter (fun f => f.position != e.position)
    traces.protectedSegs := s.traces.protectedSegs.filter (fun g => g.jar != e.jar) }
  match e.bank with
  | .active => { t with track.activeCount := s.track.activeCount - 1 }
  | .retiring => { t with track.retiringCount := s.track.retiringCount - 1 }

/-- The departed entry is handed to Records and Traces (R17, step 5; R142). -/
def handToRecords (disp : Disposition) (e : Entry) (s : State) : State :=
  let t := match recordFor disp e with
    | some r => appendRecord r s
    | none => s
  { t with reject := countDisposition disp t.reject, classCounts := countClass e.finalClass t.classCounts }

/-- The entry leaves the Track. A RETIRING count lowered from 1 to 0 empties RETIRING at once (R18, R51). -/
def leaveTrack (e : Entry) (s : State) : State :=
  if e.bank == .retiring && s.track.retiringCount == 1 then retiringEmptied (removeEntry e s)
  else removeEntry e s

/-- A departure from the Track (R17), with what follows it at once: the WAIT_TURRET test (R58) and the
end of DRAIN (R30). -/
def depart (disp : Disposition) (e : Entry) (s : State) : State :=
  drainEnd (waitTurretEnd (handToRecords disp (departing disp e) (leaveTrack e s)))

end Sys2Proof.Machine
end

