-- ==== Sys2Proof/Machine/Port.lean ====
section
/-! DEFINITION. The Line Port: good frames and the link timer, dispatch and replies (R156 to R158,
R162), the receive buffer, and the commands of the line itself. -/

namespace Sys2Proof.Machine

/-- A change that the part makes only while it runs: from POWER_ON or RESET_INPUT to STARTUP it takes
nothing (R167, R168; log entry 22). -/
def whenRunning (f : State → State) (s : State) : State := if s.power == .running then f s else s

/-- A restart of the link timer: RUNNING for one link timeout, or STOPPED when the timeout is 0 (R162). The
expiry time a STOPPED timer holds is in no rule; 0 is the model's choice (log entry 35). -/
def restartTimer (s : State) : State :=
  if s.params.linkTimeout = 0 then { s with port.timer := ⟨.stopped, 0⟩ }
  else { s with port.timer := ⟨.running, s.timeBase + BitVec.ofNat 32 s.params.linkTimeout⟩ }

/-- A good frame (R156): no frame is in progress any more, the link timer is restarted, and after an
expiry LINK_SILENT is removed from the hold-reason set (R162). -/
def goodFrame (s : State) : State :=
  let t := restartTimer { s with port.rxBuf := [] }
  if s.port.timer.state == .expired then setHold .linkSilent false t else t

/-- What a block answers to a request: the state it leaves, the result and the reply payload. -/
structure Answer where
  state : State
  result : ResultCode
  payload : List Byte

/-- An answer with an empty payload. -/
def Answer.plain (r : ResultCode) (s : State) : Answer := ⟨s, r, []⟩

/-- BAD_VALUE that names a relation (R157). -/
def Answer.relation (n : Nat) (s : State) : Answer := ⟨s, .badValue, [BitVec.ofNat 8 n]⟩

/-- DONE, or DONE_CLAMPED after a value was moved into range (Table 11-1). -/
def doneOr (clamped : Bool) : ResultCode := if clamped then .doneClamped else .done

/-- The reply is built with the address under which the request was received (R157, R158). It is sent
later: see `startSending`. -/
def sendReply (addr : Nat) (code : Byte) (r : ResultCode) (payload : List Byte) (s : State) : State :=
  { s with port.reply := some ⟨addr, code, r, payload⟩ }

/-- A reply is being sent (R156). -/
def sending (s : State) : Bool := s.port.reply.isSome && s.port.lpDe

/-- The sending of a waiting reply begins, and LP_DE is asserted. Each reply starts within 5 ms of its
request (R157); that it starts at the next millisecond is the model's choice (log entry 15). -/
def startSending (s : State) : State := { s with port.lpDe := s.port.lpDe || s.port.reply.isSome }

/-- The unit address frames are judged against: until the reply to a request has been sent, the address
under which that request was received (R158). -/
def judgedAddress (s : State) : Nat :=
  match s.port.reply with
  | some r => r.address
  | none => s.params.unitAddress

/-- Bytes of a frame that the part takes from the line: it runs, and it is not sending a reply (R156). -/
def whenReceiving (f : State → State) (s : State) : State :=
  whenRunning (fun s => if sending s then s else f s) s

/-- A request frame to this unit (R156, R157): while a reply is being sent its bytes are discarded; else it
is a good frame; discarded without a reply while an earlier reply has not been sent; BAD_LENGTH when its
payload does not fit; otherwise handed to its block. -/
def serve (code : Byte) (fits : Bool) (block : State → Answer) (s : State) : State :=
  whenReceiving (fun s =>
    let t := goodFrame s
    if t.port.reply.isSome then t
    else if fits then
      let a := block t
      sendReply t.params.unitAddress code a.result a.payload a.state
    else sendReply t.params.unitAddress code .badLength [] t) s

/-- HOLD, RESUME or STOP RUN, to this unit or as a broadcast (R158): a broadcast with a payload is
ignored, a broadcast gets no reply, and one that completes while a reply waits is dispatched as any other. -/
def serveAt (addr : Address) (code : Byte) (payload : List Byte) (block : State → Answer)
    (s : State) : State :=
  match addr with
  | .unit => serve code payload.isEmpty block s
  | .broadcast =>
    whenReceiving (fun s =>
      if payload.isEmpty then (block (goodFrame s)).state else goodFrame s) s

/-- Whether a complete frame, from C5h to its second CRC byte, is good: its CRC matches and its address
is the unit's or 0 (R156, steps 4 and 5). -/
def frameIsGood (unit : Nat) (frame : List Byte) : Bool :=
  let len := field frame 3 1
  beValue (frame.drop (4 + len)) == (crc16 ((frame.drop 1).take (3 + len))).toNat
    && (field frame 1 1 == unit || field frame 1 1 == 0)

/-- One byte of a frame that is not served is received (R156, steps 1, 2, 4 and 5). -/
def rxByte (s : State) (b : Byte) : State :=
  let buf := s.port.rxBuf ++ [b]
  if s.port.rxBuf.isEmpty then
    if b == leadByte then { s with port.rxBuf := buf } else s
  else if buf.length == 4 && decide (240 < b.toNat) then { s with port.rxBuf := [] }
  else if 4 < buf.length && buf.length == 6 + field buf 3 1 then
    if frameIsGood (judgedAddress s) buf then goodFrame s else { s with port.rxBuf := [] }
  else { s with port.rxBuf := buf }

/-- FRAME_IGNORED (R156, R158): the bytes are received; a good frame among them restarts the link timer
and does nothing else. While a reply is being sent they are discarded. -/
def execFrameIgnored (bytes : List Byte) (s : State) : Host.Outcome State Fault Refusal :=
  .next (whenReceiving (fun s => bytes.foldl rxByte s) s)

/-- FRAME_GAP_TIMEOUT (R156, step 3): the partial frame is discarded. -/
def execFrameGapTimeout (s : State) : Host.Outcome State Fault Refusal :=
  .next (whenRunning (fun s => { s with port.rxBuf := [] }) s)

/-- UNKNOWN (R157): the message code names no message. -/
def execUnknown (code : Byte) (_payload : List Byte) (s : State) : Host.Outcome State Fault Refusal :=
  .next (serve code true (Answer.plain .unknown) s)

/-- LINE_REPLY_SENT (R156, R157): the reply frame has left the port, LP_DE is released, and no frame is
in progress. -/
def execLineReplySent (s : State) : Host.Outcome State Fault Refusal :=
  .next (whenRunning (fun s =>
    match s.port.reply with
    | some r => { s with port.reply := none, port.lpDe := false, port.lpTxd := replyFrame r
                         port.rxBuf := [] }
    | none => s) s)

/-- Whether the millisecond time base has come `span` ms past `since`, in 32-bit unsigned arithmetic
(section 0.6.3; log entry 8). -/
def elapsed (since : Word32) (span : Nat) (s : State) : Bool :=
  decide (span ≤ (s.timeBase - since).toNat)

/-- Whether the running link timer has reached the time at which it expires (R162; log entry 8). -/
def timerDue (s : State) : Bool :=
  s.port.timer.state == .running
    && decide ((s.timeBase - s.port.timer.expiresAt).toNat < 2147483648)

/-- LINK_TIMEOUT (R162): the timer becomes EXPIRED, and LINK_SILENT joins the hold-reason set. -/
def execLinkTimeout (s : State) : Host.Outcome State Fault Refusal :=
  .next (whenRunning (fun s =>
    if timerDue s then setHold .linkSilent true { s with port.timer.state := .expired } else s) s)

/-- MILLISECOND_TIME_BASE_TICK (R1). A waiting reply begins to be sent (log entry 15). -/
def execMillisecondTick (s : State) : Host.Outcome State Fault Refusal :=
  .next (whenRunning (fun s => startSending { s with timeBase := s.timeBase + 1 }) s)

end Sys2Proof.Machine
end

