-- ==== Sys2Proof/Machine/Traces.lean ====
section
/-! DEFINITION. The Record Queue, the Trace Store and the Capture Unit as the line controller uses them
(R145 to R155), and the storing of a curve. -/

namespace Sys2Proof.Machine

/-! ### The ring (R149) -/

/-- Slots of the ring (R149). -/
def ringSize : Nat := 8192

/-- The slot of a write count (R149). -/
def slotOf (w : Word32) : Nat := w.toNat % ringSize

/-- The ring with one slot written; slots stay strictly rising. -/
def writeSlot (slot : Nat) (x : Sample) : List (Nat × Sample) → List (Nat × Sample)
  | [] => [(slot, x)]
  | (n, y) :: rest =>
    if slot < n then (slot, x) :: (n, y) :: rest
    else if slot = n then (slot, x) :: rest
    else (n, y) :: writeSlot slot x rest

/-- What a slot holds. A slot not written since the reset has no meaning: a free value (log entry 11). -/
def readSlot (epoch slot : Nat) (m : List (Nat × Sample)) : Sample :=
  match m.find? (fun q => q.1 == slot) with
  | some q => q.2
  | none => Config.unwrittenSample epoch slot

/-- Samples written from write count `w` on (R150). -/
def writeSamples (w : Word32) : List Sample → List (Nat × Sample) → List (Nat × Sample)
  | [], m => m
  | x :: xs, m => writeSamples (w + 1) xs (writeSlot (slotOf w) x m)

/-- The `n` samples at write counts `w` to `w + n - 1` (R151). -/
def readSamples (t : TraceStore) : Nat → Word32 → List Sample
  | 0, _ => []
  | n + 1, w => readSlot t.epoch (slotOf w) t.slots :: readSamples t n (w + 1)

/-- The canonical form of the ring: slots strictly rising and below 8192. -/
def ringWf (m : List (Nat × Sample)) : Bool :=
  m.all (fun q => decide (q.1 < ringSize)) && (m.map Prod.fst).Pairwise (· < ·)

/-! ### Capture Unit (R153, R154) -/

/-- The unit freezes and CAPTURE_FROZEN is latched (R154). -/
def freezeCapture (s : State) : State :=
  latchAlert .captureFrozen { s with capture.state := .frozen }

/-- The Capture Unit sees a final class assigned at the check station (R154). -/
def captureSees (c : FinalClass) (s : State) : State :=
  if s.capture.state == .armed && s.capture.trigger == (classIx c).val + 1 then
    if s.capture.post == 0 then freezeCapture s
    else { s with capture.state := .triggered, capture.remaining := s.capture.post }
  else s

/-- A TRIGGERED unit with nothing remaining freezes (R154). -/
def captureFreezes (s : State) : State :=
  if s.capture.state == .triggered && s.capture.remaining == 0 then freezeCapture s else s

/-- The Capture Unit is told of a stored segment (R154). -/
def captureStored (s : State) : State :=
  if s.capture.state == .triggered then
    captureFreezes { s with capture.remaining := s.capture.remaining - 1 }
  else s

/-! ### Storing a segment (R100, R150) -/

/-- The protected start: that of the segment stored earliest among those of entries in the Track (R150). -/
def protectedStart (t : TraceStore) : Option Word32 := t.protectedSegs.head?.map (·.start)

/-- Storing `n` samples would overwrite a sample of a protected segment (R150). -/
def overwritesProtected (t : TraceStore) (n : Nat) : Bool :=
  match protectedStart t with
  | none => false
  | some p => decide (ringSize < (t.writeCount + BitVec.ofNat 32 n - p).toNat)

/-- A segment is written whole at the write count (R150). -/
def storeSegment (jar : Word32) (xs : List Sample) (s : State) : State :=
  captureStored
    { s with traces.slots := writeSamples s.traces.writeCount xs s.traces.slots
             traces.writeCount := s.traces.writeCount + BitVec.ofNat 32 xs.length
             traces.protectedSegs := s.traces.protectedSegs ++ [⟨jar, s.traces.writeCount⟩] }

/-- A completed curve is handed to the Trace Store, and its jar takes the answer (R100, R150). -/
def handCurve (jar : Word32) (xs : List Sample) (s : State) : State :=
  if s.capture.state == .frozen then addFlag jar .traceFrozen s
  else if overwritesProtected s.traces xs.length then addFlag jar .traceLost s
  else
    modEntry jar (fun e => { e with trace := some ⟨s.traces.writeCount, xs.length⟩
                                    flags := e.flags.add .tracePresent })
      (storeSegment jar xs s)

/-! ### Layout of a Jar Record (Table 12-6) -/

/-- Codes of outcomes (Table 12-2). -/
def CycleOutcome.code : CycleOutcome → Nat
  | .seated => 1 | .crossThread => 2 | .noCap => 3 | .overAngle => 4 | .aborted => 5

/-- Codes of dispositions (Table 12-2). -/
def Disposition.code : Disposition → Nat
  | .passed => 1 | .rejected => 2 | .missing => 3 | .purged => 4

/-- The number of a final class, 0 for none (Table 8-4, Table 12-3). -/
def classNumber : Option FinalClass → Nat
  | none => 0
  | some c => (classIx c).val + 1

/-- A seal time on the line: FFFFFFFFh when absent; a present FFFFFFFFh is carried 1 ms early (R169). -/
def sealTimeCode : Option Word32 → Nat
  | none => 0xFFFFFFFF
  | some t => if t.toNat = 0xFFFFFFFF then 0xFFFFFFFE else t.toNat

/-- d on the line: 16-bit two's complement, 8000h when absent (R169, Table 12-3). -/
def deflectionCode : Option Int → Nat
  | none => 0x8000
  | some d => (BitVec.ofInt 16 d).toNat

/-- A Jar Record as carried on the line (Table 12-6, absent codes of Table 12-3). -/
def recordBytes (r : JarRecord) : List Byte :=
  beBytes 4 r.jar.toNat ++ beBytes 2 r.batch ++ beBytes 2 r.recipeId ++ beBytes 1 r.head.number
    ++ beBytes 1 (classNumber r.finalClass) ++ beBytes 1 r.disposition.code
    ++ beBytes 2 (setBits r.flags) ++ beBytes 4 r.admissionPitch.toNat
    ++ beBytes 4 r.admissionTime.toNat ++ beBytes 4 (sealTimeCode r.sealTime)
    ++ beBytes 1 r.attempts ++ beBytes 1 ((r.lastOutcome.map CycleOutcome.code).getD 0)
    ++ beBytes 2 (r.peakTorque.getD 0xFFFF) ++ beBytes 2 (r.seatAngle.getD 0xFFFF)
    ++ beBytes 2 (r.fillTemp.getD 0xFFFF) ++ beBytes 2 (deflectionCode r.d)
    ++ beBytes 2 (r.dReq.getD 0xFFFF) ++ beBytes 2 (r.dt.getD 0xFFFF)
    ++ beBytes 4 ((r.trace.map (fun t => t.start.toNat)).getD 0)
    ++ beBytes 1 ((r.trace.map (·.length)).getD 0)

/-- A sample as carried on the line: angle, then torque (R171). -/
def sampleBytes (x : Sample) : List Byte := beBytes 2 x.angle.toNat ++ beBytes 2 x.torque.toNat

/-! ### Commands of the Records group -/

/-- FETCH RECORDS (R148): up to n of the oldest records are removed and carried. -/
def fetchRecordsBlock (p : List Byte) (s : State) : Answer :=
  let n := clampTo 1 5 (field p 0 1)
  let taken := s.records.queue.take n
  let left := s.records.queue.drop n
  { state := { s with records.queue := left }
    result := doneOr (n != field p 0 1)
    payload := beBytes 1 taken.length ++ taken.flatMap recordBytes ++ beBytes 2 left.length }

/-- FETCH_RECORDS (R148). -/
def execFetchRecords (p : List Byte) (s : State) : Host.Outcome State Fault Refusal :=
  .next (serve 0x10 (p.length == 1) (fetchRecordsBlock p) s)

/-- A reference is intact: the write count less its start lies in n to 8192 (R151). -/
def intact (t : TraceStore) (start : Word32) (n : Nat) : Bool :=
  decide (n ≤ (t.writeCount - start).toNat) && decide ((t.writeCount - start).toNat ≤ ringSize)

/-- READ TRACE (R151). -/
def readTraceBlock (p : List Byte) (s : State) : Answer :=
  let start := BitVec.ofNat 32 (field p 0 4)
  let n := field p 4 1
  if n < 1 || 32 < n then .plain .badValue s
  else if !intact s.traces start n then .plain .gone s
  else ⟨s, .done, (readSamples s.traces n start).flatMap sampleBytes⟩

/-- READ_TRACE (R151). -/
def execReadTrace (p : List Byte) (s : State) : Host.Outcome State Fault Refusal :=
  .next (serve 0x11 (p.length == 5) (readTraceBlock p) s)

/-- ARM CAPTURE (R153): clamped, and refused while the unit is TRIGGERED or FROZEN. -/
def armCaptureBlock (p : List Byte) (s : State) : Answer :=
  let cls := clampTo 1 13 (field p 0 1)
  let post := clampTo 0 64 (field p 1 1)
  let r := doneOr (cls != field p 0 1 || post != field p 1 1)
  match s.capture.state with
  | .off => .plain r { s with capture := { state := .armed, trigger := cls, post := post, remaining := 0 } }
  | .armed => .plain r { s with capture.trigger := cls, capture.post := post }
  | .triggered | .frozen => .plain .wrongState s

/-- ARM_CAPTURE (R153). -/
def execArmCapture (p : List Byte) (s : State) : Host.Outcome State Fault Refusal :=
  .next (serve 0x12 (p.length == 2) (armCaptureBlock p) s)

/-- RELEASE CAPTURE (R155). -/
def releaseCaptureBlock (s : State) : Answer :=
  .plain .done { s with capture.state := .off, capture.remaining := 0 }

/-- RELEASE_CAPTURE (R155). -/
def execReleaseCapture (p : List Byte) (s : State) : Host.Outcome State Fault Refusal :=
  .next (serve 0x13 p.isEmpty releaseCaptureBlock s)

/-- CAPTURE_FROZEN (R154): the remaining count of a TRIGGERED unit has reached 0, and it freezes. -/
def execCaptureFrozen (s : State) : Host.Outcome State Fault Refusal :=
  .next (whenRunning captureFreezes s)

end Sys2Proof.Machine
end

