-- ==== Sys2Proof/Machine/Cycle.lean ====
section
/-! DEFINITION. Capping Control: the APPLY at apply start, the reports it takes, the final result and
its curve, apply end, discharge and the purge (chapter 6). -/

namespace Sys2Proof.Machine

/-- A change of one head binding. -/
def setBinding (p : Head) (b : Binding) (s : State) : State := { s with capping := s.capping.set p b }

/-- A change of the statistics of one head (R72). -/
def modStats (p : Head) (f : HeadStats → HeadStats) (s : State) : State :=
  modHead p (fun h => { h with stats := f h.stats }) s

/-- A report of head `p` is discarded as stale and counted (R72, R87, R106). -/
def countStale (p : Head) (s : State) : State :=
  modStats p (fun t => { t with stale := satInc max32 t.stale }) s

/-- The outcome of a DONE taken is counted (R72, R95). -/
def countOutcome (o : CycleOutcome) (t : HeadStats) : HeadStats :=
  match o with
  | .seated => { t with seated := satInc max32 t.seated }
  | .crossThread => { t with crossThread := satInc max32 t.crossThread }
  | .noCap => { t with noCap := satInc max32 t.noCap }
  | .overAngle => { t with overAngle := satInc max32 t.overAngle }
  | .aborted => { t with aborted := satInc max32 t.aborted }

/-! ### The APPLY (R93, R94) -/

/-- An APPLY is placed for the jar of entry `e` (R94): its attempts made rise, and the APPLY carries
them with the three recipe values. Refused by an ABORT in the slot, the jar becomes HEAD_FAULT and the
binding is released. -/
def applyForJar (e : Entry) (s : State) : State :=
  let r := recipeOf e.bank s
  let t := placeApply e.pocket (e.attempts + 1) r.torqueSet r.angleMax r.steamDwell
    (modEntry e.jar (fun f => { f with attempts := f.attempts + 1 }) s)
  if slotHoldsAbort e.pocket s then
    setBinding e.pocket freeBinding (modEntry e.jar (fun f => { f with capClass := some .headFault }) t)
  else t

/-- An entry arrives at a (R93). -/
def arriveA (e : Entry) (s : State) : State :=
  if e.capClass.isSome then s
  else if s.run.state == .fault then
    modEntry e.jar (fun f => { f with capClass := some .interrupted }) s
  else if s.heads[e.pocket].service == .markedOut .link then
    modEntry e.jar (fun f => { f with capClass := some .headFault }) s
  else applyForJar e (setBinding e.pocket ⟨some e.jar, .applied, none⟩ s)

/-! ### Reports (R95 to R99, R106) -/

/-- The curve of a final result is asked for, or TRACE_OFF is added (R99). -/
def askCurve (p : Head) (jar : Word32) (curveLength : Nat) (s : State) : State :=
  if !s.traces.modeAll then addFlag jar .traceOff s
  else if 1 ≤ curveLength then placeCurve p jar s else s

/-- The final result of the bound jar (R98). -/
def finalResult (p : Head) (jar : Word32) (r : DoneReport) (s : State) : State :=
  let t := setBinding p { s.capping[p] with stage := .result } s
  let u := if r.outcome == .seated then
      modEntry jar (fun e => { e with
        sealTime := some (s.timeBase - BitVec.ofNat 32 (10 * r.seatAge)) }) t
    else t
  askCurve p jar r.curveLength u

/-- The fields a DONE taken writes into the entry (R96). -/
def writeCycle (r : DoneReport) (e : Entry) : Entry :=
  { e with lastOutcome := some r.outcome, peakTorque := some r.peakTorque
           seatAngle := some r.seatAngle, steam := r.steam }

/-- Whether a DONE leads to a reapply (R97). -/
def reapplies (r : DoneReport) (e : Entry) (s : State) : Bool :=
  r.outcome == .crossThread && e.capClass.isNone
    && decide (e.attempts < (recipeOf e.bank s).attemptsLimit)
    && decide (e.position < s.track.geometry.e)

/-- A DONE is taken for the bound jar (R95, R96): a reapply (R97), or the final result (R98). -/
def takeDone (p : Head) (jar : Word32) (r : DoneReport) (s : State) : State :=
  let t := modEntry jar (writeCycle r) (modStats p (countOutcome r.outcome) s)
  match entryOf jar t with
  | some e =>
    if reapplies r e t then applyForJar e (addFlag jar .retried t) else finalResult p jar r t
  | none => finalResult p jar r t

/-- A late report (R106): counted stale; a late DONE ends the watch. -/
def lateReport (p : Head) (isDone : Bool) (s : State) : State :=
  let t := countStale p s
  if isDone then setBinding p { s.capping[p] with lateWatch := none } t else t

/-- A current IDLE, BUSY or DONE of head `p` is handled by the state of its binding (R95). -/
def takeReport (p : Head) (r : Report) (s : State) : State :=
  let b := s.capping[p]
  match b.stage, r with
  | .applied, .done d =>
    match b.bound with
    | some jar => takeDone p jar d s
    | none => s
  | .none, .busy tag _ => if b.lateWatch == some tag then lateReport p false s else s
  | .none, .done d => if b.lateWatch == some d.tag then lateReport p true s else s
  | _, _ => s

/-! ### Apply end (R102) and discharge (R104, R105) -/

/-- An entry arrives at e (R102): an ABORT is placed while its cycle has no final result. -/
def arriveE (e : Entry) (s : State) : State :=
  let b := s.capping[e.pocket]
  if b.bound == some e.jar && b.stage == .applied && e.capClass.isNone then placeAbort e.pocket s
  else s

/-- The class of a SEATED final result (Table 6-2, rows 7 to 11). -/
def seatedClass (r : Recipe) (torque angle : Nat) (steam : Bool) : CapClass :=
  if r.torqueHi < torque then .overTorque
  else if torque < r.torqueLo then .underTorque
  else if angle < r.angleLo || r.angleHi < angle then .angleOut
  else if 0 < r.steamDwell && !steam then .steamLow
  else .cappedOk

/-- The capping class settled at discharge (Table 6-2). `final` says that a final result was taken. -/
def settledClass (final : Bool) (r : Recipe) (e : Entry) : CapClass :=
  match e.capClass with
  | some c => c
  | none =>
    if !final then .headFault
    else
      match e.lastOutcome with
      | some .noCap => .noCap
      | some .aborted => .interrupted
      | some .crossThread => .crossThread
      | some .overAngle => .underTorque
      | some .seated => seatedClass r (e.peakTorque.getD 0) (e.seatAngle.getD 0) e.steam
      | none => .headFault

/-- Whether the final result of the jar has been taken: its head is bound to it at stage RESULT. -/
def hasFinal (e : Entry) (s : State) : Bool :=
  s.capping[e.pocket].bound == some e.jar && s.capping[e.pocket].stage == .result

/-- The binding of head `p` is released from `jar`, if it is bound to it (R105, steps 1 and 2). -/
def releaseBinding (p : Head) (jar : Word32) (s : State) : State :=
  let b := s.capping[p]
  if b.bound == some jar then
    setBinding p ⟨none, .none, if b.stage == .applied then some s.link.lines[p].tag else none⟩ s
  else s

/-- An open curve fetch of `jar` at head `p` is displaced (R90, R105 step 3, R107 step 2). -/
def displaceFetchOf (p : Head) (jar : Word32) (s : State) : State :=
  match s.link.lines[p].fetch with
  | some f => if f.jar == jar then displaceFetch p s else s
  | none => s

/-- A head MARKED_OUT with reason HOST or FAILURES leaves the scan set when its turret entry has reached
x or departs in a purge (R83). -/
def leaveScanIfMarked (p : Head) (s : State) : State :=
  match s.heads[p].service with
  | .markedOut .host | .markedOut .failures => leaveScan p s
  | .inService | .markedOut .link => s

/-- An entry arrives at x: its class is settled (R104) and its head released (R105). -/
def arriveX (e : Entry) (s : State) : State :=
  let t := modEntry e.jar (fun f => { f with
    capClass := some (settledClass (hasFinal e s) (recipeOf f.bank s) f) }) s
  leaveScanIfMarked e.pocket (displaceFetchOf e.pocket e.jar (releaseBinding e.pocket e.jar t))

/-- What Capping Control does to an entry below x before it departs in a purge (R107), and the head
leaving the scan set (R83). -/
def purgeTurret (e : Entry) (s : State) : State :=
  if e.position < s.track.geometry.x then
    leaveScanIfMarked e.pocket (displaceFetchOf e.pocket e.jar (releaseBinding e.pocket e.jar s))
  else s

/-- The oldest entry departs PURGED (R21, R107). -/
def purgeOldest (s : State) : State :=
  match s.track.entries with
  | [] => s
  | e :: _ =>
    let t := purgeTurret e s
    match entryAt e.position t with
    | some e' => depart .purged e' t
    | none => t

/-- The purge: every entry departs, oldest first (R21). -/
def purge : Nat → State → State
  | 0, s => s
  | n + 1, s => purge n (purgeOldest s)

end Sys2Proof.Machine
end

