-- ==== Sys2Proof/Machine/HeadLink.lean ====
section
/-! DEFINITION. The Head Link: frames of the head link, the scan, the end of an exchange, and the
recovery of lost commands (chapter 5, R173). -/

namespace Sys2Proof.Machine

/-! ### Frames (R173) -/

/-- Command codes and contents (R173). -/
def commandBody : HeadCommand → List Byte
  | .apply a => [0x01, a.tag] ++ beBytes 1 a.attempt ++ beBytes 2 a.torqueSet
      ++ beBytes 2 a.angleMax ++ beBytes 2 a.steamDwell
  | .abort => [0x02]
  | .poll => [0x03]
  | .curve => [0x04]

/-- A command frame: head number, command, CRC-8 (R173). -/
def commandFrame (p : Head) (c : HeadCommand) : List Byte :=
  let body := BitVec.ofNat 8 p.number :: commandBody c
  body ++ [crc8 body]

/-- The samples of a CURVE report, four bytes each (R173). -/
def samplesOf : List Byte → List Sample
  | a1 :: a0 :: t1 :: t0 :: rest => ⟨a1 ++ a0, t1 ++ t0⟩ :: samplesOf rest
  | _ => []

/-- The DONE report in ten content bytes, or none where a field holds a value R173 takes as a mismatch. -/
def doneOf (c : List Byte) : Option Report :=
  match outcomeOf (field c 2 1), flagOf (field c 7 1) with
  | some o, some steam =>
    if 1 ≤ field c 1 1 && field c 1 1 ≤ 4 && field c 9 1 ≤ 32 then
      some (.done { tag := c.getD 0 0, attempt := field c 1 1, outcome := o, peakTorque := field c 3 2
                    seatAngle := field c 5 2, steam := steam, seatAge := field c 8 1
                    curveLength := field c 9 1 })
    else none
  | _, _ => none

/-- The report of a kind byte and its contents; none where the kind is unknown or the length or a field
does not agree with it (R77, R173). -/
def reportOf (kind : Byte) (c : List Byte) : Option Report :=
  if kind = 0x01 then (if c.isEmpty then some .idle else none)
  else if kind = 0x02 then
    if c.length == 2 && 1 ≤ field c 1 1 && field c 1 1 ≤ 4 then
      some (.busy (c.getD 0 0) (field c 1 1))
    else none
  else if kind = 0x03 then (if c.length == 10 then doneOf c else none)
  else if kind = 0x04 then
    if 1 ≤ field c 1 1 && field c 1 1 ≤ 32 && c.length == 2 + 4 * field c 1 1 then
      some (.curve (c.getD 0 0) (samplesOf (c.drop 2)))
    else none
  else none

/-- The report of a reply frame to an exchange with head `p`, or none where the exchange fails (R77). A frame of
another length than its length byte gives has no report: shorter it is incomplete (R77), and for a longer operand,
of which R173 reads no more than that length, this is a DESIGN CHOICE (log entry 36). -/
def parseReply (p : Head) (frame : List Byte) : Option Report :=
  let len := field frame 2 1
  if frame.length == 4 + len && crc8 (frame.take (3 + len)) == frame.getD (3 + len) 0
      && field frame 0 1 == p.number then
    reportOf (frame.getD 1 0) ((frame.drop 3).take len)
  else none

/-! ### Classification (R87) -/

/-- The tag a report carries; an IDLE report carries none. -/
def reportTag : Report → Option Byte
  | .idle => none
  | .busy t _ => some t
  | .done d => some d.tag
  | .curve t _ => some t

/-- Whether the command of an exchange is an APPLY. -/
def sentApply : HeadCommand → Bool
  | .apply _ => true
  | .abort | .poll | .curve => false

/-- Whether the report of an exchange is stale (R87). -/
def isStale (c : HeadCommand) (l : HeadLine) (r : Report) : Bool :=
  match reportTag r with
  | none => false
  | some t => t != l.tag || sentApply c || !l.applyConfirmed

/-- R77, step 1: the report is classified and handed on (R87), and a good exchange that sent an APPLY
sets the APPLY-confirmed record after it. -/
def takeGood (x : Exchange) (r : Report) (s : State) : State :=
  let t := if isStale x.command s.link.lines[x.head] r then countStale x.head s
    else takeReport x.head r s
  if sentApply x.command then modLine x.head (fun l => { l with applyConfirmed := true }) t else t

/-! ### The end of an exchange (R69, R77, R88, R89) -/

/-- The Head Link reports the exchange to the Head Map (R69). -/
def reportToHeadMap (p : Head) (good : Bool) (s : State) : State :=
  if good then modHead p (fun h => { h with noReplies := 0 }) s
  else
    linkMarkOut p (modHead p (fun h => { h with
      noReplies := satInc 3 h.noReplies, silenceOpen := true
      stats := { h.stats with noReply := satInc max32 h.stats.noReply } }) s)

/-- Whether a report shows that the head received the unconfirmed APPLY (R88, first row). -/
def confirmsApply (a : ApplyCmd) (confirmed : Bool) : Report → Bool
  | .busy t _ => t == a.tag && confirmed
  | .done d => d.tag == a.tag && confirmed
  | .idle | .curve _ _ => false

/-- R77, step 2: the unconfirmed APPLY of the head (R88). A failed exchange that sent an APPLY keeps it;
a good one settles the one kept. `confirmed` is the APPLY-confirmed record when the report came. -/
def settleUnconfirmed (x : Exchange) (good : Option Report) (confirmed : Bool) (s : State) : State :=
  match good, x.command with
  | none, .apply a => modLine x.head (fun l => { l with unconfirmed := some a }) s
  | none, _ => s
  | some r, c =>
    let l := s.link.lines[x.head]
    match l.unconfirmed with
    | none => s
    | some a =>
      let t := modLine x.head (fun l => { l with unconfirmed := none }) s
      if !confirmsApply a confirmed r && a.tag == l.tag && c == .poll && l.slot == .empty then
        modLine x.head (fun l => { l with slot := .apply a }) (displaceFetch x.head t)
      else t

/-- The samples of a good report that is a current CURVE carrying the tag of the fetch (R89). -/
def fetchedCurve (current : Bool) (f : CurveFetch) : Option Report → Option (List Sample)
  | some (.curve t xs) => if current && t == f.tag then some xs else none
  | _ => none

/-- R77, step 3: the curve fetch of the head (R89). A current CURVE with the tag of an open fetch
completes it; else a fetch whose CURVE was sent in an earlier exchange has its CURVE placed again. -/
def settleFetch (x : Exchange) (good : Option Report) (current : Bool) (s : State) : State :=
  match s.link.lines[x.head].fetch with
  | none => s
  | some f =>
    match fetchedCurve current f good with
    | some xs => handCurve f.jar xs (modLine x.head (fun l => { l with fetch := none }) s)
    | none =>
      if f.stage == .sent && x.command != .curve then placeCurveAgain x.head s else s

/-- The exchange in flight ends, good with a report or failed (R77). -/
def endExchange (good : Option Report) (x : Exchange) (s : State) : State :=
  let before := s.link.lines[x.head]
  let current := good.all (fun r => !isStale x.command before r)
  let t := reportToHeadMap x.head good.isSome s
  let u := match good with
    | some r => takeGood x r t
    | none => t
  let v := settleFetch x good current (settleUnconfirmed x good before.applyConfirmed u)
  { v with link.exchange := none, link.pointer := x.head + 1 }

/-- An end of the exchange in flight; with none in flight nothing is taken (R76). -/
def whenInFlight (f : Exchange → State → State) (s : State) : State :=
  match s.link.exchange with
  | some x => f x s
  | none => s

/-! ### Turns of the scan (R82, R85) -/

/-- The command a slot holds; an empty slot sends POLL (R85). -/
def slotCommand : Slot → HeadCommand
  | .empty => .poll
  | .apply a => .apply a
  | .abort => .abort
  | .curve => .curve

/-- The command leaves the slot: a sent CURVE moves its fetch to SENT (R89), and an APPLY is counted as
sent (R72, R85). -/
def takeCommand (p : Head) (s : State) : State :=
  match s.link.lines[p].slot with
  | .apply _ =>
    modStats p (fun t => { t with applySent := satInc max32 t.applySent })
      (modLine p (fun l => { l with slot := .empty }) s)
  | .curve =>
    modLine p (fun l => { l with slot := .empty,
                                 fetch := l.fetch.map (fun f => { f with stage := .sent }) }) s
  | .empty | .abort => modLine p (fun l => { l with slot := .empty }) s

/-- An exchange is made with head `p` (R76): its command frame is sent, and the window starts. -/
def beginExchange (p : Head) (s : State) : State :=
  let c := slotCommand s.link.lines[p].slot
  let t := takeCommand p s
  { t with link.exchange := some ⟨p, c, s.params.replyWindow⟩, link.hlTxd := commandFrame p c
           link.hlDe := false }

/-- The first head of the scan set from `p` on, head 1 after head 18, among `n` heads (R82). -/
def nextInSet (s : State) : Nat → Head → Option Head
  | 0, _ => none
  | n + 1, p => if inScanSet p s then some p else nextInSet s n (p + 1)

/-- The scan goes on (R82): heads outside the set are skipped at once, and an exchange is made with the first
head of the set from the pointer on. With no head in the set the scan stops, and the pointer stays. -/
def scanTurn (s : State) : State :=
  if s.link.exchange.isSome then s
  else
    match nextInSet s 18 s.link.pointer with
    | some p => beginExchange p { s with link.pointer := p }
    | none => s

/-- EXCHANGE_START (R82). -/
def execExchangeStart (s : State) : Host.Outcome State Fault Refusal := .next (whenRunning scanTurn s)

/-- REPLY_RECEIVED (R77). -/
def execReplyReceived (frame : List Byte) (s : State) : Host.Outcome State Fault Refusal :=
  .next (whenRunning (whenInFlight (fun x => endExchange (parseReply x.head frame) x)) s)

/-- REPLY_WINDOW_EXPIRY (R76): no reply byte came, and the exchange ends failed. -/
def execReplyWindowExpiry (s : State) : Host.Outcome State Fault Refusal :=
  .next (whenRunning (whenInFlight (endExchange none)) s)

/-- REPLY_GAP_TIMEOUT (R77): a gap broke the reply off, and the exchange ends failed. -/
def execReplyGapTimeout (s : State) : Host.Outcome State Fault Refusal :=
  .next (whenRunning (whenInFlight (fun x => endExchange none x)) s)

/-- AUTO_MARK_OUT (R68): the comparison of a rise of the failure count. The check that makes the rise makes
it itself, so none is open between commands (log entry 6). -/
def execAutoMarkOut (p : Head) (s : State) : Host.Outcome State Fault Refusal :=
  .next (whenRunning (autoMarkOut p) s)

/-- LINK_MARK_OUT (R69): the test of a failed exchange. The end of the exchange makes it itself, so none is
open between commands (log entry 6). -/
def execLinkMarkOut (p : Head) (s : State) : Host.Outcome State Fault Refusal :=
  .next (whenRunning (linkMarkOut p) s)

end Sys2Proof.Machine
end

