-- ==== Sys2Proof/Machine/Seal.lean ====
section
/-! DEFINITION. The Check Station: the arithmetic of the check, the classes, the hand-offs, and the
tracking of the zero (chapter 8). -/

namespace Sys2Proof.Machine

/-! ### The stages of the check (R121 to R126) -/

/-- Stage 1, the deflection d (R121): truncated toward zero and clamped. -/
def deflection (sample z gain : Nat) : Int :=
  clampInt (-2000) 2000 ((((sample : Int) - z) * gain).tdiv 64)

/-- The fill temperature of an IRT reading, absent outside 16 to 4078 (R122). -/
def fillTempOf (irt : Nat) : Option Nat :=
  if 16 ≤ irt && irt ≤ 4078 then some (irt * 75 / 256) else none

/-- Stage 3, the temperature factor k_T: rounded toward minus infinity, clamped to 0 to 256; 256 when
the fill temperature is absent (R123). -/
def tempFactor (fill : Option Nat) (tAmb tRef : Nat) : Nat :=
  match fill with
  | none => 256
  | some t => (clampInt 0 256 ((((t : Int) - tAmb) * 256).fdiv ((tRef : Int) - tAmb))).toNat

/-- The time from seal to check, in 32-bit unsigned arithmetic, before its clamp (R124). -/
def coolingTime (now sealed : Word32) : Nat := (now - sealed).toNat

/-- Stage 4, the cooling factor c (R124). -/
def coolingFactor (dt tau : Nat) : Nat := min dt tau * 256 / tau

/-- Stage 5, the required deflection d_req (R125). -/
def requiredDeflection (dFull kT c : Nat) : Nat := dFull * kT * c / 65536

/-- The dud threshold d_dud (R125). -/
def dudThreshold (dReq fraction : Nat) : Nat := dReq * fraction / 100

/-- The zero reference is stale (R118). -/
def zeroIsStale (s : State) : Bool := decide (s.params.staleLimit < s.check.sinceZero)

/-- A fill temperature present and below T_min (R126). -/
def coldFill (fill : Option Nat) (tMin : Nat) : Bool :=
  match fill with
  | some t => decide (t < tMin)
  | none => false

/-- Stage 6, the vacuum class (Table 8-3). -/
def vacuumClass (d : Int) (bulge : Nat) (uncertain : Bool) (dDud dReq : Nat) : FinalClass :=
  if d < -(bulge : Int) then .bulge
  else if uncertain then .unverified
  else if d < dDud then .dud
  else if d < dReq then .lowVacuum
  else .good

/-! ### The check of a jar (R120, R124, R127, R128, R129) -/

/-- What the check writes into the entry before its class is handed on (Table 8-2), and the final class.
Stages 3 to 6 are made only with a seal time (R127). -/
def judge (sample : Nat) (now : Word32) (z : Nat) (stale : Bool) (r : Recipe) (e : Entry) : Entry :=
  let d := deflection sample z r.gain
  let cold := coldFill e.fillTemp r.tMin
  let fl := (e.flags.addIf stale .zeroStale).addIf cold .coldFill
  match e.sealTime with
  | none =>
    { e with d := some d, dReq := some 0, flags := fl, finalClass := e.capClass.bind CapClass.final }
  | some t =>
    let raw := coolingTime now t
    let dt := min raw 65535
    let dReq := requiredDeflection r.dFull (tempFactor e.fillTemp r.tAmb r.tRef)
      (coolingFactor dt r.tau)
    let vac := vacuumClass d r.bulgeLimit (stale || cold) (dudThreshold dReq r.dudFraction) dReq
    { e with d := some d, dReq := some dReq, dt := some dt
             flags := fl.addIf (decide (65535 < raw)) .dtClamped
             finalClass := e.capClass.map (fun c => (CapClass.final c).getD vac) }

/-- Whether a final class counts as a failure of the head, clears its count, or leaves it (Table 4-4). -/
def failureEffect : FinalClass → Nat → Nat
  | .crossThread, n | .overTorque, n | .underTorque, n | .angleOut, n | .steamLow, n | .dud, n =>
    satInc 255 n
  | .good, _ | .lowVacuum, _ => 0
  | .noCap, n | .headFault, n | .interrupted, n | .bulge, n | .unverified, n => n

/-- Whether a final class raises the failure count (Table 4-4). -/
def countsAsFailure : FinalClass → Bool
  | .crossThread | .overTorque | .underTorque | .angleOut | .steamLow | .dud => true
  | .good | .lowVacuum | .noCap | .headFault | .interrupted | .bulge | .unverified => false

/-- The Head Map takes the final class of a jar of head `p` (R67), and after a rise compares the count
with F (R68). -/
def headTakesClass (p : Head) (c : FinalClass) (s : State) : State :=
  let t := modHead p (fun h => { h with failures := failureEffect c h.failures
                                        riseOpen := h.riseOpen || countsAsFailure c }) s
  if countsAsFailure c then autoMarkOut p t else t

/-- The final class of the jar of entry `e` is handed on (R129). -/
def handClass (e : Entry) (c : FinalClass) (s : State) : State :=
  let entry := s.dispTable[classIx c]
  let t := modEntry e.jar (fun f => { f with action := some entry.action, policy := some entry.policy
                                             alertFlag := entry.alert }) s
  let u := headTakesClass e.pocket c t
  captureSees c (if entry.alert then latchAlert .classAlert u else u)

/-- The check of the entry at k, whose jar is present (R120). -/
def checkJar (defl : Nat) (e : Entry) (s : State) : State :=
  let f := judge defl s.timeBase s.check.z (zeroIsStale s)
  let e' := f (recipeOf e.bank s) e
  let t := modEntry e.jar (fun g => f (recipeOf g.bank s) g) s
  match e'.finalClass with
  | some c => handClass e' c t
  | none => t

/-! ### The zero reference (R130, R131) -/

/-- The test for the stale alert, once for each pitch (R130, step 2). Without an open test none is made. -/
def zeroStaleTest (s : State) : State :=
  if s.check.testOpen then
    let t := { s with check.testOpen := false }
    if zeroIsStale s && !s.check.staleGiven then latchAlert .zeroStale { t with check.staleGiven := true }
    else t
  else s

/-- The Check Station takes a pitch in a tracking state (R130). -/
def zeroPitch (s : State) : State :=
  zeroStaleTest { s with check.sinceZero := satInc 65535 s.check.sinceZero, check.testOpen := true }

/-- An empty-position arrival (R131): Z moves an eighth of the way to a sample within W of it, or the
zero disturbance count rises. -/
def emptyArrival (defl : Nat) (s : State) : State :=
  let diff : Int := (defl : Int) - s.check.z
  if diff.natAbs ≤ s.params.zeroWindow then
    { s with check.z := ((s.check.z : Int) + diff.tdiv 8).toNat, check.sinceZero := 0
             check.staleGiven := false }
  else { s with check.disturbances := satInc max32 s.check.disturbances }

/-- ZERO_STALE (R130): the test of a pitch taken in a tracking state. The pitch makes it itself, so none is
open between commands (log entry 6). -/
def execZeroStale (s : State) : Host.Outcome State Fault Refusal :=
  .next (whenRunning (fun s => if tracking s.run.state then zeroStaleTest s else s) s)

/-- SET ZERO REFERENCE (R119). -/
def setZeroBlock (s : State) : Answer := .plain .done { s with check.z0 := s.check.z }

/-- SET_ZERO_REFERENCE (R119). -/
def execSetZeroReference (p : List Byte) (s : State) : Host.Outcome State Fault Refusal :=
  .next (serve 0x27 p.isEmpty setZeroBlock s)

end Sys2Proof.Machine
end

