-- ==== Sys2Proof/Machine/Turret.lean ====
section
/-! DEFINITION. The steps of the turret encoder and the sensors: FORWARD_PITCH, REVERSE_PITCH, INDEX,
REJ_CONF, the CAP_LOW changes, and the events that fall due inside a pitch (chapters 1, 2, 9). -/

namespace Sys2Proof.Machine

/-! ### The Reject Gate (R137 to R141) -/

/-- Each confirm entry whose deadline equals the pitch count is removed, and REJECT_UNCONFIRMED is
raised once for each (R140). -/
def confirmDeadlines (s : State) : State :=
  let due := s.reject.confirms.filter (fun c => c.deadline == s.track.pitchCount)
  let t := { s with
    reject.confirms := s.reject.confirms.filter (fun c => c.deadline != s.track.pitchCount) }
  due.foldl (fun u _ => raiseCause .rejectUnconfirmed u) t

/-- An entry arrives at j (R137): rejected with a pulse (R138) and a confirm entry (R139), or passed. -/
def arriveJ (e : Entry) (s : State) : State :=
  match e.action with
  | some .reject =>
    depart .rejected e
      { s with reject.rejOut := true, reject.since := s.timeBase
               reject.confirms := s.reject.confirms ++
                 [⟨e.jar, s.track.pitchCount + BitVec.ofNat 32 s.params.confirmWindow⟩] }
  | some .pass => depart .passed e s
  | none => s

/-- A confirm pulse (R141). -/
def confirmPulse (s : State) : State :=
  match s.reject.confirms with
  | _ :: rest => { s with reject.confirms := rest }
  | [] => latchAlert .strayReject s

/-! ### Position k (R16, R132) -/

/-- The occupancy check of position k in a tracking state, or the arrival there in FAULT (R16). -/
def actAtK (rs : RunState) (pins : PitchPins) (s : State) : State :=
  match entryAt s.track.geometry.k s with
  | some e =>
    if tracking rs && !pins.jarChk then raiseCause .jarMissing (depart .missing e s)
    else checkJar pins.defl.toNat e s
  | none =>
    if tracking rs then
      if pins.jarChk then raiseCause .strayJar s else emptyArrival pins.defl.toNat s
    else s

/-! ### The infeed (R13, R14, R41) -/

/-- After 4,294,967,295 the next jar number is 1 (R11). -/
def nextJarAfter (n : Word32) : Word32 := if n = 0xFFFFFFFF#32 then 1 else n + 1

/-- The new entry of an admission (R13, steps 2 to 4; Table 1-10). -/
def newEntry (irt : Nat) (s : State) : Entry :=
  let fill := fillTempOf irt
  { jar := s.track.nextJar, pocket := s.track.pocket, bank := .active
    recipeId := (recipeOf .active s).id, batch := s.run.batchNumber, position := 0
    admissionPitch := s.track.pitchCount, admissionTime := s.timeBase, fillTemp := fill
    attempts := 0, lastOutcome := none, peakTorque := none, seatAngle := none, steam := false
    sealTime := none, capClass := none, d := none, dReq := none, dt := none, finalClass := none
    action := none, policy := none, alertFlag := false, disposition := none
    flags := (JarFlags.addIf (noMembers 11) fill.isNone .tempAbsent).addIf s.recipes.firstMark
      .firstOfRecipe
    trace := none }

/-- The writes of R34 to an entry admitted on the pitch at which FAULT was entered. -/
def faultAdmitted (e : Entry) (s : State) : State :=
  if s.run.state == .fault then
    placeAbort e.pocket (modEntry e.jar (faultMark s.track.geometry.x) s)
  else s

/-- The Run Controller counts an admission to the batch (R13 step 6, R29, R52). -/
def countAdmission (s : State) : State :=
  let t := { s with run.admitted := satInc max32 s.run.admitted }
  if t.run.batchSize != 0 && decide (t.run.batchSize ≤ t.run.admitted) then batchEnd t else t

/-- A pending flying swap is made first at an admission, when it can be made (R13 step 1, R54). -/
def admissionSwap (s : State) : State :=
  match s.run.request with
  | some r => if r.stage == .atAdmission && swapAllowed s then swapAndComplete r s else s
  | none => s

/-- The admission of a jar (R13). -/
def admission (irt : Nat) (s : State) : State :=
  let t := admissionSwap s
  let e := newEntry irt t
  let u := { t with track.entries := t.track.entries ++ [e]
                    track.activeCount := t.track.activeCount + 1
                    track.nextJar := nextJarAfter t.track.nextJar
                    recipes.firstMark := false }
  countAdmission (faultAdmitted e u)

/-- The act at the infeed by the decision and the run state that stood when the pitch arrived (R41). -/
def actAtInfeed (rs : RunState) (d : Decision) (pins : PitchPins) (s : State) : State :=
  match d with
  | .admitJar =>
    if pins.jarIn then admission pins.irt.toNat s
    else { s with gate.emptyPockets := satInc max32 s.gate.emptyPockets }
  | .gap =>
    let t := { s with gate.gapCount := s.gate.gapCount - 1 }
    if tracking rs && pins.jarIn then raiseCause .strayJar t else t
  | .closed => if tracking rs && pins.jarIn then raiseCause .strayJar s else s

/-! ### The forward pitch (R5, R6, R15) -/

/-- The acts not named by the order follow in this order: the gate first, then the oldest entry first,
the infeed last. -/
def defaultActs : List PitchAct := [.deadlines, .atJ, .atK, .atX, .atE, .atA, .infeed]

/-- The acts of a pitch: those named in `order` first, each once, then the rest (log entry 5). -/
def scheduleActs : List PitchAct → List PitchAct → List PitchAct
  | [], rest => rest
  | a :: order, rest =>
    if rest.contains a then a :: scheduleActs order (rest.erase a) else scheduleActs order rest

/-- The Reject Gate takes the pitch before the arrival at j of that pitch (R140). -/
def gateFirst : List PitchAct → List PitchAct
  | [] => []
  | .atJ :: rest =>
    if rest.contains .deadlines then .deadlines :: .atJ :: rest.erase .deadlines else .atJ :: rest
  | a :: rest => a :: gateFirst rest

/-- The order in which the acts of a pitch are taken. -/
def pitchActs (order : List PitchAct) : List PitchAct := gateFirst (scheduleActs order defaultActs)

/-- The arrival at a station, when an entry stands there. -/
def arrivalAt (pos : Nat) (act : Entry → State → State) (s : State) : State :=
  match entryAt pos s with
  | some e => act e s
  | none => s

/-- One act of a forward pitch of a Track that is not frozen. -/
def pitchAct (rs : RunState) (d : Decision) (pins : PitchPins) (s : State) : PitchAct → State
  | .deadlines => confirmDeadlines s
  | .atA => arrivalAt s.track.geometry.a arriveA s
  | .atE => arrivalAt s.track.geometry.e arriveE s
  | .atX => arrivalAt s.track.geometry.x arriveX s
  | .atK => actAtK rs pins s
  | .atJ => arrivalAt s.track.geometry.j arriveJ s
  | .infeed => actAtInfeed rs d pins s

/-- Levels read from the inputs at a pitch. -/
def samplePitch (p : PitchPins) (s : State) : State :=
  { s with inputs.jarIn := p.jarIn, inputs.jarChk := p.jarChk, inputs.defl := p.defl
           inputs.irt := p.irt, inputs.liftHome := p.lift.liftHome, inputs.liftFlt := p.lift.liftFlt }

/-- The counters of a forward pitch (R5, R6). -/
def countPitch (s : State) : State :=
  { s with track.pitchCount := s.track.pitchCount + 1, track.pocket := s.track.pocket + 1 }

/-- Every entry moves forward by one position (R15). -/
def advance (s : State) : State :=
  { s with track.entries := s.track.entries.map (fun e => { e with position := e.position + 1 }) }

/-- A forward pitch. While the Track is frozen only the counters and the Reject Gate's deadlines take it
(R20, R140); else every entry advances, R130 is made in a tracking state, and the acts follow by the
run state and the decision that stood when the pitch arrived (R15). -/
def forwardPitch (pins : PitchPins) (order : List PitchAct) (s : State) : State :=
  let t := countPitch (samplePitch pins s)
  if frozen s then remakeDecision (confirmDeadlines t)
  else
    let u := if tracking s.run.state then zeroPitch (advance t) else advance t
    let v := (pitchActs order).foldl (pitchAct s.run.state s.gate.decision pins) u
    remakeDecision (waitTurretEnd v)

/-- FORWARD_PITCH (R15). -/
def execForwardPitch (pins : PitchPins) (order : List PitchAct) (s : State) :
    Host.Outcome State Fault Refusal :=
  .next (whenRunning (forwardPitch pins order) s)

/-! ### The other steps of the encoder and the sensors -/

/-- A reverse pitch (R6, R8). -/
def reversePitch (s : State) : State :=
  let t := remakeDecision { s with track.pocket := s.track.pocket - 1 }
  if s.run.state == .idle && s.track.entries.isEmpty then t else raiseCause .reverseMotion t

/-- REVERSE_PITCH (R8). -/
def execReversePitch (s : State) : Host.Outcome State Fault Refusal :=
  .next (whenRunning reversePitch s)

/-- An INDEX pulse (R7). -/
def indexPulse (s : State) : State :=
  let t := { s with track.synced := true, track.pocket := 0 }
  if s.track.pocket == 0 then t
  else if s.run.state == .idle then remakeDecision t
  else raiseCause .encoderSlip (remakeDecision t)

/-- INDEX (R7). -/
def execIndex (s : State) : Host.Outcome State Fault Refusal := .next (whenRunning indexPulse s)

/-- REJ_CONF (R141). -/
def execRejConf (s : State) : Host.Outcome State Fault Refusal := .next (whenRunning confirmPulse s)

/-- CAP_LOW_ASSERTED (R31). -/
def execCapLowAsserted (s : State) : Host.Outcome State Fault Refusal :=
  .next (whenRunning (fun s => setHold .capLow true { s with inputs.capLow := true }) s)

/-- CAP_LOW_RELEASED (R31). -/
def execCapLowReleased (s : State) : Host.Outcome State Fault Refusal :=
  .next (whenRunning (fun s => setHold .capLow false { s with inputs.capLow := false }) s)

/-- REJ_OUT_PULSE_END (R138): 40 ms after the arrival that caused it, REJ_OUT is released. -/
def execRejOutPulseEnd (s : State) : Host.Outcome State Fault Refusal :=
  .next (whenRunning (fun s =>
    if s.reject.rejOut && elapsed s.reject.since 40 s then { s with reject.rejOut := false } else s) s)

/-- CONFIRM_DEADLINE (R140): the pitch count has reached a deadline. -/
def execConfirmDeadline (s : State) : Host.Outcome State Fault Refusal :=
  .next (whenRunning confirmDeadlines s)

/-- DRAIN_END (R30). -/
def execDrainEnd (s : State) : Host.Outcome State Fault Refusal := .next (whenRunning drainEnd s)

/-- Levels of the lift inputs read at a step (R111, R113). -/
def sampleLift (p : LiftPins) (s : State) : State :=
  { s with inputs.liftHome := p.liftHome, inputs.liftFlt := p.liftFlt }

/-- BATCH_END (R29): the admitted count has reached a nonzero batch size and the flag is not yet set. -/
def execBatchEnd (p : LiftPins) (s : State) : Host.Outcome State Fault Refusal :=
  .next (whenRunning (fun s =>
    let t := sampleLift p s
    if t.run.batchSize != 0 && decide (t.run.batchSize ≤ t.run.admitted) && !t.run.batchEnded then
      batchEnd t
    else t) s)

/-- RETIRING_EMPTIED (R51): the RETIRING count has fallen to 0, and RETIRING is emptied. -/
def execRetiringEmptied (p : LiftPins) (s : State) : Host.Outcome State Fault Refusal :=
  .next (whenRunning (fun s =>
    let t := sampleLift p s
    if t.track.retiringCount == 0 && t.recipes.retiring.isSome then waitTurretEnd (retiringEmptied t)
    else t) s)

/-- WAIT_TURRET_END (R58). -/
def execWaitTurretEnd (p : LiftPins) (s : State) : Host.Outcome State Fault Refusal :=
  .next (whenRunning (fun s => waitTurretEnd (sampleLift p s)) s)

end Sys2Proof.Machine
end

