-- ==== Sys2Proof/Machine/LiftMoves.lean ====
section
/-! DEFINITION. The Lift Controller's own commands: HOME LIFT, the steps and ends of moves, and the
drive fault input (chapter 7). -/

namespace Sys2Proof.Machine

/-- HOME LIFT (R114). -/
def homeLiftBlock (p : LiftPins) (s : State) : Answer :=
  if s.run.state != .idle then .plain .wrongState s
  else
    match s.lift.state with
    | .homing | .seeking => .plain .busy s
    | .unknown | .ready | .failed => .plain .done (startHome .host (sampleLift p s))

/-- HOME_LIFT (R114). -/
def execHomeLift (payload : List Byte) (p : LiftPins) (s : State) : Host.Outcome State Fault Refusal :=
  .next (serve 0x38 payload.isEmpty (homeLiftBlock p) s)

/-- LIFT_FLT_ASSERTED (R113). -/
def execLiftFltAsserted (s : State) : Host.Outcome State Fault Refusal :=
  .next (whenRunning (fun s => liftFault { s with inputs.liftFlt := true }) s)

/-- The step limit of a home (R111). -/
def homeLimit : Nat := 16000

/-- A home is reading LIFT_HOME: HOMING, and the settle wait has not begun. -/
def homeReads (s : State) : Bool := s.lift.state == .homing && !s.lift.settling

/-- The reading of LIFT_HOME at a home step period (R111, steps 1 and 2). -/
def homeStep (active : Bool) (s : State) : State :=
  let t := { s with inputs.liftHome := active }
  if !homeReads s then t
  else if active || decide (s.lift.stepCount < homeLimit) then homeReading active t
  else homeFails t

/-- HOME_STEP (R111). -/
def execHomeStep (active : Bool) (s : State) : Host.Outcome State Fault Refusal :=
  .next (whenRunning (homeStep active) s)

/-- HOME_FAILURE (R111): the step count has reached 16000 and LIFT_HOME is inactive at its reading. -/
def execHomeFailure (s : State) : Host.Outcome State Fault Refusal :=
  .next (whenRunning (fun s =>
    if homeReads s && decide (homeLimit ≤ s.lift.stepCount) then
      homeFails { s with inputs.liftHome := false }
    else s) s)

/-- One step of a seek toward its target; at the target the settle wait begins (R112). -/
def seekStep (s : State) : State :=
  match s.lift.target with
  | some g =>
    if s.lift.state == .seeking && !s.lift.settling then
      let pos := if s.lift.position < g then s.lift.position + 1 else s.lift.position - 1
      let t := { s with lift.position := pos, lift.stepCount := s.lift.stepCount + 1 }
      if pos = g then { t with lift.settling := true, lift.settleSince := s.timeBase } else t
    else s
  | none => s

/-- SEEK_STEP (R112). -/
def execSeekStep (s : State) : Host.Outcome State Fault Refusal := .next (whenRunning seekStep s)

/-- The settle wait of a home ended: LIFT_DONE for the host, the next seek for a run (R111, R115). -/
def homeEnded (r : Option Requester) (s : State) : State :=
  match r with
  | some .host => latchAlert .liftDone s
  | some .run => seekForRun s
  | none => s

/-- The settle time has ended: the lift is READY, and the end is handed to its requester (R111, R112,
R115). -/
def settleEnd (s : State) : State :=
  let t := { s with lift.settling := false, lift.state := .ready, lift.target := none
                    lift.requester := none }
  match s.lift.state with
  | .homing => homeEnded s.lift.requester t
  | .seeking => seekEnded t
  | .unknown | .ready | .failed => s

/-- SETTLE_END (R115): the settle wait has lasted its settle time. -/
def execSettleEnd (s : State) : Host.Outcome State Fault Refusal :=
  .next (whenRunning (fun s =>
    if s.lift.settling && elapsed s.lift.settleSince s.lift.settleTime s then settleEnd s else s) s)

end Sys2Proof.Machine
end

