-- ==== Sys2Proof/Machine/Recipes.lean ====
section
/-! DEFINITION. Recipes and changeover requests: STAGE RECIPE, DISCARD STAGED, READ RECIPE, REQUEST
CHANGEOVER, CANCEL CHANGEOVER (chapter 3). -/

namespace Sys2Proof.Machine

/-- STAGE RECIPE (R46, R48). -/
def stageRecipeBlock (p : List Byte) (s : State) : Answer :=
  if s.run.request.isSome then .plain .busy s
  else
    let raw := recipeOfBytes p
    let r := clampRecipe raw
    match brokenRelation r with
    | some n => .relation n s
    | none => .plain (doneOr (r != raw)) { s with recipes.staged := some r }

/-- STAGE_RECIPE (R48). -/
def execStageRecipe (p : List Byte) (s : State) : Host.Outcome State Fault Refusal :=
  .next (serve 0x20 (p.length == 46) (stageRecipeBlock p) s)

/-- DISCARD STAGED (R49). -/
def discardStagedBlock (s : State) : Answer :=
  if s.run.request.isSome then .plain .busy s
  else .plain .done { s with recipes.staged := none }

/-- DISCARD_STAGED (R49). -/
def execDiscardStaged (p : List Byte) (s : State) : Host.Outcome State Fault Refusal :=
  .next (serve 0x21 p.isEmpty discardStagedBlock s)

/-- A recipe record as carried on the line, its name padded with 00h to 12 bytes (Table 12-5). -/
def recipeBytes (r : Recipe) : List Byte :=
  beBytes 2 r.id ++ (r.name ++ List.replicate 12 0).take 12 ++ beBytes 2 r.liftHeight
    ++ beBytes 1 r.stepPeriod ++ beBytes 2 r.torqueSet ++ beBytes 2 r.torqueLo
    ++ beBytes 2 r.torqueHi ++ beBytes 2 r.angleLo ++ beBytes 2 r.angleHi ++ beBytes 2 r.angleMax
    ++ beBytes 2 r.steamDwell ++ beBytes 1 r.attemptsLimit ++ beBytes 2 r.dFull ++ beBytes 2 r.tau
    ++ beBytes 1 r.dudFraction ++ beBytes 2 r.bulgeLimit ++ beBytes 1 r.gain ++ beBytes 2 r.tRef
    ++ beBytes 2 r.tAmb ++ beBytes 2 r.tMin

/-- The reply of READ RECIPE: the bank code, and the record unless the bank is empty (R47, R171). -/
def bankBytes (code : Nat) (b : Option Recipe) : List Byte :=
  beBytes 1 code ++ (b.map recipeBytes).getD []

/-- READ RECIPE (R47). -/
def readRecipeBlock (p : List Byte) (s : State) : Answer :=
  match field p 0 1 with
  | 1 => ⟨s, .done, bankBytes 1 s.recipes.staged⟩
  | 2 => ⟨s, .done, bankBytes 2 s.recipes.active⟩
  | 3 => ⟨s, .done, bankBytes 3 s.recipes.retiring⟩
  | _ => .plain .badValue s

/-- READ_RECIPE (R47). -/
def execReadRecipe (p : List Byte) (s : State) : Host.Outcome State Fault Refusal :=
  .next (serve 0x04 (p.length == 1) (readRecipeBlock p) s)

/-- The largest batch size (R25, R53). -/
def maxBatchSize : Nat := 1000000

/-- The kind of a changeover, fixed at its request (R50): flying when the lift heights are equal. -/
def changeoverKind (staged : Recipe) (active : Option Recipe) : ChangeoverKind :=
  if active.map (·.liftHeight) == some staged.liftHeight then .flying else .drained

/-- The stage at acceptance (Table 3-3). -/
def firstStage (m : ChangeoverMode) (k : ChangeoverKind) : ChangeoverStage :=
  match m, k with
  | .now, .flying => .atAdmission
  | .now, .drained => .inChange
  | .atBatchEnd, _ => .waiting

/-- REQUEST CHANGEOVER (R53, R55). -/
def requestChangeoverBlock (p : List Byte) (lp : LiftPins) (s : State) : Answer :=
  if !runOrHold s then .plain .wrongState s
  else if s.run.request.isSome then .plain .busy s
  else
    match s.recipes.staged, modeOf (field p 0 1) with
    | none, _ => .plain .badValue s
    | some _, none => .plain .badValue s
    | some staged, some m =>
      if m == .atBatchEnd && s.run.batchSize == 0 then .plain .badValue s
      else
        let size := clampTo 0 maxBatchSize (field p 3 4)
        let k := changeoverKind staged s.recipes.active
        let r : Changeover := { mode := m, kind := k, nextNumber := field p 1 2, nextSize := size
                                stage := firstStage m k }
        let t := { s with run.request := some r }
        .plain (doneOr (size != field p 3 4))
          (if firstStage m k == .inChange then enterChange (sampleLift lp t) else t)

/-- REQUEST_CHANGEOVER (R53). -/
def execRequestChangeover (p : List Byte) (lp : LiftPins) (s : State) :
    Host.Outcome State Fault Refusal :=
  .next (serve 0x34 (p.length == 7) (requestChangeoverBlock p lp) s)

/-- CANCEL CHANGEOVER (R60). The run state moves only from RUN or HOLD (Table 2-2). -/
def cancelChangeoverBlock (s : State) : Answer :=
  match s.run.request with
  | none => .plain .wrongState s
  | some r =>
    let t := { s with run.request := none }
    match r.stage with
    | .inChange => .plain .wrongState s
    | .waiting | .atAdmission => .plain .done t
    | .atRetire => .plain .done (if runOrHold s then enterDrain t else t)

/-- CANCEL_CHANGEOVER (R60). -/
def execCancelChangeover (p : List Byte) (s : State) : Host.Outcome State Fault Refusal :=
  .next (serve 0x35 p.isEmpty cancelChangeoverBlock s)

end Sys2Proof.Machine
end

