-- ==== Sys2Proof/Machine/Run.lean ====
section
/-! DEFINITION. The run messages: START RUN, STOP RUN, HOLD, RESUME, INSERT GAPS, CLEAR FAULT
(chapter 2). -/

namespace Sys2Proof.Machine

/-- The first check of START RUN that fails (R25). -/
def startRunRefusal (s : State) : Option ResultCode :=
  if s.run.state != .idle then some .wrongState
  else if !s.track.entries.isEmpty then some .wrongState
  else if !s.track.synced then some .wrongState
  else if s.lift.state == .homing || s.lift.state == .seeking then some .busy
  else if s.recipes.active.isNone && s.recipes.staged.isNone then some .badValue
  else none

/-- Counters a run starts from (R25, step 4): class and disposition counters and the empty-pocket count. -/
def clearRunCounters (s : State) : State :=
  { s with classCounts := Vector.replicate 13 0, gate.emptyPockets := 0
           reject.passed := 0, reject.rejected := 0, reject.missing := 0, reject.purged := 0 }

/-- PREPARE is entered (R25 step 5, R26): with the lift READY at the ACTIVE height it ends at once. -/
def enterPrepare (s : State) : State := liftForRun (setRunState .prepare s)

/-- START RUN (R25). -/
def startRunBlock (p : List Byte) (lp : LiftPins) (s : State) : Answer :=
  match startRunRefusal s with
  | some r => .plain r s
  | none =>
    let size := clampTo 0 maxBatchSize (field p 2 4)
    let t := if s.recipes.active.isNone then doSwap s else s
    let u := clearRunCounters { t with run.batchNumber := field p 0 2, run.batchSize := size
                                       run.admitted := 0, run.batchEnded := false }
    .plain (doneOr (size != field p 2 4)) (enterPrepare (sampleLift lp u))

/-- START_RUN (R25). -/
def execStartRun (p : List Byte) (lp : LiftPins) (s : State) : Host.Outcome State Fault Refusal :=
  .next (serve 0x30 (p.length == 6) (startRunBlock p lp) s)

/-- STOP RUN by the run state (R27). -/
def stopRunBlock (s : State) : Answer :=
  match s.run.state with
  | .idle | .fault => .plain .wrongState s
  | .drain => .plain .done s
  | .prepare => .plain .done (enterIdle s)
  | .run | .hold | .change =>
    .plain .done (enterDrain { s with run.request := none, run.batchEnded := true })

/-- STOP_RUN (R27, R158). -/
def execStopRun (addr : Address) (p : List Byte) (s : State) : Host.Outcome State Fault Refusal :=
  .next (serveAt addr 0x33 p stopRunBlock s)

/-- HOLD (R32). -/
def holdBlock (s : State) : Answer := .plain .done (setHold .host true s)

/-- HOLD (R32, R158). -/
def execHold (addr : Address) (p : List Byte) (s : State) : Host.Outcome State Fault Refusal :=
  .next (serveAt addr 0x31 p holdBlock s)

/-- RESUME (R32). -/
def resumeBlock (s : State) : Answer := .plain .done (setHold .host false s)

/-- RESUME (R32, R158). -/
def execResume (addr : Address) (p : List Byte) (s : State) : Host.Outcome State Fault Refusal :=
  .next (serveAt addr 0x32 p resumeBlock s)

/-- The largest gap count (R42). -/
def maxGaps : Nat := 18

/-- INSERT GAPS (R42): clamped, and added to the saturating gap count. -/
def insertGapsBlock (p : List Byte) (s : State) : Answer :=
  if s.run.state == .idle then .plain .wrongState s
  else
    let n := clampTo 1 maxGaps (field p 0 1)
    .plain (doneOr (n != field p 0 1))
      (remakeDecision { s with gate.gapCount := min maxGaps (s.gate.gapCount + n) })

/-- INSERT_GAPS (R42). -/
def execInsertGaps (p : List Byte) (s : State) : Host.Outcome State Fault Refusal :=
  .next (serve 0x36 (p.length == 1) (insertGapsBlock p) s)

/-- The end of a fault (R37, steps 1 to 4): a frozen Track is purged, the causes are emptied, LSTOP is
released, and the state becomes DRAIN, or IDLE with the Track empty. -/
def leaveFault (s : State) : State :=
  let t := if frozen s then purge s.track.entries.length s else s
  enterDrain { t with run.causes := noMembers 7 }

/-- CLEAR FAULT (R37). -/
def clearFaultBlock (lp : LiftPins) (s : State) : Answer :=
  let t := sampleLift lp s
  if s.run.state != .fault then .plain .wrongState s
  else if t.inputs.liftFlt then .plain .busy t
  else .plain .done (leaveFault t)

/-- CLEAR_FAULT (R37). -/
def execClearFault (p : List Byte) (lp : LiftPins) (s : State) : Host.Outcome State Fault Refusal :=
  .next (serve 0x37 p.isEmpty (clearFaultBlock lp) s)

end Sys2Proof.Machine
end

