-- ==== Sys2Proof/Machine/Setup.lean ====
section
/-! DEFINITION. The setup messages of the Jar Track, the Head Map, the Disposition Table, the Line Port
and the Retained Store, and ACK ALERTS and CLEAR HEAD STATS (R4, R66, R73, R136, R152, R161, R164, R166). -/

namespace Sys2Proof.Machine

/-! ### Disposition Table (R135, R136) -/

/-- The five classes fixed to REJECT (R135). -/
def fixedReject : FinalClass → Bool
  | .noCap | .headFault | .interrupted | .crossThread | .bulge => true
  | .overTorque | .underTorque | .angleOut | .steamLow | .unverified | .dud | .lowVacuum | .good => false

/-- A list entry of SET DISPOSITION whose class and values all hold codes (R136, checks 2 and 3). -/
def dispOf (q : RawDisp) : Option (FinalClass × DispEntry) :=
  match classOf q.cls, actionOf q.action, policyOf q.policy, flagOf q.alert with
  | some c, some a, some p, some f => some (c, ⟨a, p, f⟩)
  | _, _, _, _ => none

/-- A list entry gives PASS for a fixed class (R135). -/
def clampsAction (q : FinalClass × DispEntry) : Bool := fixedReject q.1 && q.2.action == .pass

/-- One list entry is written into the table, the action of a fixed class as REJECT (R135, R136). -/
def writeDisp (t : Vector DispEntry 13) (q : FinalClass × DispEntry) : Vector DispEntry 13 :=
  t.set (classIx q.1) { q.2 with action := if fixedReject q.1 then .reject else q.2.action }

/-- SET DISPOSITION (R136). -/
def setDispositionBlock (p : List Byte) (s : State) : Answer :=
  match (rawDispsOf (p.drop 1)).mapM dispOf with
  | none => .plain .badValue s
  | some l => .plain (doneOr (l.any clampsAction)) { s with dispTable := l.foldl writeDisp s.dispTable }

/-- SET_DISPOSITION (R136). -/
def execSetDisposition (p : List Byte) (s : State) : Host.Outcome State Fault Refusal :=
  .next (serve 0x22 (listFits 13 4 p) (setDispositionBlock p) s)

/-! ### Machine Geometry (R4) -/

/-- SET GEOMETRY (R4). -/
def setGeometryBlock (p : List Byte) (s : State) : Answer :=
  if s.run.state != .idle || !s.track.entries.isEmpty then .plain .wrongState s
  else
    let g := geometryOfBytes p
    match brokenGeometry g with
    | some n => .relation n s
    | none => .plain .done { s with track.geometry := g }

/-- SET_GEOMETRY (R4). -/
def execSetGeometry (p : List Byte) (s : State) : Host.Outcome State Fault Refusal :=
  .next (serve 0x23 (p.length == 5) (setGeometryBlock p) s)

/-! ### Head service (R66, R70, R71) -/

/-- A pair of SET HEAD SERVICE: a head and whether it is put IN_SERVICE; none for another number or
code (R66, checks 2 and 3). -/
def pairOf (q : Nat × Nat) : Option (Head × Bool) :=
  match headOf q.1, q.2 with
  | some p, 0 => some (p, true)
  | some p, 1 => some (p, false)
  | _, _ => none

/-- One pair is applied to its Head Record (R66). -/
def applyPair (hs : Vector HeadRecord 18) (q : Head × Bool) : Vector HeadRecord 18 :=
  hs.set q.1 (if q.2 then { hs[q.1] with service := .inService, failures := 0, noReplies := 0 }
    else { hs[q.1] with service := .markedOut .host })

/-- The heads whose service state or reason is another after the list than before it (R70). -/
def changedHeads (old new : Vector HeadRecord 18) : List Head :=
  (List.finRange 18).filter (fun p => new[p].service != old[p].service)

/-- The whole list is applied; then each changed head is handed on (R70, R71, R83), and FEW_HEADS and the
standing decision follow once (R66). -/
def applyService (l : List (Head × Bool)) (s : State) : State :=
  let hs := l.foldl applyPair s.heads
  let t := (changedHeads s.heads hs).foldl (fun u p => serviceChanged p u) { s with heads := hs }
  remakeDecision (updateFewHeads t)

/-- SET HEAD SERVICE (R66). -/
def setHeadServiceBlock (p : List Byte) (s : State) : Answer :=
  match (pairsOf (p.drop 1)).mapM pairOf with
  | none => .plain .badValue s
  | some l => .plain .done (applyService l s)

/-- SET_HEAD_SERVICE (R66). -/
def execSetHeadService (p : List Byte) (s : State) : Host.Outcome State Fault Refusal :=
  .next (serve 0x24 (listFits 18 2 p) (setHeadServiceBlock p) s)

/-- CLEAR HEAD STATS (R73): head 0 clears the statistics of all eighteen heads. -/
def clearHeadStatsBlock (p : List Byte) (s : State) : Answer :=
  if field p 0 1 = 0 then
    .plain .done { s with heads := s.heads.map (fun h => { h with stats := clearStats }) }
  else
    match headOf (field p 0 1) with
    | some q => .plain .done (modHead q (fun h => { h with stats := clearStats }) s)
    | none => .plain .badValue s

/-- CLEAR_HEAD_STATS (R73). -/
def execClearHeadStats (p : List Byte) (s : State) : Host.Outcome State Fault Refusal :=
  .next (serve 0x3A (p.length == 1) (clearHeadStatsBlock p) s)

/-! ### Line parameters (R75, R161, R162) -/

/-- SET LINE PARAMETERS (R161): the clamped values replace the live ones together; FEW_HEADS is
re-evaluated under the new M (R75), and the link timer is restarted or stopped (R162). -/
def setLineParametersBlock (p : List Byte) (s : State) : Answer :=
  let raw := paramsOfBytes p
  let q := clampParams raw
  .plain (doneOr (q != raw)) (restartTimer (updateFewHeads { s with params := q }))

/-- SET_LINE_PARAMETERS (R161). -/
def execSetLineParameters (p : List Byte) (s : State) : Host.Outcome State Fault Refusal :=
  .next (serve 0x25 (p.length == 15) (setLineParametersBlock p) s)

/-! ### Alerts (R164) -/

/-- SET ALERT MASK (R164). -/
def setAlertMaskBlock (p : List Byte) (s : State) : Answer :=
  match alertSetOf (field p 0 2) with
  | some m => .plain .done (driveAlert { s with alerts.mask := m })
  | none => .plain .badValue s

/-- SET_ALERT_MASK (R164). -/
def execSetAlertMask (p : List Byte) (s : State) : Host.Outcome State Fault Refusal :=
  .next (serve 0x26 (p.length == 2) (setAlertMaskBlock p) s)

/-- ACK ALERTS (R164): each kind it names leaves the latch. -/
def ackAlertsBlock (p : List Byte) (s : State) : Answer :=
  match alertSetOf (field p 0 2) with
  | some m => .plain .done (driveAlert { s with alerts.latch := without s.alerts.latch m })
  | none => .plain .badValue s

/-- ACK_ALERTS (R164). -/
def execAckAlerts (p : List Byte) (s : State) : Host.Outcome State Fault Refusal :=
  .next (serve 0x39 (p.length == 2) (ackAlertsBlock p) s)

/-! ### Trace mode (R152) -/

/-- SET TRACE MODE (R152). -/
def setTraceModeBlock (p : List Byte) (s : State) : Answer :=
  match flagOf (field p 0 1) with
  | some b => .plain .done { s with traces.modeAll := b }
  | none => .plain .badValue s

/-- SET_TRACE_MODE (R152). -/
def execSetTraceMode (p : List Byte) (s : State) : Host.Outcome State Fault Refusal :=
  .next (serve 0x28 (p.length == 1) (setTraceModeBlock p) s)

/-! ### The Retained Store (R165, R166) -/

/-- The live values of every setting of Table 11-4 (R166). -/
def liveImage (s : State) : Image :=
  { params := s.params, geometry := s.track.geometry, dispTable := s.dispTable
    service := s.heads.map (·.service), alertMask := s.alerts.mask, z0 := s.check.z0
    traceAll := s.traces.modeAll }

/-- COMMIT SETTINGS (R166): the live settings are taken with a new CRC-16 over them and the commit becomes
WRITING, or is refused while one is. -/
def commitSettingsBlock (s : State) : Answer :=
  match s.commit with
  | some _ => .plain .busy s
  | none => .plain .done { s with commit := some (withCrc (liveImage s)) }

/-- COMMIT_SETTINGS (R166). -/
def execCommitSettings (p : List Byte) (s : State) : Host.Outcome State Fault Refusal :=
  .next (serve 0x29 p.isEmpty commitSettingsBlock s)

/-- COMMIT_WRITE_END (R166): the write ends, and the store holds the image written, its CRC with it. -/
def execCommitWriteEnd (s : State) : Host.Outcome State Fault Refusal :=
  .next (whenRunning (fun s =>
    match s.commit with
    | some i => { s with store := i, commit := none }
    | none => s) s)

end Sys2Proof.Machine
end

