-- ==== Sys2Proof/Machine/Queries.lean ====
section
/-! DEFINITION. The queries of the line controller and the layouts of their replies: QUERY UNIT, READ
STATUS, READ SETTINGS, READ COUNTS, READ HEAD, READ DISPOSITION (R44, R74, R117, R133, R136, R143, R159,
R160, R161, R171, R172). None of them changes any state but the port's own. -/

namespace Sys2Proof.Machine

/-! ### Codes of enumerated fields (Table 12-2) -/

/-- Run state codes. -/
def RunState.code : RunState → Nat
  | .idle => 0 | .prepare => 1 | .run => 2 | .hold => 3 | .drain => 4 | .change => 5 | .fault => 6

/-- Change phase codes. -/
def ChangePhase.code : ChangePhase → Nat
  | .none => 0 | .waitTurret => 1 | .lift => 2 | .swap => 3

/-- Standing decision codes. -/
def Decision.code : Decision → Nat
  | .closed => 0 | .admitJar => 1 | .gap => 2

/-- Changeover mode codes; 0 with none pending. -/
def modeCode : Option Changeover → Nat
  | none => 0
  | some r => match r.mode with
    | .now => 1 | .atBatchEnd => 2

/-- Changeover kind codes; 0 with none pending. -/
def kindCode : Option Changeover → Nat
  | none => 0
  | some r => match r.kind with
    | .flying => 1 | .drained => 2

/-- Changeover stage codes; 0 with none pending. -/
def stageCode : Option Changeover → Nat
  | none => 0
  | some r => match r.stage with
    | .waiting => 1 | .atAdmission => 2 | .atRetire => 3 | .inChange => 4

/-- Lift state codes. -/
def LiftState.code : LiftState → Nat
  | .unknown => 0 | .homing => 1 | .ready => 2 | .seeking => 3 | .failed => 4

/-- Capture state codes. -/
def CaptureState.code : CaptureState → Nat
  | .off => 0 | .armed => 1 | .triggered => 2 | .frozen => 3

/-- Reset cause codes. -/
def ResetCause.code : ResetCause → Nat
  | .powerOn => 1 | .resetInput => 2

/-! ### QUERY UNIT (R159) -/

/-- The reply of QUERY UNIT (R159, R171). -/
def queryUnitBytes (s : State) : List Byte :=
  beBytes 2 0x0418 ++ [Config.hardwareIssue] ++ beBytes 1 240 ++ beBytes 1 (bit s.port.baudHigh)
    ++ beBytes 1 s.params.unitAddress

/-- QUERY_UNIT (R159). -/
def execQueryUnit (p : List Byte) (s : State) : Host.Outcome State Fault Refusal :=
  .next (serve 0x00 p.isEmpty (fun s => ⟨s, .done, queryUnitBytes s⟩) s)

/-! ### READ STATUS (R160, Table 12-7) -/

/-- Offsets 0 to 10 of Table 12-7: the Line Port. -/
def statusPort (s : State) : List Byte :=
  beBytes 1 s.resetCause.code ++ beBytes 1 (bit s.storeDefaulted) ++ beBytes 4 s.timeBase.toNat
    ++ beBytes 2 (setBits s.alerts.latch) ++ beBytes 2 (setBits s.alerts.mask)
    ++ beBytes 1 (bit s.commit.isSome)

/-- Offsets 11 to 40 of Table 12-7: the Run Controller, the gate and the changeover request (R44, R53). -/
def statusRun (s : State) : List Byte :=
  beBytes 1 s.run.state.code ++ beBytes 1 s.run.phase.code ++ beBytes 1 (setBits s.run.hold)
    ++ beBytes 1 (setBits s.run.causes) ++ beBytes 1 (bit s.run.batchEnded)
    ++ beBytes 2 s.run.batchNumber ++ beBytes 4 s.run.batchSize ++ beBytes 4 s.run.admitted
    ++ beBytes 1 s.gate.decision.code ++ beBytes 1 s.gate.gapCount ++ beBytes 4 s.gate.emptyPockets
    ++ beBytes 1 (modeCode s.run.request) ++ beBytes 1 (kindCode s.run.request)
    ++ beBytes 1 (stageCode s.run.request)
    ++ beBytes 2 ((s.run.request.map (·.nextNumber)).getD 0)
    ++ beBytes 4 ((s.run.request.map (·.nextSize)).getD 0)

/-- Offsets 41 to 58 of Table 12-7: the Jar Track (R23). -/
def statusTrack (s : State) : List Byte :=
  beBytes 2 s.track.entries.length ++ beBytes 2 ((s.track.entries.head?.map (·.position)).getD 0xFFFF)
    ++ beBytes 1 s.track.pocket.number
    ++ beBytes 1 (bit s.track.synced + 2 * bit (frozen s))
    ++ beBytes 4 s.track.pitchCount.toNat ++ beBytes 4 s.track.nextJar.toNat
    ++ beBytes 2 s.track.activeCount ++ beBytes 2 s.track.retiringCount

/-- Offsets 59 to 66 of Table 12-7: the Lift Controller (R117). -/
def statusLift (lp : LiftPins) (s : State) : List Byte :=
  beBytes 1 s.lift.state.code
    ++ beBytes 1 (bit s.lift.known + 2 * bit s.lift.settling + 4 * bit lp.liftFlt + 8 * bit lp.liftHome)
    ++ beBytes 2 s.lift.position ++ beBytes 2 (s.lift.target.getD 0xFFFF) ++ beBytes 2 s.lift.stepCount

/-- Offsets 67 to 87 of Table 12-7: Check Station, records and Capture Unit (R133, R145, R149, R155). -/
def statusCheck (s : State) : List Byte :=
  beBytes 2 s.check.z ++ beBytes 2 s.check.sinceZero ++ beBytes 1 (bit (zeroIsStale s))
    ++ beBytes 4 s.check.disturbances ++ beBytes 2 s.records.queue.length
    ++ beBytes 2 s.records.overruns ++ beBytes 4 s.traces.writeCount.toNat
    ++ beBytes 1 s.capture.state.code ++ beBytes 1 s.capture.trigger ++ beBytes 1 s.capture.post
    ++ beBytes 1 s.capture.remaining

/-- The reply of READ STATUS (R160, Table 12-7). -/
def statusBytes (lp : LiftPins) (s : State) : List Byte :=
  statusPort s ++ statusRun s ++ statusTrack s ++ statusLift lp s ++ statusCheck s

/-- READ_STATUS (R160). -/
def execReadStatus (p : List Byte) (lp : LiftPins) (s : State) : Host.Outcome State Fault Refusal :=
  .next (serve 0x01 p.isEmpty (fun s => ⟨s, .done, statusBytes lp s⟩) s)

/-! ### READ SETTINGS (R161) -/

/-- The reply of READ SETTINGS (R161, R171). -/
def settingsBytes (s : State) : List Byte :=
  paramsBytes s.params ++ geometryBytes s.track.geometry ++ beBytes 2 (setBits s.alerts.mask)
    ++ beBytes 2 s.check.z0 ++ beBytes 1 (bit s.traces.modeAll)

/-- READ_SETTINGS (R161). -/
def execReadSettings (p : List Byte) (s : State) : Host.Outcome State Fault Refusal :=
  .next (serve 0x06 p.isEmpty (fun s => ⟨s, .done, settingsBytes s⟩) s)

/-! ### READ COUNTS (R143), READ HEAD (R74), READ DISPOSITION (R136) -/

/-- The reply of READ COUNTS (R143, R171). -/
def countsBytes (s : State) : List Byte :=
  s.classCounts.toList.flatMap (beBytes 4) ++ beBytes 4 s.reject.passed ++ beBytes 4 s.reject.rejected
    ++ beBytes 4 s.reject.missing ++ beBytes 4 s.reject.purged ++ beBytes 1 s.reject.confirms.length

/-- READ_COUNTS (R143). -/
def execReadCounts (p : List Byte) (s : State) : Host.Outcome State Fault Refusal :=
  .next (serve 0x02 p.isEmpty (fun s => ⟨s, .done, countsBytes s⟩) s)

/-- The eight statistics in the order of Table 4-3. -/
def statsBytes (t : HeadStats) : List Byte :=
  beBytes 4 t.applySent ++ beBytes 4 t.seated ++ beBytes 4 t.crossThread ++ beBytes 4 t.noCap
    ++ beBytes 4 t.overAngle ++ beBytes 4 t.aborted ++ beBytes 4 t.noReply ++ beBytes 4 t.stale

/-- The reply of READ HEAD (R74, R171). -/
def headBytes (p : Head) (s : State) : List Byte :=
  beBytes 1 (serviceCode s.heads[p].service) ++ beBytes 1 (reasonCode s.heads[p].service)
    ++ beBytes 1 s.heads[p].failures ++ beBytes 1 s.heads[p].noReplies ++ statsBytes s.heads[p].stats
    ++ beBytes 1 (bit (holdsTurretJar p s)) ++ beBytes 1 (inServiceCount s.heads)

/-- READ HEAD (R74). -/
def readHeadBlock (p : List Byte) (s : State) : Answer :=
  match headOf (field p 0 1) with
  | some q => ⟨s, .done, headBytes q s⟩
  | none => .plain .badValue s

/-- READ_HEAD (R74). -/
def execReadHead (p : List Byte) (s : State) : Host.Outcome State Fault Refusal :=
  .next (serve 0x03 (p.length == 1) (readHeadBlock p) s)

/-- READ_DISPOSITION (R136). -/
def execReadDisposition (p : List Byte) (s : State) : Host.Outcome State Fault Refusal :=
  .next (serve 0x05 p.isEmpty (fun s => ⟨s, .done, dispositionBytes s.dispTable⟩) s)

end Sys2Proof.Machine
end

