-- ==== Sys2Proof/Machine/Reset.lean ====
section
/-! DEFINITION. Power-on, the RESET input and start-up (R22, R43, R62, R64, R81, R92, R109, R118, R144,
R149, R153, R162, R163, R165 to R168). -/

namespace Sys2Proof.Machine

/-- What a power-on or an assertion of RESET leaves (R167): every operation ended, every output released,
all state that is not retained at its value after reset, and a commit in progress cut short, so that the
CRC of the store does not match (R166). Levels of the inputs and the waiting commands are outside. The link
timer is STOPPED (R162) and its unused expiry time 0, the model's choice (log entry 35). -/
def enterReset (c : ResetCause) (s : State) : State :=
  { State.reset with
    power := .inReset
    resetCause := c
    port.timer := ⟨.stopped, 0⟩
    alerts := { latch := noMembers 13, mask := allMembers 13, pin := false }
    store := match s.commit with
      | some i => cutShort i.image
      | none => s.store
    inputs := s.inputs
    traces.epoch := s.traces.epoch + 1
    pending := s.pending }

/-- POWER_ON (R167). -/
def execPowerOn (s : State) : Host.Outcome State Fault Refusal := .next (enterReset .powerOn s)

/-- RESET_INPUT (R167). -/
def execResetInput (s : State) : Host.Outcome State Fault Refusal := .next (enterReset .resetInput s)

/-- The settings take the values of an image (R165, R168 step 1). Z takes Z0 (R119). -/
def loadImage (i : Image) (s : State) : State :=
  { s with params := i.params, track.geometry := i.geometry, dispTable := i.dispTable
           heads := i.service.map resetHead, alerts.mask := i.alertMask
           check.z := i.z0, check.z0 := i.z0, traces.modeAll := i.traceAll }

/-- The hold-reason set at start-up (R31): CAP_LOW from its input, FEW_HEADS from the heads and M. -/
def formHolds (capLow : Bool) (s : State) : State :=
  let few := decide (inServiceCount s.heads < s.params.minHeads)
  let h := ((noMembers 4).set (holdIx .capLow) capLow).set (holdIx .fewHeads) few
  { s with run.hold := h }

/-- Step 3 of start-up: every block at its value after reset, with what is outside the part or retained,
and the causes recorded, kept (R168). The BAUD strap is read (step 2). -/
def startBlocks (p : StartupPins) (s : State) : State :=
  { State.reset with
    resetCause := s.resetCause
    storeDefaulted := !crcMatches s.store
    port.baudHigh := p.baudHigh
    alerts.latch := noMembers 13
    store := s.store
    inputs := { s.inputs with capLow := p.capLow, liftHome := p.lift.liftHome, liftFlt := p.lift.liftFlt }
    traces.epoch := s.traces.epoch
    pending := s.pending }

/-- Start-up (R168). A store whose CRC does not match gives the factory values and SETTINGS_DEFAULTED,
and is not rewritten. The link timer is started last. -/
def startUp (p : StartupPins) (s : State) : State :=
  let t := formHolds p.capLow (loadImage (startImage s.store) (startBlocks p s))
  restartTimer (if crcMatches s.store then driveAlert t else latchAlert .settingsDefaulted t)

/-- STARTUP (R168), from reset only. -/
def execStartup (p : StartupPins) (s : State) : Host.Outcome State Fault Refusal :=
  .next (if s.power == .inReset then startUp p s else s)

end Sys2Proof.Machine
end

