-- ==== Sys2Proof/Machine/Dispatch.lean ====
section
/-! DEFINITION. The meaning of each command: one arm for each constructor. -/

namespace Sys2Proof.Machine

/-- What a command does to the state, the queue excepted. -/
def exec (i : Instr) (s : State) : Host.Outcome State Fault Refusal :=
  match i with
  | .forwardPitch q o => Sys2Proof.Machine.execForwardPitch q o s
  | .reversePitch => Sys2Proof.Machine.execReversePitch s
  | .indexPulse => Sys2Proof.Machine.execIndex s
  | .rejConf => Sys2Proof.Machine.execRejConf s
  | .capLowAsserted => Sys2Proof.Machine.execCapLowAsserted s
  | .capLowReleased => Sys2Proof.Machine.execCapLowReleased s
  | .liftFltAsserted => Sys2Proof.Machine.execLiftFltAsserted s
  | .powerOn => Sys2Proof.Machine.execPowerOn s
  | .resetInput => Sys2Proof.Machine.execResetInput s
  | .startup q => Sys2Proof.Machine.execStartup q s
  | .frameIgnored b => Sys2Proof.Machine.execFrameIgnored b s
  | .frameGapTimeout => Sys2Proof.Machine.execFrameGapTimeout s
  | .unknown c p => Sys2Proof.Machine.execUnknown c p s
  | .queryUnit p => Sys2Proof.Machine.execQueryUnit p s
  | .readStatus p lp => Sys2Proof.Machine.execReadStatus p lp s
  | .readSettings p => Sys2Proof.Machine.execReadSettings p s
  | .readCounts p => Sys2Proof.Machine.execReadCounts p s
  | .readHead p => Sys2Proof.Machine.execReadHead p s
  | .readRecipe p => Sys2Proof.Machine.execReadRecipe p s
  | .readDisposition p => Sys2Proof.Machine.execReadDisposition p s
  | .fetchRecords p => Sys2Proof.Machine.execFetchRecords p s
  | .readTrace p => Sys2Proof.Machine.execReadTrace p s
  | .armCapture p => Sys2Proof.Machine.execArmCapture p s
  | .releaseCapture p => Sys2Proof.Machine.execReleaseCapture p s
  | .stageRecipe p => Sys2Proof.Machine.execStageRecipe p s
  | .discardStaged p => Sys2Proof.Machine.execDiscardStaged p s
  | .setDisposition p => Sys2Proof.Machine.execSetDisposition p s
  | .setGeometry p => Sys2Proof.Machine.execSetGeometry p s
  | .setHeadService p => Sys2Proof.Machine.execSetHeadService p s
  | .setLineParameters p => Sys2Proof.Machine.execSetLineParameters p s
  | .setAlertMask p => Sys2Proof.Machine.execSetAlertMask p s
  | .setZeroReference p => Sys2Proof.Machine.execSetZeroReference p s
  | .setTraceMode p => Sys2Proof.Machine.execSetTraceMode p s
  | .commitSettings p => Sys2Proof.Machine.execCommitSettings p s
  | .startRun p lp => Sys2Proof.Machine.execStartRun p lp s
  | .stopRun a p => Sys2Proof.Machine.execStopRun a p s
  | .hold a p => Sys2Proof.Machine.execHold a p s
  | .resume a p => Sys2Proof.Machine.execResume a p s
  | .requestChangeover p lp => Sys2Proof.Machine.execRequestChangeover p lp s
  | .cancelChangeover p => Sys2Proof.Machine.execCancelChangeover p s
  | .insertGaps p => Sys2Proof.Machine.execInsertGaps p s
  | .clearFault p lp => Sys2Proof.Machine.execClearFault p lp s
  | .homeLift p lp => Sys2Proof.Machine.execHomeLift p lp s
  | .ackAlerts p => Sys2Proof.Machine.execAckAlerts p s
  | .clearHeadStats p => Sys2Proof.Machine.execClearHeadStats p s
  | .linkTimeout => Sys2Proof.Machine.execLinkTimeout s
  | .commitWriteEnd => Sys2Proof.Machine.execCommitWriteEnd s
  | .rejOutPulseEnd => Sys2Proof.Machine.execRejOutPulseEnd s
  | .homeStep h => Sys2Proof.Machine.execHomeStep h s
  | .homeFailure => Sys2Proof.Machine.execHomeFailure s
  | .seekStep => Sys2Proof.Machine.execSeekStep s
  | .settleEnd => Sys2Proof.Machine.execSettleEnd s
  | .exchangeStart => Sys2Proof.Machine.execExchangeStart s
  | .replyReceived f => Sys2Proof.Machine.execReplyReceived f s
  | .replyWindowExpiry => Sys2Proof.Machine.execReplyWindowExpiry s
  | .replyGapTimeout => Sys2Proof.Machine.execReplyGapTimeout s
  | .confirmDeadline => Sys2Proof.Machine.execConfirmDeadline s
  | .zeroStale => Sys2Proof.Machine.execZeroStale s
  | .batchEnd lp => Sys2Proof.Machine.execBatchEnd lp s
  | .retiringEmptied lp => Sys2Proof.Machine.execRetiringEmptied lp s
  | .waitTurretEnd lp => Sys2Proof.Machine.execWaitTurretEnd lp s
  | .drainEnd => Sys2Proof.Machine.execDrainEnd s
  | .autoMarkOut p => Sys2Proof.Machine.execAutoMarkOut p s
  | .linkMarkOut p => Sys2Proof.Machine.execLinkMarkOut p s
  | .captureFrozen => Sys2Proof.Machine.execCaptureFrozen s
  | .millisecondTick => Sys2Proof.Machine.execMillisecondTick s
  | .lineReplySent => Sys2Proof.Machine.execLineReplySent s

end Sys2Proof.Machine
end

