-- ==== Sys2Proof/Machine/HeadModule.lean ====
section
/-! DEFINITION. The head module, the bus partner of the head link, as R79, R80 and R173 describe it. It is
not a block of the part and no command of the part runs it: its reply frames reach the part as the operand
of REPLY_RECEIVED (log entry 24). -/

namespace Sys2Proof.Machine

/-- What the spindle measured when a cycle ended or was stopped. -/
structure Measured where
  peakTorque : Nat
  seatAngle : Nat
  steam : Bool
  curve : List Sample
  deriving DecidableEq, Repr

/-- The cycle of a head module (section 5.2): NONE, RUNNING, or ENDED with its result and the time, in ms
of the module, at which it ended. -/
inductive ModuleCycle where
  | none
  | running (tag : Byte) (attempt : Nat)
  | ended (tag : Byte) (attempt : Nat) (outcome : CycleOutcome) (m : Measured) (endedAt : Nat)
  deriving DecidableEq, Repr

/-- The latched report (R80). A DONE keeps the time its cycle ended, from which each sending of it takes
the seat age anew. -/
inductive Latched where
  | idle
  | busy (tag : Byte) (attempt : Nat)
  | done (tag : Byte) (attempt : Nat) (outcome : CycleOutcome) (m : Measured) (endedAt : Nat)
  | curve (tag : Byte) (samples : List Sample)
  deriving DecidableEq, Repr

/-- The state of a head module. -/
structure HeadModule where
  cycle : ModuleCycle
  latched : Latched
  deriving DecidableEq, Repr

/-- A head module after its own power-up (section 5.2). -/
def HeadModule.powerUp : HeadModule := { cycle := .none, latched := .idle }

/-- The seat age: units of 10 ms, rounded down, at most 250 (R80). -/
def seatAge (now endedAt : Nat) : Nat := min 250 ((now - endedAt) / 10)

/-- The latched report as sent at time `now` (R79, step 1). -/
def Latched.report (now : Nat) : Latched → Report
  | .idle => .idle
  | .busy t a => .busy t a
  | .done t a o m at0 =>
    .done { tag := t, attempt := a, outcome := o, peakTorque := m.peakTorque, seatAngle := m.seatAngle
            steam := m.steam, seatAge := seatAge now at0, curveLength := m.curve.length }
  | .curve t xs => .curve t xs

/-- The action on a command (Table 5-1). `stopped` is what the spindle has measured when an ABORT stops it. -/
def HeadModule.act (now : Nat) (stopped : Measured) : HeadCommand → ModuleCycle → ModuleCycle
  | .apply a, _ => .running a.tag a.attempt
  | .abort, .running t n => .ended t n .aborted stopped now
  | .abort, c | .poll, c | .curve, c => c

/-- The report latched after a command (R80). -/
def HeadModule.latch : HeadCommand → ModuleCycle → Latched
  | .curve, .ended t a o m at0 => if 1 ≤ m.curve.length then .curve t m.curve else .done t a o m at0
  | _, .running t a => .busy t a
  | _, .ended t a o m at0 => .done t a o m at0
  | _, .none => .idle

/-- A cycle ends by itself (section 5.2); the latched report is not changed. -/
def HeadModule.cycleEnds (now : Nat) (o : CycleOutcome) (m : Measured) (h : HeadModule) : HeadModule :=
  match h.cycle with
  | .running t a => { h with cycle := .ended t a o m now }
  | .none | .ended .. => h

/-- The kind byte and contents of a report (R173). -/
def reportBody : Report → Byte × List Byte
  | .idle => (0x01, [])
  | .busy t a => (0x02, t :: beBytes 1 a)
  | .done d => (0x03, d.tag :: beBytes 1 d.attempt ++ beBytes 1 d.outcome.code ++ beBytes 2 d.peakTorque
      ++ beBytes 2 d.seatAngle ++ [flagByte d.steam] ++ beBytes 1 d.seatAge ++ beBytes 1 d.curveLength)
  | .curve t xs => (0x04, t :: beBytes 1 xs.length ++ xs.flatMap sampleBytes)

/-- A reply frame of head `p` (R173). -/
def reportFrame (p : Head) (r : Report) : List Byte :=
  let q := reportBody r
  let body := beBytes 1 p.number ++ [q.1] ++ beBytes 1 q.2.length ++ q.2
  body ++ [crc8 body]

/-- The fields of a report lie in the ranges R80 and R173 give them. -/
def Report.inRange : Report → Bool
  | .idle => true
  | .busy _ a => 1 ≤ a && a ≤ 4
  | .done d => 1 ≤ d.attempt && d.attempt ≤ 4 && d.peakTorque < 65536 && d.seatAngle < 65536
      && d.seatAge ≤ 250 && d.curveLength ≤ 32
  | .curve _ xs => 1 ≤ xs.length && xs.length ≤ 32

/-- The command in a frame to head `p`, or none for any frame the head ignores (R79, R173). -/
def commandOf (p : Head) (frame : List Byte) : Option HeadCommand :=
  let n := frame.length - 1
  if crc8 (frame.take n) == frame.getD n 0 && field frame 0 1 == p.number then
    match (frame.take n).drop 1 with
    | [0x01, t, a, q1, q0, m1, m0, d1, d0] =>
      some (.apply ⟨t, a.toNat, beValue [q1, q0], beValue [m1, m0], beValue [d1, d0]⟩)
    | [0x02] => some .abort
    | [0x03] => some .poll
    | [0x04] => some .curve
    | _ => none
  else none

/-- A head module takes a command frame (R79): its reply, if any, and its next state. -/
def HeadModule.accept (p : Head) (now : Nat) (stopped : Measured) (frame : List Byte) (h : HeadModule) :
    Option (List Byte) × HeadModule :=
  match commandOf p frame with
  | none => (none, h)
  | some c =>
    let cycle := HeadModule.act now stopped c h.cycle
    (some (reportFrame p (h.latched.report now)), { cycle := cycle, latched := HeadModule.latch c cycle })

end Sys2Proof.Machine
end

