-- ==== Sys2Proof/WellFormed.lean ====
section
/-! DEFINITION. Which commands the outside world can give: frames and payloads within the limits of the
lines (R156, R157, R173), and a pitch whose order names no act twice. -/

namespace Sys2Proof

/-- The message codes of Table 12-4. -/
def messageCodes : List Byte :=
  [0x00, 0x01, 0x02, 0x03, 0x04, 0x05, 0x06, 0x10, 0x11, 0x12, 0x13, 0x20, 0x21, 0x22, 0x23, 0x24,
   0x25, 0x26, 0x27, 0x28, 0x29, 0x30, 0x31, 0x32, 0x33, 0x34, 0x35, 0x36, 0x37, 0x38, 0x39, 0x3A]

/-- The message code and the payload of the request frame a command stands for (Table 12-4); none for a
command that is no request. -/
def Instr.message : Instr → Option (Byte × List Byte)
  | .queryUnit p => some (0x00, p)
  | .readStatus p _ => some (0x01, p)
  | .readCounts p => some (0x02, p)
  | .readHead p => some (0x03, p)
  | .readRecipe p => some (0x04, p)
  | .readDisposition p => some (0x05, p)
  | .readSettings p => some (0x06, p)
  | .fetchRecords p => some (0x10, p)
  | .readTrace p => some (0x11, p)
  | .armCapture p => some (0x12, p)
  | .releaseCapture p => some (0x13, p)
  | .stageRecipe p => some (0x20, p)
  | .discardStaged p => some (0x21, p)
  | .setDisposition p => some (0x22, p)
  | .setGeometry p => some (0x23, p)
  | .setHeadService p => some (0x24, p)
  | .setLineParameters p => some (0x25, p)
  | .setAlertMask p => some (0x26, p)
  | .setZeroReference p => some (0x27, p)
  | .setTraceMode p => some (0x28, p)
  | .commitSettings p => some (0x29, p)
  | .startRun p _ => some (0x30, p)
  | .hold _ p => some (0x31, p)
  | .resume _ p => some (0x32, p)
  | .stopRun _ p => some (0x33, p)
  | .requestChangeover p _ => some (0x34, p)
  | .cancelChangeover p => some (0x35, p)
  | .insertGaps p => some (0x36, p)
  | .clearFault p _ => some (0x37, p)
  | .homeLift p _ => some (0x38, p)
  | .ackAlerts p => some (0x39, p)
  | .clearHeadStats p => some (0x3A, p)
  | .unknown c p => some (c, p)
  | .forwardPitch _ _ | .reversePitch | .indexPulse | .rejConf | .capLowAsserted | .capLowReleased
  | .liftFltAsserted | .powerOn | .resetInput | .startup _ | .frameIgnored _ | .frameGapTimeout
  | .linkTimeout | .commitWriteEnd | .rejOutPulseEnd | .homeStep _ | .homeFailure | .seekStep
  | .settleEnd | .exchangeStart | .replyReceived _ | .replyWindowExpiry | .replyGapTimeout
  | .confirmDeadline | .zeroStale | .batchEnd _ | .retiringEmptied _ | .waitTurretEnd _ | .drainEnd
  | .autoMarkOut _ | .linkMarkOut _ | .captureFrozen | .millisecondTick | .lineReplySent => none

/-- The payload of a request has at most 240 bytes and its code lies in 00h to 7Fh (R156). -/
def fitsFrame (m : Byte × List Byte) : Bool := decide (m.2.length ≤ 240) && decide (m.1.toNat < 128)

/-- A reply frame has a head number, a kind, a length byte, at most 255 contents and a CRC-8 (R173). Whether the
length byte agrees with the number of bytes is for the command to find (log entry 36). -/
def fitsReply (frame : List Byte) : Bool := decide (4 ≤ frame.length) && decide (frame.length ≤ 259)

/-- Commands within the limits. UNKNOWN carries a code that names no message (R157). -/
def Instr.wellFormed : Instr → Bool
  | .forwardPitch _ order => decide order.Nodup
  | .unknown c p => fitsFrame (c, p) && !messageCodes.contains c
  | .replyReceived frame => fitsReply frame
  | i => i.message.all fitsFrame

end Sys2Proof
end

