-- ==== Sys2Proof/Safety.lean ====
section
/-! DEFINITION. The terms in which claims about the Belscap 418 are stated: when a request is served, the
conditions the spec says always hold, and a list of commands taken one after another. -/

namespace Sys2Proof.Machine

/-! ### Requests -/

/-- The part runs and no reply waits to be sent, so a request to this unit is served (R156, R157). -/
def Ready (s : State) : Prop := s.power = .running ∧ s.port.reply = none

/-- The state and reply a served request leaves: the request's own changes `t`, made after its good frame,
and the reply with the address the request came under (R157, R158). -/
def replied (s : State) (code : Byte) (r : ResultCode) (payload : List Byte) (t : State) : State :=
  sendReply s.params.unitAddress code r payload t

/-! ### Outputs (R35, R40, R163) -/

/-- LSTOP is asserted exactly while the run state is FAULT (R35). -/
def LstopFollows (s : State) : Prop := s.run.lstop = (s.run.state == .fault)

/-- GATE_OUT is asserted exactly while the standing decision is ADMIT (R40). -/
def GateOutFollows (s : State) : Prop := s.gate.gateOut = (s.gate.decision == .admitJar)

/-- ALERT is asserted exactly while a kind stands both in the latch and in the mask (R163). -/
def AlertFollows (s : State) : Prop := s.alerts.pin = meets s.alerts.latch s.alerts.mask

/-! ### Run control (R24, R28, R38, R47, R65) -/

/-- The change phase is NONE outside CHANGE and another phase inside it (R24). -/
def PhaseInChange (s : State) : Prop := s.run.state = .change ↔ s.run.phase ≠ .none

/-- In RUN the hold-reason set is empty, and in HOLD it is not (R28, Table 2-1). -/
def HoldMatches (s : State) : Prop :=
  (s.run.state = .run → isEmptySet s.run.hold = true)
    ∧ (s.run.state = .hold → isEmptySet s.run.hold = false)

/-- FEW_HEADS is held exactly while the in-service count is below M (R65). -/
def FewHeadsMatches (s : State) : Prop :=
  s.run.hold[holdIx .fewHeads] = decide (inServiceCount s.heads < s.params.minHeads)

/-- The standing decision is the one R38 gives. -/
def DecisionStands (s : State) : Prop := s.gate.decision = decideGate s

/-- RETIRING holds a record exactly while its count is above 0 (R47), ACTIVE holds one while entries
reference it, and ACTIVE holds one in every state that admits or leads to admitting. -/
def BanksMatch (s : State) : Prop :=
  (s.recipes.retiring.isSome = true ↔ 0 < s.track.retiringCount)
    ∧ (0 < s.track.activeCount → s.recipes.active.isSome = true)
    ∧ (s.run.state = .prepare ∨ s.run.state = .run ∨ s.run.state = .hold ∨ s.run.state = .change →
        s.recipes.active.isSome = true)

/-! ### The Jar Track (R3, R9, R16, R18, R137) -/

/-- Oldest first: positions fall strictly along the list, so no two entries share one (R9). -/
def PositionsFall (s : State) : Prop := s.track.entries.Pairwise (fun e f => f.position < e.position)

/-- The count kept for each bank is the number of entries that reference it (R18). -/
def CountsMatch (s : State) : Prop :=
  s.track.activeCount = s.track.entries.countP (fun e => e.bank == .active)
    ∧ s.track.retiringCount = s.track.entries.countP (fun e => e.bank == .retiring)

/-- The relations of Table 1-9 hold (R3). -/
def GeometryOk (g : Geometry) : Prop := brokenGeometry g = none

/-- The live geometry, and those of the image being written and of the store, satisfy Table 1-9. -/
def GeometriesOk (s : State) : Prop :=
  GeometryOk s.track.geometry ∧ (∀ i ∈ s.commit, GeometryOk i.image.geometry)
    ∧ GeometryOk s.store.image.geometry

/-- What an entry has by its position: a SEATED result and CAPPED_OK carry a seal time; a capping class
from x on (R104); an action from k on; and it stands before j (R9, R137). -/
def EntryPassed (g : Geometry) (e : Entry) : Prop :=
  (e.lastOutcome = some .seated → e.sealTime.isSome = true)
    ∧ (e.capClass = some .cappedOk → e.sealTime.isSome = true)
    ∧ (g.x ≤ e.position → e.capClass.isSome = true)
    ∧ (g.k ≤ e.position → e.action.isSome = true)
    ∧ e.position < g.j

/-- Every entry between commands has what its stations give. -/
def StationsPassed (s : State) : Prop := ∀ e ∈ s.track.entries, EntryPassed s.track.geometry e

/-- What the acts of a pitch rely on at the infeed: the standing decision is current, and the banks hold what
the entries and the run state need. -/
def GateAndBanks (s : State) : Prop := DecisionStands s ∧ BanksMatch s

/-- How far the next jar number stands past an entry's, in 32-bit unsigned arithmetic. -/
def jarAge (s : State) (e : Entry) : Nat := (s.track.nextJar - e.jar).toNat

/-- Jar numbers rise along the list, none is 0, and each lies at most two numbers a pitch behind the next
one, since a pitch admits at most one jar and only the wrap skips a number (R9, R11). So no jar number
appears twice. -/
def JarsDistinct (s : State) : Prop :=
  s.track.nextJar ≠ 0 ∧ s.track.entries.Pairwise (fun e f => jarAge s f < jarAge s e)
    ∧ ∀ e ∈ s.track.entries, e.jar ≠ 0 ∧ 1 ≤ jarAge s e ∧ jarAge s e ≤ 2 * (e.position + 1)

/-- In IDLE and PREPARE the Track is empty (R25, R27, R30). -/
def EmptyAtRest (s : State) : Prop :=
  s.run.state = .idle ∨ s.run.state = .prepare → s.track.entries = []

/-- A jar rides in its own pocket (R6, R9): pocket and position add up to one pocket for every entry, and that is
the pocket at the infeed unless the Track is frozen. So jars of one pocket stand 18 or more positions apart. -/
def PocketsFollow (s : State) : Prop :=
  ∃ p : Head, (∀ e ∈ s.track.entries, e.pocket + Fin.ofNat 18 e.position = p)
    ∧ (frozen s = false → p = s.track.pocket)

/-- The part as the arrivals of a forward pitch find it (R5, R6, R15, R130): the counters have moved, every entry
has advanced, and in a tracking state the pitches since the last zero update have risen. -/
def atStations (s : State) : State :=
  let t := advance (countPitch s)
  if tracking s.run.state then zeroPitch t else t

/-- What a station of the turret does to the jar `jar` and its head `p` is the same in `t` as in `u`: the binding,
what the Head Link holds for the head, and attempts and capping class of the jar. A TRACE_LOST added in `u` stands
in `t`. -/
def StationAlike (jar : Word32) (p : Head) (u t : State) : Prop :=
  t.capping[p] = u.capping[p] ∧ t.link.lines[p] = u.link.lines[p]
    ∧ ∃ f ∈ t.track.entries, ∃ g ∈ u.track.entries, f.jar = jar ∧ g.jar = jar ∧ f.position = g.position
      ∧ f.attempts = g.attempts ∧ f.capClass = g.capClass
      ∧ (g.flags.has .traceLost = true → f.flags.has .traceLost = true)

/-- What the check does to the jar `jar` is the same in `t` as in `u`: the fields of Table 8-2, the hand-offs to the
Head Map and the Capture Unit, and the alerts, but for one of a change of the run state. -/
def CheckAlike (jar : Word32) (u t : State) : Prop :=
  t.heads = u.heads ∧ t.capture = u.capture
    ∧ (∀ k : AlertKind, k ≠ .holdEntered → u.alerts.latch[alertIx k] = true → t.alerts.latch[alertIx k] = true)
    ∧ ∃ f ∈ t.track.entries, ∃ g ∈ u.track.entries, f.jar = jar ∧ g.jar = jar ∧ f.position = g.position
      ∧ f.d = g.d ∧ f.dReq = g.dReq ∧ f.dt = g.dt ∧ f.finalClass = g.finalClass ∧ f.action = g.action
      ∧ f.policy = g.policy ∧ f.alertFlag = g.alertFlag
      ∧ ∀ k : JarFlag, k = .zeroStale ∨ k = .coldFill ∨ k = .dtClamped → f.flags.has k = g.flags.has k

/-- The entry `f` is the entry `e` one position further, with what it took at its admission (R15, Table 1-10). -/
def MovedOn (e f : Entry) : Prop :=
  f.position = e.position + 1 ∧ f.jar = e.jar ∧ f.pocket = e.pocket ∧ f.recipeId = e.recipeId
    ∧ f.batch = e.batch ∧ f.admissionPitch = e.admissionPitch ∧ f.admissionTime = e.admissionTime
    ∧ f.fillTemp = e.fillTemp

/-- The part stands in FAULT for the cause `c`: LSTOP is asserted, and FAULT_ENTERED is latched (R33 to R35). -/
def FaultFor (c : Cause) (s : State) : Prop :=
  s.run.state = .fault ∧ s.run.causes[causeIx c] = true ∧ s.run.lstop = true
    ∧ s.alerts.latch[alertIx .faultEntered] = true

/-- What commands of the machine leave alone: the port, the settings, the Retained Store, the clock, the
recorded causes and the queue. -/
def SettingsStand (s t : State) : Prop :=
  t.port = s.port ∧ t.params = s.params ∧ t.track.geometry = s.track.geometry ∧ t.dispTable = s.dispTable
    ∧ t.alerts.mask = s.alerts.mask ∧ t.check.z0 = s.check.z0 ∧ t.traces.modeAll = s.traces.modeAll
    ∧ t.store = s.store ∧ t.commit = s.commit ∧ t.timeBase = s.timeBase ∧ t.power = s.power
    ∧ t.resetCause = s.resetCause ∧ t.storeDefaulted = s.storeDefaulted ∧ t.pending = s.pending

/-- The scan of the head link is left alone: the exchange in flight, the pointer and the lines. -/
def ScanStands (s t : State) : Prop :=
  t.link.exchange = s.link.exchange ∧ t.link.pointer = s.link.pointer ∧ t.link.hlDe = s.link.hlDe
    ∧ t.link.hlTxd = s.link.hlTxd

/-! ### The Reject Gate (R139) -/

/-- Pitches until a confirm entry reaches its deadline. -/
def pitchesLeft (pitch : Word32) (c : ConfirmEntry) : Nat := (c.deadline - pitch).toNat

/-- At most 9 - n confirm entries have n or more pitches left, for n from 1 to 8, and none has 0 or more
than 8: each stands at least 8 - n pitches after the pitch that made it, and a pitch makes one (R139). -/
def ConfirmsSpread (s : State) : Prop :=
  (∀ c ∈ s.reject.confirms, 1 ≤ pitchesLeft s.track.pitchCount c ∧ pitchesLeft s.track.pitchCount c ≤ 8)
    ∧ ∀ n, 1 ≤ n → n ≤ 8 →
        s.reject.confirms.countP (fun c => decide (n ≤ pitchesLeft s.track.pitchCount c)) ≤ 9 - n

/-- Values lie in the ranges of Table 11-3. A link timeout of 0 is off (R161). -/
def ParamsOk (q : LineParams) : Prop :=
  (1 ≤ q.unitAddress ∧ q.unitAddress ≤ 30)
    ∧ (q.linkTimeout = 0 ∨ 100 ≤ q.linkTimeout ∧ q.linkTimeout ≤ 10000)
    ∧ q.failLimit ≤ 20 ∧ (1 ≤ q.minHeads ∧ q.minHeads ≤ 18) ∧ q.zeroWindow ≤ 1023
    ∧ (18 ≤ q.staleLimit ∧ q.staleLimit ≤ 4000) ∧ (100 ≤ q.replyWindow ∧ q.replyWindow ≤ 2000)
    ∧ (5 ≤ q.homePeriod ∧ q.homePeriod ≤ 200) ∧ q.settleTime ≤ 1000
    ∧ (1 ≤ q.confirmWindow ∧ q.confirmWindow ≤ 8)

/-- The live parameters, and those of the image being written and of the store, lie in range (R161). -/
def AllParamsOk (s : State) : Prop :=
  ParamsOk s.params ∧ (∀ i ∈ s.commit, ParamsOk i.image.params) ∧ ParamsOk s.store.image.params

/-! ### Disposition, records and traces (R135, R145, R149) -/

/-- The five fixed classes hold REJECT (R135). -/
def FixedRejects (t : Vector DispEntry 13) : Prop :=
  ∀ c, fixedReject c = true → t[classIx c].action = .reject

/-- The live table, and those of the image being written and of the store, hold REJECT for them (R135). -/
def FixedClassesReject (s : State) : Prop :=
  FixedRejects s.dispTable ∧ (∀ i ∈ s.commit, FixedRejects i.image.dispTable)
    ∧ FixedRejects s.store.image.dispTable

/-- The Record Queue never holds more than 512 records (R145). -/
def QueueBounded (s : State) : Prop := s.records.queue.length ≤ queueCapacity

/-- The ring has its canonical form: slots below 8192, strictly rising (R149). -/
def RingCanonical (s : State) : Prop := ringWf s.traces.slots = true

/-- Counts lie within the values at which they stop (R42, R63, R118, R145), and Z within the 12 bits of
its input (R118, R131). -/
def CountsInRange (s : State) : Prop :=
  s.gate.gapCount ≤ 18 ∧ s.check.sinceZero ≤ 65535 ∧ s.records.overruns ≤ 65535
    ∧ (∀ p : Head, s.heads[p].failures ≤ 255 ∧ s.heads[p].noReplies ≤ 3)
    ∧ s.check.z ≤ 4095 ∧ s.check.z0 ≤ 4095 ∧ (∀ i ∈ s.commit, i.image.z0 ≤ 4095)
    ∧ s.store.image.z0 ≤ 4095

/-- No comparison or test of R68, R69 and R130 is left open: each is made in the step of the rise, the failed
exchange or the pitch it belongs to, so a change of F or S makes none (R75, R130). -/
def TestsClosed (s : State) : Prop :=
  (∀ p : Head, s.heads[p].riseOpen = false ∧ s.heads[p].silenceOpen = false) ∧ s.check.testOpen = false

/-! ### What shared changes do (R27, R28, R31) -/

/-- The hold reason `r` is set to `b`, and the run state follows as R28 says, from a state whose HOLD and RUN
match the set. Where the state does not move, only the set changes. -/
def HoldTaken (r : HoldReason) (b : Bool) (s t : State) : Prop :=
  t = { s with run := t.run, gate := t.gate, alerts := t.alerts }
    ∧ t.run.hold = s.run.hold.set (holdIx r) b
    ∧ t.run = { s.run with state := t.run.state, phase := t.run.phase, lstop := t.run.lstop, hold := t.run.hold }
    ∧ (s.run.state = .run → b = true → t.run.state = .hold ∧ t.gate.decision = .closed
        ∧ t.gate.gateOut = false ∧ t.alerts.latch = s.alerts.latch.set (alertIx .holdEntered) true)
    ∧ (s.run.state = .hold → isEmptySet t.run.hold = true → t.run.state = .run ∧ DecisionStands t
        ∧ t.alerts = s.alerts)
    ∧ (¬(s.run.state = .run ∧ b = true) → ¬(s.run.state = .hold ∧ isEmptySet t.run.hold = true) →
        t = { s with run.hold := t.run.hold })

/-- The effect of STOP RUN by the run state (the table of R27). Hold-reason set, fault causes and the numbers of the
batch stand in every state. -/
def RunStopped (s t : State) : Prop :=
  t = { s with run := t.run, gate := t.gate }
    ∧ t.run = { s.run with state := t.run.state, phase := t.run.phase, lstop := t.run.lstop
                           request := t.run.request, batchEnded := t.run.batchEnded }
    ∧ t.gate.emptyPockets = s.gate.emptyPockets
    ∧ (s.run.state = .idle ∨ s.run.state = .fault ∨ s.run.state = .drain → t = s)
    ∧ (s.run.state = .prepare → t.run.state = .idle ∧ t.run.request = none ∧ t.run.phase = .none
        ∧ t.run.lstop = false ∧ t.gate.gapCount = 0
        ∧ t.run.batchEnded = s.run.batchEnded)
    ∧ (s.run.state = .run ∨ s.run.state = .hold ∨ s.run.state = .change →
        t.run.state = (if s.track.entries.isEmpty then .idle else .drain) ∧ t.run.request = none
          ∧ t.run.phase = .none ∧ t.run.lstop = false ∧ t.run.batchEnded = true ∧ t.gate.decision = .closed
          ∧ t.gate.gateOut = false
          ∧ t.gate.gapCount = (if s.track.entries.isEmpty then 0 else s.gate.gapCount))

/-! ### Heads, recipes and the head link (R45, R70, R71, R82, R83, R173) -/

/-- Membership in the scan set, as R82 words it. -/
def InScan (p : Head) (s : State) : Prop :=
  s.heads[p].service = .inService
    ∨ (s.heads[p].service = .markedOut .host ∨ s.heads[p].service = .markedOut .failures)
      ∧ ∃ e ∈ s.track.entries, e.pocket = p ∧ e.position < s.track.geometry.x

/-- Head `p` is marked out by the Head Map with reason `r` (R68 to R71, R83): HEAD_MARKED is latched, and
FEW_HEADS, the standing decision and GATE_OUT follow. A head that leaves the scan set keeps its tag only. With
reason LINK its jar in the turret becomes HEAD_FAULT unless it has a class; with reason FAILURES a jar in the
turret is capped on. The counts and the statistics of the head stand. -/
def MarkedOutFor (p : Head) (r : MarkReason) (s t : State) : Prop :=
  t.heads = s.heads.set p t.heads[p] ∧ t.heads[p].service = .markedOut r
    ∧ t.heads[p].failures = s.heads[p].failures ∧ t.heads[p].noReplies = s.heads[p].noReplies
    ∧ t.heads[p].stats = s.heads[p].stats
    ∧ t.alerts.latch[alertIx .headMarked] = true ∧ FewHeadsMatches t ∧ DecisionStands t ∧ GateOutFollows t
    ∧ (∀ q : Head, t.link.lines[q].tag = s.link.lines[q].tag ∧ (q ≠ p → t.link.lines[q] = s.link.lines[q]))
    ∧ (r = .link ∨ turretEntry p s = none → t.link.lines[p].slot = .empty ∧ t.link.lines[p].fetch = none
        ∧ t.link.lines[p].unconfirmed = none)
    ∧ (∀ e, turretEntry p s = some e → r = .failures → t.link = s.link ∧ t.track = s.track)
    ∧ ∀ e, turretEntry p s = some e → r = .link → ∃ f ∈ t.track.entries, f.jar = e.jar
        ∧ f.position = e.position ∧ f.capClass = e.capClass.or (some .headFault)

/-- Every numeric field lies in its range of Table 3-1. -/
def RecipeInRange (r : Recipe) : Prop :=
  r.id ≤ 65535 ∧ r.liftHeight ≤ 15000 ∧ (5 ≤ r.stepPeriod ∧ r.stepPeriod ≤ 200)
    ∧ (50 ≤ r.torqueSet ∧ r.torqueSet ≤ 1000) ∧ r.torqueLo ≤ 1200 ∧ r.torqueHi ≤ 1200 ∧ r.angleLo ≤ 3600
    ∧ r.angleHi ≤ 3600 ∧ r.angleMax ≤ 3600 ∧ r.steamDwell ≤ 800
    ∧ (1 ≤ r.attemptsLimit ∧ r.attemptsLimit ≤ 4) ∧ r.dFull ≤ 2000 ∧ (1000 ≤ r.tau ∧ r.tau ≤ 60000)
    ∧ r.dudFraction ≤ 100 ∧ r.bulgeLimit ≤ 2000 ∧ (1 ≤ r.gain ∧ r.gain ≤ 255)
    ∧ (300 ≤ r.tRef ∧ r.tRef ≤ 1000) ∧ r.tAmb ≤ 400 ∧ r.tMin ≤ 1000

/-- The relations of Table 3-2, in their order. -/
def recipeRelation (r : Recipe) : Fin 5 → Prop :=
  ![r.torqueLo ≤ r.torqueSet, r.torqueSet ≤ r.torqueHi, r.angleLo ≤ r.angleHi, r.angleHi ≤ r.angleMax,
    r.tAmb + 50 ≤ r.tRef]

/-- The relations of Table 1-9, in their order. -/
def geometryRelation (g : Geometry) : Fin 5 → Prop :=
  ![1 ≤ g.a, g.a < g.e, g.e < g.x ∧ g.x ≤ 17, g.x < g.k ∧ g.k ≤ g.x + 200, g.k < g.j ∧ g.j ≤ g.k + 32]

/-- The contents of an APPLY fit the fields of its frame (R173). -/
def HeadCommand.inRange : HeadCommand → Prop
  | .apply a => a.attempt < 256 ∧ a.torqueSet < 65536 ∧ a.angleMax < 65536 ∧ a.steamDwell < 65536
  | .abort | .poll | .curve => True

/-! ### Curves (R100, R150, R154) -/

/-- The curve `xs` of jar `jar` has been handed to the Trace Store, from `s` to `t`, and the jar has the answer:
refused frozen, refused for a protected segment, or stored at the write count and read back from there. A stored
segment counts a TRIGGERED Capture Unit down, and the last one freezes it. -/
def CurveTaken (jar : Word32) (xs : List Sample) (s t : State) : Prop :=
  let n := xs.length
  let lost := ∃ g, s.traces.protectedSegs.head? = some g
    ∧ 8192 < (s.traces.writeCount + BitVec.ofNat 32 n - g.start).toNat
  let answered (f : Entry → Entry) := t.track = { s.track with
    entries := s.track.entries.map (fun e => if e.jar == jar then f e else e) }
  let refused (k : JarFlag) := t.traces = s.traces ∧ t.capture = s.capture ∧ t.alerts = s.alerts
    ∧ answered (fun e => { e with flags := e.flags.add k })
  (s.capture.state = .frozen → refused .traceFrozen)
    ∧ (s.capture.state ≠ .frozen → lost → refused .traceLost)
    ∧ (s.capture.state ≠ .frozen → ¬lost →
      answered (fun e => { e with trace := some ⟨s.traces.writeCount, n⟩, flags := e.flags.add .tracePresent })
        ∧ t.traces.writeCount = s.traces.writeCount + BitVec.ofNat 32 n
        ∧ readSamples t.traces n s.traces.writeCount = xs
        ∧ t.traces.protectedSegs = s.traces.protectedSegs ++ [⟨jar, s.traces.writeCount⟩]
        ∧ (s.capture.state ≠ .triggered → t.capture = s.capture ∧ t.alerts = s.alerts)
        ∧ (s.capture.state = .triggered → 1 < s.capture.remaining →
          t.capture = { s.capture with remaining := s.capture.remaining - 1 } ∧ t.alerts = s.alerts)
        ∧ (s.capture.state = .triggered → s.capture.remaining ≤ 1 →
          t.capture = { s.capture with state := .frozen, remaining := 0 }
            ∧ t.alerts.latch = s.alerts.latch.set (alertIx .captureFrozen) true))

/-! ### Payloads (R169, R171, Table 12-2) -/

/-- The bytes are these fields one after another, each given by its width in bytes and its value, high byte
first, and nothing else. Of a value too great for its width the low bytes are carried. -/
def Carries : List Byte → List (Nat × Nat) → Prop
  | q, [] => q = []
  | q, (width, value) :: fs =>
    width ≤ q.length ∧ field q 0 width = value % 256 ^ width ∧ Carries (q.drop width) fs

/-- A set is carried as a bit set: bit i is member i, and no other bit is set (R169). -/
def SetsCarried : Prop :=
  ∀ (n : Nat) (v : Vector Bool n), setBits v < 2 ^ n ∧ ∀ i : Fin n, (setBits v).testBit i.val = v[i]

/-- The codes of Table 12-2. -/
def CodesOfTable : Prop :=
  [RunState.idle, .prepare, .run, .hold, .drain, .change, .fault].map RunState.code = List.range 7
    ∧ [ChangePhase.none, .waitTurret, .lift, .swap].map ChangePhase.code = List.range 4
    ∧ [HoldReason.host, .linkSilent, .capLow, .fewHeads].map (fun r => (holdIx r).val) = List.range 4
    ∧ [Cause.encoderSlip, .reverseMotion, .jarMissing, .strayJar, .rejectUnconfirmed, .liftFault,
        .homeFail].map (fun c => (causeIx c).val) = List.range 7
    ∧ [AlertKind.faultEntered, .holdEntered, .headMarked, .classAlert, .queueOverrun, .captureFrozen, .batchDone,
        .changeoverDone, .liftDone, .liftFailed, .zeroStale, .strayReject, .settingsDefaulted].map
          (fun k => (alertIx k).val) = List.range 13
    ∧ [Decision.closed, .admitJar, .gap].map Decision.code = List.range 3
    ∧ (modeCode none = 0 ∧ kindCode none = 0 ∧ stageCode none = 0)
    ∧ (∀ r : Changeover, modeCode (some r) = (if r.mode = .now then 1 else 2)
      ∧ kindCode (some r) = (if r.kind = .flying then 1 else 2)
      ∧ stageCode (some r) = (match r.stage with
        | .waiting => 1 | .atAdmission => 2 | .atRetire => 3 | .inChange => 4))
    ∧ [LiftState.unknown, .homing, .ready, .seeking, .failed].map LiftState.code = List.range 5
    ∧ [CaptureState.off, .armed, .triggered, .frozen].map CaptureState.code = List.range 4
    ∧ [Service.inService, .markedOut .host, .markedOut .failures, .markedOut .link].map
        (fun v => (serviceCode v, reasonCode v)) = [(0, 0), (1, 1), (1, 2), (1, 3)]
    ∧ [Action.pass, .reject].map Action.code = List.range 2
    ∧ [RecordPolicy.none, .record, .trace].map RecordPolicy.code = List.range 3
    ∧ [ResetCause.powerOn, .resetInput].map ResetCause.code = [1, 2] ∧ bit false = 0 ∧ bit true = 1

/-- The codes of a Jar Record: its flags in the bit order of R172, the final classes as Table 8-4 numbers them, and
the outcomes and dispositions of Table 12-2. -/
def RecordCodes : Prop :=
  [JarFlag.tempAbsent, .coldFill, .zeroStale, .dtClamped, .firstOfRecipe, .afterFault, .retried, .tracePresent,
      .traceLost, .traceFrozen, .traceOff].map (fun k => (flagIx k).val) = List.range 11
    ∧ [FinalClass.noCap, .headFault, .interrupted, .crossThread, .overTorque, .underTorque, .angleOut, .steamLow,
        .bulge, .unverified, .dud, .lowVacuum, .good].map (fun c => (classIx c).val) = List.range 13
    ∧ [CycleOutcome.seated, .crossThread, .noCap, .overAngle, .aborted].map CycleOutcome.code = [1, 2, 3, 4, 5]
    ∧ [Disposition.passed, .rejected, .missing, .purged].map Disposition.code = [1, 2, 3, 4]

/-! ### Requests that are refused (R157, R158, Table 12-4) -/

/-- The payload length of a request fits its message (Table 12-4; R66 and R136 for the two lists). -/
def lengthFits : Instr → Bool
  | .queryUnit p | .readStatus p _ | .readCounts p | .readDisposition p | .readSettings p
  | .releaseCapture p | .discardStaged p | .setZeroReference p | .commitSettings p | .hold _ p
  | .resume _ p | .stopRun _ p | .cancelChangeover p | .clearFault p _ | .homeLift p _ => p.length == 0
  | .readHead p | .readRecipe p | .fetchRecords p | .setTraceMode p | .insertGaps p
  | .clearHeadStats p => p.length == 1
  | .armCapture p | .setAlertMask p | .ackAlerts p => p.length == 2
  | .readTrace p | .setGeometry p => p.length == 5
  | .startRun p _ => p.length == 6
  | .requestChangeover p _ => p.length == 7
  | .setLineParameters p => p.length == 15
  | .stageRecipe p => p.length == 46
  | .setDisposition p => listFits 13 4 p
  | .setHeadService p => listFits 18 2 p
  | _ => true

/-- A request to the unit's own address; the others are broadcasts (R158). -/
def toUnit : Instr → Bool
  | .stopRun a _ | .hold a _ | .resume a _ => a == .unit
  | _ => true

/-! ### Commands in a row -/

/-- The commands of the list taken one after another, up to the first fault or refusal. -/
def runCommands : List Instr → State → Host.Outcome State Fault Refusal
  | [], s => .next s
  | c :: cs, s =>
    match exec c s with
    | .next t => runCommands cs t
    | .fault f => .fault f
    | .refused r => .refused r

/-- A command that resets the part or ends a reset (R167, R168). -/
def resets : Instr → Bool
  | .powerOn | .resetInput | .startup _ => true
  | _ => false

end Sys2Proof.Machine
end

