-- ==== Sys2Proof/Certificates/Slice0/Obligations.lean ====
section
/-! DEFINITION. The statements about the Belscap 418 that are to be proved. Each docstring names the rules of
the spec that the statement follows. -/

open Sys2Proof Sys2Proof.Machine

/-! ### The queue and the commands as a whole -/

/-- The command at the front of the queue is run on the state with the queue's rest, and with no command
waiting the part idles. The queue is the model's (log entry 3). -/
def Obligations.StepTakesFrontCommand : Prop :=
  (∀ (c : Instr) (rest : List Instr) (s : State),
      step { s with pending := c :: rest } = exec c { s with pending := rest })
    ∧ ∀ s : State, s.pending = [] → step s = .next s

/-- Every command answers a next state with the queue as it was: none stops the part. From a reset to
start-up, only the commands of R167 and R168 change anything (log entries 7 and 22). -/
def Obligations.EveryCommandAnswersNext : Prop :=
  (∀ (c : Instr) (s : State), ∃ t, exec c s = .next t ∧ t.pending = s.pending)
    ∧ ∀ (c : Instr) (s : State), s.power = .inReset → resets c = false → exec c s = .next s

/-! ### The forward pitch (chapter 1) -/

/-- A forward pitch raises the pitch count and moves the pocket counter on, in every run state and also
while the Track is frozen (R5, R6). Settings, the port, the clock, the scan and the flag of R7 stand, and no
latched alert is lost. At the infeed of a Track that is not frozen, an admitting pocket that arrives with no jar
raises the empty-pocket count (R41), a gap pocket spends one gap (R42), and neither makes an entry; no other
pocket moves the two counts, but an entry to IDLE clears the gap count (R30), and FAULT may follow it in the
same pitch. -/
def Obligations.ForwardPitchCounts : Prop :=
  ∀ (pins : PitchPins) (order : List PitchAct) (s : State), s.power = .running → GateAndBanks s →
    ∃ t, exec (.forwardPitch pins order) s = .next t
      ∧ t.track.pitchCount = s.track.pitchCount + 1 ∧ t.track.pocket = s.track.pocket + 1
      ∧ t.track.synced = s.track.synced ∧ SettingsStand s t ∧ ScanStands s t
      ∧ (∀ k, s.alerts.latch[alertIx k] = true → t.alerts.latch[alertIx k] = true)
      ∧ DecisionStands t
      ∧ (frozen s = false →
        t.gate.emptyPockets = (if s.gate.decision = .admitJar ∧ pins.jarIn = false
            then satInc max32 s.gate.emptyPockets else s.gate.emptyPockets)
          ∧ (s.gate.decision = .gap → t.gate.gapCount = s.gate.gapCount - 1)
          ∧ (s.gate.decision ≠ .gap → t.gate.gapCount = s.gate.gapCount
              ∨ (t.run.state = .idle ∨ t.run.state = .fault) ∧ t.gate.gapCount = 0)
          ∧ (s.gate.decision ≠ .admitJar ∨ pins.jarIn = false → t.track.nextJar = s.track.nextJar))

/-- While the Track is frozen, a forward pitch moves the two counters and takes the deadlines (R20, R140): one
reached removes its confirm entry, raises REJECT_UNCONFIRMED and latches FAULT_ENTERED again, and with none reached
no cause and no alert changes. A reverse pitch lowers the pocket counter and raises REVERSE_MOTION again (R8), and INDEX acts on the pocket
counter (R7). No entry is touched, and no station acts. -/
def Obligations.FrozenTrackStands : Prop :=
  ∀ s : State, s.power = .running → s.run.state = .fault → frozen s = true →
    (∀ (pins : PitchPins) (order : List PitchAct), ∃ t, exec (.forwardPitch pins order) s = .next t
        ∧ t.track = { s.track with pitchCount := s.track.pitchCount + 1, pocket := s.track.pocket + 1 }
        ∧ t.reject = { s.reject with confirms := t.reject.confirms }
        ∧ t.reject.confirms = s.reject.confirms.filter (fun c => c.deadline != s.track.pitchCount + 1)
        ∧ t = { s with run := t.run, alerts := t.alerts, gate := t.gate, inputs := t.inputs
                       track := t.track, reject := t.reject }
        ∧ ((∃ c ∈ s.reject.confirms, c.deadline = s.track.pitchCount + 1) →
          t.run = { s.run with causes := s.run.causes.set (causeIx .rejectUnconfirmed) true }
            ∧ t.alerts.latch = s.alerts.latch.set (alertIx .faultEntered) true)
        ∧ ((∀ c ∈ s.reject.confirms, c.deadline ≠ s.track.pitchCount + 1) → t.run = s.run ∧ t.alerts = s.alerts))
      ∧ (∃ t, exec .reversePitch s = .next t
          ∧ t = { s with run := t.run, alerts := t.alerts, gate := t.gate
                         track := { s.track with pocket := s.track.pocket - 1 } }
          ∧ t.run = { s.run with causes := s.run.causes.set (causeIx .reverseMotion) true })
      ∧ ∃ t, exec .indexPulse s = .next t
          ∧ t = { s with run := t.run, alerts := t.alerts, gate := t.gate
                         track := { s.track with pocket := 0, synced := true } }
          ∧ t.run = { s.run with causes := t.run.causes }

/-- On a forward pitch of a Track that is not frozen every entry moves one position, and an entry that comes
to neither k nor j stays in the Track (R15). Every entry after the pitch is one that moved on, or stands at
position 0 under the next jar number, and that only where the standing decision was ADMIT and JAR_IN showed a
jar (R13). The pitch takes the deadlines (R140): one reached removes its confirm entry and raises REJECT_UNCONFIRMED,
whatever else the pitch does; with none reached that cause stands as it was, and every other confirm entry stays. -/
def Obligations.EntriesAdvanceByOne : Prop :=
  ∀ (pins : PitchPins) (order : List PitchAct) (s : State), s.power = .running → frozen s = false →
    GateAndBanks s → GeometryOk s.track.geometry →
    let due (c : ConfirmEntry) := c.deadline = s.track.pitchCount + 1
    ∃ t, exec (.forwardPitch pins order) s = .next t
      ∧ (∀ e ∈ s.track.entries, e.position + 1 ≠ s.track.geometry.k → e.position + 1 ≠ s.track.geometry.j →
          ∃ f ∈ t.track.entries, MovedOn e f)
      ∧ (∀ c ∈ s.reject.confirms, ¬due c → c ∈ t.reject.confirms)
      ∧ ((∀ e ∈ s.track.entries, e.position + 1 ≠ s.track.geometry.j) → t.reject.confirms
          = s.reject.confirms.filter (fun c => c.deadline != s.track.pitchCount + 1))
      ∧ ((∃ c ∈ s.reject.confirms, due c) → LstopFollows s → FaultFor .rejectUnconfirmed t)
      ∧ ((∀ c ∈ s.reject.confirms, ¬due c) → t.run.causes[causeIx .rejectUnconfirmed]
          = s.run.causes[causeIx .rejectUnconfirmed])
      ∧ ∀ f ∈ t.track.entries, (∃ e ∈ s.track.entries, MovedOn e f)
          ∨ f.position = 0 ∧ f.jar = s.track.nextJar ∧ s.gate.decision = .admitJar ∧ pins.jarIn = true

/-- A pocket whose head is not IN_SERVICE admits no jar (R38, R70): after the pitch the next jar number is the
same, and every entry is one that moved on or, on a frozen Track, one that stood. -/
def Obligations.MarkedOutPocketStaysEmpty : Prop :=
  ∀ (pins : PitchPins) (order : List PitchAct) (s : State), s.power = .running → GateAndBanks s →
    s.heads[s.track.pocket + 1].service ≠ .inService →
    ∃ t, exec (.forwardPitch pins order) s = .next t
      ∧ t.track.nextJar = s.track.nextJar
      ∧ ∀ f ∈ t.track.entries, ∃ e ∈ s.track.entries, MovedOn e f ∨ frozen s = true ∧ f.jar = e.jar

/-- An admission (R13): the entry at position 0 has the next jar number, the pocket now at the infeed, the
pitch count after the pitch, the time base and the fill temperature of IRT, with TEMP_ABSENT when that is absent
(R12, R122). The next jar number rises by one, past 0 (R11). With no changeover request pending it has the current
batch number, references ACTIVE with the id of its recipe, and takes FIRST_OF_RECIPE from the mark, which is
cleared; the admitted count rises, and so does the ACTIVE count when no entry comes to k or j (R18). A flying
request at AT_ADMISSION, with RETIRING empty and the infeed taken first, makes its swap first (R54): the entry is
the first of the new batch, with the recipe that was in STAGED, and the changeover is completed (R57). At an admission
at which RETIRING still holds a record no swap is made: the jar is of the present batch and recipe, and with no batch
end the request waits on. A jar admitted on the pitch at which FAULT is entered, whichever comes first, holds
AFTER_FAULT and INTERRUPTED, and an ABORT stands in the slot of its head (R34). -/
def Obligations.AdmissionMakesEntry : Prop :=
  ∀ (pins : PitchPins) (order : List PitchAct) (s : State), s.power = .running → frozen s = false →
    GateAndBanks s → GeometryOk s.track.geometry → s.gate.decision = .admitJar → pins.jarIn = true →
    let fill := if 16 ≤ pins.irt.toNat ∧ pins.irt.toNat ≤ 4078 then some (pins.irt.toNat * 75 / 256) else none
    (∃ t, exec (.forwardPitch pins order) s = .next t
        ∧ t.track.nextJar = (if s.track.nextJar = 0xFFFFFFFF#32 then 1 else s.track.nextJar + 1)
        ∧ (s.run.request = none → t.run.admitted = satInc max32 s.run.admitted ∧ t.recipes.firstMark = false
          ∧ ((∀ e ∈ s.track.entries, e.position + 1 ≠ s.track.geometry.k ∧ e.position + 1 ≠ s.track.geometry.j) →
            t.track.activeCount = s.track.activeCount + 1 ∧ t.track.retiringCount = s.track.retiringCount))
        ∧ ∃ f ∈ t.track.entries, f.position = 0 ∧ f.jar = s.track.nextJar ∧ f.pocket = s.track.pocket + 1
            ∧ f.admissionPitch = s.track.pitchCount + 1 ∧ f.admissionTime = s.timeBase
            ∧ f.fillTemp = fill ∧ (f.flags.has .tempAbsent = true ↔ fill = none)
            ∧ (s.run.request = none → f.batch = s.run.batchNumber ∧ f.bank = .active
                ∧ f.flags.has .firstOfRecipe = s.recipes.firstMark
                ∧ ∀ r, s.recipes.active = some r → f.recipeId = r.id)
            ∧ (JarsDistinct s → t.run.state = .fault → f.flags.has .afterFault = true
                ∧ f.capClass = some .interrupted
                ∧ (PocketsFollow s → t.link.lines[f.pocket].slot = .abort)))
      ∧ (∀ r, s.run.request = some r → r.stage = .atAdmission → s.recipes.retiring.isSome = true →
        (∃ o, order = .infeed :: o)
          ∨ (∀ e ∈ s.track.entries, e.position + 1 ≠ s.track.geometry.k ∧ e.position + 1 ≠ s.track.geometry.j) →
        ∃ t, exec (.forwardPitch pins order) s = .next t
          ∧ ∃ f ∈ t.track.entries, f.position = 0 ∧ f.jar = s.track.nextJar ∧ f.batch = s.run.batchNumber
            ∧ f.flags.has .firstOfRecipe = s.recipes.firstMark
            ∧ (∀ q, s.recipes.active = some q → f.recipeId = q.id)
            ∧ (s.run.batchSize = 0 ∨ s.run.admitted + 1 < s.run.batchSize → f.bank = .active
              ∧ t.recipes.active = s.recipes.active ∧ t.recipes.staged = s.recipes.staged
              ∧ t.run.batchNumber = s.run.batchNumber ∧ t.run.admitted = satInc max32 s.run.admitted
              ∧ (t.run.state ≠ .fault → t.run.request = some r)))
      ∧ ∀ r q, CountsMatch s → s.run.request = some r → r.stage = .atAdmission → s.recipes.staged = some q →
        s.recipes.retiring = none → s.track.retiringCount = 0 →
        ∃ t, exec (.forwardPitch pins (.infeed :: order)) s = .next t
          ∧ t.recipes.active = some q ∧ t.recipes.staged = none ∧ t.recipes.firstMark = false
          ∧ t.run.request = none ∧ t.run.batchNumber = r.nextNumber ∧ t.run.batchSize = r.nextSize
          ∧ t.run.admitted = 1
          ∧ t.track.activeCount = 1 ∧ t.alerts.latch[alertIx .changeoverDone] = true
          ∧ ∃ f ∈ t.track.entries, f.position = 0 ∧ f.jar = s.track.nextJar ∧ f.batch = r.nextNumber
            ∧ f.recipeId = q.id ∧ f.bank = .active ∧ f.flags.has .firstOfRecipe = true

/-- In a tracking state a jar at JAR_IN for a pocket that does not admit raises STRAY_JAR, and no entry is made
(R14); a jar at JAR_CHK with no entry at k raises it too (R16). -/
def Obligations.StrayJarFaults : Prop :=
  ∀ (pins : PitchPins) (order : List PitchAct) (s : State), s.power = .running → frozen s = false →
    GateAndBanks s → LstopFollows s → tracking s.run.state = true →
    (s.gate.decision ≠ .admitJar ∧ pins.jarIn = true
        ∨ pins.jarChk = true ∧ ∀ e ∈ s.track.entries, e.position + 1 ≠ s.track.geometry.k) →
    GeometryOk s.track.geometry →
    ∃ t, exec (.forwardPitch pins order) s = .next t ∧ FaultFor .strayJar t
      ∧ (s.gate.decision ≠ .admitJar → t.track.nextJar = s.track.nextJar)

/-- In a tracking state an entry that comes to k while JAR_CHK shows no jar leaves the Track, and JAR_MISSING is
raised (R16). -/
def Obligations.MissingJarDeparts : Prop :=
  ∀ (pins : PitchPins) (order : List PitchAct) (s : State) (e : Entry), s.power = .running →
    frozen s = false → GateAndBanks s → LstopFollows s → GeometryOk s.track.geometry →
    tracking s.run.state = true → e ∈ s.track.entries → e.position + 1 = s.track.geometry.k → pins.jarChk = false →
    ∃ t, exec (.forwardPitch pins order) s = .next t ∧ FaultFor .jarMissing t
      ∧ ∀ f ∈ t.track.entries, f.position ≠ s.track.geometry.k

/-- An entry that comes to j, in any order of the acts of its pitch (R137). With action REJECT, REJ_OUT is asserted
and its 40 ms start, and a confirm entry with the jar number and the deadline joins the list, after the deadlines
of the pitch (R138 to R140); with PASS the gate is not touched and no confirm entry is made. Either way the entry
leaves the Track, and the counter of its disposition rises alone of the two (R142). -/
def Obligations.RejectArrivalFires : Prop :=
  ∀ (pins : PitchPins) (order : List PitchAct) (s : State) (e : Entry), s.power = .running →
    frozen s = false → GateAndBanks s → GeometryOk s.track.geometry → PositionsFall s → JarsDistinct s →
    e ∈ s.track.entries → e.position + 1 = s.track.geometry.j →
    let left := s.reject.confirms.filter (fun c => c.deadline != s.track.pitchCount + 1)
    ∃ t, exec (.forwardPitch pins order) s = .next t
      ∧ (e.action = some .reject → t.reject.rejOut = true ∧ t.reject.since = s.timeBase
        ∧ t.reject.confirms
            = left ++ [⟨e.jar, s.track.pitchCount + 1 + BitVec.ofNat 32 s.params.confirmWindow⟩]
        ∧ t.reject.rejected = satInc max32 s.reject.rejected ∧ t.reject.passed = s.reject.passed
        ∧ ∀ f ∈ t.track.entries, f.position ≠ s.track.geometry.j)
      ∧ (e.action = some .pass → t.reject.rejOut = s.reject.rejOut ∧ t.reject.since = s.reject.since
        ∧ t.reject.confirms = left
        ∧ t.reject.passed = satInc max32 s.reject.passed ∧ t.reject.rejected = s.reject.rejected
        ∧ ∀ f ∈ t.track.entries, f.position ≠ s.track.geometry.j)

/-- A departure (R17, R18, R142, R146, R147). The entry leaves the list and the others stay. Its final class stands; an
early departure, MISSING or PURGED, fills an absent one from the capping class, and with none for CAPPED_OK or an
absent class. By the table of R146 the policy NONE gives no record, RECORD one without the trace reference, TRACE and
every early departure one with it. The record is built from the entry after these steps and is the last of the queue.
A full queue discards its oldest record, counts the overrun and latches QUEUE_OVERRUN. Of the four disposition
counters that of the departure rises, and of the class counters that of the final class, if there is one; no confirm
entry and no pulse is touched. The count of its bank falls by one, and a RETIRING count fallen to 0 empties RETIRING,
wherever no swap of a pending changeover follows at once (R51, R58). An entry that departs PASSED or REJECTED always
has a policy; without one no record is made, which is the model's choice for a state no run reaches (log entry 33). -/
def Obligations.DepartureRecorded : Prop :=
  ∀ (disp : Disposition) (e : Entry) (s : State),
    let t := depart disp e s
    let early := disp = .missing ∨ disp = .purged
    let kept := early ∨ e.policy = some .record ∨ e.policy = some .trace
    let queue := if 512 ≤ s.records.queue.length then s.records.queue.drop 1 else s.records.queue
    let up (d : Disposition) (n : Nat) := if disp = d ∧ n < 4294967295 then n + 1 else n
    ∃ fin : Option FinalClass,
      (e.finalClass ≠ none ∨ ¬early → fin = e.finalClass)
      ∧ (early → e.finalClass = none → (e.capClass = none ∨ e.capClass = some .cappedOk → fin = none)
        ∧ ∀ q ∈ [(CapClass.noCap, FinalClass.noCap), (.headFault, .headFault), (.interrupted, .interrupted),
            (.crossThread, .crossThread), (.overTorque, .overTorque), (.underTorque, .underTorque),
            (.angleOut, .angleOut), (.steamLow, .steamLow)], e.capClass = some q.1 → fin = some q.2)
      ∧ (let record (trace : Option TraceRef) : JarRecord :=
          { jar := e.jar, batch := e.batch, recipeId := e.recipeId, head := e.pocket, finalClass := fin
            disposition := disp, flags := e.flags, admissionPitch := e.admissionPitch
            admissionTime := e.admissionTime, sealTime := e.sealTime, attempts := e.attempts
            lastOutcome := e.lastOutcome, peakTorque := e.peakTorque, seatAngle := e.seatAngle
            fillTemp := e.fillTemp, d := e.d, dReq := e.dReq, dt := e.dt, trace := trace }
        (¬kept → t.records = s.records)
          ∧ (¬early → e.policy = some .record → t.records.queue = queue ++ [record none])
          ∧ (early ∨ e.policy = some .trace → t.records.queue = queue ++ [record e.trace]))
      ∧ (kept → 512 ≤ s.records.queue.length → t.alerts.latch[alertIx .queueOverrun] = true
          ∧ t.records.overruns
            = (if s.records.overruns < 65535 then s.records.overruns + 1 else s.records.overruns))
      ∧ (¬(kept ∧ 512 ≤ s.records.queue.length) → t.records.overruns = s.records.overruns
          ∧ t.alerts.latch[alertIx .queueOverrun] = s.alerts.latch[alertIx .queueOverrun])
      ∧ t.reject = { s.reject with
          passed := up .passed s.reject.passed, rejected := up .rejected s.reject.rejected
          missing := up .missing s.reject.missing, purged := up .purged s.reject.purged }
      ∧ (∀ c : FinalClass, t.classCounts[classIx c] = (if fin = some c ∧ s.classCounts[classIx c] < 4294967295
          then s.classCounts[classIx c] + 1 else s.classCounts[classIx c]))
      ∧ t.track.entries.map (·.jar)
        = (s.track.entries.filter (fun f => f.position != e.position)).map (·.jar)
      ∧ (s.run.request = none ∨ s.run.state ≠ .change ∧ (∀ r, s.run.request = some r → r.stage ≠ .atRetire) →
        (e.bank = .active → t.track.activeCount = s.track.activeCount - 1
            ∧ t.track.retiringCount = s.track.retiringCount ∧ t.recipes = s.recipes)
          ∧ (e.bank = .retiring → t.track.retiringCount = s.track.retiringCount - 1
            ∧ t.track.activeCount = s.track.activeCount ∧ t.recipes = (if s.track.retiringCount = 1
              then { s.recipes with retiring := none } else s.recipes)))

/-! ### Reverse pitches, INDEX and the confirm sensor -/

/-- A reverse pitch lowers the pocket counter by one and has no further effect in IDLE with an empty Track; in any
other case REVERSE_MOTION is raised and the Track is frozen. It moves no entry (R8). -/
def Obligations.ReversePitchLowersPocket : Prop :=
  ∀ s : State, s.power = .running → LstopFollows s →
    ∃ t, exec .reversePitch s = .next t
      ∧ t.track.pocket = s.track.pocket - 1 ∧ t.track.pitchCount = s.track.pitchCount
      ∧ t.track.entries.map (fun e => (e.jar, e.position)) = s.track.entries.map (fun e => (e.jar, e.position))
      ∧ (s.run.state = .idle ∧ s.track.entries = [] →
          t = { s with track.pocket := s.track.pocket - 1, gate := t.gate })
      ∧ (¬(s.run.state = .idle ∧ s.track.entries = []) → FaultFor .reverseMotion t ∧ frozen t = true)

/-- INDEX sets the pocket counter to 1 and the synchronised flag. It raises ENCODER_SLIP where the counter read
another pocket outside IDLE, and nothing otherwise. The entries stay where they are (R7). -/
def Obligations.IndexSetsPocket : Prop :=
  ∀ s : State, s.power = .running → LstopFollows s →
    ∃ t, exec .indexPulse s = .next t ∧ t.track.pocket = 0 ∧ t.track.synced = true
      ∧ t.track.entries.map (fun e => (e.jar, e.position)) = s.track.entries.map (fun e => (e.jar, e.position))
      ∧ (s.track.pocket = 0 → t = { s with track.synced := true })
      ∧ (s.track.pocket ≠ 0 ∧ s.run.state = .idle →
          t = { s with track.pocket := 0, track.synced := true, gate := t.gate })
      ∧ (s.track.pocket ≠ 0 ∧ s.run.state ≠ .idle → FaultFor .encoderSlip t ∧ frozen t = true)

/-- A confirm pulse removes the oldest confirm entry, or latches STRAY_REJECT with the list empty, in every run
state (R141). -/
def Obligations.ConfirmPulseTakesOldest : Prop :=
  ∀ s : State, s.power = .running →
    (∀ c rest, s.reject.confirms = c :: rest →
        exec .rejConf s = .next { s with reject.confirms := rest })
      ∧ (s.reject.confirms = [] →
          ∃ t, exec .rejConf s = .next t ∧ t.alerts.latch = s.alerts.latch.set (alertIx .strayReject) true
            ∧ t = { s with alerts := { t.alerts with mask := s.alerts.mask } })

/-! ### Reset and start-up (chapter 11) -/

/-- POWER_ON and RESET_INPUT end every operation and release every output, and empty what is not retained. A
commit cut short leaves a store whose CRC does not match (R166, R167). The two differ in the recorded cause. -/
def Obligations.ResetEndsOperations : Prop :=
  ∀ s : State, ∃ t : State, exec .powerOn s = .next { t with resetCause := .powerOn }
    ∧ exec .resetInput s = .next { t with resetCause := .resetInput }
    ∧ t.power = .inReset ∧ t.run.lstop = false ∧ t.gate.gateOut = false ∧ t.reject.rejOut = false
    ∧ t.alerts.pin = false ∧ t.port.lpDe = false ∧ t.link.hlDe = false
    ∧ t.port.rxBuf = [] ∧ t.port.reply = none ∧ t.link.exchange = none ∧ t.lift.state = .unknown
    ∧ t.lift.target = none ∧ t.commit = none ∧ (s.commit = none → t.store = s.store)
    ∧ (s.commit.isSome = true → t.store.crc ≠ imageCrc t.store.image)
    ∧ t.track.entries = [] ∧ t.records.queue = [] ∧ t.reject.confirms = [] ∧ t.timeBase = 0
    ∧ t.recipes.staged = none ∧ t.recipes.active = none ∧ t.recipes.retiring = none

/-- Start-up checks the CRC-16 of the store over its whole image: when it matches, the image gives the settings;
when not, the factory values do, with SETTINGS_DEFAULTED, and the store is not rewritten. It reads the strap,
forms the hold-reason set from CAP_LOW and the loaded heads, gives every other block its value after reset (the
Check Station that of Table 8-1), drives ALERT from latch and mask, and starts the link timer (R31, R118, R165,
R168). Where a block has a value that no rule gives (LIFT_DIR, the lift's period, settle time and settle start, the
start of the reject pulse, the bytes on HL_TXD) it is the model's choice of log entry 34, and the three marks of
TestsClosed and resetHead are the model's own (log entry 6). -/
def Obligations.StartupLoadsSettings : Prop :=
  ∀ (pins : StartupPins) (s : State), s.power = .inReset →
    let good := s.store.crc = imageCrc s.store.image
    ∃ t, exec (.startup pins) s = .next t ∧ t.power = .running
      ∧ (good → liveImage t = s.store.image ∧ t.storeDefaulted = false ∧ ∀ k, t.alerts.latch[alertIx k] = false)
      ∧ (¬good → liveImage t = factoryImage ∧ t.storeDefaulted = true
          ∧ ∀ k, t.alerts.latch[alertIx k] = (k == .settingsDefaulted))
      ∧ t.store = s.store ∧ t.resetCause = s.resetCause ∧ AlertFollows t
      ∧ t.check.z = t.check.z0 ∧ t.check.sinceZero = 0 ∧ t.check.staleGiven = false ∧ t.check.disturbances = 0
      ∧ t.port.baudHigh = pins.baudHigh ∧ t.port.rxBuf = [] ∧ t.port.reply = none ∧ t.port.lpDe = false
      ∧ (t.params.linkTimeout = 0 → t.port.timer.state = .stopped)
      ∧ (t.params.linkTimeout ≠ 0 → t.port.timer = ⟨.running, BitVec.ofNat 32 t.params.linkTimeout⟩)
      ∧ t.run = { State.reset.run with hold := t.run.hold }
      ∧ t.run.hold[holdIx .host] = false ∧ t.run.hold[holdIx .linkSilent] = false
      ∧ t.run.hold[holdIx .capLow] = pins.capLow ∧ FewHeadsMatches t
      ∧ t.gate = State.reset.gate ∧ t.track = { State.reset.track with geometry := t.track.geometry }
      ∧ t.recipes = State.reset.recipes ∧ t.link = State.reset.link ∧ t.capping = State.reset.capping
      ∧ t.lift = resetLift ∧ t.reject = State.reset.reject ∧ t.records = State.reset.records
      ∧ t.capture = State.reset.capture ∧ t.classCounts = State.reset.classCounts ∧ t.timeBase = 0
      ∧ t.traces.writeCount = 0 ∧ t.traces.protectedSegs = [] ∧ TestsClosed t
      ∧ ∀ p : Head, t.heads[p] = resetHead t.heads[p].service

/-- Settings committed to the store come back after a reset; a reset that cuts the commit short gives the
factory values and SETTINGS_DEFAULTED (R165, R166, R168). -/
def Obligations.CommittedSettingsSurviveReset : Prop :=
  ∀ (c : Instr) (pins : StartupPins) (s : State), Ready s → s.commit = none →
    c = .powerOn ∨ c = .resetInput →
    (∃ t, runCommands [.commitSettings [], .commitWriteEnd, c, .startup pins] s = .next t
        ∧ liveImage t = liveImage s ∧ t.storeDefaulted = false)
      ∧ ∃ t, runCommands [.commitSettings [], c, .startup pins] s = .next t
        ∧ liveImage t = factoryImage ∧ t.storeDefaulted = true
        ∧ t.alerts.latch[alertIx .settingsDefaulted] = true

/-! ### What every step keeps -/

/-- The state after reset meets every condition of this section. The values of State.reset that the spec leaves
to the start-up chosen are the model's (log entries 1 and 2), and so are the three marks that TestsClosed reads
(log entry 6). -/
def Obligations.ResetStateMeetsInvariants : Prop :=
  LstopFollows State.reset ∧ GateOutFollows State.reset ∧ AlertFollows State.reset
    ∧ PhaseInChange State.reset ∧ HoldMatches State.reset ∧ FewHeadsMatches State.reset
    ∧ GateAndBanks State.reset ∧ PositionsFall State.reset ∧ CountsMatch State.reset
    ∧ GeometriesOk State.reset ∧ StationsPassed State.reset ∧ JarsDistinct State.reset
    ∧ FixedClassesReject State.reset ∧ QueueBounded State.reset ∧ RingCanonical State.reset
    ∧ CountsInRange State.reset ∧ AllParamsOk State.reset ∧ ConfirmsSpread State.reset
    ∧ TestsClosed State.reset ∧ EmptyAtRest State.reset ∧ PocketsFollow State.reset

/-- LSTOP is asserted exactly in FAULT, GATE_OUT exactly while the standing decision is ADMIT, and ALERT
exactly while a latched kind is in the mask (R35, R40, R163). -/
def Obligations.OutputsFollowState : Prop :=
  ∀ s t : State, GateAndBanks s → LstopFollows s → GateOutFollows s → AlertFollows s → step s = .next t →
    LstopFollows t ∧ GateOutFollows t ∧ AlertFollows t

/-- The change phase is NONE exactly outside CHANGE, RUN has an empty hold-reason set and HOLD does not,
FEW_HEADS follows the in-service count and M, the standing decision is the one of R38, and RETIRING holds a
record exactly while its count is above 0 (R24, R28, R38, R47, R65). -/
def Obligations.RunControlKept : Prop :=
  ∀ s t : State, GateAndBanks s → step s = .next t →
    GateAndBanks t ∧ (PhaseInChange s → PhaseInChange t) ∧ (HoldMatches s → HoldMatches t)
      ∧ (FewHeadsMatches s → FewHeadsMatches t)

/-- Positions fall along the Track, the counts of the banks are those of the entries, the geometry satisfies
Table 1-9, and every entry has what the stations it has passed give, so that an entry at k holds a capping
class and one that comes to j an action (R3, R9, R18, R104, R137). In IDLE and PREPARE the Track is empty, and every jar
rides in its own pocket (R6, R25, R27, R30). -/
def Obligations.TrackKept : Prop :=
  ∀ s t : State, GateAndBanks s → PositionsFall s → CountsMatch s → GeometriesOk s → StationsPassed s →
    step s = .next t → PositionsFall t ∧ CountsMatch t ∧ GeometriesOk t ∧ StationsPassed t
      ∧ (EmptyAtRest s → EmptyAtRest t ∧ (PocketsFollow s → PocketsFollow t))

/-- No two entries share a jar number, numbers rise along the Track, and none is 0 (R9, R11). -/
def Obligations.JarNumbersKept : Prop :=
  ∀ s t : State, GateAndBanks s → GeometriesOk s → StationsPassed s → JarsDistinct s →
    step s = .next t → JarsDistinct t ∧ t.track.entries.Pairwise (fun e f => e.jar ≠ f.jar)

/-- The Reject Confirm List never holds more than 8 entries (R139). -/
def Obligations.ConfirmListBounded : Prop :=
  ∀ s t : State, GateAndBanks s → AllParamsOk s → ConfirmsSpread s → step s = .next t →
    ConfirmsSpread t ∧ t.reject.confirms.length ≤ 8

/-- Whatever command is taken, the five fixed classes hold REJECT in the live table, in an image being written
and in the store; the Record Queue holds at most 512 records, the ring keeps its form, counts stop at their
largest values, and every line parameter stays in its range of Table 11-3 (R42, R63, R118, R135, R145, R149,
R161). No comparison of R68, R69 or R130 is left open, so none is made later without its rise, failed exchange or
pitch (R75); the three marks are the model's own (log entry 6). -/
def Obligations.FixedClassesAndBoundsKept : Prop :=
  ∀ s t : State, GateAndBanks s → step s = .next t →
    (FixedClassesReject s → FixedClassesReject t)
      ∧ (QueueBounded s → QueueBounded t) ∧ (RingCanonical s → RingCanonical t)
      ∧ (CountsInRange s → CountsInRange t) ∧ (AllParamsOk s → AllParamsOk t)
      ∧ (TestsClosed s → TestsClosed t)

/-- FAULT is left only by a CLEAR FAULT served with LIFT_FLT released, or by a reset (R24, R37). -/
def Obligations.FaultLeftOnlyByClearFault : Prop :=
  ∀ (c : Instr) (rest : List Instr) (s t : State), GateAndBanks s → s.pending = c :: rest →
    s.run.state = .fault → step s = .next t → t.run.state ≠ .fault →
    resets c = true ∨ ∃ lp, c = .clearFault [] lp ∧ lp.liftFlt = false ∧ s.port.reply = none

/-! ### The line port (chapter 11) -/

/-- What every good frame does (R156, R162): no frame is in progress, the link timer runs one link timeout from
now, or stops when the timeout is 0, and after an expiry LINK_SILENT leaves the hold-reason set. LINK_TIMEOUT,
when the running timer is due, makes the timer EXPIRED and adds LINK_SILENT, and changes nothing else and nothing
when it is not due. That a good frame leaves the receive buffer empty is log entry 16, when the timer is due is
log entry 8, and no effect when it is not is log entry 7. -/
def Obligations.LinkTimerFollowsFrames : Prop :=
  ∀ s : State, HoldMatches s →
    let due := s.port.timer.state = .running ∧ (s.timeBase - s.port.timer.expiresAt).toNat < 2147483648
    ((goodFrame s).port.rxBuf = [] ∧ (goodFrame s).port.reply = s.port.reply
        ∧ (s.params.linkTimeout = 0 → (goodFrame s).port.timer.state = .stopped)
        ∧ (s.params.linkTimeout ≠ 0 → (goodFrame s).port.timer
            = ⟨.running, s.timeBase + BitVec.ofNat 32 s.params.linkTimeout⟩)
        ∧ (s.port.timer.state ≠ .expired → goodFrame s = { s with port := (goodFrame s).port })
        ∧ (s.port.timer.state = .expired →
            HoldTaken .linkSilent false { s with port := (goodFrame s).port } (goodFrame s)))
      ∧ (s.power = .running → due → ∃ t, exec .linkTimeout s = .next t
            ∧ HoldTaken .linkSilent true { s with port.timer.state := .expired } t)
      ∧ (s.power = .running → ¬due → exec .linkTimeout s = .next s)

/-- Bytes that are no request of the part (R156, R158). While a reply is being sent they are discarded. Else bytes
without C5h are discarded; of one whole frame of any length up to 240, the frame changes nothing when its CRC does
not match or its address is neither the unit's nor 0, and a good one restarts the timer and does nothing else. The
unit's address is the one under which a reply still to be sent was asked for, and the live one otherwise. A gap
discards the partial frame. That a good frame given as FRAME_IGNORED does nothing but restart the timer, whatever
its code, is log entry 16; when a reply is being sent is log entry 15. -/
def Obligations.IgnoredFramesOnlyRestartTimer : Prop :=
  ∀ s : State, s.power = .running →
    let unit := match s.port.reply with
      | some r => r.address
      | none => s.params.unitAddress
    (∀ bytes : List Byte, sending s = true → exec (.frameIgnored bytes) s = .next s)
      ∧ (∀ bytes : List Byte, s.port.rxBuf = [] → leadByte ∉ bytes → exec (.frameIgnored bytes) s = .next s)
      ∧ (∀ (addr code crcHi crcLo : Byte) (payload : List Byte), sending s = false → s.port.rxBuf = [] →
          payload.length ≤ 240 →
          let body := addr :: code :: BitVec.ofNat 8 payload.length :: payload
          exec (.frameIgnored (leadByte :: body ++ [crcHi, crcLo])) s
            = .next (if beValue [crcHi, crcLo] = (crc16 body).toNat
                  ∧ (addr.toNat = unit ∨ addr.toNat = 0) then goodFrame s else s))
      ∧ exec .frameGapTimeout s = .next { s with port.rxBuf := [] }

/-- A request that names no message is answered UNKNOWN, and one whose length does not fit BAD_LENGTH, with an
empty payload and none of its changes made; while a reply waits to be sent, a request restarts the timer and gets
no reply, and while one is being sent every frame is discarded (R156, R157). A broadcast with a payload is ignored
(R158). When the waiting ends and the sending begins is the model's choice (log entry 15). -/
def Obligations.UnfitRequestsRefused : Prop :=
  (∀ (code : Byte) (payload : List Byte) (s : State), Ready s →
      exec (.unknown code payload) s = .next (replied (goodFrame s) code .unknown [] (goodFrame s)))
    ∧ (∀ (c : Instr) (code : Byte) (payload : List Byte) (s : State), Ready s →
        c.message = some (code, payload) → toUnit c = true → lengthFits c = false →
        exec c s = .next (replied (goodFrame s) code .badLength [] (goodFrame s)))
    ∧ (∀ (c : Instr) (s : State), s.power = .running → s.port.reply.isSome = true → sending s = false →
        c.message.isSome = true → toUnit c = true → exec c s = .next (goodFrame s))
    ∧ (∀ (c : Instr) (s : State), sending s = true → c.message.isSome = true → exec c s = .next s)
    ∧ ∀ (c : Instr) (s : State), s.power = .running → sending s = false → toUnit c = false →
        lengthFits c = false → exec c s = .next (goodFrame s)

/-- The reply leaves on LP_TXD as the frame of R157, LP_DE is released, and no frame is in progress (R156, R167). A
waiting reply begins to be sent, with LP_DE asserted, at the next millisecond, which is the model's choice within
the 5 ms of R157 (log entry 15). With no reply the end of one changes nothing (log entry 7). -/
def Obligations.ReplyFrameSent : Prop :=
  ∀ s : State, s.power = .running →
    (∀ r, s.port.reply = some r →
        exec .lineReplySent s = .next { s with port := { s.port with reply := none, lpDe := false, rxBuf := []
                                                                     lpTxd := replyFrame r } }
          ∧ replyFrame r = [0xC5, BitVec.ofNat 8 r.address, r.code + 0x80, r.result.byte,
              BitVec.ofNat 8 r.payload.length] ++ r.payload
              ++ crc16Bytes ([BitVec.ofNat 8 r.address, r.code + 0x80, r.result.byte,
                BitVec.ofNat 8 r.payload.length] ++ r.payload)
          ∧ ∃ t, exec .millisecondTick s = .next t ∧ sending t = true
            ∧ t = { s with timeBase := t.timeBase, port := { s.port with lpDe := true } })
      ∧ (s.port.reply = none → exec .lineReplySent s = .next s)

/-- The millisecond time base rises by one at each millisecond and wraps from 4,294,967,295 to 0. It is 0 after
a reset (R1). -/
def Obligations.TimeBaseTicks : Prop :=
  (∀ s : State, s.power = .running → ∃ t, exec .millisecondTick s = .next t
      ∧ t = { s with timeBase := t.timeBase, port := t.port } ∧ t.timeBase = s.timeBase + 1
      ∧ (s.port.reply = none → t = { s with timeBase := t.timeBase }))
    ∧ (0xFFFFFFFF#32 + 1 = 0#32)
    ∧ ∀ (c : Instr) (pins : StartupPins) (s : State), c = .powerOn ∨ c = .resetInput →
        ∃ t, runCommands [c, .startup pins] s = .next t ∧ t.timeBase = 0

/-! ### Run control (chapter 2) -/

/-- The CAP_LOW input sets and clears its hold reason: in RUN the first member makes the state HOLD, and in HOLD
the last to go makes it RUN; in every other state only the set changes (R28, R31). -/
def Obligations.CapLowMovesRun : Prop :=
  ∀ s : State, s.power = .running → HoldMatches s →
    (∃ t, exec .capLowAsserted s = .next t ∧ HoldTaken .capLow true { s with inputs.capLow := true } t)
      ∧ ∃ t, exec .capLowReleased s = .next t ∧ HoldTaken .capLow false { s with inputs.capLow := false } t

/-- HOLD adds HOST and RESUME removes it, in every run state, both with reply DONE; a broadcast has the same
effect and sends no reply, and is taken while an earlier reply waits to be sent as well (R28, R32, R158). -/
def Obligations.HoldAndResumeServed : Prop :=
  ∀ s : State, HoldMatches s →
    (Ready s → ∃ t u, exec (.hold .unit []) s = .next (replied (goodFrame s) 0x31 .done [] t)
        ∧ HoldTaken .host true (goodFrame s) t
        ∧ exec (.resume .unit []) s = .next (replied (goodFrame s) 0x32 .done [] u)
        ∧ HoldTaken .host false (goodFrame s) u)
      ∧ (s.power = .running → sending s = false → ∃ t u, exec (.hold .broadcast []) s = .next t
        ∧ HoldTaken .host true (goodFrame s) t ∧ exec (.resume .broadcast []) s = .next u
        ∧ HoldTaken .host false (goodFrame s) u)

/-- INSERT GAPS is refused in IDLE; else its count, clamped to 1 to 18, joins the gap count, which stops at 18,
and the standing decision is remade (R42). -/
def Obligations.InsertGapsServed : Prop :=
  ∀ (n : Byte) (s : State), Ready s →
    ((goodFrame s).run.state = .idle →
        exec (.insertGaps [n]) s = .next (replied (goodFrame s) 0x36 .wrongState [] (goodFrame s)))
      ∧ ((goodFrame s).run.state ≠ .idle → ∃ t,
        exec (.insertGaps [n]) s = .next (replied (goodFrame s) 0x36
            (if 1 ≤ n.toNat ∧ n.toNat ≤ 18 then .done else .doneClamped) [] t)
          ∧ t.gate.gapCount = min 18 ((goodFrame s).gate.gapCount
              + (if n.toNat < 1 then 1 else if 18 < n.toNat then 18 else n.toNat))
          ∧ DecisionStands t ∧ GateOutFollows t ∧ t.gate.emptyPockets = (goodFrame s).gate.emptyPockets
          ∧ t = { goodFrame s with gate := t.gate })

/-- START RUN (R25, R26). Its checks, in their order: a run state other than IDLE, entries in the Track or an
unsynchronised pocket counter give WRONG_STATE, a lift that moves BUSY, and ACTIVE and STAGED both empty
BAD_VALUE; a refused request changes no state. An accepted one sets the batch with the size clamped, clears the
counters, and with ACTIVE empty promotes STAGED. A lift READY at the ACTIVE height ends PREPARE at once, in RUN or
HOLD; elsewhere a seek is started; an UNKNOWN or FAILED lift is homed, with its first reading of LIFT_HOME and, when
that is inactive, its first step (R111), or, with LIFT_FLT asserted, fails at once in FAULT with LIFT_FAULT (R113).
That the pin levels come with the command is log entry 4, that the first reading is made inside it log entry 17. -/
def Obligations.StartRunServed : Prop :=
  ∀ (p : List Byte) (lp : LiftPins) (s : State), Ready s → p.length = 6 →
    let g := goodFrame s
    let ready := g.run.state = .idle ∧ g.track.entries = [] ∧ g.track.synced = true
    let moves := g.lift.state = .homing ∨ g.lift.state = .seeking
    (¬ready → exec (.startRun p lp) s = .next (replied g 0x30 .wrongState [] g))
      ∧ (ready → moves → exec (.startRun p lp) s = .next (replied g 0x30 .busy [] g))
      ∧ (ready → ¬moves → g.recipes.active = none → g.recipes.staged = none →
        exec (.startRun p lp) s = .next (replied g 0x30 .badValue [] g))
      ∧ (ready → ¬moves → (g.recipes.active.or g.recipes.staged).isSome = true → g.lift.state ≠ .ready →
        lp.liftFlt = true →
        ∃ t, exec (.startRun p lp) s = .next (replied g 0x30
              (if field p 2 4 ≤ 1000000 then .done else .doneClamped) [] t)
          ∧ FaultFor .liftFault t ∧ t.lift.state = .failed ∧ t.lift.known = false ∧ t.lift.stepCount = 0
          ∧ t.lift.requester = none ∧ t.run.batchNumber = field p 0 2)
      ∧ ∀ r : Recipe, ready → ¬moves → g.recipes.active.or g.recipes.staged = some r →
        g.track.activeCount = 0 → lp.liftFlt = false →
        ∃ t, exec (.startRun p lp) s = .next (replied g 0x30
              (if field p 2 4 ≤ 1000000 then .done else .doneClamped) [] t)
          ∧ t.run.batchNumber = field p 0 2 ∧ t.run.batchSize = min (field p 2 4) 1000000
          ∧ t.run.admitted = 0 ∧ t.run.batchEnded = false
          ∧ t.classCounts = Vector.replicate 13 0 ∧ t.gate.emptyPockets = 0
          ∧ t.reject = { g.reject with passed := 0, rejected := 0, missing := 0, purged := 0 }
          ∧ t.recipes = (if g.recipes.active.isSome then g.recipes else
              { g.recipes with active := some r, staged := none, firstMark := true })
          ∧ t.track = g.track ∧ t.heads = g.heads ∧ t.run.hold = g.run.hold
          ∧ t.gate.gapCount = g.gate.gapCount
          ∧ (g.lift.state = .ready → g.lift.position = r.liftHeight → t.lift = g.lift
              ∧ t.run.state = (if isEmptySet g.run.hold then .run else .hold))
          ∧ (g.lift.state = .ready → g.lift.position ≠ r.liftHeight → t.run.state = .prepare
              ∧ t.lift.state = .seeking ∧ t.lift.target = some r.liftHeight ∧ t.lift.period = r.stepPeriod
              ∧ t.lift.stepCount = 0 ∧ t.lift.requester = some .run ∧ t.lift.position = g.lift.position)
          ∧ (g.lift.state = .unknown ∨ g.lift.state = .failed → t.run.state = .prepare
              ∧ t.lift.state = .homing ∧ t.lift.requester = some .run
              ∧ t.lift.stepCount = (if lp.liftHome then 0 else 1)
              ∧ t.lift.known = lp.liftHome ∧ t.lift.settling = lp.liftHome)

/-- STOP RUN has the effect of R27 in each run state, to this unit with its reply and as a broadcast without
(R27, R158). Hold-reason set, fault causes and the numbers of the batch stand. -/
def Obligations.StopRunServed : Prop :=
  ∀ s : State,
    (Ready s → ∃ t, exec (.stopRun .unit []) s = .next (replied (goodFrame s) 0x33
          (if (goodFrame s).run.state = .idle ∨ (goodFrame s).run.state = .fault then .wrongState else .done)
          [] t) ∧ RunStopped (goodFrame s) t)
      ∧ (s.power = .running → sending s = false →
        ∃ t, exec (.stopRun .broadcast []) s = .next t ∧ RunStopped (goodFrame s) t)

/-- CLEAR FAULT (R37): outside FAULT WRONG_STATE, with LIFT_FLT asserted BUSY. A Track that is not frozen keeps
its entries, and the state becomes DRAIN, or IDLE when it is empty. -/
def Obligations.ClearFaultServed : Prop :=
  ∀ (lp : LiftPins) (s : State), Ready s →
    let g := goodFrame s
    (g.run.state ≠ .fault → exec (.clearFault [] lp) s = .next (replied g 0x37 .wrongState [] g))
      ∧ (g.run.state = .fault → lp.liftFlt = true →
        exec (.clearFault [] lp) s = .next (replied g 0x37 .busy [] (sampleLift lp g)))
      ∧ (g.run.state = .fault → lp.liftFlt = false → frozen g = false → ∃ t,
        exec (.clearFault [] lp) s = .next (replied g 0x37 .done [] t)
          ∧ t = { sampleLift lp g with run := t.run, gate := t.gate }
          ∧ t.run.causes = noMembers 7 ∧ t.run.lstop = false ∧ t.run.hold = g.run.hold
          ∧ t.run.state = (if g.track.entries.isEmpty then .idle else .drain)
          ∧ t.run = { g.run with state := t.run.state, phase := .none, lstop := false, causes := noMembers 7
                                 request := t.run.request })

/-- CLEAR FAULT of a frozen Track purges it (R21, R37): every entry departs PURGED, oldest first, and leaves a
record in that order, with the final class it held or takes from a capping class other than CAPPED_OK (R17); the
Track is empty with both counts 0, RETIRING is empty, and the state is IDLE. The pocket counter, the pitch count and
the next jar number stand. For an entry below x (R107, R83): a head bound to it is released, with its current tag as
late watch when the cycle had no final result; an open curve fetch of it is closed with TRACE_LOST; and a head
MARKED_OUT with HOST or FAILURES leaves the scan set, keeping its tag only. Other bindings and lines stand. -/
def Obligations.FrozenTrackPurged : Prop :=
  ∀ (lp : LiftPins) (s : State), Ready s → PositionsFall s → CountsMatch s → BanksMatch s →
    let g := goodFrame s
    let below (e : Entry) := e.position < g.track.geometry.x
    let fetchOf (e : Entry) := ∃ f, g.link.lines[e.pocket].fetch = some f ∧ f.jar = e.jar
    g.run.state = .fault → g.run.request = none → lp.liftFlt = false → frozen g = true → ∃ t,
      exec (.clearFault [] lp) s = .next (replied g 0x37 .done [] t)
        ∧ t.run.state = .idle ∧ t.run.causes = noMembers 7 ∧ t.run.lstop = false
        ∧ t.track = { g.track with entries := [], activeCount := 0, retiringCount := 0 }
        ∧ t.recipes = { g.recipes with retiring := none }
        ∧ (g.records.queue.length + g.track.entries.length ≤ 512 → ∃ rs, t.records.queue = g.records.queue ++ rs
          ∧ List.Forall₂ (fun (e : Entry) (r : JarRecord) => r.jar = e.jar ∧ r.disposition = .purged
              ∧ r.head = e.pocket ∧ r.finalClass = e.finalClass.or (e.capClass.bind CapClass.final)
              ∧ r.trace = e.trace
              ∧ (e.flags.has .traceLost = true ∨ below e ∧ fetchOf e → r.flags.has .traceLost = true)
              ∧ (r.flags.has .traceLost = true → e.flags.has .traceLost = true
                ∨ ∃ (p : Head) (f : CurveFetch), g.link.lines[p].fetch = some f ∧ f.jar = e.jar))
            g.track.entries rs)
        ∧ ∀ p : Head, let l := g.link.lines[p]
          let bound := ∃ e ∈ g.track.entries, below e ∧ e.pocket = p ∧ g.capping[p].bound = some e.jar
          let lost := ∃ e ∈ g.track.entries, below e ∧ e.pocket = p ∧ fetchOf e
          let out := (g.heads[p].service = .markedOut .host ∨ g.heads[p].service = .markedOut .failures)
            ∧ ∃ e ∈ g.track.entries, below e ∧ e.pocket = p
          (bound → t.capping[p]
              = ⟨none, .none, if g.capping[p].stage = .applied then some l.tag else none⟩)
            ∧ (¬bound → t.capping[p] = g.capping[p])
            ∧ (out → t.link.lines[p] = { l with slot := .empty, fetch := none, unconfirmed := none })
            ∧ (¬out → lost → t.link.lines[p] = { l with fetch := none })
            ∧ (¬out → ¬lost → t.link.lines[p] = l)

/-- A fault cause raised outside FAULT (R33 to R35): the state becomes FAULT with LSTOP asserted, FAULT_ENTERED is
latched, every entry takes AFTER_FAULT, each turret entry without a class takes INTERRUPTED and an ABORT stands in
the slot of its head, a pending request is dropped with the banks kept, and the batch-ended flag is set. In FAULT
the cause joins the set, FAULT_ENTERED is latched, and nothing else changes. -/
def Obligations.FaultEntryMarksEntries : Prop :=
  ∀ (c : Cause) (s : State),
    (s.run.state ≠ .fault →
        (raiseCause c s).run = { s.run with state := .fault, phase := .none, lstop := true, request := none
                                            batchEnded := true, causes := s.run.causes.set (causeIx c) true }
          ∧ (raiseCause c s).alerts.latch = s.alerts.latch.set (alertIx .faultEntered) true
          ∧ (raiseCause c s).gate = { s.gate with decision := .closed, gateOut := false }
          ∧ (raiseCause c s).recipes = s.recipes ∧ (raiseCause c s).lift = s.lift
          ∧ (raiseCause c s).track.entries.map (fun e => (e.jar, e.position, e.capClass))
              = s.track.entries.map (fun e => (e.jar, e.position,
                  if e.position < s.track.geometry.x ∧ e.capClass = none then some .interrupted else e.capClass))
          ∧ (∀ e ∈ (raiseCause c s).track.entries, e.flags.has .afterFault = true)
          ∧ ∀ e ∈ s.track.entries, e.position < s.track.geometry.x → e.capClass = none →
              (raiseCause c s).link.lines[e.pocket].slot = .abort)
      ∧ (s.run.state = .fault → raiseCause c s = { s with
          run.causes := s.run.causes.set (causeIx c) true, alerts := (raiseCause c s).alerts }
          ∧ (raiseCause c s).alerts.latch = s.alerts.latch.set (alertIx .faultEntered) true)

/-- DRAIN ends in IDLE when the Track is empty, with the gap count 0 and no request (R30). At BATCH_END in RUN the
flag is set and BATCH_DONE latched; with no request the state becomes DRAIN, or IDLE with an empty Track; a
flying request that waits, or one at AT_ADMISSION, swaps at once when RETIRING is empty and else goes to AT_RETIRE;
a drained one enters CHANGE (R29, R54, R56). That BATCH_END and DRAIN_END act as rows of their own, after the step
that makes them due, is log entry 6; that they change nothing but pin levels when they are not due is log entry 7. -/
def Obligations.DrainAndBatchEnd : Prop :=
  ∀ s : State, s.power = .running →
    (s.run.state = .drain → s.track.entries = [] → exec .drainEnd s = .next { s with
        run := { s.run with state := .idle, phase := .none, lstop := false, request := none }
        gate := { s.gate with decision := .closed, gateOut := false, gapCount := 0 } })
      ∧ (¬(s.run.state = .drain ∧ s.track.entries = []) → exec .drainEnd s = .next s)
      ∧ (∀ lp : LiftPins, ¬(s.run.batchSize ≠ 0 ∧ s.run.batchSize ≤ s.run.admitted ∧ s.run.batchEnded = false) →
        exec (.batchEnd lp) s = .next (sampleLift lp s))
      ∧ ∀ lp : LiftPins, s.run.state = .run → s.run.batchSize ≠ 0 → s.run.batchSize ≤ s.run.admitted →
        s.run.batchEnded = false →
        ∃ t, exec (.batchEnd lp) s = .next t ∧ t.alerts.latch[alertIx .batchDone] = true
          ∧ (s.run.request = none → t.run.batchEnded = true ∧ t.gate.decision = .closed
              ∧ t.run.state = (if s.track.entries.isEmpty then .idle else .drain))
          ∧ ∀ r, s.run.request = some r → r.stage = .waiting ∨ r.stage = .atAdmission →
            (r.kind = .flying ∨ r.stage = .atAdmission → s.recipes.retiring.isSome = true → t.run.state = .run
                ∧ t.run.batchEnded = true ∧ t.run.request = some { r with stage := .atRetire }
                ∧ t.gate.decision = .closed ∧ t.recipes = s.recipes)
              ∧ (∀ q, r.kind = .flying → s.recipes.retiring = none → s.track.retiringCount = 0 →
                s.recipes.staged = some q → t.run.state = .run ∧ t.run.batchEnded = false
                ∧ t.run.batchNumber = r.nextNumber ∧ t.run.batchSize = r.nextSize ∧ t.run.admitted = 0
                ∧ t.run.request = none ∧ t.recipes.active = some q ∧ t.recipes.staged = none
                ∧ t.alerts.latch[alertIx .changeoverDone] = true)
              ∧ (r.kind = .drained → r.stage = .waiting →
                (∃ e ∈ s.track.entries, e.position < s.track.geometry.x) →
                t.run.state = .change ∧ t.run.phase = .waitTurret ∧ t.run.batchEnded = true
                  ∧ t.run.request = some { r with stage := .inChange } ∧ t.recipes = s.recipes)

/-! ### Recipes and changeovers (chapter 3) -/

/-- WAIT_TURRET ends when no entry stands below x and RETIRING is empty (R58): the phase becomes LIFT, and a READY
lift seeks the STAGED height at its step period, while an UNKNOWN or FAILED one is homed (R59). At the STAGED
height already, the swap is made and the changeover completed. A home with LIFT_FLT asserted fails at once, in FAULT
with LIFT_FAULT (R113). That the phase ends in a row of its own is log entry 6, that while a condition fails nothing
but the pin levels is taken log entry 7, that the command brings the levels log entry 4, and that the first reading
of LIFT_HOME, with the first step of R111, is made inside it log entry 17. -/
def Obligations.TurretWaitEndsInLift : Prop :=
  ∀ (lp : LiftPins) (s : State), s.power = .running →
    let g := sampleLift lp s
    let ends := s.run.state = .change ∧ s.run.phase = .waitTurret ∧ s.recipes.retiring = none
      ∧ ∀ e ∈ s.track.entries, s.track.geometry.x ≤ e.position
    (¬ends → exec (.waitTurretEnd lp) s = .next g)
      ∧ (ends → lp.liftFlt = true → s.lift.state = .unknown ∨ s.lift.state = .failed →
        ∃ t, exec (.waitTurretEnd lp) s = .next t ∧ FaultFor .liftFault t ∧ t.lift.state = .failed
          ∧ t.lift.known = false ∧ t.lift.stepCount = 0 ∧ t.lift.requester = none
          ∧ t.lift.position = s.lift.position ∧ t.run.request = none ∧ t.recipes = s.recipes)
      ∧ ∀ r, ends → lp.liftFlt = false → s.recipes.staged = some r →
        ∃ t, exec (.waitTurretEnd lp) s = .next t
          ∧ (s.lift.state = .ready → s.lift.position ≠ r.liftHeight →
            t = { g with run.phase := .lift, lift := t.lift } ∧ t.lift.state = .seeking
              ∧ t.lift.target = some r.liftHeight ∧ t.lift.period = r.stepPeriod
              ∧ t.lift.requester = some .run ∧ t.lift.stepCount = 0
              ∧ t.lift.dirDown = decide (s.lift.position < r.liftHeight)
              ∧ t.lift.position = s.lift.position ∧ t.lift.known = s.lift.known)
          ∧ (s.lift.state = .unknown ∨ s.lift.state = .failed →
            t = { g with run.phase := .lift, lift := t.lift } ∧ t.lift.state = .homing
              ∧ t.lift.period = s.params.homePeriod ∧ t.lift.requester = some .run
              ∧ t.lift.stepCount = (if lp.liftHome then 0 else 1)
              ∧ t.lift.target = none ∧ t.lift.dirDown = false
              ∧ t.lift.known = lp.liftHome ∧ t.lift.settling = lp.liftHome)
          ∧ ∀ q, s.run.request = some q → q.kind = .drained → s.track.retiringCount = 0 →
            s.lift.state = .ready → s.lift.position = r.liftHeight →
            t.recipes.active = some r ∧ t.recipes.staged = none ∧ t.run.request = none
              ∧ t.run.batchNumber = q.nextNumber ∧ t.lift.position = s.lift.position
              ∧ t.run.state = (if isEmptySet s.run.hold then .run else .hold) ∧ t.run.phase = .none

/-- The swap (R19, R50): STAGED moves to ACTIVE and is empty, and the mark is set. With jars on ACTIVE, its recipe
and count move to RETIRING and every entry references RETIRING; with none, the old recipe is dropped.
RETIRING_EMPTIED (R51, R56), outside CHANGE: with the RETIRING count at 0 and a record still in RETIRING, the record
goes, and a request at AT_RETIRE makes its swap, with the changeover completed by R57. That the emptying has a row of
its own, beside the departure that makes it, is log entry 6; that the row takes only the pin levels when it is not
due is log entry 7. -/
def Obligations.SwapMovesBanks : Prop :=
  (∀ s : State, CountsMatch s → s.track.retiringCount = 0 →
      let t := doSwap s
      CountsMatch t ∧ t = { s with recipes := t.recipes, track := t.track }
        ∧ t.recipes.active = s.recipes.staged ∧ t.recipes.staged = none ∧ t.recipes.firstMark = true
        ∧ (s.track.activeCount = 0 → t.track = s.track ∧ t.recipes.retiring = s.recipes.retiring)
        ∧ (0 < s.track.activeCount → t.recipes.retiring = s.recipes.active
            ∧ t.track = { s.track with
                entries := s.track.entries.map (fun e => { e with bank := .retiring })
                retiringCount := s.track.activeCount, activeCount := 0 }))
    ∧ ∀ (lp : LiftPins) (s : State), s.power = .running → s.run.state ≠ .change →
      let g := sampleLift lp s
      let due := s.track.retiringCount = 0 ∧ s.recipes.retiring.isSome = true
      (¬due → exec (.retiringEmptied lp) s = .next g)
        ∧ (due → (∀ r, s.run.request = some r → r.stage ≠ .atRetire) →
          exec (.retiringEmptied lp) s = .next { g with recipes.retiring := none })
        ∧ ∀ r q, due → s.run.request = some r → r.stage = .atRetire → s.recipes.staged = some q →
          ∃ t, exec (.retiringEmptied lp) s = .next t ∧ t.recipes.active = some q ∧ t.recipes.staged = none
            ∧ t.run = { s.run with batchNumber := r.nextNumber, batchSize := r.nextSize, admitted := 0
                                   batchEnded := false, request := none }
            ∧ t.alerts.latch = s.alerts.latch.set (alertIx .changeoverDone) true ∧ DecisionStands t

/-- REQUEST CHANGEOVER (R53): its checks in their order, then the request with its kind (R50) and the stage of
Table 3-3, the size clamped. A drained one of mode NOW enters CHANGE (R55), with the gate closed and batch and
hold-reason set kept. CANCEL CHANGEOVER (R60): refused with none pending or IN_CHANGE; at AT_RETIRE the batch end
it had taken makes the state DRAIN, or IDLE. -/
def Obligations.ChangeoverRequested : Prop :=
  ∀ (p : List Byte) (lp : LiftPins) (s : State), Ready s → p.length = 7 →
    let g := goodFrame s
    let m := field p 0 1
    let held := g.run.state = .run ∨ g.run.state = .hold
    let refused (r : ResultCode) := exec (.requestChangeover p lp) s = .next (replied g 0x34 r [] g)
    (¬held → refused .wrongState)
      ∧ (held → g.run.request ≠ none → refused .busy)
      ∧ (held → g.run.request = none →
        g.recipes.staged = none ∨ m = 2 ∧ g.run.batchSize = 0 ∨ m ≠ 1 ∧ m ≠ 2 → refused .badValue)
      ∧ (∀ q a, held → g.run.request = none → g.recipes.staged = some q → g.recipes.active = some a →
        m = 1 ∨ m = 2 ∧ g.run.batchSize ≠ 0 →
        let flying := a.liftHeight = q.liftHeight
        let r : Changeover := { mode := if m = 1 then .now else .atBatchEnd
                                kind := if flying then .flying else .drained
                                nextNumber := field p 1 2, nextSize := min (field p 3 4) 1000000
                                stage := if m = 2 then .waiting else if flying then .atAdmission
                                  else .inChange }
        ∃ t, exec (.requestChangeover p lp) s = .next (replied g 0x34
              (if field p 3 4 ≤ 1000000 then .done else .doneClamped) [] t)
          ∧ (m = 2 ∨ flying → t = { g with run.request := some r })
          ∧ (m = 1 → ¬flying →
            g.recipes.retiring ≠ none ∨ (∃ e ∈ g.track.entries, e.position < g.track.geometry.x) →
            t = { sampleLift lp g with
              run := { g.run with state := .change, phase := .waitTurret, lstop := false, request := some r }
              gate := { g.gate with decision := .closed, gateOut := false } }))
      ∧ (g.run.request = none →
        exec (.cancelChangeover []) s = .next (replied g 0x35 .wrongState [] g))
      ∧ ∀ r, g.run.request = some r →
        (r.stage = .inChange → exec (.cancelChangeover []) s = .next (replied g 0x35 .wrongState [] g))
          ∧ (r.stage = .waiting ∨ r.stage = .atAdmission → exec (.cancelChangeover []) s
              = .next (replied g 0x35 .done [] { g with run.request := none }))
          ∧ (r.stage = .atRetire → held → ∃ t,
            exec (.cancelChangeover []) s = .next (replied g 0x35 .done [] t)
              ∧ t = { g with run := t.run, gate := t.gate } ∧ t.run.request = none
              ∧ t.run.batchEnded = g.run.batchEnded ∧ t.run.hold = g.run.hold
              ∧ t.run = { g.run with state := t.run.state, phase := .none, lstop := false, request := none }
              ∧ t.run.state = (if g.track.entries.isEmpty then .idle else .drain))

/-- STAGE RECIPE (R46, R48): BUSY while a request is pending; each field of Table 12-5 is moved to the nearer end of
its own range of Table 3-1, and kept where it lies inside, whatever the others do; the first broken relation of
Table 3-2 refuses it by number; else it replaces STAGED and nothing else. DISCARD STAGED (R49) empties STAGED unless
a request is pending. -/
def Obligations.RecipesStaged : Prop :=
  ∀ (p : List Byte) (s : State), Ready s → p.length = 46 →
    let g := goodFrame s
    let at_ (lo hi off len : Nat) := max lo (min (field p off len) hi)
    let raw : Recipe := recipeOfBytes p
    let r : Recipe :=
      { id := field p 0 2, name := (p.drop 2).take 12, liftHeight := at_ 0 15000 14 2
        stepPeriod := at_ 5 200 16 1, torqueSet := at_ 50 1000 17 2, torqueLo := at_ 0 1200 19 2
        torqueHi := at_ 0 1200 21 2, angleLo := at_ 0 3600 23 2, angleHi := at_ 0 3600 25 2
        angleMax := at_ 0 3600 27 2, steamDwell := at_ 0 800 29 2, attemptsLimit := at_ 1 4 31 1
        dFull := at_ 0 2000 32 2, tau := at_ 1000 60000 34 2, dudFraction := at_ 0 100 36 1
        bulgeLimit := at_ 0 2000 37 2, gain := at_ 1 255 39 1, tRef := at_ 300 1000 40 2
        tAmb := at_ 0 400 42 2, tMin := at_ 0 1000 44 2 }
    (clampRecipe raw = r ∧ RecipeInRange r ∧ (RecipeInRange raw ↔ r = raw))
      ∧ (g.run.request ≠ none → exec (.stageRecipe p) s = .next (replied g 0x20 .busy [] g)
        ∧ exec (.discardStaged []) s = .next (replied g 0x21 .busy [] g))
      ∧ (g.run.request = none →
        (∀ n : Fin 5, (∀ m, m < n → recipeRelation r m) → ¬recipeRelation r n →
            exec (.stageRecipe p) s
              = .next (replied g 0x20 .badValue [BitVec.ofNat 8 (n.val + 1)] g))
          ∧ ((∀ n, recipeRelation r n) → exec (.stageRecipe p) s = .next (replied g 0x20
              (if r = raw then .done else .doneClamped) [] { g with recipes.staged := some r }))
          ∧ exec (.discardStaged []) s
              = .next (replied g 0x21 .done [] { g with recipes.staged := none }))

/-- The 46 bytes of Table 12-5 hold a recipe record with no bit lost, in both directions; a record in range that
is staged is read back byte for byte by READ RECIPE, after its bank code (R45 to R48, R172). -/
def Obligations.RecipeRecordRoundTrip : Prop :=
  (∀ p : List Byte, p.length = 46 → recipeBytes (recipeOfBytes p) = p)
    ∧ (∀ r : Recipe, RecipeInRange r → r.name.length = 12 → recipeOfBytes (recipeBytes r) = r)
    ∧ ∀ (p : List Byte) (s : State), Ready s → p.length = 46 → s.run.request = none →
      RecipeInRange (recipeOfBytes p) → (∀ n, recipeRelation (recipeOfBytes p) n) →
      ∃ t, runCommands [.stageRecipe p, .lineReplySent, .readRecipe [1]] s = .next t
        ∧ t.port.reply = some ⟨s.params.unitAddress, 0x04, .done, 0x01 :: p⟩

/-! ### Heads and the head link (chapters 4 and 5) -/

/-- SET HEAD SERVICE (R66): a list with a head outside 1 to 18 or another state code is refused whole; else the last
pair of each head gives its state and reason, a pair with IN_SERVICE sets both counts to 0, one with MARKED_OUT
leaves them as they are, statistics stand, and FEW_HEADS and the standing decision follow; HEAD_MARKED is not
latched. A head whose state or reason is thereby another leaves the scan set when it is MARKED_OUT and holds no jar
in the turret, keeping its tag only, with TRACE_LOST for the jar of an open fetch; with a jar in the turret it stays
in the set, and so does a head IN_SERVICE, with slot and fetch as they are (R70, R71, R82, R83). CLEAR HEAD STATS (R73) clears one head or all. -/
def Obligations.HeadServiceSet : Prop :=
  ∀ s : State, Ready s →
    let g := goodFrame s
    (∀ p : List Byte, listFits 18 2 p = true →
        let pairs := pairsOf (p.drop 1)
        ((∃ q ∈ pairs, ¬(1 ≤ q.1 ∧ q.1 ≤ 18 ∧ q.2 ≤ 1)) →
          exec (.setHeadService p) s = .next (replied g 0x24 .badValue [] g))
        ∧ ((∀ q ∈ pairs, 1 ≤ q.1 ∧ q.1 ≤ 18 ∧ q.2 ≤ 1) →
          ∃ t, exec (.setHeadService p) s = .next (replied g 0x24 .done [] t)
            ∧ DecisionStands t ∧ FewHeadsMatches t
            ∧ t.alerts.latch[alertIx .headMarked] = g.alerts.latch[alertIx .headMarked]
            ∧ t.track.entries.map (fun e => (e.jar, e.position, e.capClass))
              = g.track.entries.map (fun e => (e.jar, e.position, e.capClass))
            ∧ (∀ h : Head, let l := g.link.lines[h]
              let riding := ∃ e ∈ g.track.entries, e.pocket = h ∧ e.position < g.track.geometry.x
              let leaves := t.heads[h].service ≠ g.heads[h].service ∧ t.heads[h].service = .markedOut .host ∧ ¬riding
              (leaves → t.link.lines[h] = { l with slot := .empty, fetch := none, unconfirmed := none }
                  ∧ ∀ f, l.fetch = some f → ∀ e ∈ t.track.entries, e.jar = f.jar →
                    e.flags.has .traceLost = true)
                ∧ (¬leaves → t.link.lines[h] = l)
                ∧ (t.heads[h].service = .inService → InScan h t)
                ∧ (t.heads[h].service = .markedOut .host → (InScan h t ↔ riding)))
            ∧ ∀ h : Head, t.heads[h].stats = g.heads[h].stats
              ∧ ((∀ q ∈ pairs, q.1 ≠ h.number) → t.heads[h] = g.heads[h])
              ∧ ((pairs.filter (fun q => q.1 == h.number)).getLast? = some (h.number, 0) →
                t.heads[h] = { g.heads[h] with service := .inService, failures := 0, noReplies := 0 })
              ∧ ((pairs.filter (fun q => q.1 == h.number)).getLast? = some (h.number, 1) →
                t.heads[h] = { g.heads[h] with
                  service := .markedOut .host
                  failures := if (h.number, 0) ∈ pairs then 0 else g.heads[h].failures
                  noReplies := if (h.number, 0) ∈ pairs then 0 else g.heads[h].noReplies })))
      ∧ exec (.clearHeadStats [0]) s = .next (replied g 0x3A .done []
          { g with heads := g.heads.map (fun h => { h with stats := ⟨0, 0, 0, 0, 0, 0, 0, 0⟩ }) })
      ∧ (∀ h : Head, exec (.clearHeadStats [BitVec.ofNat 8 h.number]) s = .next (replied g 0x3A .done []
          { g with heads := g.heads.set h { g.heads[h] with stats := ⟨0, 0, 0, 0, 0, 0, 0, 0⟩ } }))
      ∧ ∀ b : Byte, 18 < b.toNat →
        exec (.clearHeadStats [b]) s = .next (replied g 0x3A .badValue [] g)

/-- The two mark-outs. After a rise of its failure count a head IN_SERVICE at or above F, F not 0, is marked out with
FAILURES (R68); after a failed exchange a head whose no-reply count is 3 is marked out with LINK unless it is already
(R69). Each comparison is made once, for its own rise or exchange, and none without one, so a lowered F marks out at
the next failing class only (R75). The step that makes the rise or the failed exchange makes the comparison in it, and
the two rows of the table make it where it has been left open, which is the model's reading (log entries 6 and 26);
with none open they change nothing (log entry 7). -/
def Obligations.MarkOutsTaken : Prop :=
  ∀ (p : Head) (s : State), s.power = .running →
    let h := s.heads[p]
    let due := s.params.failLimit ≠ 0 ∧ s.params.failLimit ≤ h.failures ∧ h.service = .inService
    let silent := h.noReplies = 3 ∧ h.service ≠ .markedOut .link
    (h.riseOpen = false → exec (.autoMarkOut p) s = .next s)
      ∧ (h.riseOpen = true → ¬due →
        exec (.autoMarkOut p) s = .next { s with heads := s.heads.set p { h with riseOpen := false } })
      ∧ (h.riseOpen = true → due → ∃ t, exec (.autoMarkOut p) s = .next t ∧ MarkedOutFor p .failures s t
        ∧ t.heads[p].riseOpen = false ∧ t.heads[p].silenceOpen = h.silenceOpen)
      ∧ (h.silenceOpen = false → exec (.linkMarkOut p) s = .next s)
      ∧ (h.silenceOpen = true → ¬silent →
        exec (.linkMarkOut p) s = .next { s with heads := s.heads.set p { h with silenceOpen := false } })
      ∧ (h.silenceOpen = true → silent → ∃ t, exec (.linkMarkOut p) s = .next t ∧ MarkedOutFor p .link s t
        ∧ t.heads[p].silenceOpen = false ∧ t.heads[p].riseOpen = h.riseOpen)

/-- A turn of the scan (R76, R82, R85): heads outside the scan set are skipped at once, and with the first head of
the set from the pointer on the command of its slot, POLL for an empty one, leaves as the frame of R173, the exchange
takes the reply window, and the pointer stands at that head; with no head in the set the line is idle. An exchange
that brings no reply, or a broken one, fails (R69, R77, R88, R89): the no-reply count and the statistic rise, a sent
APPLY is kept unconfirmed, a CURVE sent in an earlier exchange is placed again, and the third failure in a row marks
the head out with LINK. That an APPLY is kept even by the failure that marks its head out is log entry 18, that one
EXCHANGE_START makes the whole search is log entry 21, and that it changes nothing during an exchange log entry 7. -/
def Obligations.ExchangesStartAndFail : Prop :=
  ∀ s : State, s.power = .running →
    (s.link.exchange.isSome = true → exec .exchangeStart s = .next s)
      ∧ ((∀ p, ¬InScan p s) → exec .exchangeStart s = .next s)
      ∧ (∀ n : Head, let p := s.link.pointer + n
        s.link.exchange = none → InScan p s → (∀ m, m < n → ¬InScan (s.link.pointer + m) s) →
        ∃ t, exec .exchangeStart s = .next t
        ∧ t = { s with link := t.link, heads := t.heads }
        ∧ t.link.exchange = some ⟨p, slotCommand s.link.lines[p].slot, s.params.replyWindow⟩
        ∧ t.link.hlTxd = commandFrame p (slotCommand s.link.lines[p].slot) ∧ t.link.pointer = p
        ∧ t.link.lines = s.link.lines.set p { s.link.lines[p] with
            slot := .empty
            fetch := if s.link.lines[p].slot = .curve
              then s.link.lines[p].fetch.map (fun f => { f with stage := .sent })
              else s.link.lines[p].fetch }
        ∧ t.heads = (match s.link.lines[p].slot with
          | .apply _ => s.heads.set p { s.heads[p] with
              stats := { s.heads[p].stats with applySent := satInc max32 s.heads[p].stats.applySent } }
          | _ => s.heads))
      ∧ ∀ (x : Exchange) (c : Instr), s.link.exchange = some x → s.heads[x.head].noReplies ≤ 3 →
        c = .replyWindowExpiry ∨ c = .replyGapTimeout →
        ∃ t, exec c s = .next t ∧ t.link.exchange = none ∧ t.link.pointer = x.head + 1
          ∧ t.capping = s.capping ∧ t.link.lines[x.head].tag = s.link.lines[x.head].tag
          ∧ t.heads[x.head].noReplies = min 3 (s.heads[x.head].noReplies + 1)
          ∧ t.heads[x.head].stats = { s.heads[x.head].stats with
              noReply := satInc max32 s.heads[x.head].stats.noReply }
          ∧ (∀ a, x.command = .apply a → t.link.lines[x.head].unconfirmed = some a)
          ∧ (∀ f, s.heads[x.head].noReplies < 2 → s.link.lines[x.head].fetch = some f → f.stage = .sent →
            x.command ≠ .curve → s.link.lines[x.head].slot = .empty →
            t.link.lines[x.head].slot = .curve
              ∧ t.link.lines[x.head].fetch = some { f with stage := .wanted })
          ∧ (2 ≤ s.heads[x.head].noReplies → s.heads[x.head].service ≠ .markedOut .link →
            t.heads[x.head].service = .markedOut .link ∧ t.alerts.latch[alertIx .headMarked] = true)
          ∧ (s.heads[x.head].noReplies < 2 → t.heads[x.head].service = s.heads[x.head].service)

/-- A reply frame ends the exchange good (R69, R77). A report that R87 calls stale is counted and reaches no
binding. A current DONE of a head at stage APPLIED is taken for the bound jar: it counts in the statistic of its
outcome (R72), and unless R97 asks for a reapply it is its final result, SEATED with the seal time of R98, so a
CROSS_THREAD at the attempts limit, at or after e, or of a jar that holds a class is final too; with trace mode ALL a CURVE is placed for a curve of 1 or more
samples, with OFF the flag TRACE_OFF is added (R99); CROSS_THREAD within the limits of R97 places the next APPLY
under the next tag, or, refused by an ABORT in the slot, makes the jar HEAD_FAULT and frees the head (R94, R96). With no jar bound, a current BUSY or DONE that the late watch names is counted stale,
and a DONE ends the watch (R106). An unconfirmed APPLY is settled by the report (R88): placed again where the head
did not receive it and the three further conditions hold, and removed in every case. A frame that is no report of the
head fails the exchange like a silence; that a frame longer than its length byte gives is none is the model's choice
(log entry 36). -/
def Obligations.GoodReplyEndsExchange : Prop :=
  ∀ (x : Exchange) (s : State), s.power = .running → s.link.exchange = some x →
    let p := x.head
    let l := s.link.lines[p]
    (∀ frame, parseReply p frame = none → exec (.replyReceived frame) s = exec .replyWindowExpiry s)
      ∧ ∀ r : Report, r.inRange = true →
        let stale := (reportTag r).isSome = true
          ∧ (reportTag r ≠ some l.tag ∨ (∃ a, x.command = .apply a) ∨ l.applyConfirmed = false)
        let counted := { s.heads[p].stats with stale := satInc max32 s.heads[p].stats.stale }
        ∃ t, exec (.replyReceived (reportFrame p r)) s = .next t
          ∧ t.link.exchange = none ∧ t.link.pointer = p + 1 ∧ t.heads[p].noReplies = 0
          ∧ t.heads[p].service = s.heads[p].service ∧ t.heads[p].failures = s.heads[p].failures
          ∧ ((∃ a, x.command = .apply a) → t.link.lines[p].applyConfirmed = true)
          ∧ (stale → t.capping = s.capping ∧ t.link.lines[p].tag = l.tag ∧ t.heads[p].stats = counted)
          ∧ (∀ d : DoneReport, ¬stale → s.capping[p].stage = .none →
            (∃ n, r = .busy l.tag n) ∨ r = .done d →
            t.link.lines[p].tag = l.tag
              ∧ (s.capping[p].lateWatch = some l.tag → t.heads[p].stats = counted
                ∧ t.capping = (if r = .done d then s.capping.set p { s.capping[p] with lateWatch := none }
                  else s.capping))
              ∧ (s.capping[p].lateWatch ≠ some l.tag → t.heads[p].stats = s.heads[p].stats
                ∧ t.capping = s.capping)
              ∧ (l.fetch = none → t.track = s.track))
          ∧ t.link.lines[p].unconfirmed = none
          ∧ (∀ a, l.unconfirmed = some a →
            let received := l.applyConfirmed = true
              ∧ ((∃ n, r = .busy a.tag n) ∨ ∃ d : DoneReport, r = .done d ∧ d.tag = a.tag)
            let again := a.tag = l.tag ∧ x.command = .poll ∧ l.slot = .empty
            (¬received → again → t.link.lines[p].slot = .apply a ∧ t.link.lines[p].tag = l.tag
                ∧ t.link.lines[p].fetch = none)
              ∧ (received ∨ ¬again → l.fetch = none → (∀ d, r = .done d → d.tag ≠ l.tag) →
                t.link.lines[p].slot = l.slot))
          ∧ ∀ (d : DoneReport) (jar : Word32) (e : Entry), r = .done d → ¬stale →
            s.capping[p].bound = some jar → s.capping[p].stage = .applied → entryOf jar s = some e →
            let reapply := d.outcome = .crossThread ∧ e.capClass = none
              ∧ e.attempts < (recipeOf e.bank s).attemptsLimit ∧ e.position < s.track.geometry.e
            let up (o : CycleOutcome) (n : Nat) := if d.outcome = o then satInc max32 n else n
            let n := s.heads[p].stats
            t.heads[p].stats = { n with
                seated := up .seated n.seated, crossThread := up .crossThread n.crossThread
                noCap := up .noCap n.noCap, overAngle := up .overAngle n.overAngle
                aborted := up .aborted n.aborted }
              ∧ (¬reapply → t.capping[p] = { s.capping[p] with stage := .result }
                ∧ (s.traces.modeAll = true → 1 ≤ d.curveLength → l.slot = .empty →
                  t.link.lines[p].slot = .curve ∧ t.link.lines[p].fetch = some ⟨jar, l.tag, .wanted⟩)
                ∧ (s.traces.modeAll = false ∨ d.curveLength = 0 → l.fetch = none →
                  t.link.lines[p].slot = l.slot ∧ t.link.lines[p].fetch = none)
                ∧ ∃ f ∈ t.track.entries, f.jar = jar ∧ f.position = e.position
                  ∧ f.lastOutcome = some d.outcome ∧ f.peakTorque = some d.peakTorque
                  ∧ f.seatAngle = some d.seatAngle ∧ f.steam = d.steam ∧ f.capClass = e.capClass
                  ∧ f.sealTime = (if d.outcome = .seated
                      then some (s.timeBase - BitVec.ofNat 32 (10 * d.seatAge)) else e.sealTime)
                  ∧ (s.traces.modeAll = false → f.flags.has .traceOff = true)
                  ∧ (s.traces.modeAll = true → 1 ≤ d.curveLength →
                    l.slot = .abort ∨ (∃ a, l.slot = .apply a) → f.flags.has .traceLost = true
                      ∧ t.link.lines[p].slot = l.slot ∧ t.link.lines[p].fetch = none))
              ∧ (reapply → e.pocket = p → l.slot = .abort →
                t.capping[p] = ⟨none, .none, none⟩ ∧ t.link.lines[p].tag = l.tag + 1
                  ∧ t.link.lines[p].slot = .abort
                  ∧ ∃ f ∈ t.track.entries, f.jar = jar ∧ f.attempts = e.attempts + 1
                    ∧ f.flags.has .retried = true ∧ f.capClass = some .headFault)
              ∧ (reapply → e.pocket = p → l.slot ≠ .abort →
                t.capping = s.capping ∧ t.link.lines[p].tag = l.tag + 1
                  ∧ t.link.lines[p].slot = .apply ⟨l.tag + 1, e.attempts + 1, (recipeOf e.bank s).torqueSet,
                      (recipeOf e.bank s).angleMax, (recipeOf e.bank s).steamDwell⟩
                  ∧ ∃ f ∈ t.track.entries, f.jar = jar ∧ f.attempts = e.attempts + 1
                    ∧ f.flags.has .retried = true ∧ f.lastOutcome = some .crossThread)

/-- Frames of the head link lose nothing (R173): a report in range sent by head p is read back from its frame, the
frame names its head only, a frame read as a report is the frame of that report, and a command is read back by the
head it names. That bytes after the length the length byte gives make the frame no report is the model's choice (log
entry 36). -/
def Obligations.HeadLinkFramesRoundTrip : Prop :=
  (∀ (p : Head) (r : Report), r.inRange = true → parseReply p (reportFrame p r) = some r)
    ∧ (∀ (p q : Head) (r : Report), q ≠ p → parseReply q (reportFrame p r) = none)
    ∧ (∀ (p : Head) (r : Report) (frame : List Byte), parseReply p frame = some r → frame = reportFrame p r)
    ∧ (∀ (p : Head) (c : HeadCommand), c.inRange → commandOf p (commandFrame p c) = some c)
    ∧ ∀ (p q : Head) (c : HeadCommand), q ≠ p → commandOf q (commandFrame p c) = none

/-! ### The capping cycle (chapter 6) -/

/-- The stations of the turret, each as a function of the jar that arrives and of the state, and then as a forward
pitch takes them (R15), in any order of its acts: what arriveA and arriveE do stands after a pitch on which no FAULT
is entered, and what arriveX does after one on which its head is not marked out. At a (R93, R94) a jar with no class is given its APPLY under the next tag, with the
values of its bank and its attempts raised, and binds its head; in FAULT it becomes INTERRUPTED, and at a head
marked out with LINK HEAD_FAULT; an ABORT in the slot makes it HEAD_FAULT and leaves the head free. At e (R102) a
cycle with no final result is given an ABORT. At x (R104, R105) the class is settled by Table 6-2, and the head is
released, with a late watch while its cycle runs; an open curve fetch of the jar is closed with TRACE_LOST, and a
head MARKED_OUT with HOST or FAILURES leaves the scan set, keeping its tag only (R83). That an APPLY refused by an ABORT closes the open fetch of the older
tag as well is log entry 27. -/
def Obligations.TurretStationsAct : Prop :=
  (∀ (pins : PitchPins) (order : List PitchAct) (e : Entry) (s : State), s.power = .running → frozen s = false →
    GateAndBanks s → GeometryOk s.track.geometry → PositionsFall s → CountsMatch s → JarsDistinct s →
    PocketsFollow s → e ∈ s.track.entries →
    let u := atStations s
    let e' := { e with position := e.position + 1 }
    ∃ t, exec (.forwardPitch pins order) s = .next t
      ∧ ((t.run.state = .fault → s.run.state = .fault) →
        (e.position + 1 = s.track.geometry.a → StationAlike e.jar e.pocket (arriveA e' u) t)
          ∧ (e.position + 1 = s.track.geometry.e → StationAlike e.jar e.pocket (arriveE e' u) t))
      ∧ (t.heads[e.pocket].service = s.heads[e.pocket].service → e.position + 1 = s.track.geometry.x →
        StationAlike e.jar e.pocket (arriveX e' u) t))
  ∧ ∀ (e : Entry) (s : State), e ∈ s.track.entries →
    let p := e.pocket
    let l := s.link.lines[p]
    let r := recipeOf e.bank s
    (e.capClass ≠ none → arriveA e s = s)
      ∧ (e.capClass = none →
        let t := arriveA e s
        (s.run.state = .fault → t = { s with track := t.track }
            ∧ { e with capClass := some .interrupted } ∈ t.track.entries)
          ∧ (s.run.state ≠ .fault → s.heads[p].service = .markedOut .link → t = { s with track := t.track }
            ∧ { e with capClass := some .headFault } ∈ t.track.entries)
          ∧ (s.run.state ≠ .fault → s.heads[p].service ≠ .markedOut .link →
            t.link.lines[p].tag = l.tag + 1 ∧ t.link.lines[p].fetch = none
              ∧ (l.slot ≠ .abort → t.capping[p] = ⟨some e.jar, .applied, none⟩
                ∧ t.link.lines[p].slot = .apply ⟨l.tag + 1, e.attempts + 1, r.torqueSet, r.angleMax,
                    r.steamDwell⟩
                ∧ ∃ f ∈ t.track.entries, f.jar = e.jar ∧ f.position = e.position
                  ∧ f.attempts = e.attempts + 1 ∧ f.capClass = none)
              ∧ (l.slot = .abort → t.capping[p] = ⟨none, .none, none⟩ ∧ t.link.lines[p].slot = .abort
                ∧ ∃ f ∈ t.track.entries, f.jar = e.jar ∧ f.position = e.position
                  ∧ f.capClass = some .headFault)))
      ∧ (s.capping[p].bound = some e.jar → s.capping[p].stage = .applied → e.capClass = none →
        (arriveE e s).link.lines[p].slot = .abort ∧ (arriveE e s).link.lines[p].tag = l.tag
          ∧ (l.slot = .curve → (arriveE e s).link.lines[p].fetch = none) ∧ (arriveE e s).capping = s.capping)
      ∧ (¬(s.capping[p].bound = some e.jar ∧ s.capping[p].stage = .applied ∧ e.capClass = none) →
        arriveE e s = s)
      ∧ (s.capping[p].bound = some e.jar → (arriveX e s).capping = s.capping.set p ⟨none, .none,
          if s.capping[p].stage = .applied then some l.tag else none⟩)
      ∧ (s.capping[p].bound ≠ some e.jar → (arriveX e s).capping = s.capping)
      ∧ (∀ q : Head, q ≠ p → (arriveX e s).link.lines[q] = s.link.lines[q])
      ∧ (let out := s.heads[p].service = .markedOut .host ∨ s.heads[p].service = .markedOut .failures
        let lost := ∃ f, l.fetch = some f ∧ f.jar = e.jar
        (out → (arriveX e s).link.lines[p] = { l with slot := .empty, fetch := none, unconfirmed := none })
          ∧ (¬out → lost → (arriveX e s).link.lines[p] = { l with fetch := none })
          ∧ (¬out → ¬lost → (arriveX e s).link.lines[p] = l))
      ∧ ∃ f ∈ (arriveX e s).track.entries, ∃ c, f.jar = e.jar ∧ f.position = e.position ∧ f.capClass = some c
        ∧ (∀ k, e.capClass = some k → c = k)
        ∧ (∀ y, l.fetch = some y → y.jar = e.jar → f.flags.has .traceLost = true)
        ∧ (e.capClass = none →
          (s.capping[p].bound ≠ some e.jar ∨ s.capping[p].stage ≠ .result → c = .headFault)
            ∧ ∀ o, s.capping[p].bound = some e.jar → s.capping[p].stage = .result → e.lastOutcome = some o →
              (o = .noCap → c = .noCap) ∧ (o = .aborted → c = .interrupted)
              ∧ (o = .crossThread → c = .crossThread) ∧ (o = .overAngle → c = .underTorque)
              ∧ ∀ q n, o = .seated → e.peakTorque = some q → e.seatAngle = some n →
                c = (if r.torqueHi < q then .overTorque else if q < r.torqueLo then .underTorque
                  else if n < r.angleLo ∨ r.angleHi < n then .angleOut
                  else if 0 < r.steamDwell ∧ e.steam = false then .steamLow else .cappedOk))

/-! ### The lift (chapter 7) -/

/-- HOME LIFT and its checks (R114, R111); LIFT_FLT, which fails the lift in every state and raises LIFT_FAULT
outside IDLE (R113); each reading of LIFT_HOME in a home and the failure after 16000 steps (R111); each step of a
seek (R112); and the end of the settle wait with what it hands on by run state and change phase (R115): a home of a run starts
the seek to the ACTIVE or STAGED height, which ends at once when the lift stands there (R112); a seek ends PREPARE in
RUN or HOLD, and in phase LIFT makes the swap and completes the changeover (R57, R59); in other states the lift only
stays READY. A HOME LIFT served with LIFT_FLT asserted
latches LIFT_FAILED and leaves the lift FAILED before its first step (R113). HOME_FAILURE as a row of its own, beside
the HOME_STEP that is its last reading, is log entry 6; no change when an event is not due is log entry 7; when
SETTLE_END is due is log entry 8; the first reading of LIFT_HOME, with the first step, inside HOME LIFT is log
entry 17. -/
def Obligations.LiftMovesServed : Prop :=
  ∀ s : State, LstopFollows s →
    let g := goodFrame s
    let reads := s.lift.state = .homing ∧ s.lift.settling = false
    let wants (r : Recipe) := s.run.state = .prepare ∧ s.recipes.active = some r
      ∨ s.run.state = .change ∧ s.run.phase = .lift ∧ s.recipes.staged = some r
    let goesOn (t : State) := (s.run.state = .prepare →
        t.run.state = (if isEmptySet s.run.hold then .run else .hold) ∧ t.recipes = s.recipes)
      ∧ ∀ q r, s.run.state = .change → s.run.phase = .lift → s.recipes.staged = some r →
        s.run.request = some q → q.kind = .drained → s.recipes.retiring = none → s.track.retiringCount = 0 →
        t.recipes.active = some r ∧ t.recipes.staged = none ∧ t.recipes.firstMark = true
          ∧ t.run.phase = .none ∧ t.run.state = (if isEmptySet s.run.hold then .run else .hold)
          ∧ t.run.batchNumber = q.nextNumber ∧ t.run.batchSize = q.nextSize ∧ t.run.admitted = 0
          ∧ t.run.batchEnded = false ∧ t.run.request = none ∧ DecisionStands t
          ∧ t.alerts.latch[alertIx .changeoverDone] = true
    (∀ lp : LiftPins, Ready s →
        (g.run.state ≠ .idle → exec (.homeLift [] lp) s = .next (replied g 0x38 .wrongState [] g))
          ∧ (g.run.state = .idle → g.lift.state = .homing ∨ g.lift.state = .seeking →
            exec (.homeLift [] lp) s = .next (replied g 0x38 .busy [] g))
          ∧ (g.run.state = .idle → g.lift.state ≠ .homing → g.lift.state ≠ .seeking → lp.liftFlt = false →
            ∃ t, exec (.homeLift [] lp) s = .next (replied g 0x38 .done [] t)
              ∧ t = { sampleLift lp g with lift := t.lift } ∧ t.lift.state = .homing
              ∧ t.lift.stepCount = (if lp.liftHome then 0 else 1)
              ∧ t.lift.target = none ∧ t.lift.requester = some .host ∧ t.lift.dirDown = false
              ∧ t.lift.known = lp.liftHome ∧ t.lift.settling = lp.liftHome
              ∧ t.lift.position = (if lp.liftHome then 0 else g.lift.position))
          ∧ (g.run.state = .idle → g.lift.state ≠ .homing → g.lift.state ≠ .seeking → lp.liftFlt = true →
            ∃ t, exec (.homeLift [] lp) s = .next (replied g 0x38 .done [] t)
              ∧ t = { sampleLift lp g with lift := t.lift, alerts := t.alerts }
              ∧ t.alerts.latch = g.alerts.latch.set (alertIx .liftFailed) true
              ∧ t.lift.state = .failed ∧ t.lift.known = false ∧ t.lift.target = none
              ∧ t.lift.requester = none ∧ t.lift.settling = false ∧ t.lift.stepCount = 0
              ∧ t.lift.position = g.lift.position))
      ∧ (s.power = .running →
        (∃ t, exec .liftFltAsserted s = .next t
            ∧ t.lift = { s.lift with state := .failed, known := false, target := none, requester := none
                                     settling := false }
            ∧ (s.run.state = .idle → t.alerts.latch = s.alerts.latch.set (alertIx .liftFailed) true
              ∧ t.run = s.run)
            ∧ (s.run.state ≠ .idle → FaultFor .liftFault t))
          ∧ (∀ b, ¬reads → exec (.homeStep b) s = .next { s with inputs.liftHome := b })
          ∧ (reads → exec (.homeStep true) s = .next { s with
              inputs.liftHome := true
              lift := { s.lift with position := 0, known := true, settling := true
                                    settleSince := s.timeBase } })
          ∧ (reads → s.lift.stepCount < 16000 → exec (.homeStep false) s = .next { s with
              inputs.liftHome := false, lift := { s.lift with stepCount := s.lift.stepCount + 1 } })
          ∧ (¬(reads ∧ 16000 ≤ s.lift.stepCount) → exec .homeFailure s = .next s)
          ∧ (reads → 16000 ≤ s.lift.stepCount → ∃ t, exec .homeFailure s = .next t
            ∧ exec (.homeStep false) s = .next t
            ∧ t.lift = { s.lift with state := .failed, known := false, requester := none }
            ∧ (s.run.state = .prepare ∨ s.run.state = .change → FaultFor .homeFail t)
            ∧ (s.run.state ≠ .prepare → s.run.state ≠ .change → t.run = s.run
              ∧ t.alerts.latch = s.alerts.latch.set (alertIx .liftFailed) true))
          ∧ (∀ n, s.lift.target = some n → s.lift.state = .seeking → s.lift.settling = false →
            s.lift.position ≠ n → ∃ t, exec .seekStep s = .next t ∧ t = { s with lift := t.lift }
              ∧ t.lift.stepCount = s.lift.stepCount + 1 ∧ t.lift.target = some n ∧ t.lift.state = .seeking
              ∧ (s.lift.position < n → t.lift.position = s.lift.position + 1)
              ∧ (n < s.lift.position → t.lift.position + 1 = s.lift.position)
              ∧ t.lift.settling = decide (t.lift.position = n))
          ∧ (s.lift.settling = true → s.lift.settleTime ≤ (s.timeBase - s.lift.settleSince).toNat →
            s.lift.state = .homing ∨ s.lift.state = .seeking →
            let u := { s.lift with state := .ready, target := none, requester := none, settling := false }
            ∃ t, exec .settleEnd s = .next t
              ∧ (s.lift.state = .homing → s.lift.requester = some .host → t.lift = u ∧ t.run = s.run
                ∧ t.alerts.latch = s.alerts.latch.set (alertIx .liftDone) true)
              ∧ (∀ r, s.lift.state = .homing → s.lift.requester = some .run → wants r →
                (s.lift.position ≠ r.liftHeight → t = { s with lift := t.lift }
                  ∧ t.lift.state = .seeking ∧ t.lift.target = some r.liftHeight
                  ∧ t.lift.period = r.stepPeriod ∧ t.lift.requester = some .run ∧ t.lift.stepCount = 0)
                ∧ (s.lift.position = r.liftHeight → t.lift = { u with
                    stepCount := 0, period := r.stepPeriod, settleTime := s.params.settleTime } ∧ goesOn t))
              ∧ (s.lift.state = .homing → s.lift.requester = some .run → s.run.state ≠ .prepare →
                ¬(s.run.state = .change ∧ s.run.phase = .lift) → t = { s with lift := u })
              ∧ (s.lift.state = .seeking → t.lift = u ∧ goesOn t)
              ∧ (s.lift.state = .seeking → s.run.state ≠ .prepare →
                ¬(s.run.state = .change ∧ s.run.phase = .lift) → t = { s with lift := u }))
          ∧ (¬(s.lift.settling = true ∧ s.lift.settleTime ≤ (s.timeBase - s.lift.settleSince).toNat) →
            exec .settleEnd s = .next s))

/-! ### Seal verification (chapter 8) -/

/-- The arithmetic of the check. d is the distance from Z times the gain over 64, truncated toward zero and held to
2000 µm either way (R121). k_T is 256 with no fill temperature, 0 at or below T_amb, else
(T_fill - T_amb) · 256 / (T_ref - T_amb) held to 256 (R123). c is Δt · 256 / τ below τ and 256 from τ on (R124).
d_req is D_full · k_T · c / 65536 and d_dud is d_req · L / 100 (R125). So d lies in -2000 to 2000, k_T and c in 0
to 256, 0 ≤ d_dud ≤ d_req ≤ D_full, and a jar hot and cooled enough is held to D_full. -/
def Obligations.SealArithmeticBounded : Prop :=
  (∀ sample z gain : Nat, -2000 ≤ deflection sample z gain ∧ deflection sample z gain ≤ 2000
      ∧ (z ≤ sample → deflection sample z gain = (min 2000 ((sample - z) * gain / 64) : Nat))
      ∧ (sample ≤ z → deflection sample z gain = -((min 2000 ((z - sample) * gain / 64) : Nat) : Int)))
    ∧ (∀ fill tAmb tRef, tempFactor fill tAmb tRef ≤ 256)
    ∧ (∀ t tAmb tRef, tAmb < tRef → tempFactor none tAmb tRef = 256
        ∧ (t ≤ tAmb → tempFactor (some t) tAmb tRef = 0)
        ∧ (tAmb ≤ t → tempFactor (some t) tAmb tRef = min 256 ((t - tAmb) * 256 / (tRef - tAmb)))
        ∧ (tRef ≤ t → tempFactor (some t) tAmb tRef = 256))
    ∧ (∀ dt tau, 0 < tau → coolingFactor dt tau ≤ 256
        ∧ (dt < tau → coolingFactor dt tau = dt * 256 / tau) ∧ (tau ≤ dt → coolingFactor dt tau = 256))
    ∧ ∀ dFull kT c fraction, kT ≤ 256 → c ≤ 256 → fraction ≤ 100 →
      let dReq := requiredDeflection dFull kT c
      dReq = dFull * kT * c / 65536 ∧ dReq ≤ dFull ∧ requiredDeflection dFull 256 256 = dFull
        ∧ dudThreshold dReq fraction = dReq * fraction / 100 ∧ dudThreshold dReq fraction ≤ dReq

/-- The check of a jar (R120, R124 to R129, R67): d, d_req, Δt and the flags are written; the final class is the
capping class unless that is CAPPED_OK, and then the vacuum class of Table 8-3; action, policy and alert flag are
copied from the table; the failure count of the head follows Table 4-4, and F marks it out; with F 0, a count below
F or a head already MARKED_OUT its service state stands (R68). DT_CLAMPED is added where the difference is above 65535
only. An ARMED Capture Unit whose trigger class is the final class becomes TRIGGERED with the post count remaining, or
with a post count of 0 FROZEN, with CAPTURE_FROZEN latched (R154). A forward pitch takes this check for an entry that
comes to k with its jar at JAR_CHK, or in FAULT whatever JAR_CHK shows, in any order of its acts (R15, R16, R120). -/
def Obligations.CheckJudgesJar : Prop :=
  (∀ (pins : PitchPins) (order : List PitchAct) (e : Entry) (cc : CapClass) (s : State), s.power = .running →
    frozen s = false → GateAndBanks s → GeometryOk s.track.geometry → PositionsFall s → CountsMatch s →
    JarsDistinct s → e ∈ s.track.entries → e.position + 1 = s.track.geometry.k → e.capClass = some cc →
    (cc = .cappedOk → e.sealTime ≠ none) → pins.jarChk = true ∨ s.run.state = .fault →
    ∃ t, exec (.forwardPitch pins order) s = .next t
      ∧ CheckAlike e.jar (checkJar pins.defl.toNat { e with position := e.position + 1 } (atStations s)) t)
  ∧ ∀ (defl : Nat) (e : Entry) (cc : CapClass) (s : State), e ∈ s.track.entries → e.capClass = some cc →
    (cc = .cappedOk → e.sealTime ≠ none) →
    let r := recipeOf e.bank s
    let d := deflection defl s.check.z r.gain
    let stale := s.params.staleLimit < s.check.sinceZero
    let cold := ∃ t, e.fillTemp = some t ∧ t < r.tMin
    let t := checkJar defl e s
    ∃ f ∈ t.track.entries, ∃ c, f.jar = e.jar ∧ f.position = e.position ∧ f.d = some d
      ∧ f.finalClass = some c ∧ (cc ≠ .cappedOk → cc.final = some c)
      ∧ (e.sealTime = none → f.dReq = some 0 ∧ f.dt = e.dt
        ∧ f.flags.has .dtClamped = e.flags.has .dtClamped)
      ∧ (∀ sealed, e.sealTime = some sealed →
        let dt := min (s.timeBase - sealed).toNat 65535
        let dReq := requiredDeflection r.dFull (tempFactor e.fillTemp r.tAmb r.tRef) (coolingFactor dt r.tau)
        f.dt = some dt ∧ f.dReq = some dReq
          ∧ (f.flags.has .dtClamped = true
              ↔ e.flags.has .dtClamped = true ∨ 65535 < (s.timeBase - sealed).toNat)
          ∧ (cc = .cappedOk → (d < -(r.bulgeLimit : Int) → c = .bulge)
            ∧ (-(r.bulgeLimit : Int) ≤ d → stale ∨ cold → c = .unverified)
            ∧ (-(r.bulgeLimit : Int) ≤ d → ¬stale → ¬cold →
              (d < dudThreshold dReq r.dudFraction → c = .dud)
                ∧ (dudThreshold dReq r.dudFraction ≤ d → d < dReq → c = .lowVacuum)
                ∧ (dudThreshold dReq r.dudFraction ≤ d → dReq ≤ d → c = .good))))
      ∧ (f.flags.has .zeroStale = true ↔ e.flags.has .zeroStale = true ∨ stale)
      ∧ (f.flags.has .coldFill = true ↔ e.flags.has .coldFill = true ∨ cold)
      ∧ f.action = some s.dispTable[classIx c].action ∧ f.policy = some s.dispTable[classIx c].policy
      ∧ f.alertFlag = s.dispTable[classIx c].alert
      ∧ (s.dispTable[classIx c].alert = true → t.alerts.latch[alertIx .classAlert] = true)
      ∧ (s.capture.state = .armed → s.capture.trigger = (classIx c).val + 1 →
        (0 < s.capture.post →
            t.capture = { s.capture with state := .triggered, remaining := s.capture.post })
          ∧ (s.capture.post = 0 → t.capture = { s.capture with state := .frozen }
            ∧ t.alerts.latch[alertIx .captureFrozen] = true))
      ∧ (s.capture.state ≠ .armed ∨ s.capture.trigger ≠ (classIx c).val + 1 → t.capture = s.capture)
      ∧ (c = .good ∨ c = .lowVacuum → t.heads = s.heads.set e.pocket { s.heads[e.pocket] with failures := 0 })
      ∧ (c = .noCap ∨ c = .headFault ∨ c = .interrupted ∨ c = .bulge ∨ c = .unverified → t.heads = s.heads)
      ∧ (c = .dud ∨ c = .crossThread ∨ c = .overTorque ∨ c = .underTorque ∨ c = .angleOut ∨ c = .steamLow →
        t.heads[e.pocket].failures = (if s.heads[e.pocket].failures < 255
            then s.heads[e.pocket].failures + 1 else s.heads[e.pocket].failures)
          ∧ t.heads = s.heads.set e.pocket t.heads[e.pocket]
          ∧ t.heads[e.pocket].noReplies = s.heads[e.pocket].noReplies
          ∧ t.heads[e.pocket].stats = s.heads[e.pocket].stats
          ∧ (s.params.failLimit = 0 ∨ t.heads[e.pocket].failures < s.params.failLimit
              ∨ s.heads[e.pocket].service ≠ .inService →
            t.heads[e.pocket].service = s.heads[e.pocket].service
              ∧ t.alerts.latch[alertIx .headMarked] = s.alerts.latch[alertIx .headMarked])
          ∧ (s.params.failLimit ≠ 0 → s.params.failLimit ≤ t.heads[e.pocket].failures →
            s.heads[e.pocket].service = .inService →
            t.heads[e.pocket].service = .markedOut .failures
              ∧ t.alerts.latch[alertIx .headMarked] = true))

/-- An empty-position arrival (R131): a sample within W of Z moves Z an eighth of the way, never past the sample,
and counts as an update; one further off raises the disturbance count only. A pitch in a tracking state raises the
pitches since the last update, which stop at 65535, and latches ZERO_STALE when they exceed S, once for each stretch
of staleness (R130). A forward pitch makes that rise in a tracking state, and the empty-position arrival when no
entry comes to k and JAR_CHK shows no jar, and does no more to the Check Station's state (R16). The pitch makes that test in its own step, and ZERO_STALE, the row of its own, makes one that
has been left open, which is the model's reading (log entry 6); with none open it changes nothing (log entry 7). -/
def Obligations.ZeroFollowsEmptyPositions : Prop :=
  (∀ (pins : PitchPins) (order : List PitchAct) (s : State), s.power = .running → frozen s = false →
    GeometryOk s.track.geometry →
    let empty := pins.jarChk = false ∧ ∀ e ∈ s.track.entries, e.position + 1 ≠ s.track.geometry.k
    ∃ t, exec (.forwardPitch pins order) s = .next t
      ∧ (tracking s.run.state = false → t.check = s.check)
      ∧ (tracking s.run.state = true → empty → t.check = (emptyArrival pins.defl.toNat (zeroPitch s)).check)
      ∧ (tracking s.run.state = true → ¬empty → t.check = (zeroPitch s).check)
      ∧ (tracking s.run.state = true → (zeroPitch s).alerts.latch[alertIx .zeroStale] = true →
        t.alerts.latch[alertIx .zeroStale] = true))
  ∧ (∀ (defl : Nat) (s : State),
    let t := emptyArrival defl s
    (defl ≤ s.check.z + s.params.zeroWindow → s.check.z ≤ defl + s.params.zeroWindow →
        t = { s with check := { s.check with z := t.check.z, sinceZero := 0, staleGiven := false } }
          ∧ (t.check.z : Int) = s.check.z + ((defl : Int) - s.check.z).tdiv 8
          ∧ min s.check.z defl ≤ t.check.z ∧ t.check.z ≤ max s.check.z defl)
      ∧ (s.check.z + s.params.zeroWindow < defl ∨ defl + s.params.zeroWindow < s.check.z →
        t = { s with check := { s.check with disturbances := t.check.disturbances } }
          ∧ t.check.disturbances = satInc max32 s.check.disturbances))
    ∧ (∀ s : State, s.check.sinceZero ≤ 65535 →
      let t := zeroPitch s
      let n := min 65535 (s.check.sinceZero + 1)
      let alert := s.params.staleLimit < n ∧ s.check.staleGiven = false
      (¬alert → t = { s with check := { s.check with sinceZero := n, testOpen := false } })
        ∧ (alert → t = { s with alerts := t.alerts
                                check := { s.check with sinceZero := n, staleGiven := true, testOpen := false } }
          ∧ t.alerts.latch = s.alerts.latch.set (alertIx .zeroStale) true))
    ∧ ∀ s : State, s.power = .running →
      let alert := s.params.staleLimit < s.check.sinceZero ∧ s.check.staleGiven = false
      (s.check.testOpen = false ∨ tracking s.run.state = false → exec .zeroStale s = .next s)
        ∧ (s.check.testOpen = true → tracking s.run.state = true →
          (¬alert → exec .zeroStale s = .next { s with check := { s.check with testOpen := false } })
            ∧ (alert → ∃ u, exec .zeroStale s = .next u
              ∧ u = { s with alerts := u.alerts
                             check := { s.check with staleGiven := true, testOpen := false } }
              ∧ u.alerts.latch = s.alerts.latch.set (alertIx .zeroStale) true))

/-! ### Disposition, records, traces and capture (chapters 9 and 10) -/

/-- SET DISPOSITION (R135, R136): a list entry with a class outside 1 to 13 or a value that is no code refuses the
whole list; else the last entry of each class gives its three fields, but the five fixed classes keep REJECT, and
one given PASS makes the reply DONE_CLAMPED. -/
def Obligations.DispositionSet : Prop :=
  ∀ (p : List Byte) (s : State), Ready s → listFits 13 4 p = true →
    let g := goodFrame s
    let raws := rawDispsOf (p.drop 1)
    let fits (q : RawDisp) := 1 ≤ q.cls ∧ q.cls ≤ 13 ∧ q.action ≤ 1 ∧ q.policy ≤ 2 ∧ q.alert ≤ 1
    ((∃ q ∈ raws, ¬fits q) → exec (.setDisposition p) s = .next (replied g 0x22 .badValue [] g))
      ∧ ((∀ q ∈ raws, fits q) → ∃ v : Vector DispEntry 13, ∃ r : ResultCode,
        exec (.setDisposition p) s = .next (replied g 0x22 r [] { g with dispTable := v })
          ∧ ((∃ q ∈ raws, q.action = 0 ∧ (q.cls ≤ 4 ∨ q.cls = 9)) → r = .doneClamped)
          ∧ ((∀ q ∈ raws, q.action = 0 → ¬(q.cls ≤ 4 ∨ q.cls = 9)) → r = .done)
          ∧ ∀ c : Fin 13, ((∀ q ∈ raws, q.cls ≠ c.val + 1) → v[c] = g.dispTable[c])
            ∧ ∀ q, (raws.filter (fun q => q.cls == c.val + 1)).getLast? = some q →
              v[c].policy.code = q.policy ∧ bit v[c].alert = q.alert
                ∧ v[c].action.code = (if c.val ≤ 3 ∨ c.val = 8 then 1 else q.action))

/-- The Reject Gate's own events: at CONFIRM_DEADLINE each confirm entry whose deadline is the pitch count goes, and
REJECT_UNCONFIRMED is raised (R140); 40 ms after its arrival, and not before, REJ_OUT is released (R138).
CONFIRM_DEADLINE as a row of its own, beside the pitch that reaches the deadline, is log entry 6; no change when an
event is not due is log entry 7; the test of the 40 ms on the millisecond time base is log entry 8. -/
def Obligations.GateEventsTaken : Prop :=
  ∀ s : State, s.power = .running → LstopFollows s →
    ((∀ c ∈ s.reject.confirms, c.deadline ≠ s.track.pitchCount) → exec .confirmDeadline s = .next s)
      ∧ ((∃ c ∈ s.reject.confirms, c.deadline = s.track.pitchCount) →
        ∃ t, exec .confirmDeadline s = .next t ∧ FaultFor .rejectUnconfirmed t
          ∧ t.reject = { s.reject with
              confirms := s.reject.confirms.filter (fun c => c.deadline != s.track.pitchCount) }
          ∧ t.track.entries.map (fun e => (e.jar, e.position))
              = s.track.entries.map (fun e => (e.jar, e.position)))
      ∧ (s.reject.rejOut = true → 40 ≤ (s.timeBase - s.reject.since).toNat →
        exec .rejOutPulseEnd s = .next { s with reject.rejOut := false })
      ∧ (s.reject.rejOut = false ∨ (s.timeBase - s.reject.since).toNat < 40 →
        exec .rejOutPulseEnd s = .next s)

/-- FETCH RECORDS takes up to n of the oldest records, n clamped to 1 to 5, and carries them in 44 bytes each with
their number and the number left (R146, R148). A record is carried field by field as Table 12-6 lays it out, with the
codes of Table 12-2, absent fields by the codes of Table 12-3, d in two's complement, and a seal time of FFFFFFFFh
1 ms early (R169, R172). ARM CAPTURE clamps its values, arms an OFF unit or re-arms an
ARMED one and is refused in TRIGGERED and FROZEN (R153); RELEASE CAPTURE turns the unit OFF (R155); a TRIGGERED
unit with nothing remaining freezes (R154). CAPTURE_FROZEN as a row of its own, beside the check or the stored
segment that freezes the unit, is log entry 6; no change when it is not due is log entry 7. -/
def Obligations.RecordsFetchedAndCaptureServed : Prop :=
  RecordCodes ∧ SetsCarried ∧ ∀ s : State,
    let g := goodFrame s
    (∀ r : JarRecord, (recordBytes r).length = 44 ∧ Carries (recordBytes r)
        [(4, r.jar.toNat), (2, r.batch), (2, r.recipeId), (1, r.head.val + 1),
          (1, (r.finalClass.map (fun c => (classIx c).val + 1)).getD 0), (1, r.disposition.code),
          (2, setBits r.flags), (4, r.admissionPitch.toNat), (4, r.admissionTime.toNat),
          (4, match r.sealTime with
            | none => 0xFFFFFFFF
            | some v => if v = 0xFFFFFFFF#32 then 0xFFFFFFFE else v.toNat),
          (1, r.attempts), (1, (r.lastOutcome.map CycleOutcome.code).getD 0), (2, r.peakTorque.getD 0xFFFF),
          (2, r.seatAngle.getD 0xFFFF), (2, r.fillTemp.getD 0xFFFF),
          (2, match r.d with
            | none => 0x8000
            | some d => (d % 65536).toNat),
          (2, r.dReq.getD 0xFFFF), (2, r.dt.getD 0xFFFF), (4, (r.trace.map (fun v => v.start.toNat)).getD 0),
          (1, (r.trace.map (·.length)).getD 0)])
      ∧ (∀ b : Byte, Ready s →
        let n := if b.toNat < 1 then 1 else if 5 < b.toNat then 5 else b.toNat
        let taken := g.records.queue.take n
        exec (.fetchRecords [b]) s = .next (replied g 0x10 (if n = b.toNat then .done else .doneClamped)
          (BitVec.ofNat 8 taken.length :: taken.flatMap recordBytes
            ++ beBytes 2 (g.records.queue.length - n))
          { g with records := { g.records with queue := g.records.queue.drop n } }))
      ∧ (∀ a b : Byte, Ready s →
        let k := if a.toNat < 1 then 1 else if 13 < a.toNat then 13 else a.toNat
        let n := min b.toNat 64
        let r : ResultCode := if k = a.toNat ∧ n = b.toNat then .done else .doneClamped
        (g.capture.state = .off → exec (.armCapture [a, b]) s
            = .next (replied g 0x12 r [] { g with capture := ⟨.armed, k, n, 0⟩ }))
          ∧ (g.capture.state = .armed → exec (.armCapture [a, b]) s
            = .next (replied g 0x12 r [] { g with capture := { g.capture with trigger := k, post := n } }))
          ∧ (g.capture.state = .triggered ∨ g.capture.state = .frozen → exec (.armCapture [a, b]) s
            = .next (replied g 0x12 .wrongState [] g)))
      ∧ (Ready s → exec (.releaseCapture []) s = .next (replied g 0x13 .done []
          { g with capture := { g.capture with state := .off, remaining := 0 } }))
      ∧ (s.power = .running →
        (¬(s.capture.state = .triggered ∧ s.capture.remaining = 0) → exec .captureFrozen s = .next s)
          ∧ (s.capture.state = .triggered → s.capture.remaining = 0 →
            ∃ t, exec .captureFrozen s = .next t
              ∧ t = { s with capture := { s.capture with state := .frozen }, alerts := t.alerts }
              ∧ t.alerts.latch = s.alerts.latch.set (alertIx .captureFrozen) true))

/-- Curves. A completed fetch hands its samples to the Trace Store (R100, R150): refused frozen, refused for a
protected segment, or stored with its trace reference, which counts a TRIGGERED Capture Unit down (R154). A current
CURVE with the tag of the open fetch completes the fetch and closes it; a good exchange without it that follows the
sent CURVE has the CURVE placed again (R89). That the current CURVE completes the fetch whatever command the exchange
sent is log entry 19. A stored curve reads back sample for sample, and storing it changes nothing that an intact
reference names (R149 to R151). READ TRACE refuses a length outside 1 to 32, answers GONE for a reference that is not
intact, and else carries the samples. -/
def Obligations.CurveReadsBack : Prop :=
  (∀ (jar : Word32) (xs : List Sample) (s : State), 1 ≤ xs.length → xs.length ≤ 32 →
      CurveTaken jar xs s (handCurve jar xs s))
    ∧ (∀ (x : Exchange) (f : CurveFetch) (s : State), s.power = .running → s.link.exchange = some x →
      let p := x.head
      let l := s.link.lines[p]
      l.fetch = some f → l.unconfirmed = none → (∀ a, x.command ≠ .apply a) →
      (∀ xs : List Sample, 1 ≤ xs.length → xs.length ≤ 32 → f.tag = l.tag → l.applyConfirmed = true →
          ∃ t, exec (.replyReceived (reportFrame p (.curve f.tag xs))) s = .next t ∧ CurveTaken f.jar xs s t
            ∧ t.link.lines[p] = { l with fetch := none })
        ∧ ∀ r : Report, r.inRange = true → f.stage = .sent → x.command ≠ .curve → l.slot = .empty →
          r = .idle ∨ (∃ n, r = .busy l.tag n) ∨ (∃ tag, tag ≠ l.tag ∧ reportTag r = some tag) →
          ∃ t, exec (.replyReceived (reportFrame p r)) s = .next t ∧ t.traces = s.traces ∧ t.track = s.track
            ∧ t.link.lines[p] = { l with slot := .curve, fetch := some { f with stage := .wanted } })
    ∧ (∀ (jar : Word32) (xs : List Sample) (s : State), 1 ≤ xs.length → xs.length ≤ 32 →
      let t := storeSegment jar xs s
      readSamples t.traces xs.length s.traces.writeCount = xs
        ∧ intact t.traces s.traces.writeCount xs.length = true
        ∧ ∀ start n, intact s.traces start n = true → intact t.traces start n = true →
          readSamples t.traces n start = readSamples s.traces n start)
    ∧ ∀ (p : List Byte) (s : State), Ready s → p.length = 5 →
      let g := goodFrame s
      let start := BitVec.ofNat 32 (field p 0 4)
      let n := field p 4 1
      (n < 1 ∨ 32 < n → exec (.readTrace p) s = .next (replied g 0x11 .badValue [] g))
        ∧ (1 ≤ n → n ≤ 32 →
          ((g.traces.writeCount - start).toNat < n ∨ 8192 < (g.traces.writeCount - start).toNat →
              exec (.readTrace p) s = .next (replied g 0x11 .gone [] g))
            ∧ (n ≤ (g.traces.writeCount - start).toNat → (g.traces.writeCount - start).toNat ≤ 8192 →
              exec (.readTrace p) s = .next (replied g 0x11 .done
                ((readSamples g.traces n start).flatMap sampleBytes) g)
              ∧ ((readSamples g.traces n start).flatMap sampleBytes).length = 4 * n))

/-! ### Queries and settings (chapters 1, 8, 11 and 12) -/

/-- The queries change no state but the port's own, and carry what R171 and Table 12-7 lay out, field by field in
order: QUERY UNIT (R159), READ STATUS (R160, with R44, R117, R133), READ SETTINGS (R161), READ COUNTS (R143), READ
HEAD (R74), READ RECIPE (R47) and READ DISPOSITION (R136). A set is carried with member i as bit i (R169), and
enumerated fields by the codes of Table 12-2. A READ HEAD of another number and a READ RECIPE of another bank are
refused. The hardware issue is a free value of Config (log entry 10). -/
def Obligations.QueriesServed : Prop :=
  SetsCarried ∧ CodesOfTable ∧ ∀ s : State, Ready s →
    let g := goodFrame s
    let served (c : Instr) (code : Byte) (fs : List (Nat × Nat)) := ∃ q : List Byte, Carries q fs
      ∧ exec c s = .next (replied g code .done q g)
    let inTurret (h : Head) := g.track.entries.any (fun e => e.pocket == h && decide (e.position < g.track.geometry.x))
    served (.queryUnit []) 0x00 [(2, 0x0418), (1, Config.hardwareIssue.toNat), (1, 240),
        (1, bit g.port.baudHigh), (1, g.params.unitAddress)]
      ∧ served (.readSettings []) 0x06
        [(1, g.params.unitAddress), (2, g.params.linkTimeout), (1, g.params.failLimit), (1, g.params.minHeads),
          (2, g.params.zeroWindow), (2, g.params.staleLimit), (2, g.params.replyWindow),
          (1, g.params.homePeriod), (2, g.params.settleTime), (1, g.params.confirmWindow),
          (1, g.track.geometry.a), (1, g.track.geometry.e), (1, g.track.geometry.x), (1, g.track.geometry.k),
          (1, g.track.geometry.j), (2, setBits g.alerts.mask), (2, g.check.z0), (1, bit g.traces.modeAll)]
      ∧ served (.readCounts []) 0x02 (g.classCounts.toList.map (fun n => (4, n))
        ++ [(4, g.reject.passed), (4, g.reject.rejected), (4, g.reject.missing), (4, g.reject.purged),
          (1, g.reject.confirms.length)])
      ∧ served (.readDisposition []) 0x05 (g.dispTable.toList.flatMap (fun v =>
        [(1, v.action.code), (1, v.policy.code), (1, bit v.alert)]))
      ∧ (∀ h : Head, let r := g.heads[h]
        served (.readHead [BitVec.ofNat 8 h.number]) 0x03
          [(1, serviceCode r.service), (1, reasonCode r.service), (1, r.failures), (1, r.noReplies),
            (4, r.stats.applySent), (4, r.stats.seated), (4, r.stats.crossThread), (4, r.stats.noCap),
            (4, r.stats.overAngle), (4, r.stats.aborted), (4, r.stats.noReply), (4, r.stats.stale),
            (1, bit (inTurret h)), (1, inServiceCount g.heads)])
      ∧ (∀ b : Byte, b = 0 ∨ 18 < b.toNat →
        exec (.readHead [b]) s = .next (replied g 0x03 .badValue [] g))
      ∧ (∀ (b : Byte) (bank : Option Recipe), b = 1 ∧ bank = g.recipes.staged
          ∨ b = 2 ∧ bank = g.recipes.active ∨ b = 3 ∧ bank = g.recipes.retiring →
        exec (.readRecipe [b]) s = .next (replied g 0x04 .done
          (b :: (bank.map recipeBytes).getD []) g))
      ∧ (∀ b : Byte, b = 0 ∨ 3 < b.toNat →
        exec (.readRecipe [b]) s = .next (replied g 0x04 .badValue [] g))
      ∧ ∀ lp : LiftPins, served (.readStatus [] lp) 0x01
        ([(1, g.resetCause.code), (1, bit g.storeDefaulted), (4, g.timeBase.toNat), (2, setBits g.alerts.latch),
          (2, setBits g.alerts.mask), (1, bit g.commit.isSome), (1, g.run.state.code), (1, g.run.phase.code),
          (1, setBits g.run.hold), (1, setBits g.run.causes), (1, bit g.run.batchEnded),
          (2, g.run.batchNumber), (4, g.run.batchSize), (4, g.run.admitted), (1, g.gate.decision.code),
          (1, g.gate.gapCount), (4, g.gate.emptyPockets), (1, modeCode g.run.request),
          (1, kindCode g.run.request), (1, stageCode g.run.request),
          (2, (g.run.request.map (·.nextNumber)).getD 0), (4, (g.run.request.map (·.nextSize)).getD 0)]
        ++ [(2, g.track.entries.length), (2, (g.track.entries.head?.map (·.position)).getD 0xFFFF),
          (1, g.track.pocket.number), (1, bit g.track.synced + 2 * bit (frozen g)),
          (4, g.track.pitchCount.toNat), (4, g.track.nextJar.toNat), (2, g.track.activeCount),
          (2, g.track.retiringCount), (1, g.lift.state.code),
          (1, bit g.lift.known + 2 * bit g.lift.settling + 4 * bit lp.liftFlt + 8 * bit lp.liftHome),
          (2, g.lift.position), (2, g.lift.target.getD 0xFFFF), (2, g.lift.stepCount), (2, g.check.z),
          (2, g.check.sinceZero), (1, bit (decide (g.params.staleLimit < g.check.sinceZero))),
          (4, g.check.disturbances), (2, g.records.queue.length), (2, g.records.overruns),
          (4, g.traces.writeCount.toNat), (1, g.capture.state.code), (1, g.capture.trigger),
          (1, g.capture.post), (1, g.capture.remaining)])

/-- The settings of Table 11-4 and how they are replaced: SET GEOMETRY in IDLE with an empty Track and every
relation of Table 1-9 (R3, R4); SET LINE PARAMETERS with FEW_HEADS and the link timer following (R75, R161, R162);
the alert mask, and ACK ALERTS, with ALERT following (R163, R164); the zero reference (R119) and the trace mode
(R152); COMMIT SETTINGS, with the new CRC-16 over the live settings, and the end of the write (R166). Each line
parameter is moved to the nearer end of its range of Table 11-3, and a link timeout of 0 stays 0. COMMIT_WRITE_END
with no commit in progress changes nothing (log entry 7). -/
def Obligations.SettingsReplaced : Prop :=
  ∀ s : State,
    let g := goodFrame s
    (Ready s →
        (∀ p : List Byte, p.length = 5 →
          let v := geometryOfBytes p
          let free := g.run.state = .idle ∧ g.track.entries = []
          (¬free → exec (.setGeometry p) s = .next (replied g 0x23 .wrongState [] g))
            ∧ (∀ n : Fin 5, free → (∀ m, m < n → geometryRelation v m) → ¬geometryRelation v n →
              exec (.setGeometry p) s
                = .next (replied g 0x23 .badValue [BitVec.ofNat 8 (n.val + 1)] g))
            ∧ (free → (∀ n, geometryRelation v n) → exec (.setGeometry p) s
                = .next (replied g 0x23 .done [] { g with track.geometry := v })))
          ∧ (∀ p : List Byte, p.length = 15 → ∃ t,
            let at_ (lo hi off len : Nat) := max lo (min (field p off len) hi)
            let q : LineParams :=
              { unitAddress := at_ 1 30 0 1
                linkTimeout := if field p 1 2 = 0 then 0 else at_ 100 10000 1 2
                failLimit := at_ 0 20 3 1, minHeads := at_ 1 18 4 1, zeroWindow := at_ 0 1023 5 2
                staleLimit := at_ 18 4000 7 2, replyWindow := at_ 100 2000 9 2, homePeriod := at_ 5 200 11 1
                settleTime := at_ 0 1000 12 2, confirmWindow := at_ 1 8 14 1 }
            exec (.setLineParameters p) s = .next (replied g 0x25
                (if q = paramsOfBytes p then .done else .doneClamped) [] t)
              ∧ t.params = q ∧ ParamsOk q ∧ (ParamsOk (paramsOfBytes p) ↔ q = paramsOfBytes p)
              ∧ paramsBytes (paramsOfBytes p) = p ∧ FewHeadsMatches t
              ∧ (q.linkTimeout = 0 → t.port.timer.state = .stopped)
              ∧ (q.linkTimeout ≠ 0 → t.port.timer
                  = ⟨.running, g.timeBase + BitVec.ofNat 32 q.linkTimeout⟩)
              ∧ t = { g with params := q, port := t.port, run := t.run, gate := t.gate, alerts := t.alerts })
          ∧ (∀ p : List Byte, p.length = 2 →
            (8192 ≤ field p 0 2 → exec (.setAlertMask p) s = .next (replied g 0x26 .badValue [] g)
                ∧ exec (.ackAlerts p) s = .next (replied g 0x39 .badValue [] g))
              ∧ (field p 0 2 < 8192 → ∃ t u : State,
                exec (.setAlertMask p) s = .next (replied g 0x26 .done [] t)
                  ∧ exec (.ackAlerts p) s = .next (replied g 0x39 .done [] u)
                  ∧ t = { g with alerts := { g.alerts with mask := t.alerts.mask, pin := t.alerts.pin } }
                  ∧ u = { g with alerts := { g.alerts with latch := u.alerts.latch, pin := u.alerts.pin } }
                  ∧ AlertFollows t ∧ AlertFollows u
                  ∧ ∀ k : Fin 13, t.alerts.mask[k] = (field p 0 2).testBit k.val
                    ∧ u.alerts.latch[k] = (g.alerts.latch[k] && !(field p 0 2).testBit k.val)))
          ∧ exec (.setZeroReference []) s = .next (replied g 0x27 .done []
              { g with check := { g.check with z0 := g.check.z } })
          ∧ exec (.setTraceMode [0]) s = .next (replied g 0x28 .done []
              { g with traces := { g.traces with modeAll := false } })
          ∧ exec (.setTraceMode [1]) s = .next (replied g 0x28 .done []
              { g with traces := { g.traces with modeAll := true } })
          ∧ (∀ b : Byte, 1 < b.toNat → exec (.setTraceMode [b]) s = .next (replied g 0x28 .badValue [] g))
          ∧ (g.commit ≠ none → exec (.commitSettings []) s = .next (replied g 0x29 .busy [] g))
          ∧ (g.commit = none → exec (.commitSettings []) s
              = .next (replied g 0x29 .done [] { g with
                commit := some ⟨liveImage g, imageCrc (liveImage g)⟩ })))
      ∧ (s.power = .running →
        (s.commit = none → exec .commitWriteEnd s = .next s)
          ∧ ∀ i, s.commit = some i →
            exec .commitWriteEnd s = .next { s with store := i, commit := none })
end

