-- ==== Sys2Proof/Laws/Blocks.lean ====
section
/-! SUPPORT. What the search of the scan, the sending of a reply, the check of the Retained Store and the
layout of a payload can do, said once. -/

namespace Sys2Proof.Machine

variable {s : State} {p : Head} {i : Image}

/-! ### The search of the scan (R82) -/

theorem inScanSet_iff : inScanSet p s = true ↔ InScan p s := by
  unfold inScanSet InScan holdsTurretJar turretEntry
  cases h : s.heads[p].service with
  | inService => simp
  | markedOut r => cases r <;> simp

/-- The search answers the first head of the set from `p` on. -/
theorem nextInSet_first : ∀ (n m : Nat) (p : Head), m < n → inScanSet (p + Fin.ofNat 18 m) s = true →
    (∀ k, k < m → inScanSet (p + Fin.ofNat 18 k) s = false) → nextInSet s n p = some (p + Fin.ofNat 18 m)
  | n + 1, 0, p, _, h, _ => by
    have h : inScanSet p s = true := by simpa using h
    simp [nextInSet, h]
  | n + 1, m + 1, p, hm, h, hn => by
    have h0 := hn 0 (Nat.succ_pos m)
    have e : ∀ k, p + 1 + Fin.ofNat 18 k = p + Fin.ofNat 18 (k + 1) := by
      intro k; apply Fin.ext; simp [Fin.add_def, Fin.ofNat]; omega
    have := nextInSet_first n m (p + 1) (Nat.lt_of_succ_lt_succ hm) (by rw [e]; exact h)
      (fun k hk => by rw [e]; exact hn (k + 1) (Nat.succ_lt_succ hk))
    rw [e] at this
    simp at h0
    simp [nextInSet, h0, this]

/-- With no head of the set among the `n` heads the search answers none. -/
theorem nextInSet_none : ∀ (n : Nat) (p : Head), (∀ q, inScanSet q s = false) → nextInSet s n p = none
  | 0, _, _ => rfl
  | n + 1, p, h => by simp [nextInSet, h p, nextInSet_none n (p + 1) h]

/-! ### The sending of a reply (R156, R157) -/

@[simp] theorem sending_sendReply (a : Nat) (c : Byte) (r : ResultCode) (q : List Byte) (h : s.port.lpDe = false) :
    sending (sendReply a c r q s) = false := by simp [sending, sendReply, h]

theorem startSending_sends (h : s.port.reply.isSome = true) : sending (startSending s) = true := by
  simp [sending, startSending, h]

theorem startSending_idle (h : s.port.reply = none) : startSending s = s := by
  simp only [startSending, h, Option.isSome_none, Bool.or_false]
  rw [← h]

theorem judgedAddress_idle (h : s.port.reply = none) : judgedAddress s = s.params.unitAddress := by
  simp [judgedAddress, h]

/-! ### The check of the Retained Store (R165, R166, R168) -/

@[simp] theorem crcMatches_withCrc : crcMatches (withCrc i) = true := by simp [crcMatches, withCrc]

@[simp] theorem crcMatches_cutShort : crcMatches (cutShort i) = false := by
  simp [crcMatches, cutShort]

@[simp] theorem startImage_withCrc : startImage (withCrc i) = i := by simp [startImage, withCrc, crcMatches]

@[simp] theorem startImage_cutShort : startImage (cutShort i) = factoryImage := by simp [startImage]

/-! ### Payloads (R171) -/

theorem carries_append {a b : List Byte} : ∀ {fs gs : List (Nat × Nat)}, Carries a fs → Carries b gs →
    Carries (a ++ b) (fs ++ gs) := by
  intro fs
  induction fs generalizing a with
  | nil => intro gs ha hb; cases ha; simpa using hb
  | cons f fs ih =>
    intro gs ha hb
    obtain ⟨w, v⟩ := f
    obtain ⟨h1, h2, h3⟩ := ha
    refine ⟨by simp; omega, ?_, ?_⟩
    · rw [← h2]; simp [field, List.take_append_of_le_length h1]
    · rw [List.drop_append_of_le_length h1]; exact ih h3 hb

end Sys2Proof.Machine
end

