-- ==== Sys2Proof/Laws/State.lean ====
section
/-! SUPPORT. What each plain update of the state leaves in each field: one lemma per field per update. -/

namespace Sys2Proof.Machine

variable (s : State)

/-! ### driveAlert -/

@[simp] theorem driveAlert_power : (driveAlert s).power = s.power := rfl
@[simp] theorem driveAlert_resetCause : (driveAlert s).resetCause = s.resetCause := rfl
@[simp] theorem driveAlert_storeDefaulted : (driveAlert s).storeDefaulted = s.storeDefaulted := rfl
@[simp] theorem driveAlert_timeBase : (driveAlert s).timeBase = s.timeBase := rfl
@[simp] theorem driveAlert_inputs : (driveAlert s).inputs = s.inputs := rfl
@[simp] theorem driveAlert_port : (driveAlert s).port = s.port := rfl
@[simp] theorem driveAlert_alerts : (driveAlert s).alerts =
    { s.alerts with pin := meets s.alerts.latch s.alerts.mask } := rfl
@[simp] theorem driveAlert_params : (driveAlert s).params = s.params := rfl
@[simp] theorem driveAlert_store : (driveAlert s).store = s.store := rfl
@[simp] theorem driveAlert_commit : (driveAlert s).commit = s.commit := rfl
@[simp] theorem driveAlert_run : (driveAlert s).run = s.run := rfl
@[simp] theorem driveAlert_gate : (driveAlert s).gate = s.gate := rfl
@[simp] theorem driveAlert_track : (driveAlert s).track = s.track := rfl
@[simp] theorem driveAlert_recipes : (driveAlert s).recipes = s.recipes := rfl
@[simp] theorem driveAlert_heads : (driveAlert s).heads = s.heads := rfl
@[simp] theorem driveAlert_link : (driveAlert s).link = s.link := rfl
@[simp] theorem driveAlert_capping : (driveAlert s).capping = s.capping := rfl
@[simp] theorem driveAlert_lift : (driveAlert s).lift = s.lift := rfl
@[simp] theorem driveAlert_check : (driveAlert s).check = s.check := rfl
@[simp] theorem driveAlert_reject : (driveAlert s).reject = s.reject := rfl
@[simp] theorem driveAlert_records : (driveAlert s).records = s.records := rfl
@[simp] theorem driveAlert_traces : (driveAlert s).traces = s.traces := rfl
@[simp] theorem driveAlert_capture : (driveAlert s).capture = s.capture := rfl
@[simp] theorem driveAlert_dispTable : (driveAlert s).dispTable = s.dispTable := rfl
@[simp] theorem driveAlert_classCounts : (driveAlert s).classCounts = s.classCounts := rfl
@[simp] theorem driveAlert_pending : (driveAlert s).pending = s.pending := rfl

/-! ### latchAlert -/

@[simp] theorem latchAlert_power (k : AlertKind) : (latchAlert k s).power = s.power := rfl
@[simp] theorem latchAlert_resetCause (k : AlertKind) : (latchAlert k s).resetCause = s.resetCause := rfl
@[simp] theorem latchAlert_storeDefaulted (k : AlertKind) : (latchAlert k s).storeDefaulted = s.storeDefaulted := rfl
@[simp] theorem latchAlert_timeBase (k : AlertKind) : (latchAlert k s).timeBase = s.timeBase := rfl
@[simp] theorem latchAlert_inputs (k : AlertKind) : (latchAlert k s).inputs = s.inputs := rfl
@[simp] theorem latchAlert_port (k : AlertKind) : (latchAlert k s).port = s.port := rfl
@[simp] theorem latchAlert_alerts (k : AlertKind) : (latchAlert k s).alerts =
    (driveAlert { s with alerts.latch := s.alerts.latch.set (alertIx k) true }).alerts := rfl
@[simp] theorem latchAlert_params (k : AlertKind) : (latchAlert k s).params = s.params := rfl
@[simp] theorem latchAlert_store (k : AlertKind) : (latchAlert k s).store = s.store := rfl
@[simp] theorem latchAlert_commit (k : AlertKind) : (latchAlert k s).commit = s.commit := rfl
@[simp] theorem latchAlert_run (k : AlertKind) : (latchAlert k s).run = s.run := rfl
@[simp] theorem latchAlert_gate (k : AlertKind) : (latchAlert k s).gate = s.gate := rfl
@[simp] theorem latchAlert_track (k : AlertKind) : (latchAlert k s).track = s.track := rfl
@[simp] theorem latchAlert_recipes (k : AlertKind) : (latchAlert k s).recipes = s.recipes := rfl
@[simp] theorem latchAlert_heads (k : AlertKind) : (latchAlert k s).heads = s.heads := rfl
@[simp] theorem latchAlert_link (k : AlertKind) : (latchAlert k s).link = s.link := rfl
@[simp] theorem latchAlert_capping (k : AlertKind) : (latchAlert k s).capping = s.capping := rfl
@[simp] theorem latchAlert_lift (k : AlertKind) : (latchAlert k s).lift = s.lift := rfl
@[simp] theorem latchAlert_check (k : AlertKind) : (latchAlert k s).check = s.check := rfl
@[simp] theorem latchAlert_reject (k : AlertKind) : (latchAlert k s).reject = s.reject := rfl
@[simp] theorem latchAlert_records (k : AlertKind) : (latchAlert k s).records = s.records := rfl
@[simp] theorem latchAlert_traces (k : AlertKind) : (latchAlert k s).traces = s.traces := rfl
@[simp] theorem latchAlert_capture (k : AlertKind) : (latchAlert k s).capture = s.capture := rfl
@[simp] theorem latchAlert_dispTable (k : AlertKind) : (latchAlert k s).dispTable = s.dispTable := rfl
@[simp] theorem latchAlert_classCounts (k : AlertKind) : (latchAlert k s).classCounts = s.classCounts := rfl
@[simp] theorem latchAlert_pending (k : AlertKind) : (latchAlert k s).pending = s.pending := rfl

/-! ### modEntry -/

@[simp] theorem modEntry_power (jar : Word32) (f : Entry → Entry) : (modEntry jar f s).power = s.power := rfl
@[simp] theorem modEntry_resetCause (jar : Word32) (f : Entry → Entry) : (modEntry jar f s).resetCause = s.resetCause := rfl
@[simp] theorem modEntry_storeDefaulted (jar : Word32) (f : Entry → Entry) : (modEntry jar f s).storeDefaulted = s.storeDefaulted := rfl
@[simp] theorem modEntry_timeBase (jar : Word32) (f : Entry → Entry) : (modEntry jar f s).timeBase = s.timeBase := rfl
@[simp] theorem modEntry_inputs (jar : Word32) (f : Entry → Entry) : (modEntry jar f s).inputs = s.inputs := rfl
@[simp] theorem modEntry_port (jar : Word32) (f : Entry → Entry) : (modEntry jar f s).port = s.port := rfl
@[simp] theorem modEntry_alerts (jar : Word32) (f : Entry → Entry) : (modEntry jar f s).alerts = s.alerts := rfl
@[simp] theorem modEntry_params (jar : Word32) (f : Entry → Entry) : (modEntry jar f s).params = s.params := rfl
@[simp] theorem modEntry_store (jar : Word32) (f : Entry → Entry) : (modEntry jar f s).store = s.store := rfl
@[simp] theorem modEntry_commit (jar : Word32) (f : Entry → Entry) : (modEntry jar f s).commit = s.commit := rfl
@[simp] theorem modEntry_run (jar : Word32) (f : Entry → Entry) : (modEntry jar f s).run = s.run := rfl
@[simp] theorem modEntry_gate (jar : Word32) (f : Entry → Entry) : (modEntry jar f s).gate = s.gate := rfl
@[simp] theorem modEntry_track (jar : Word32) (f : Entry → Entry) : (modEntry jar f s).track =
    { s.track with entries := s.track.entries.map (fun e => if e.jar == jar then f e else e) } := rfl
@[simp] theorem modEntry_recipes (jar : Word32) (f : Entry → Entry) : (modEntry jar f s).recipes = s.recipes := rfl
@[simp] theorem modEntry_heads (jar : Word32) (f : Entry → Entry) : (modEntry jar f s).heads = s.heads := rfl
@[simp] theorem modEntry_link (jar : Word32) (f : Entry → Entry) : (modEntry jar f s).link = s.link := rfl
@[simp] theorem modEntry_capping (jar : Word32) (f : Entry → Entry) : (modEntry jar f s).capping = s.capping := rfl
@[simp] theorem modEntry_lift (jar : Word32) (f : Entry → Entry) : (modEntry jar f s).lift = s.lift := rfl
@[simp] theorem modEntry_check (jar : Word32) (f : Entry → Entry) : (modEntry jar f s).check = s.check := rfl
@[simp] theorem modEntry_reject (jar : Word32) (f : Entry → Entry) : (modEntry jar f s).reject = s.reject := rfl
@[simp] theorem modEntry_records (jar : Word32) (f : Entry → Entry) : (modEntry jar f s).records = s.records := rfl
@[simp] theorem modEntry_traces (jar : Word32) (f : Entry → Entry) : (modEntry jar f s).traces = s.traces := rfl
@[simp] theorem modEntry_capture (jar : Word32) (f : Entry → Entry) : (modEntry jar f s).capture = s.capture := rfl
@[simp] theorem modEntry_dispTable (jar : Word32) (f : Entry → Entry) : (modEntry jar f s).dispTable = s.dispTable := rfl
@[simp] theorem modEntry_classCounts (jar : Word32) (f : Entry → Entry) : (modEntry jar f s).classCounts = s.classCounts := rfl
@[simp] theorem modEntry_pending (jar : Word32) (f : Entry → Entry) : (modEntry jar f s).pending = s.pending := rfl

/-! ### addFlag -/

@[simp] theorem addFlag_power (jar : Word32) (k : JarFlag) : (addFlag jar k s).power = s.power := rfl
@[simp] theorem addFlag_resetCause (jar : Word32) (k : JarFlag) : (addFlag jar k s).resetCause = s.resetCause := rfl
@[simp] theorem addFlag_storeDefaulted (jar : Word32) (k : JarFlag) : (addFlag jar k s).storeDefaulted = s.storeDefaulted := rfl
@[simp] theorem addFlag_timeBase (jar : Word32) (k : JarFlag) : (addFlag jar k s).timeBase = s.timeBase := rfl
@[simp] theorem addFlag_inputs (jar : Word32) (k : JarFlag) : (addFlag jar k s).inputs = s.inputs := rfl
@[simp] theorem addFlag_port (jar : Word32) (k : JarFlag) : (addFlag jar k s).port = s.port := rfl
@[simp] theorem addFlag_alerts (jar : Word32) (k : JarFlag) : (addFlag jar k s).alerts = s.alerts := rfl
@[simp] theorem addFlag_params (jar : Word32) (k : JarFlag) : (addFlag jar k s).params = s.params := rfl
@[simp] theorem addFlag_store (jar : Word32) (k : JarFlag) : (addFlag jar k s).store = s.store := rfl
@[simp] theorem addFlag_commit (jar : Word32) (k : JarFlag) : (addFlag jar k s).commit = s.commit := rfl
@[simp] theorem addFlag_run (jar : Word32) (k : JarFlag) : (addFlag jar k s).run = s.run := rfl
@[simp] theorem addFlag_gate (jar : Word32) (k : JarFlag) : (addFlag jar k s).gate = s.gate := rfl
@[simp] theorem addFlag_track (jar : Word32) (k : JarFlag) : (addFlag jar k s).track =
    (modEntry jar (fun e => { e with flags := e.flags.add k }) s).track := rfl
@[simp] theorem addFlag_recipes (jar : Word32) (k : JarFlag) : (addFlag jar k s).recipes = s.recipes := rfl
@[simp] theorem addFlag_heads (jar : Word32) (k : JarFlag) : (addFlag jar k s).heads = s.heads := rfl
@[simp] theorem addFlag_link (jar : Word32) (k : JarFlag) : (addFlag jar k s).link = s.link := rfl
@[simp] theorem addFlag_capping (jar : Word32) (k : JarFlag) : (addFlag jar k s).capping = s.capping := rfl
@[simp] theorem addFlag_lift (jar : Word32) (k : JarFlag) : (addFlag jar k s).lift = s.lift := rfl
@[simp] theorem addFlag_check (jar : Word32) (k : JarFlag) : (addFlag jar k s).check = s.check := rfl
@[simp] theorem addFlag_reject (jar : Word32) (k : JarFlag) : (addFlag jar k s).reject = s.reject := rfl
@[simp] theorem addFlag_records (jar : Word32) (k : JarFlag) : (addFlag jar k s).records = s.records := rfl
@[simp] theorem addFlag_traces (jar : Word32) (k : JarFlag) : (addFlag jar k s).traces = s.traces := rfl
@[simp] theorem addFlag_capture (jar : Word32) (k : JarFlag) : (addFlag jar k s).capture = s.capture := rfl
@[simp] theorem addFlag_dispTable (jar : Word32) (k : JarFlag) : (addFlag jar k s).dispTable = s.dispTable := rfl
@[simp] theorem addFlag_classCounts (jar : Word32) (k : JarFlag) : (addFlag jar k s).classCounts = s.classCounts := rfl
@[simp] theorem addFlag_pending (jar : Word32) (k : JarFlag) : (addFlag jar k s).pending = s.pending := rfl

/-! ### remakeDecision -/

@[simp] theorem remakeDecision_power : (remakeDecision s).power = s.power := rfl
@[simp] theorem remakeDecision_resetCause : (remakeDecision s).resetCause = s.resetCause := rfl
@[simp] theorem remakeDecision_storeDefaulted : (remakeDecision s).storeDefaulted = s.storeDefaulted := rfl
@[simp] theorem remakeDecision_timeBase : (remakeDecision s).timeBase = s.timeBase := rfl
@[simp] theorem remakeDecision_inputs : (remakeDecision s).inputs = s.inputs := rfl
@[simp] theorem remakeDecision_port : (remakeDecision s).port = s.port := rfl
@[simp] theorem remakeDecision_alerts : (remakeDecision s).alerts = s.alerts := rfl
@[simp] theorem remakeDecision_params : (remakeDecision s).params = s.params := rfl
@[simp] theorem remakeDecision_store : (remakeDecision s).store = s.store := rfl
@[simp] theorem remakeDecision_commit : (remakeDecision s).commit = s.commit := rfl
@[simp] theorem remakeDecision_run : (remakeDecision s).run = s.run := rfl
@[simp] theorem remakeDecision_gate : (remakeDecision s).gate =
    { s.gate with decision := decideGate s, gateOut := decideGate s == .admitJar } := rfl
@[simp] theorem remakeDecision_track : (remakeDecision s).track = s.track := rfl
@[simp] theorem remakeDecision_recipes : (remakeDecision s).recipes = s.recipes := rfl
@[simp] theorem remakeDecision_heads : (remakeDecision s).heads = s.heads := rfl
@[simp] theorem remakeDecision_link : (remakeDecision s).link = s.link := rfl
@[simp] theorem remakeDecision_capping : (remakeDecision s).capping = s.capping := rfl
@[simp] theorem remakeDecision_lift : (remakeDecision s).lift = s.lift := rfl
@[simp] theorem remakeDecision_check : (remakeDecision s).check = s.check := rfl
@[simp] theorem remakeDecision_reject : (remakeDecision s).reject = s.reject := rfl
@[simp] theorem remakeDecision_records : (remakeDecision s).records = s.records := rfl
@[simp] theorem remakeDecision_traces : (remakeDecision s).traces = s.traces := rfl
@[simp] theorem remakeDecision_capture : (remakeDecision s).capture = s.capture := rfl
@[simp] theorem remakeDecision_dispTable : (remakeDecision s).dispTable = s.dispTable := rfl
@[simp] theorem remakeDecision_classCounts : (remakeDecision s).classCounts = s.classCounts := rfl
@[simp] theorem remakeDecision_pending : (remakeDecision s).pending = s.pending := rfl

/-! ### setRunState -/

@[simp] theorem setRunState_power (st : RunState) : (setRunState st s).power = s.power := rfl
@[simp] theorem setRunState_resetCause (st : RunState) : (setRunState st s).resetCause = s.resetCause := rfl
@[simp] theorem setRunState_storeDefaulted (st : RunState) : (setRunState st s).storeDefaulted = s.storeDefaulted := rfl
@[simp] theorem setRunState_timeBase (st : RunState) : (setRunState st s).timeBase = s.timeBase := rfl
@[simp] theorem setRunState_inputs (st : RunState) : (setRunState st s).inputs = s.inputs := rfl
@[simp] theorem setRunState_port (st : RunState) : (setRunState st s).port = s.port := rfl
@[simp] theorem setRunState_alerts (st : RunState) : (setRunState st s).alerts = s.alerts := rfl
@[simp] theorem setRunState_params (st : RunState) : (setRunState st s).params = s.params := rfl
@[simp] theorem setRunState_store (st : RunState) : (setRunState st s).store = s.store := rfl
@[simp] theorem setRunState_commit (st : RunState) : (setRunState st s).commit = s.commit := rfl
@[simp] theorem setRunState_run (st : RunState) : (setRunState st s).run =
    { s.run with state := st, lstop := st == .fault, phase := if st == .change then s.run.phase else .none } := rfl
@[simp] theorem setRunState_track (st : RunState) : (setRunState st s).track = s.track := rfl
@[simp] theorem setRunState_recipes (st : RunState) : (setRunState st s).recipes = s.recipes := rfl
@[simp] theorem setRunState_heads (st : RunState) : (setRunState st s).heads = s.heads := rfl
@[simp] theorem setRunState_link (st : RunState) : (setRunState st s).link = s.link := rfl
@[simp] theorem setRunState_capping (st : RunState) : (setRunState st s).capping = s.capping := rfl
@[simp] theorem setRunState_lift (st : RunState) : (setRunState st s).lift = s.lift := rfl
@[simp] theorem setRunState_check (st : RunState) : (setRunState st s).check = s.check := rfl
@[simp] theorem setRunState_reject (st : RunState) : (setRunState st s).reject = s.reject := rfl
@[simp] theorem setRunState_records (st : RunState) : (setRunState st s).records = s.records := rfl
@[simp] theorem setRunState_traces (st : RunState) : (setRunState st s).traces = s.traces := rfl
@[simp] theorem setRunState_capture (st : RunState) : (setRunState st s).capture = s.capture := rfl
@[simp] theorem setRunState_dispTable (st : RunState) : (setRunState st s).dispTable = s.dispTable := rfl
@[simp] theorem setRunState_classCounts (st : RunState) : (setRunState st s).classCounts = s.classCounts := rfl
@[simp] theorem setRunState_pending (st : RunState) : (setRunState st s).pending = s.pending := rfl

/-! ### endBatchFlag -/

@[simp] theorem endBatchFlag_power : (endBatchFlag s).power = s.power := rfl
@[simp] theorem endBatchFlag_resetCause : (endBatchFlag s).resetCause = s.resetCause := rfl
@[simp] theorem endBatchFlag_storeDefaulted : (endBatchFlag s).storeDefaulted = s.storeDefaulted := rfl
@[simp] theorem endBatchFlag_timeBase : (endBatchFlag s).timeBase = s.timeBase := rfl
@[simp] theorem endBatchFlag_inputs : (endBatchFlag s).inputs = s.inputs := rfl
@[simp] theorem endBatchFlag_port : (endBatchFlag s).port = s.port := rfl
@[simp] theorem endBatchFlag_alerts : (endBatchFlag s).alerts = s.alerts := rfl
@[simp] theorem endBatchFlag_params : (endBatchFlag s).params = s.params := rfl
@[simp] theorem endBatchFlag_store : (endBatchFlag s).store = s.store := rfl
@[simp] theorem endBatchFlag_commit : (endBatchFlag s).commit = s.commit := rfl
@[simp] theorem endBatchFlag_run : (endBatchFlag s).run =
    { s.run with batchEnded := true } := rfl
@[simp] theorem endBatchFlag_track : (endBatchFlag s).track = s.track := rfl
@[simp] theorem endBatchFlag_recipes : (endBatchFlag s).recipes = s.recipes := rfl
@[simp] theorem endBatchFlag_heads : (endBatchFlag s).heads = s.heads := rfl
@[simp] theorem endBatchFlag_link : (endBatchFlag s).link = s.link := rfl
@[simp] theorem endBatchFlag_capping : (endBatchFlag s).capping = s.capping := rfl
@[simp] theorem endBatchFlag_lift : (endBatchFlag s).lift = s.lift := rfl
@[simp] theorem endBatchFlag_check : (endBatchFlag s).check = s.check := rfl
@[simp] theorem endBatchFlag_reject : (endBatchFlag s).reject = s.reject := rfl
@[simp] theorem endBatchFlag_records : (endBatchFlag s).records = s.records := rfl
@[simp] theorem endBatchFlag_traces : (endBatchFlag s).traces = s.traces := rfl
@[simp] theorem endBatchFlag_capture : (endBatchFlag s).capture = s.capture := rfl
@[simp] theorem endBatchFlag_dispTable : (endBatchFlag s).dispTable = s.dispTable := rfl
@[simp] theorem endBatchFlag_classCounts : (endBatchFlag s).classCounts = s.classCounts := rfl
@[simp] theorem endBatchFlag_pending : (endBatchFlag s).pending = s.pending := rfl

/-! ### modLine -/

@[simp] theorem modLine_power (p : Head) (f : HeadLine → HeadLine) : (modLine p f s).power = s.power := rfl
@[simp] theorem modLine_resetCause (p : Head) (f : HeadLine → HeadLine) : (modLine p f s).resetCause = s.resetCause := rfl
@[simp] theorem modLine_storeDefaulted (p : Head) (f : HeadLine → HeadLine) : (modLine p f s).storeDefaulted = s.storeDefaulted := rfl
@[simp] theorem modLine_timeBase (p : Head) (f : HeadLine → HeadLine) : (modLine p f s).timeBase = s.timeBase := rfl
@[simp] theorem modLine_inputs (p : Head) (f : HeadLine → HeadLine) : (modLine p f s).inputs = s.inputs := rfl
@[simp] theorem modLine_port (p : Head) (f : HeadLine → HeadLine) : (modLine p f s).port = s.port := rfl
@[simp] theorem modLine_alerts (p : Head) (f : HeadLine → HeadLine) : (modLine p f s).alerts = s.alerts := rfl
@[simp] theorem modLine_params (p : Head) (f : HeadLine → HeadLine) : (modLine p f s).params = s.params := rfl
@[simp] theorem modLine_store (p : Head) (f : HeadLine → HeadLine) : (modLine p f s).store = s.store := rfl
@[simp] theorem modLine_commit (p : Head) (f : HeadLine → HeadLine) : (modLine p f s).commit = s.commit := rfl
@[simp] theorem modLine_run (p : Head) (f : HeadLine → HeadLine) : (modLine p f s).run = s.run := rfl
@[simp] theorem modLine_gate (p : Head) (f : HeadLine → HeadLine) : (modLine p f s).gate = s.gate := rfl
@[simp] theorem modLine_track (p : Head) (f : HeadLine → HeadLine) : (modLine p f s).track = s.track := rfl
@[simp] theorem modLine_recipes (p : Head) (f : HeadLine → HeadLine) : (modLine p f s).recipes = s.recipes := rfl
@[simp] theorem modLine_heads (p : Head) (f : HeadLine → HeadLine) : (modLine p f s).heads = s.heads := rfl
@[simp] theorem modLine_link (p : Head) (f : HeadLine → HeadLine) : (modLine p f s).link =
    { s.link with lines := s.link.lines.set p (f s.link.lines[p]) } := rfl
@[simp] theorem modLine_capping (p : Head) (f : HeadLine → HeadLine) : (modLine p f s).capping = s.capping := rfl
@[simp] theorem modLine_lift (p : Head) (f : HeadLine → HeadLine) : (modLine p f s).lift = s.lift := rfl
@[simp] theorem modLine_check (p : Head) (f : HeadLine → HeadLine) : (modLine p f s).check = s.check := rfl
@[simp] theorem modLine_reject (p : Head) (f : HeadLine → HeadLine) : (modLine p f s).reject = s.reject := rfl
@[simp] theorem modLine_records (p : Head) (f : HeadLine → HeadLine) : (modLine p f s).records = s.records := rfl
@[simp] theorem modLine_traces (p : Head) (f : HeadLine → HeadLine) : (modLine p f s).traces = s.traces := rfl
@[simp] theorem modLine_capture (p : Head) (f : HeadLine → HeadLine) : (modLine p f s).capture = s.capture := rfl
@[simp] theorem modLine_dispTable (p : Head) (f : HeadLine → HeadLine) : (modLine p f s).dispTable = s.dispTable := rfl
@[simp] theorem modLine_classCounts (p : Head) (f : HeadLine → HeadLine) : (modLine p f s).classCounts = s.classCounts := rfl
@[simp] theorem modLine_pending (p : Head) (f : HeadLine → HeadLine) : (modLine p f s).pending = s.pending := rfl

/-! ### modHead -/

@[simp] theorem modHead_power (p : Head) (f : HeadRecord → HeadRecord) : (modHead p f s).power = s.power := rfl
@[simp] theorem modHead_resetCause (p : Head) (f : HeadRecord → HeadRecord) : (modHead p f s).resetCause = s.resetCause := rfl
@[simp] theorem modHead_storeDefaulted (p : Head) (f : HeadRecord → HeadRecord) : (modHead p f s).storeDefaulted = s.storeDefaulted := rfl
@[simp] theorem modHead_timeBase (p : Head) (f : HeadRecord → HeadRecord) : (modHead p f s).timeBase = s.timeBase := rfl
@[simp] theorem modHead_inputs (p : Head) (f : HeadRecord → HeadRecord) : (modHead p f s).inputs = s.inputs := rfl
@[simp] theorem modHead_port (p : Head) (f : HeadRecord → HeadRecord) : (modHead p f s).port = s.port := rfl
@[simp] theorem modHead_alerts (p : Head) (f : HeadRecord → HeadRecord) : (modHead p f s).alerts = s.alerts := rfl
@[simp] theorem modHead_params (p : Head) (f : HeadRecord → HeadRecord) : (modHead p f s).params = s.params := rfl
@[simp] theorem modHead_store (p : Head) (f : HeadRecord → HeadRecord) : (modHead p f s).store = s.store := rfl
@[simp] theorem modHead_commit (p : Head) (f : HeadRecord → HeadRecord) : (modHead p f s).commit = s.commit := rfl
@[simp] theorem modHead_run (p : Head) (f : HeadRecord → HeadRecord) : (modHead p f s).run = s.run := rfl
@[simp] theorem modHead_gate (p : Head) (f : HeadRecord → HeadRecord) : (modHead p f s).gate = s.gate := rfl
@[simp] theorem modHead_track (p : Head) (f : HeadRecord → HeadRecord) : (modHead p f s).track = s.track := rfl
@[simp] theorem modHead_recipes (p : Head) (f : HeadRecord → HeadRecord) : (modHead p f s).recipes = s.recipes := rfl
@[simp] theorem modHead_heads (p : Head) (f : HeadRecord → HeadRecord) : (modHead p f s).heads =
    s.heads.set p (f s.heads[p]) := rfl
@[simp] theorem modHead_link (p : Head) (f : HeadRecord → HeadRecord) : (modHead p f s).link = s.link := rfl
@[simp] theorem modHead_capping (p : Head) (f : HeadRecord → HeadRecord) : (modHead p f s).capping = s.capping := rfl
@[simp] theorem modHead_lift (p : Head) (f : HeadRecord → HeadRecord) : (modHead p f s).lift = s.lift := rfl
@[simp] theorem modHead_check (p : Head) (f : HeadRecord → HeadRecord) : (modHead p f s).check = s.check := rfl
@[simp] theorem modHead_reject (p : Head) (f : HeadRecord → HeadRecord) : (modHead p f s).reject = s.reject := rfl
@[simp] theorem modHead_records (p : Head) (f : HeadRecord → HeadRecord) : (modHead p f s).records = s.records := rfl
@[simp] theorem modHead_traces (p : Head) (f : HeadRecord → HeadRecord) : (modHead p f s).traces = s.traces := rfl
@[simp] theorem modHead_capture (p : Head) (f : HeadRecord → HeadRecord) : (modHead p f s).capture = s.capture := rfl
@[simp] theorem modHead_dispTable (p : Head) (f : HeadRecord → HeadRecord) : (modHead p f s).dispTable = s.dispTable := rfl
@[simp] theorem modHead_classCounts (p : Head) (f : HeadRecord → HeadRecord) : (modHead p f s).classCounts = s.classCounts := rfl
@[simp] theorem modHead_pending (p : Head) (f : HeadRecord → HeadRecord) : (modHead p f s).pending = s.pending := rfl

/-! ### setBinding -/

@[simp] theorem setBinding_power (p : Head) (b : Binding) : (setBinding p b s).power = s.power := rfl
@[simp] theorem setBinding_resetCause (p : Head) (b : Binding) : (setBinding p b s).resetCause = s.resetCause := rfl
@[simp] theorem setBinding_storeDefaulted (p : Head) (b : Binding) : (setBinding p b s).storeDefaulted = s.storeDefaulted := rfl
@[simp] theorem setBinding_timeBase (p : Head) (b : Binding) : (setBinding p b s).timeBase = s.timeBase := rfl
@[simp] theorem setBinding_inputs (p : Head) (b : Binding) : (setBinding p b s).inputs = s.inputs := rfl
@[simp] theorem setBinding_port (p : Head) (b : Binding) : (setBinding p b s).port = s.port := rfl
@[simp] theorem setBinding_alerts (p : Head) (b : Binding) : (setBinding p b s).alerts = s.alerts := rfl
@[simp] theorem setBinding_params (p : Head) (b : Binding) : (setBinding p b s).params = s.params := rfl
@[simp] theorem setBinding_store (p : Head) (b : Binding) : (setBinding p b s).store = s.store := rfl
@[simp] theorem setBinding_commit (p : Head) (b : Binding) : (setBinding p b s).commit = s.commit := rfl
@[simp] theorem setBinding_run (p : Head) (b : Binding) : (setBinding p b s).run = s.run := rfl
@[simp] theorem setBinding_gate (p : Head) (b : Binding) : (setBinding p b s).gate = s.gate := rfl
@[simp] theorem setBinding_track (p : Head) (b : Binding) : (setBinding p b s).track = s.track := rfl
@[simp] theorem setBinding_recipes (p : Head) (b : Binding) : (setBinding p b s).recipes = s.recipes := rfl
@[simp] theorem setBinding_heads (p : Head) (b : Binding) : (setBinding p b s).heads = s.heads := rfl
@[simp] theorem setBinding_link (p : Head) (b : Binding) : (setBinding p b s).link = s.link := rfl
@[simp] theorem setBinding_capping (p : Head) (b : Binding) : (setBinding p b s).capping =
    s.capping.set p b := rfl
@[simp] theorem setBinding_lift (p : Head) (b : Binding) : (setBinding p b s).lift = s.lift := rfl
@[simp] theorem setBinding_check (p : Head) (b : Binding) : (setBinding p b s).check = s.check := rfl
@[simp] theorem setBinding_reject (p : Head) (b : Binding) : (setBinding p b s).reject = s.reject := rfl
@[simp] theorem setBinding_records (p : Head) (b : Binding) : (setBinding p b s).records = s.records := rfl
@[simp] theorem setBinding_traces (p : Head) (b : Binding) : (setBinding p b s).traces = s.traces := rfl
@[simp] theorem setBinding_capture (p : Head) (b : Binding) : (setBinding p b s).capture = s.capture := rfl
@[simp] theorem setBinding_dispTable (p : Head) (b : Binding) : (setBinding p b s).dispTable = s.dispTable := rfl
@[simp] theorem setBinding_classCounts (p : Head) (b : Binding) : (setBinding p b s).classCounts = s.classCounts := rfl
@[simp] theorem setBinding_pending (p : Head) (b : Binding) : (setBinding p b s).pending = s.pending := rfl

/-! ### homeFound -/

@[simp] theorem homeFound_power : (homeFound s).power = s.power := rfl
@[simp] theorem homeFound_resetCause : (homeFound s).resetCause = s.resetCause := rfl
@[simp] theorem homeFound_storeDefaulted : (homeFound s).storeDefaulted = s.storeDefaulted := rfl
@[simp] theorem homeFound_timeBase : (homeFound s).timeBase = s.timeBase := rfl
@[simp] theorem homeFound_inputs : (homeFound s).inputs = s.inputs := rfl
@[simp] theorem homeFound_port : (homeFound s).port = s.port := rfl
@[simp] theorem homeFound_alerts : (homeFound s).alerts = s.alerts := rfl
@[simp] theorem homeFound_params : (homeFound s).params = s.params := rfl
@[simp] theorem homeFound_store : (homeFound s).store = s.store := rfl
@[simp] theorem homeFound_commit : (homeFound s).commit = s.commit := rfl
@[simp] theorem homeFound_run : (homeFound s).run = s.run := rfl
@[simp] theorem homeFound_gate : (homeFound s).gate = s.gate := rfl
@[simp] theorem homeFound_track : (homeFound s).track = s.track := rfl
@[simp] theorem homeFound_recipes : (homeFound s).recipes = s.recipes := rfl
@[simp] theorem homeFound_heads : (homeFound s).heads = s.heads := rfl
@[simp] theorem homeFound_link : (homeFound s).link = s.link := rfl
@[simp] theorem homeFound_capping : (homeFound s).capping = s.capping := rfl
@[simp] theorem homeFound_lift : (homeFound s).lift =
    { s.lift with position := 0, known := true, settling := true, settleSince := s.timeBase } := rfl
@[simp] theorem homeFound_check : (homeFound s).check = s.check := rfl
@[simp] theorem homeFound_reject : (homeFound s).reject = s.reject := rfl
@[simp] theorem homeFound_records : (homeFound s).records = s.records := rfl
@[simp] theorem homeFound_traces : (homeFound s).traces = s.traces := rfl
@[simp] theorem homeFound_capture : (homeFound s).capture = s.capture := rfl
@[simp] theorem homeFound_dispTable : (homeFound s).dispTable = s.dispTable := rfl
@[simp] theorem homeFound_classCounts : (homeFound s).classCounts = s.classCounts := rfl
@[simp] theorem homeFound_pending : (homeFound s).pending = s.pending := rfl

/-! ### samplePitch -/

@[simp] theorem samplePitch_power (p : PitchPins) : (samplePitch p s).power = s.power := rfl
@[simp] theorem samplePitch_resetCause (p : PitchPins) : (samplePitch p s).resetCause = s.resetCause := rfl
@[simp] theorem samplePitch_storeDefaulted (p : PitchPins) : (samplePitch p s).storeDefaulted = s.storeDefaulted := rfl
@[simp] theorem samplePitch_timeBase (p : PitchPins) : (samplePitch p s).timeBase = s.timeBase := rfl
@[simp] theorem samplePitch_port (p : PitchPins) : (samplePitch p s).port = s.port := rfl
@[simp] theorem samplePitch_alerts (p : PitchPins) : (samplePitch p s).alerts = s.alerts := rfl
@[simp] theorem samplePitch_params (p : PitchPins) : (samplePitch p s).params = s.params := rfl
@[simp] theorem samplePitch_store (p : PitchPins) : (samplePitch p s).store = s.store := rfl
@[simp] theorem samplePitch_commit (p : PitchPins) : (samplePitch p s).commit = s.commit := rfl
@[simp] theorem samplePitch_run (p : PitchPins) : (samplePitch p s).run = s.run := rfl
@[simp] theorem samplePitch_gate (p : PitchPins) : (samplePitch p s).gate = s.gate := rfl
@[simp] theorem samplePitch_track (p : PitchPins) : (samplePitch p s).track = s.track := rfl
@[simp] theorem samplePitch_recipes (p : PitchPins) : (samplePitch p s).recipes = s.recipes := rfl
@[simp] theorem samplePitch_heads (p : PitchPins) : (samplePitch p s).heads = s.heads := rfl
@[simp] theorem samplePitch_link (p : PitchPins) : (samplePitch p s).link = s.link := rfl
@[simp] theorem samplePitch_capping (p : PitchPins) : (samplePitch p s).capping = s.capping := rfl
@[simp] theorem samplePitch_lift (p : PitchPins) : (samplePitch p s).lift = s.lift := rfl
@[simp] theorem samplePitch_check (p : PitchPins) : (samplePitch p s).check = s.check := rfl
@[simp] theorem samplePitch_reject (p : PitchPins) : (samplePitch p s).reject = s.reject := rfl
@[simp] theorem samplePitch_records (p : PitchPins) : (samplePitch p s).records = s.records := rfl
@[simp] theorem samplePitch_traces (p : PitchPins) : (samplePitch p s).traces = s.traces := rfl
@[simp] theorem samplePitch_capture (p : PitchPins) : (samplePitch p s).capture = s.capture := rfl
@[simp] theorem samplePitch_dispTable (p : PitchPins) : (samplePitch p s).dispTable = s.dispTable := rfl
@[simp] theorem samplePitch_classCounts (p : PitchPins) : (samplePitch p s).classCounts = s.classCounts := rfl
@[simp] theorem samplePitch_pending (p : PitchPins) : (samplePitch p s).pending = s.pending := rfl

/-! ### sampleLift -/

@[simp] theorem sampleLift_power (p : LiftPins) : (sampleLift p s).power = s.power := rfl
@[simp] theorem sampleLift_resetCause (p : LiftPins) : (sampleLift p s).resetCause = s.resetCause := rfl
@[simp] theorem sampleLift_storeDefaulted (p : LiftPins) : (sampleLift p s).storeDefaulted = s.storeDefaulted := rfl
@[simp] theorem sampleLift_timeBase (p : LiftPins) : (sampleLift p s).timeBase = s.timeBase := rfl
@[simp] theorem sampleLift_inputs (p : LiftPins) : (sampleLift p s).inputs =
    { s.inputs with liftHome := p.liftHome, liftFlt := p.liftFlt } := rfl
@[simp] theorem sampleLift_port (p : LiftPins) : (sampleLift p s).port = s.port := rfl
@[simp] theorem sampleLift_alerts (p : LiftPins) : (sampleLift p s).alerts = s.alerts := rfl
@[simp] theorem sampleLift_params (p : LiftPins) : (sampleLift p s).params = s.params := rfl
@[simp] theorem sampleLift_store (p : LiftPins) : (sampleLift p s).store = s.store := rfl
@[simp] theorem sampleLift_commit (p : LiftPins) : (sampleLift p s).commit = s.commit := rfl
@[simp] theorem sampleLift_run (p : LiftPins) : (sampleLift p s).run = s.run := rfl
@[simp] theorem sampleLift_gate (p : LiftPins) : (sampleLift p s).gate = s.gate := rfl
@[simp] theorem sampleLift_track (p : LiftPins) : (sampleLift p s).track = s.track := rfl
@[simp] theorem sampleLift_recipes (p : LiftPins) : (sampleLift p s).recipes = s.recipes := rfl
@[simp] theorem sampleLift_heads (p : LiftPins) : (sampleLift p s).heads = s.heads := rfl
@[simp] theorem sampleLift_link (p : LiftPins) : (sampleLift p s).link = s.link := rfl
@[simp] theorem sampleLift_capping (p : LiftPins) : (sampleLift p s).capping = s.capping := rfl
@[simp] theorem sampleLift_lift (p : LiftPins) : (sampleLift p s).lift = s.lift := rfl
@[simp] theorem sampleLift_check (p : LiftPins) : (sampleLift p s).check = s.check := rfl
@[simp] theorem sampleLift_reject (p : LiftPins) : (sampleLift p s).reject = s.reject := rfl
@[simp] theorem sampleLift_records (p : LiftPins) : (sampleLift p s).records = s.records := rfl
@[simp] theorem sampleLift_traces (p : LiftPins) : (sampleLift p s).traces = s.traces := rfl
@[simp] theorem sampleLift_capture (p : LiftPins) : (sampleLift p s).capture = s.capture := rfl
@[simp] theorem sampleLift_dispTable (p : LiftPins) : (sampleLift p s).dispTable = s.dispTable := rfl
@[simp] theorem sampleLift_classCounts (p : LiftPins) : (sampleLift p s).classCounts = s.classCounts := rfl
@[simp] theorem sampleLift_pending (p : LiftPins) : (sampleLift p s).pending = s.pending := rfl

/-! ### countPitch -/

@[simp] theorem countPitch_power : (countPitch s).power = s.power := rfl
@[simp] theorem countPitch_resetCause : (countPitch s).resetCause = s.resetCause := rfl
@[simp] theorem countPitch_storeDefaulted : (countPitch s).storeDefaulted = s.storeDefaulted := rfl
@[simp] theorem countPitch_timeBase : (countPitch s).timeBase = s.timeBase := rfl
@[simp] theorem countPitch_inputs : (countPitch s).inputs = s.inputs := rfl
@[simp] theorem countPitch_port : (countPitch s).port = s.port := rfl
@[simp] theorem countPitch_alerts : (countPitch s).alerts = s.alerts := rfl
@[simp] theorem countPitch_params : (countPitch s).params = s.params := rfl
@[simp] theorem countPitch_store : (countPitch s).store = s.store := rfl
@[simp] theorem countPitch_commit : (countPitch s).commit = s.commit := rfl
@[simp] theorem countPitch_run : (countPitch s).run = s.run := rfl
@[simp] theorem countPitch_gate : (countPitch s).gate = s.gate := rfl
@[simp] theorem countPitch_track : (countPitch s).track =
    { s.track with pitchCount := s.track.pitchCount + 1, pocket := s.track.pocket + 1 } := rfl
@[simp] theorem countPitch_recipes : (countPitch s).recipes = s.recipes := rfl
@[simp] theorem countPitch_heads : (countPitch s).heads = s.heads := rfl
@[simp] theorem countPitch_link : (countPitch s).link = s.link := rfl
@[simp] theorem countPitch_capping : (countPitch s).capping = s.capping := rfl
@[simp] theorem countPitch_lift : (countPitch s).lift = s.lift := rfl
@[simp] theorem countPitch_check : (countPitch s).check = s.check := rfl
@[simp] theorem countPitch_reject : (countPitch s).reject = s.reject := rfl
@[simp] theorem countPitch_records : (countPitch s).records = s.records := rfl
@[simp] theorem countPitch_traces : (countPitch s).traces = s.traces := rfl
@[simp] theorem countPitch_capture : (countPitch s).capture = s.capture := rfl
@[simp] theorem countPitch_dispTable : (countPitch s).dispTable = s.dispTable := rfl
@[simp] theorem countPitch_classCounts : (countPitch s).classCounts = s.classCounts := rfl
@[simp] theorem countPitch_pending : (countPitch s).pending = s.pending := rfl

/-! ### advance -/

@[simp] theorem advance_power : (advance s).power = s.power := rfl
@[simp] theorem advance_resetCause : (advance s).resetCause = s.resetCause := rfl
@[simp] theorem advance_storeDefaulted : (advance s).storeDefaulted = s.storeDefaulted := rfl
@[simp] theorem advance_timeBase : (advance s).timeBase = s.timeBase := rfl
@[simp] theorem advance_inputs : (advance s).inputs = s.inputs := rfl
@[simp] theorem advance_port : (advance s).port = s.port := rfl
@[simp] theorem advance_alerts : (advance s).alerts = s.alerts := rfl
@[simp] theorem advance_params : (advance s).params = s.params := rfl
@[simp] theorem advance_store : (advance s).store = s.store := rfl
@[simp] theorem advance_commit : (advance s).commit = s.commit := rfl
@[simp] theorem advance_run : (advance s).run = s.run := rfl
@[simp] theorem advance_gate : (advance s).gate = s.gate := rfl
@[simp] theorem advance_track : (advance s).track =
    { s.track with entries := s.track.entries.map (fun e => { e with position := e.position + 1 }) } := rfl
@[simp] theorem advance_recipes : (advance s).recipes = s.recipes := rfl
@[simp] theorem advance_heads : (advance s).heads = s.heads := rfl
@[simp] theorem advance_link : (advance s).link = s.link := rfl
@[simp] theorem advance_capping : (advance s).capping = s.capping := rfl
@[simp] theorem advance_lift : (advance s).lift = s.lift := rfl
@[simp] theorem advance_check : (advance s).check = s.check := rfl
@[simp] theorem advance_reject : (advance s).reject = s.reject := rfl
@[simp] theorem advance_records : (advance s).records = s.records := rfl
@[simp] theorem advance_traces : (advance s).traces = s.traces := rfl
@[simp] theorem advance_capture : (advance s).capture = s.capture := rfl
@[simp] theorem advance_dispTable : (advance s).dispTable = s.dispTable := rfl
@[simp] theorem advance_classCounts : (advance s).classCounts = s.classCounts := rfl
@[simp] theorem advance_pending : (advance s).pending = s.pending := rfl

/-! ### sendReply -/

@[simp] theorem sendReply_power (addr : Nat) (code : Byte) (r : ResultCode) (p : List Byte) : (sendReply addr code r p s).power = s.power := rfl
@[simp] theorem sendReply_resetCause (addr : Nat) (code : Byte) (r : ResultCode) (p : List Byte) : (sendReply addr code r p s).resetCause = s.resetCause := rfl
@[simp] theorem sendReply_storeDefaulted (addr : Nat) (code : Byte) (r : ResultCode) (p : List Byte) : (sendReply addr code r p s).storeDefaulted = s.storeDefaulted := rfl
@[simp] theorem sendReply_timeBase (addr : Nat) (code : Byte) (r : ResultCode) (p : List Byte) : (sendReply addr code r p s).timeBase = s.timeBase := rfl
@[simp] theorem sendReply_inputs (addr : Nat) (code : Byte) (r : ResultCode) (p : List Byte) : (sendReply addr code r p s).inputs = s.inputs := rfl
@[simp] theorem sendReply_port (addr : Nat) (code : Byte) (r : ResultCode) (p : List Byte) : (sendReply addr code r p s).port =
    { s.port with reply := some ⟨addr, code, r, p⟩ } := rfl
@[simp] theorem sendReply_alerts (addr : Nat) (code : Byte) (r : ResultCode) (p : List Byte) : (sendReply addr code r p s).alerts = s.alerts := rfl
@[simp] theorem sendReply_params (addr : Nat) (code : Byte) (r : ResultCode) (p : List Byte) : (sendReply addr code r p s).params = s.params := rfl
@[simp] theorem sendReply_store (addr : Nat) (code : Byte) (r : ResultCode) (p : List Byte) : (sendReply addr code r p s).store = s.store := rfl
@[simp] theorem sendReply_commit (addr : Nat) (code : Byte) (r : ResultCode) (p : List Byte) : (sendReply addr code r p s).commit = s.commit := rfl
@[simp] theorem sendReply_run (addr : Nat) (code : Byte) (r : ResultCode) (p : List Byte) : (sendReply addr code r p s).run = s.run := rfl
@[simp] theorem sendReply_gate (addr : Nat) (code : Byte) (r : ResultCode) (p : List Byte) : (sendReply addr code r p s).gate = s.gate := rfl
@[simp] theorem sendReply_track (addr : Nat) (code : Byte) (r : ResultCode) (p : List Byte) : (sendReply addr code r p s).track = s.track := rfl
@[simp] theorem sendReply_recipes (addr : Nat) (code : Byte) (r : ResultCode) (p : List Byte) : (sendReply addr code r p s).recipes = s.recipes := rfl
@[simp] theorem sendReply_heads (addr : Nat) (code : Byte) (r : ResultCode) (p : List Byte) : (sendReply addr code r p s).heads = s.heads := rfl
@[simp] theorem sendReply_link (addr : Nat) (code : Byte) (r : ResultCode) (p : List Byte) : (sendReply addr code r p s).link = s.link := rfl
@[simp] theorem sendReply_capping (addr : Nat) (code : Byte) (r : ResultCode) (p : List Byte) : (sendReply addr code r p s).capping = s.capping := rfl
@[simp] theorem sendReply_lift (addr : Nat) (code : Byte) (r : ResultCode) (p : List Byte) : (sendReply addr code r p s).lift = s.lift := rfl
@[simp] theorem sendReply_check (addr : Nat) (code : Byte) (r : ResultCode) (p : List Byte) : (sendReply addr code r p s).check = s.check := rfl
@[simp] theorem sendReply_reject (addr : Nat) (code : Byte) (r : ResultCode) (p : List Byte) : (sendReply addr code r p s).reject = s.reject := rfl
@[simp] theorem sendReply_records (addr : Nat) (code : Byte) (r : ResultCode) (p : List Byte) : (sendReply addr code r p s).records = s.records := rfl
@[simp] theorem sendReply_traces (addr : Nat) (code : Byte) (r : ResultCode) (p : List Byte) : (sendReply addr code r p s).traces = s.traces := rfl
@[simp] theorem sendReply_capture (addr : Nat) (code : Byte) (r : ResultCode) (p : List Byte) : (sendReply addr code r p s).capture = s.capture := rfl
@[simp] theorem sendReply_dispTable (addr : Nat) (code : Byte) (r : ResultCode) (p : List Byte) : (sendReply addr code r p s).dispTable = s.dispTable := rfl
@[simp] theorem sendReply_classCounts (addr : Nat) (code : Byte) (r : ResultCode) (p : List Byte) : (sendReply addr code r p s).classCounts = s.classCounts := rfl
@[simp] theorem sendReply_pending (addr : Nat) (code : Byte) (r : ResultCode) (p : List Byte) : (sendReply addr code r p s).pending = s.pending := rfl

end Sys2Proof.Machine
end

