-- ==== Sys2Proof/Laws/Keeps.lean ====
section
/-! SUPPORT. What every shared operation keeps: said once, as one relation between the state before and the
state after, and one lemma per operation. A claim over all commands follows from these lemmas alone. -/

-- One declaration is checked after another: side by side they take more threads than the memory limit allows.
set_option Elab.async false

namespace Sys2Proof.Machine

/-- A SEATED result has a seal time. -/
def SeatedTimed (e : Entry) : Prop := e.lastOutcome = some .seated → e.sealTime.isSome = true

/-- CAPPED_OK has a seal time. -/
def CappedTimed (e : Entry) : Prop := e.capClass = some .cappedOk → e.sealTime.isSome = true

/-- The condition of an entry in the middle of a pitch: the flags say which of the acts at x, k and j have
been taken. -/
def EntryAt (g : Geometry) (dx dk dj : Bool) (e : Entry) : Prop :=
  SeatedTimed e ∧ CappedTimed e
    ∧ (g.x < e.position ∨ g.x = e.position ∧ dx = true → e.capClass.isSome = true)
    ∧ (g.k < e.position ∨ g.k = e.position ∧ dk = true → e.action.isSome = true)
    ∧ (e.position < g.j ∨ e.position = g.j ∧ dj = false)

/-- Every entry has what the acts taken so far give it. -/
def StationsAt (dx dk dj : Bool) (s : State) : Prop :=
  ∀ e ∈ s.track.entries, EntryAt s.track.geometry dx dk dj e

theorem stationsAt_iff (s : State) : StationsAt true true true s ↔ StationsPassed s := by
  unfold StationsAt StationsPassed EntryAt EntryPassed SeatedTimed CappedTimed
  refine forall₂_congr fun e _ => ?_
  constructor
  · rintro ⟨h1, h2, h3, h4, h5⟩
    refine ⟨h1, h2, fun h => h3 ?_, fun h => h4 ?_, ?_⟩
    · rcases Nat.lt_or_eq_of_le h with h | h
      · exact .inl h
      · exact .inr ⟨h, rfl⟩
    · rcases Nat.lt_or_eq_of_le h with h | h
      · exact .inl h
      · exact .inr ⟨h, rfl⟩
    · rcases h5 with h | h
      · exact h
      · exact absurd h.2 (by simp)
  · rintro ⟨h1, h2, h3, h4, h5⟩
    refine ⟨h1, h2, fun h => h3 ?_, fun h => h4 ?_, .inl h5⟩
    · rcases h with h | h
      · exact h.le
      · exact h.1.le
    · rcases h with h | h
      · exact h.le
      · exact h.1.le

/-- Which of the conditional clauses of `Keeps` are claimed. `stay`: FAULT is not left. `few`: FEW_HEADS
is kept in step with the heads. `dec`: the standing decision is kept current. `adm`: no entry joins, and the pocket counter stands.
`conf`: the confirm list, the pulse and the pitch count are left alone. `stat`: no entry moves. `fix`: the port, the
settings and the clocks are left alone. `pit`: a forward pitch may make it.
`outK`: an entry may depart at k by it. `clos`: no comparison of R68, R69 or R130 is left open. -/
structure Scope where
  stay : Bool
  few : Bool
  dec : Bool
  adm : Bool
  conf : Bool
  stat : Bool
  fix : Bool
  pit : Bool
  outK : Bool
  clos : Bool

/-- What an entry keeps from its admission to its departure, with its position. -/
structure Label where
  jar : Word32
  pocket : Head
  position : Nat
  recipeId : Nat
  batch : Nat
  admissionPitch : Word32
  admissionTime : Word32
  fillTemp : Option Nat

/-- The label of an entry. -/
def Entry.label (e : Entry) : Label :=
  ⟨e.jar, e.pocket, e.position, e.recipeId, e.batch, e.admissionPitch, e.admissionTime, e.fillTemp⟩

/-- The port, the settings, the clocks and what else only the commands named for it change. -/
structure Fixed where
  port : LinePort
  params : LineParams
  geometry : Geometry
  dispTable : Vector DispEntry 13
  mask : AlertSet
  z0 : Nat
  traceAll : Bool
  store : StoredImage
  commit : Option StoredImage
  timeBase : Word32
  resetCause : ResetCause
  storeDefaulted : Bool
  epoch : Nat
  pocket : Head
  synced : Bool
  pitchCount : Word32

/-- That part of a state. -/
def State.fixed (s : State) : Fixed :=
  ⟨s.port, s.params, s.track.geometry, s.dispTable, s.alerts.mask, s.check.z0, s.traces.modeAll, s.store,
    s.commit, s.timeBase, s.resetCause, s.storeDefaulted, s.traces.epoch, s.track.pocket, s.track.synced,
    s.track.pitchCount⟩

/-- What every operation a forward pitch makes keeps: alerts stay latched, the geometry stands, an entry not at
j, and not at k unless `outK`, stays in the Track, the scan is left alone, and with no changeover request
pending none comes, and the batch number and ACTIVE stand. -/
structure PitKeeps (outK : Bool) (s t : State) : Prop where
  latches : ∀ k, s.alerts.latch[alertIx k] = true → t.alerts.latch[alertIx k] = true := by exact fun _ h => h
  geometry : t.track.geometry = s.track.geometry := by exact rfl
  remain : ∀ e ∈ s.track.entries, (outK = true → e.position ≠ s.track.geometry.k) →
      e.position ≠ s.track.geometry.j → ∃ f ∈ t.track.entries, f.label = e.label := by
    exact fun e he _ _ => ⟨e, he, rfl⟩
  calm : s.run.request = none → t.run.request = none ∧ t.run.batchNumber = s.run.batchNumber
      ∧ t.recipes.active = s.recipes.active := by exact fun h => ⟨h, rfl, rfl⟩
  scan : t.link.exchange = s.link.exchange ∧ t.link.pointer = s.link.pointer
      ∧ t.link.hlDe = s.link.hlDe ∧ t.link.hlTxd = s.link.hlTxd := by exact ⟨rfl, rfl, rfl, rfl⟩

theorem PitKeeps.trans {b : Bool} {s t u : State} (h : PitKeeps b s t) (g : PitKeeps b t u) :
    PitKeeps b s u where
  latches k a := g.latches k (h.latches k a)
  geometry := g.geometry.trans h.geometry
  remain := fun e he hk hj => by
    obtain ⟨f, hf, hl⟩ := h.remain e he hk hj
    have hp : f.position = e.position := congrArg Label.position hl
    obtain ⟨f', hf', hl'⟩ := g.remain f hf (fun a => by rw [hp, h.geometry]; exact hk a) (by rw [hp, h.geometry]; exact hj)
    exact ⟨f', hf', hl'.trans hl⟩
  calm := fun a => by
    obtain ⟨a1, a2, a3⟩ := h.calm a
    obtain ⟨b1, b2, b3⟩ := g.calm a1
    exact ⟨b1, b2.trans a2, b3.trans a3⟩
  scan := ⟨g.scan.1.trans h.scan.1, g.scan.2.1.trans h.scan.2.1, g.scan.2.2.1.trans h.scan.2.2.1,
    g.scan.2.2.2.trans h.scan.2.2.2⟩

/-- A run state in which a jar may join, or FAULT: a forward pitch leaves these for one of them, until a jar
joins. -/
def Awake (r : RunState) : Prop := r = .run ∨ r = .hold ∨ r = .change ∨ r = .fault

/-- What an operation keeps between the state before and the state after. -/
structure Keeps (o : Scope) (s t : State) : Prop where
  pending : t.pending = s.pending := by exact rfl
  power : t.power = s.power := by exact rfl
  fault : o.stay = true → s.run.state = .fault → t.run.state = .fault := by exact fun _ h => h
  fewHeads : o.few = true → FewHeadsMatches s → FewHeadsMatches t := by exact fun _ h => h
  decision : o.dec = true → DecisionStands s → DecisionStands t := by exact fun _ h => h
  positive : o.adm = true → (∀ e ∈ s.track.entries, 0 < e.position) → ∀ e ∈ t.track.entries, 0 < e.position := by
    exact fun _ h => h
  confirms : o.conf = true →
      t.reject.confirms = s.reject.confirms ∧ t.track.pitchCount = s.track.pitchCount
        ∧ t.reject.rejOut = s.reject.rejOut ∧ t.reject.since = s.reject.since := by
    exact fun _ => ⟨rfl, rfl, rfl, rfl⟩
  active : s.recipes.active.isSome = true → t.recipes.active.isSome = true := by exact fun h => h
  lstop : LstopFollows s → LstopFollows t := by exact fun h => h
  gateOut : GateOutFollows s → GateOutFollows t := by exact fun h => h
  alert : AlertFollows s → AlertFollows t := by exact fun h => h
  phase : PhaseInChange s → PhaseInChange t := by exact fun h => h
  hold : HoldMatches s → HoldMatches t := by exact fun h => h
  banks : BanksMatch s → BanksMatch t := by exact fun h => h
  fixed : FixedClassesReject s → FixedClassesReject t := by exact fun h => h
  queue : QueueBounded s → QueueBounded t := by exact fun h => h
  ring : RingCanonical s → RingCanonical t := by exact fun h => h
  ranges : CountsInRange s → CountsInRange t := by exact fun h => h
  params : AllParamsOk s → AllParamsOk t := by exact fun h => h
  geometries : GeometriesOk s → GeometriesOk t := by exact fun h => h
  track : PositionsFall s ∧ CountsMatch s → PositionsFall t ∧ CountsMatch t := by exact fun h => h
  stations : o.stat = true → ∀ dx dk dj, GeometriesOk s → StationsAt dx dk dj s → StationsAt dx dk dj t := by
    exact fun _ _ _ _ _ h => h
  joins : o.adm = true → t.track.nextJar = s.track.nextJar
      ∧ (t.track.entries.map Entry.label).Sublist (s.track.entries.map Entry.label) := by
    exact fun _ => ⟨rfl, List.Sublist.refl _⟩
  settings : o.fix = true → t.fixed = s.fixed := by exact fun _ => rfl
  causes : o.stay = true → ∀ c, s.run.causes[causeIx c] = true → t.run.causes[causeIx c] = true := by
    exact fun _ _ h => h
  pit : o.pit = true → PitKeeps o.outK s t := by exact fun _ => {}
  closed : o.clos = true → TestsClosed s → TestsClosed t := by exact fun _ h => h
  rest : EmptyAtRest s → EmptyAtRest t := by exact fun h => h
  awake : o.pit = true → o.adm = true → Awake s.run.state → Awake t.run.state := by exact fun _ _ h => h
  pocket : o.adm = true → t.track.pocket = s.track.pocket := by exact fun _ => rfl

variable {o : Scope} {s t u : State}

theorem Keeps.refl (s : State) : Keeps o s s := {}

theorem Keeps.trans (h : Keeps o s t) (g : Keeps o t u) :
    Keeps o s u where
  pending := g.pending.trans h.pending
  power := g.power.trans h.power
  fault a b := g.fault a (h.fault a b)
  fewHeads a b := g.fewHeads a (h.fewHeads a b)
  decision a b := g.decision a (h.decision a b)
  positive a b := g.positive a (h.positive a b)
  confirms a := ⟨(g.confirms a).1.trans (h.confirms a).1, (g.confirms a).2.1.trans (h.confirms a).2.1,
    (g.confirms a).2.2.1.trans (h.confirms a).2.2.1, (g.confirms a).2.2.2.trans (h.confirms a).2.2.2⟩
  active a := g.active (h.active a)
  lstop a := g.lstop (h.lstop a)
  gateOut a := g.gateOut (h.gateOut a)
  alert a := g.alert (h.alert a)
  phase a := g.phase (h.phase a)
  hold a := g.hold (h.hold a)
  banks a := g.banks (h.banks a)
  fixed a := g.fixed (h.fixed a)
  queue a := g.queue (h.queue a)
  ring a := g.ring (h.ring a)
  ranges a := g.ranges (h.ranges a)
  params a := g.params (h.params a)
  geometries a := g.geometries (h.geometries a)
  track a := g.track (h.track a)
  stations z a b c d e := g.stations z a b c (h.geometries d) (h.stations z a b c d e)
  joins a := ⟨(g.joins a).1.trans (h.joins a).1, (g.joins a).2.trans (h.joins a).2⟩
  settings a := (g.settings a).trans (h.settings a)
  causes a c b := g.causes a c (h.causes a c b)
  pit a := (h.pit a).trans (g.pit a)
  closed a b := g.closed a (h.closed a b)
  rest a := g.rest (h.rest a)
  awake a b c := g.awake a b (h.awake a b c)
  pocket a := (g.pocket a).trans (h.pocket a)

/-- Fewer clauses claimed. -/
theorem Keeps.drop {p : Scope} (h : Keeps o s t) (h1 : p.stay = true → o.stay = true)
    (h2 : p.few = true → o.few = true) (h3 : p.dec = true → o.dec = true)
    (h4 : p.adm = true → o.adm = true) (h5 : p.conf = true → o.conf = true)
    (h6 : p.stat = true → o.stat = true) (h7 : p.fix = true → o.fix = true)
    (h8 : p.pit = true → o.pit = true ∧ (o.outK = true → p.outK = true))
    (h9 : p.clos = true → o.clos = true) : Keeps p s t :=
  { h with fault := fun a => h.fault (h1 a), fewHeads := fun a => h.fewHeads (h2 a)
           decision := fun a => h.decision (h3 a), positive := fun a => h.positive (h4 a)
           confirms := fun a => h.confirms (h5 a)
           stations := fun a => h.stations (h6 a), joins := fun a => h.joins (h4 a)
           settings := fun a => h.settings (h7 a), closed := fun a => h.closed (h9 a)
           awake := fun a b => h.awake (h8 a).1 (h4 b), pocket := fun a => h.pocket (h4 a), causes := fun a => h.causes (h1 a)
           pit := fun a => { h.pit (h8 a).1 with
             remain := fun e he hk => (h.pit (h8 a).1).remain e he (fun b => hk ((h8 a).2 b)) } }

/-! ### Updates of one block that no condition reads -/

theorem keeps_port (q : LinePort) (hx : o.fix = false) : Keeps o s { s with port := q } :=
  { settings := fun a => by rw [hx] at a; cases a }
theorem keeps_inputs (q : Inputs) : Keeps o s { s with inputs := q } := {}
theorem keeps_time (q : Word32) (hx : o.fix = false) : Keeps o s { s with timeBase := q } :=
  { settings := fun a => by rw [hx] at a; cases a }
theorem keeps_link (q : HeadLink) (hp : o.pit = false) : Keeps o s { s with link := q } :=
  { pit := fun a => by rw [hp] at a; cases a }
theorem keeps_capping (q : Vector Binding 18) : Keeps o s { s with capping := q } := {}
theorem keeps_lift (q : Lift) : Keeps o s { s with lift := q } := {}
theorem keeps_reject (q : RejectGate) (h : o.conf = false) : Keeps o s { s with reject := q } :=
  { confirms := fun a => by rw [h] at a; cases a }
theorem keeps_classCounts (q : Vector Nat 13) : Keeps o s { s with classCounts := q } := {}
theorem keeps_capture (q : Capture) : Keeps o s { s with capture := q } := {}

theorem keeps_ite {c : Bool} (h : Keeps o s t) (g : Keeps o s u) :
    Keeps o s (if c then t else u) := by
  cases c <;> simpa

theorem keeps_iteProp {c : Prop} [Decidable c] (h : Keeps o s t) (g : Keeps o s u) :
    Keeps o s (if c then t else u) := by
  split
  · exact h
  · exact g

/-! ### Alerts -/

theorem keeps_alerts (a : AlertSet) (m : AlertSet) (h : o.fix = true → m = s.alerts.mask)
    (hp : o.pit = false) :
    Keeps o s (driveAlert { s with alerts := { latch := a, mask := m, pin := s.alerts.pin } }) :=
  { alert := fun _ => rfl, settings := (fun b => by rw [h b]; rfl)
    pit := fun a => by rw [hp] at a; cases a }

theorem keeps_driveAlert : Keeps o s (driveAlert s) := { alert := fun _ => rfl }

/-- A member set stays set. -/
theorem getElem_set_true {n : Nat} (v : Vector Bool n) (i j : Fin n) (h : v[j] = true) :
    (v.set i true)[j] = true := by
  simp only [Fin.getElem_fin, Vector.getElem_set] at *
  split
  · rfl
  · exact h

theorem keeps_latchAlert (k : AlertKind) : Keeps o s (latchAlert k s) :=
  { alert := fun _ => rfl
    pit := fun _ => { latches := fun j h => getElem_set_true s.alerts.latch _ _ h } }

/-! ### Entries -/

/-- What no write to an entry undoes. -/
structure Grows (e f : Entry) : Prop where
  position : f.position = e.position := by exact rfl
  bank : f.bank = e.bank := by exact rfl
  label : f.label = e.label := by exact rfl
  cap : e.capClass.isSome = true → f.capClass.isSome = true := by exact fun h => h
  action : e.action.isSome = true → f.action.isSome = true := by exact fun h => h
  seated : SeatedTimed e → SeatedTimed f := by exact fun h => h
  capped : SeatedTimed e → CappedTimed e → CappedTimed f := by exact fun _ h => h

theorem Grows.entryAt {e f : Entry} (h : Grows e f) (g : Geometry) (dx dk dj : Bool)
    (he : EntryAt g dx dk dj e) : EntryAt g dx dk dj f := by
  obtain ⟨h1, h2, h3, h4, h5⟩ := he
  refine ⟨h.seated h1, h.capped h1 h2, ?_, ?_, ?_⟩
  · rw [h.position]; exact fun a => h.cap (h3 a)
  · rw [h.position]; exact fun a => h.action (h4 a)
  · rw [h.position]; exact h5

theorem keeps_mapEntries (f : Entry → Entry) (h : ∀ e, Grows e (f e)) :
    Keeps o s { s with track.entries := s.track.entries.map f } where
  positive := by
    intro _ hp e he
    simp only [List.mem_map] at he
    obtain ⟨e', h', rfl⟩ := he
    rw [(h e').position]
    exact hp e' h'
  track := by
    rintro ⟨h1, h2⟩
    constructor
    · unfold PositionsFall at *
      simp only [List.pairwise_map, (h _).position]
      exact h1
    · unfold CountsMatch at *
      simp only [List.countP_map, Function.comp_def, (h _).bank]
      exact h2
  stations := by
    intro _ dx dk dj _ hs e he
    simp only [List.mem_map] at he
    obtain ⟨e', h', rfl⟩ := he
    exact (h e').entryAt _ _ _ _ (hs e' h')
  rest := fun h a => by
    show s.track.entries.map f = []
    rw [h a]; rfl
  joins := fun _ => ⟨rfl, by
    have : s.track.entries.map (Entry.label ∘ f) = s.track.entries.map Entry.label :=
      List.map_congr_left (fun e _ => (h e).label)
    simp only [List.map_map, this]
    exact List.Sublist.refl _⟩
  pit := fun _ => { remain := fun e he _ _ => ⟨f e, List.mem_map_of_mem he, (h e).label⟩ }

theorem keeps_modEntry (jar : Word32) (f : Entry → Entry) (h : ∀ e, Grows e (f e)) :
    Keeps o s (modEntry jar f s) :=
  keeps_mapEntries _ (by
    intro e
    split
    · exact h e
    · exact {})

theorem keeps_addFlag (jar : Word32) (k : JarFlag) : Keeps o s (addFlag jar k s) :=
  keeps_modEntry _ _ (fun _ => {})

/-! ### The standing decision and the run state -/

/-- The decision is remade after whatever changed its conditions. -/
theorem Keeps.thenRemake (h : Keeps { o with dec := false } s t) : Keeps o s (remakeDecision t) :=
  { h with decision := fun _ _ => rfl, gateOut := fun _ => rfl
           ranges := h.ranges, banks := h.banks, pit := fun a => { h.pit a with } }

theorem keeps_remake : Keeps o s (remakeDecision s) := (Keeps.refl s).thenRemake

/-- Which run states lead to admitting. -/
def admitsSoon (r : RunState) : Bool :=
  match r with
  | .prepare | .run | .hold | .change => true
  | .idle | .drain | .fault => false

theorem banks_state (r : RunState) (s : State) :
    (s.run.state = r → (r = .prepare ∨ r = .run ∨ r = .hold ∨ r = .change → s.recipes.active.isSome = true))
      ↔ (s.run.state = r → admitsSoon r = true → s.recipes.active.isSome = true) := by
  cases r <;> simp [admitsSoon]

/-- The run state changes after whatever led to it. -/
theorem Keeps.thenState {r : RunState} (h : Keeps { o with dec := false } s t)
    (hf : o.stay = true → s.run.state = .fault → r = .fault)
    (hh : r = .run → isEmptySet t.run.hold = true) (hn : r = .hold → isEmptySet t.run.hold = false)
    (hc : r = .change → t.run.phase ≠ .none)
    (hb : BanksMatch s → admitsSoon r = true → t.recipes.active.isSome = true)
    (he : EmptyAtRest s → r = .idle ∨ r = .prepare → t.track.entries = [] := by
      exact fun _ a => absurd a (by decide))
    (hw : o.pit = true → o.adm = true → Awake s.run.state → Awake r := by
      exact fun _ _ _ => by simp [Awake]) :
    Keeps o s (setRunState r t) where
  rest := he
  awake := hw
  pocket := h.pocket
  pending := h.pending
  power := h.power
  fault := hf
  fewHeads := h.fewHeads
  decision := fun _ _ => rfl
  positive := h.positive
  confirms := h.confirms
  active := h.active
  lstop := fun _ => rfl
  gateOut := fun _ => rfl
  alert := h.alert
  phase := fun _ => by
    show r = .change ↔ (if r == .change then t.run.phase else .none) ≠ .none
    cases r <;> simp_all
  hold := fun _ => ⟨hh, hn⟩
  banks := fun b => by
    obtain ⟨h1, h2, h3⟩ := h.banks b
    refine ⟨h1, h2, fun h4 => hb b ?_⟩
    change r = .prepare ∨ r = .run ∨ r = .hold ∨ r = .change at h4
    rcases h4 with rfl | rfl | rfl | rfl <;> rfl
  fixed := h.fixed
  queue := h.queue
  ring := h.ring
  ranges := h.ranges
  params := h.params
  geometries := h.geometries
  joins := h.joins
  settings := h.settings
  causes := h.causes
  pit := fun a => { h.pit a with }
  closed := h.closed
  track := h.track
  stations := h.stations

/-! ### The hold-reason set (R28, R31) -/

theorem keeps_holdState (r : RunState) (v : HoldSet) (hs : s.run.state = .run ∨ s.run.state = .hold)
    (hr : r = .run ∧ isEmptySet v = true ∨ r = .hold ∧ isEmptySet v = false)
    (hv : o.few = true → v[holdIx .fewHeads] = s.run.hold[holdIx .fewHeads]) :
    Keeps o s (setRunState r { s with run.hold := v }) where
  rest := fun _ a => by
    change r = .idle ∨ r = .prepare at a
    rcases hr with ⟨rfl, _⟩ | ⟨rfl, _⟩ <;> simp at a
  awake := fun _ _ _ => by
    show Awake r
    rcases hr with ⟨rfl, _⟩ | ⟨rfl, _⟩ <;> simp [Awake]
  fault := fun _ h => by rcases hs with hs | hs <;> simp [hs] at h
  fewHeads := fun a h => (hv a).trans h
  decision := fun _ _ => rfl
  lstop := fun _ => rfl
  gateOut := fun _ => rfl
  phase := fun _ => by
    show r = .change ↔ (if r == .change then s.run.phase else .none) ≠ .none
    rcases hr with ⟨rfl, _⟩ | ⟨rfl, _⟩ <;> simp
  hold := fun _ => by
    rcases hr with ⟨rfl, h⟩ | ⟨rfl, h⟩
    · exact ⟨fun _ => h, fun a => RunState.noConfusion a⟩
    · exact ⟨fun a => RunState.noConfusion a, fun _ => h⟩
  banks := fun b => ⟨b.1, b.2.1, fun _ => b.2.2 (by rcases hs with hs | hs <;> simp [hs])⟩

theorem keeps_setHold (r : HoldReason) (b : Bool) (hr : o.few = true → r ≠ .fewHeads) :
    Keeps o s (setHold r b s) := by
  have hv : o.few = true →
      (s.run.hold.set (holdIx r) b)[holdIx .fewHeads] = s.run.hold[holdIx .fewHeads] := by
    intro a
    have := hr a
    cases r <;> simp_all [holdIx]
  unfold setHold
  simp only
  split
  · rename_i h
    simp only [Bool.and_eq_true, beq_iff_eq, Bool.not_eq_true'] at h
    exact (keeps_holdState .hold _ (.inl h.1.1) (.inr ⟨rfl, h.2⟩) hv).trans (keeps_latchAlert _)
  · split
    · rename_i h
      simp only [Bool.and_eq_true, beq_iff_eq, Bool.not_eq_true'] at h
      exact keeps_holdState .run _ (.inr h.1.1) (.inl ⟨rfl, h.2⟩) hv
    · rename_i h1 h2
      simp only [Bool.and_eq_true, beq_iff_eq, Bool.not_eq_true', not_and, Bool.not_eq_false,
        Bool.not_eq_true] at h1 h2
      exact {
        fewHeads := fun a h => (hv a).trans h
        hold := fun h => ⟨fun a => h1 ⟨a, h.1 a⟩, fun a => h2 ⟨a, h.2 a⟩⟩ }

/-- After `setHold` the member is in the set or not, as it was asked. -/
theorem setHold_member (r : HoldReason) (b : Bool) : (setHold r b s).run.hold[holdIx r] = b := by
  have h : (s.run.hold.set (holdIx r) b)[holdIx r] = b := by simp
  unfold setHold
  simp only
  split
  · exact h
  · split <;> exact h

theorem setHold_heads (r : HoldReason) (b : Bool) :
    (setHold r b s).heads = s.heads ∧ (setHold r b s).params = s.params := by
  unfold setHold
  simp only
  split
  · exact ⟨rfl, rfl⟩
  · split <;> exact ⟨rfl, rfl⟩

/-- FEW_HEADS is brought in step after whatever changed the heads or M. -/
theorem Keeps.thenFew (h : Keeps { o with few := false } s t) : Keeps o s (updateFewHeads t) := by
  have k : Keeps { o with few := false } s (updateFewHeads t) :=
    h.trans (keeps_setHold _ _ (fun a => Bool.noConfusion a))
  have f : FewHeadsMatches (updateFewHeads t) := by
    unfold FewHeadsMatches updateFewHeads
    rw [setHold_member, (setHold_heads _ _).1, (setHold_heads _ _).2]
  exact { k with fewHeads := fun _ _ => f }

/-! ### IDLE, DRAIN and the end of a batch -/

theorem keeps_enterHold (h : Keeps { o with dec := false } s t) (hf : o.stay = true → s.run.state ≠ .fault)
    (hn : isEmptySet t.run.hold = false) (hb : BanksMatch s → t.recipes.active.isSome = true) :
    Keeps o s (enterHold t) :=
  (h.thenState (fun a b => absurd b (hf a)) (fun a => absurd a (by decide)) (fun _ => hn)
    (fun a => absurd a (by decide)) (fun b _ => hb b)).trans (keeps_latchAlert _)

theorem keeps_enterRunOrHold (h : Keeps { o with dec := false } s t) (hf : o.stay = true → s.run.state ≠ .fault)
    (hb : BanksMatch s → t.recipes.active.isSome = true) :
    Keeps o s (enterRunOrHold t) := by
  unfold enterRunOrHold
  split
  · rename_i he
    exact h.thenState (fun a b => absurd b (hf a)) (fun _ => he) (fun a => absurd a (by decide))
      (fun a => absurd a (by decide)) (fun b _ => hb b)
  · rename_i he
    exact keeps_enterHold h hf (by simpa using he) hb

theorem keeps_enterIdle (hf : o.stay = true → s.run.state ≠ .fault)
    (he : EmptyAtRest s → s.track.entries = []) (hw : ¬Awake s.run.state) :
    Keeps o s (enterIdle s) := by
  have h : Keeps { o with dec := false } s { s with run.request := none, gate.gapCount := 0 } :=
    { decision := fun a => Bool.noConfusion a
      ranges := fun r => ⟨Nat.zero_le _, r.2⟩
      pit := fun _ => { calm := fun _ => ⟨rfl, rfl, rfl⟩ } }
  exact h.thenState (fun a b => absurd b (hf a)) (fun a => absurd a (by decide))
    (fun a => absurd a (by decide)) (fun a => absurd a (by decide))
    (fun _ a => absurd a (by decide)) (fun a _ => he a) (fun _ _ a => absurd a hw)

theorem keeps_drainEnd : Keeps o s (drainEnd s) := by
  unfold drainEnd
  split
  · rename_i h
    simp only [Bool.and_eq_true, beq_iff_eq, List.isEmpty_iff] at h
    exact keeps_enterIdle (fun _ a => by simp [h.1] at a) (fun _ => h.2) (by simp [h.1, Awake])
  · exact .refl s

theorem keeps_enterDrain (h : Keeps { o with dec := false } s t) (hf : o.stay = true → s.run.state ≠ .fault)
    (hw : o.pit = true → o.adm = false) :
    Keeps o s (enterDrain t) :=
  (h.thenState (fun a b => absurd b (hf a)) (fun a => absurd a (by decide))
    (fun a => absurd a (by decide)) (fun a => absurd a (by decide))
    (fun _ a => absurd a (by decide)) (fun _ a => absurd a (by decide))
    (fun a b => absurd b (by simp [hw a]))).trans keeps_drainEnd

theorem keeps_endBatchFlag : Keeps o s (endBatchFlag s) := by
  have h : Keeps { o with dec := false } s { s with run.batchEnded := true } :=
    { decision := fun a => Bool.noConfusion a }
  exact h.thenRemake

/-! ### Command slots -/

theorem keeps_modLine (p : Head) (f : HeadLine → HeadLine) : Keeps o s (modLine p f s) := {}

theorem keeps_displaceFetch (p : Head) : Keeps o s (displaceFetch p s) := by
  unfold displaceFetch
  split
  · exact .refl s
  · exact (keeps_modLine _ _).trans (keeps_addFlag _ _)

theorem keeps_placeAbort (p : Head) : Keeps o s (placeAbort p s) := by
  unfold placeAbort
  split
  · exact .refl s
  · exact (keeps_modLine _ _).trans (keeps_displaceFetch _)
  · exact keeps_modLine _ _
  · exact keeps_modLine _ _

theorem keeps_placeApply (p : Head) (a b c d : Nat) : Keeps o s (placeApply p a b c d s) := by
  unfold placeApply
  simp only
  split
  · exact (keeps_modLine _ _).trans (keeps_displaceFetch _)
  · exact ((keeps_modLine _ _).trans (keeps_displaceFetch _)).trans (keeps_modLine _ _)

theorem keeps_placeCurve (p : Head) (j : Word32) : Keeps o s (placeCurve p j s) := by
  unfold placeCurve
  split
  · exact keeps_modLine _ _
  · exact .refl s
  · exact (keeps_addFlag _ _).trans (keeps_displaceFetch _)
  · exact (keeps_addFlag _ _).trans (keeps_displaceFetch _)

theorem keeps_placeCurveAgain (p : Head) : Keeps o s (placeCurveAgain p s) := by
  unfold placeCurveAgain
  split
  · exact keeps_modLine _ _
  · exact keeps_modLine _ _
  · exact keeps_displaceFetch _
  · exact keeps_displaceFetch _

/-! ### Fault causes -/

theorem keeps_foldl {α : Type} (f : State → α → State) (l : List α)
    (h : ∀ u a, Keeps o u (f u a)) : ∀ s, Keeps o s (l.foldl f s) := by
  induction l with
  | nil => exact Keeps.refl
  | cons a l ih => exact fun s => (h s a).trans (ih _)

theorem grows_faultMark (x : Nat) (e : Entry) : Grows e (faultMark x e) where
  cap h := by
    unfold faultMark
    simp only
    split
    · rfl
    · exact h
  capped := by
    intro _ h
    unfold CappedTimed faultMark at *
    simp only
    split
    · intro a; cases a
    · exact h

theorem keeps_enterFault : Keeps o s (enterFault s) := by
  have h : Keeps { o with dec := false } s { s with
      run.request := none, run.batchEnded := true
      track.entries := s.track.entries.map (faultMark s.track.geometry.x) } :=
    { keeps_mapEntries (o := { o with dec := false }) (s := s) _
        (grows_faultMark s.track.geometry.x) with
      decision := fun a => Bool.noConfusion a
      pit := fun _ => { remain := fun e he _ _ => ⟨faultMark s.track.geometry.x e,
        List.mem_map_of_mem he, (grows_faultMark s.track.geometry.x e).label⟩
                        calm := fun _ => ⟨rfl, rfl, rfl⟩ } }
  unfold enterFault
  exact (h.thenState (fun _ _ => rfl) (fun a => absurd a (by decide)) (fun a => absurd a (by decide))
    (fun a => absurd a (by decide)) (fun _ a => absurd a (by decide))).trans
    (keeps_foldl _ _ (fun _ _ => keeps_placeAbort _) _)

theorem keeps_raiseCause (c : Cause) : Keeps o s (raiseCause c s) := by
  have h : Keeps o s
      (latchAlert .faultEntered { s with run.causes := s.run.causes.set (causeIx c) true }) :=
    { alert := fun _ => rfl
      causes := fun _ j h => getElem_set_true s.run.causes _ _ h
      pit := fun _ => { latches := fun j h => getElem_set_true s.alerts.latch _ _ h } }
  unfold raiseCause
  simp only
  split
  · exact h
  · exact h.trans keeps_enterFault

/-! ### The swap and the completed changeover -/

theorem countP_banks (l : List Entry) :
    l.countP (fun e => e.bank == .active) + l.countP (fun e => e.bank == .retiring) = l.length := by
  induction l with
  | nil => rfl
  | cons e l ih =>
    simp only [List.countP_cons, List.length_cons]
    cases e.bank <;> simp <;> omega

theorem keeps_doSwap (h0 : s.track.retiringCount = 0 ∨ s.track.entries = [])
    (hst : s.recipes.staged.isSome = true) (hq : o.pit = true → s.run.request ≠ none) :
    Keeps o s (doSwap s) := by
  unfold doSwap
  simp only
  split
  · rename_i ha
    exact {
      positive := by
        intro _ hp e he
        simp only [List.mem_map] at he
        obtain ⟨e', h', rfl⟩ := he
        exact hp e' h'
      active := fun _ => hst
      banks := fun b => ⟨⟨fun _ => ha, fun _ => b.2.1 ha⟩, fun a => absurd a (Nat.lt_irrefl 0), fun _ => hst⟩
      track := by
        rintro ⟨h1, h2⟩
        unfold PositionsFall CountsMatch at *
        refine ⟨List.pairwise_map.2 h1, ?_⟩
        have h3 := countP_banks s.track.entries
        rcases h0 with h0 | h0
        · rw [List.countP_map, List.countP_map]
          have ha : List.countP ((fun e => e.bank == .active) ∘ fun e : Entry => { e with bank := .retiring })
              s.track.entries = 0 := List.countP_eq_zero.2 (fun _ _ a => Bool.noConfusion a)
          have hr : List.countP ((fun e => e.bank == .retiring) ∘ fun e : Entry => { e with bank := .retiring })
              s.track.entries = s.track.entries.length := List.countP_eq_length.2 (fun _ _ => rfl)
          rw [ha, hr]
          refine ⟨rfl, ?_⟩
          change s.track.activeCount = _
          omega
        · rw [h0] at h2
          simp only [List.countP_nil] at h2
          omega
      rest := fun h a => by
        show s.track.entries.map _ = []
        rw [h a]; rfl
      stations := by
        intro _ dx dk dj _ hs e he
        simp only [List.mem_map] at he
        obtain ⟨e', h', rfl⟩ := he
        exact hs e' h'
      joins := fun _ => ⟨rfl, by
        simp only [List.map_map]
        exact List.Sublist.refl _⟩
      pit := fun a => {
        remain := fun e he _ _ => ⟨{ e with bank := .retiring }, List.mem_map_of_mem he, rfl⟩
        calm := fun b => absurd b (hq a) } }
  · rename_i ha
    exact {
      active := fun _ => hst
      banks := fun b => ⟨b.1, fun a => absurd a ha, fun _ => hst⟩
      pit := fun a => { calm := fun b => absurd b (hq a) } }

theorem swapAllowed_staged (h : swapAllowed s = true) :
    s.recipes.staged.isSome = true ∧ s.track.retiringCount = 0 := by
  simp only [swapAllowed, Bool.and_eq_true, beq_iff_eq] at h
  exact ⟨h.1.1, h.2⟩

theorem keeps_completeChangeover (r : Changeover) (hq : s.run.request ≠ none) : Keeps o s (completeChangeover r s) := by
  have h : Keeps { o with dec := false } s (latchAlert .changeoverDone
      { s with run.batchNumber := r.nextNumber, run.batchSize := r.nextSize, run.admitted := 0
               run.batchEnded := false, run.request := none }) :=
    { decision := fun a => Bool.noConfusion a, alert := fun _ => rfl
      pit := fun _ => { latches := (fun j h => getElem_set_true s.alerts.latch _ _ h)
                        calm := fun b => absurd b hq } }
  unfold completeChangeover
  simp only
  split
  · rename_i hc
    simp only [Bool.and_eq_true, beq_iff_eq] at hc
    have hc' : s.run.state = .change := hc.2
    exact keeps_enterRunOrHold h (fun _ a => by simp [hc'] at a)
      (fun b => b.2.2 (by simp [hc']))
  · exact h.thenRemake

theorem doSwap_run (s : State) : (doSwap s).run = s.run := by
  unfold doSwap
  simp only
  split <;> rfl

theorem keeps_swapAndComplete (r : Changeover) (h : swapAllowed s = true) (hq : s.run.request ≠ none) :
    Keeps o s (swapAndComplete r s) :=
  (keeps_doSwap (.inl (swapAllowed_staged h).2) (swapAllowed_staged h).1 (fun _ => hq)).trans
    (keeps_completeChangeover r (by rw [doSwap_run]; exact hq))

/-! ### Lift moves -/

theorem keeps_liftFault : Keeps o s (liftFault s) := by
  unfold liftFault
  simp only
  split
  · exact (keeps_lift _).trans (keeps_latchAlert _)
  · exact (keeps_lift _).trans (keeps_raiseCause _)

theorem keeps_homeFound : Keeps o s (homeFound s) := keeps_lift _

theorem keeps_homeReading (b : Bool) : Keeps o s (homeReading b s) := by
  unfold homeReading
  split
  · exact keeps_homeFound
  · exact keeps_lift _

theorem keeps_startHome (r : Requester) : Keeps o s (startHome r s) := by
  unfold startHome
  simp only
  split
  · exact (keeps_lift _).trans keeps_liftFault
  · exact (keeps_lift _).trans (keeps_homeReading _)

theorem keeps_homeFails : Keeps o s (homeFails s) := by
  unfold homeFails
  simp only
  split
  · exact (keeps_lift _).trans (keeps_raiseCause _)
  · exact (keeps_lift _).trans (keeps_raiseCause _)
  all_goals exact (keeps_lift _).trans (keeps_latchAlert _)

theorem keeps_phase (q : ChangePhase) (hs : s.run.state = .change) (hq : q ≠ .none) :
    Keeps o s { s with run.phase := q } :=
  { phase := fun _ => ⟨fun _ => hq, fun _ => hs⟩ }

theorem keeps_seekEnded : Keeps o s (seekEnded s) := by
  unfold seekEnded
  split
  · rename_i hp
    exact keeps_enterRunOrHold (.refl s) (fun _ a => by simp [hp] at a)
      (fun b => b.2.2 (by simp [hp]))
  · rename_i hc
    split
    · rename_i hq
      split
      · rename_i hw
        exact (keeps_phase .swap hc (by decide)).trans
          (keeps_swapAndComplete _ hw (by show s.run.request ≠ none; rw [hq]; simp))
      · exact keeps_phase .swap hc (by decide)
    · exact .refl s
  · exact .refl s

theorem keeps_startSeek (g p : Nat) : Keeps o s (startSeek g p s) := by
  unfold startSeek
  simp only
  split
  · exact (keeps_lift _).trans keeps_seekEnded
  · exact keeps_lift _

theorem keeps_seekForRun : Keeps o s (seekForRun s) := by
  unfold seekForRun
  split
  · split
    · exact keeps_startSeek _ _
    · exact .refl s
  · split
    · exact keeps_startSeek _ _
    · exact .refl s
  · exact .refl s

theorem keeps_liftForRun : Keeps o s (liftForRun s) := by
  unfold liftForRun
  split
  · split
    · rename_i h
      have hp : s.run.state = .prepare := by simp [atActiveHeight] at h; exact h.1
      exact keeps_enterRunOrHold (.refl s) (fun _ a => by simp [hp] at a) (fun b => b.2.2 (by simp [hp]))
    · exact keeps_seekForRun
  · exact keeps_startHome _
  · exact keeps_startHome _
  · exact .refl s
  · exact .refl s

theorem keeps_waitTurretEnd : Keeps o s (waitTurretEnd s) := by
  unfold waitTurretEnd
  split
  · rename_i h
    simp only [Bool.and_eq_true, beq_iff_eq] at h
    exact (keeps_phase .lift h.1.1.1 (by decide)).trans keeps_liftForRun
  · exact .refl s

theorem runOrHold_state (h : runOrHold s = true) : s.run.state = .run ∨ s.run.state = .hold := by
  simpa [runOrHold] using h

theorem keeps_enterChange (hs : runOrHold s = true) : Keeps o s (enterChange s) := by
  have h : Keeps o s (setRunState .change { s with run.phase := .waitTurret }) := {
    fault := fun _ a => by rcases runOrHold_state hs with h | h <;> simp [h] at a
    rest := fun _ a => absurd a (by simp [setRunState_run])
    awake := fun _ _ _ => by simp [Awake, setRunState]
    decision := fun _ _ => rfl
    lstop := fun _ => rfl
    gateOut := fun _ => rfl
    phase := fun _ => ⟨fun _ a => ChangePhase.noConfusion a, fun _ => rfl⟩
    hold := fun _ => ⟨fun a => RunState.noConfusion a, fun a => RunState.noConfusion a⟩
    banks := fun b => ⟨b.1, b.2.1, fun _ => b.2.2 (by
      rcases runOrHold_state hs with h | h <;> simp [h])⟩ }
  exact h.trans keeps_waitTurretEnd

/-! ### Batch end and RETIRING -/

theorem keeps_request (q : Option Changeover) (h : o.pit = true → s.run.request = none → q = none) :
    Keeps o s { s with run.request := q } :=
  { pit := fun a => { calm := fun b => ⟨h a b, rfl, rfl⟩ } }

theorem keeps_retireSwap : Keeps o s (retireSwap s) := by
  unfold retireSwap
  split
  · rename_i hq
    split
    · rename_i h
      simp only [Bool.and_eq_true] at h
      exact keeps_swapAndComplete _ h.2 (by rw [hq]; simp)
    · exact .refl s
  · exact .refl s

theorem runOrHold_notFault (h : runOrHold s = true) : s.run.state ≠ .fault := by
  rcases runOrHold_state h with h | h <;> simp [h]

theorem keeps_batchEnd (hw : o.pit = true → o.adm = false) : Keeps o s (batchEnd s) := by
  have h : Keeps o s (latchAlert .batchDone (endBatchFlag s)) :=
    keeps_endBatchFlag.trans (keeps_latchAlert _)
  unfold batchEnd
  simp only
  split
  · split
    · rename_i hr
      exact h.trans (keeps_enterDrain (.refl _) (fun _ => runOrHold_notFault hr) hw)
    · exact h
  · rename_i hq
    have hn : ∀ q : Option Changeover, o.pit = true →
        (latchAlert .batchDone (endBatchFlag s)).run.request = none → q = none := by
      intro q _ a
      rw [hq] at a
      cases a
    split
    · split
      · rename_i hr
        exact (h.trans (keeps_request _ (hn _))).trans (keeps_enterChange hr)
      · exact h.trans (keeps_request _ (hn _))
    · exact (h.trans (keeps_request _ (hn _))).trans keeps_retireSwap
    · exact (h.trans (keeps_request _ (hn _))).trans keeps_retireSwap
    · exact h
    · exact h

theorem keeps_retiringEmptied (h0 : s.track.retiringCount = 0) :
    Keeps o s (retiringEmptied s) := by
  have h : Keeps o s { s with recipes.retiring := none } :=
    { banks := fun b => ⟨by
        constructor
        · intro a; cases a
        · intro a; rw [show s.track.retiringCount = 0 from h0] at a; exact absurd a (by decide), b.2⟩ }
  exact h.trans keeps_retireSwap

end Sys2Proof.Machine
end

