-- ==== Sys2Proof/Laws/KeepsTrack.lean ====
section
/-! SUPPORT. What the operations on heads, records, traces and departures keep. -/

-- One declaration is checked after another: side by side they take more threads than the memory limit allows.
set_option Elab.async false

namespace Sys2Proof.Machine

variable {o : Scope} {s t u : State}

/-! ### Heads -/

theorem inServiceCount_map (hs : Vector HeadRecord 18) :
    inServiceCount hs = ((hs.toList.map (·.service)).filter (· == .inService)).length := by
  unfold inServiceCount
  rw [List.filter_map, List.length_map]
  rfl

theorem service_set (hs : Vector HeadRecord 18) (p : Head) (r : HeadRecord)
    (h : r.service = hs[p].service) :
    (hs.set p r).toList.map (·.service) = hs.toList.map (·.service) := by
  apply List.ext_getElem
  · simp
  · intro i h1 h2
    simp only [List.getElem_map, Vector.getElem_toList, Vector.getElem_set]
    split
    · rename_i hp
      subst hp
      exact h
    · rfl

theorem inServiceCount_set (hs : Vector HeadRecord 18) (p : Head) (r : HeadRecord)
    (h : r.service = hs[p].service) : inServiceCount (hs.set p r) = inServiceCount hs := by
  rw [inServiceCount_map, inServiceCount_map, service_set hs p r h]

theorem get_set_service (hs : Vector HeadRecord 18) (p q : Head) (r : HeadRecord)
    (h : r.service = hs[p].service) : (hs.set p r)[q].service = hs[q].service := by
  simp only [Fin.getElem_fin, Vector.getElem_set]
  split
  · rename_i hp
    have : p = q := Fin.ext hp
    subst this
    exact h
  · rfl

theorem get_set_bounds (hs : Vector HeadRecord 18) (p : Head) (r : HeadRecord)
    (h : ∀ q : Head, hs[q].failures ≤ 255 ∧ hs[q].noReplies ≤ 3) (hr : r.failures ≤ 255 ∧ r.noReplies ≤ 3)
    (q : Head) : (hs.set p r)[q].failures ≤ 255 ∧ (hs.set p r)[q].noReplies ≤ 3 := by
  simp only [Fin.getElem_fin, Vector.getElem_set]
  split
  · exact hr
  · exact h q

theorem decideGate_modHead (p : Head) (f : HeadRecord → HeadRecord)
    (hs : ∀ h, (f h).service = h.service) : decideGate (modHead p f s) = decideGate s :=
  congrArg (fun v : Service =>
    if s.run.state == .run && !s.run.batchEnded && v == .inService then
      (if s.gate.gapCount == 0 then Decision.admitJar else .gap)
    else .closed) (get_set_service s.heads p (s.track.pocket + 1) _ (hs _))

/-- A change of one Head Record that leaves no test open there leaves none open. -/
theorem closed_modHead (p : Head) (f : HeadRecord → HeadRecord)
    (hf : (f s.heads[p]).riseOpen = false ∧ (f s.heads[p]).silenceOpen = false)
    (h : TestsClosed s) : TestsClosed (modHead p f s) := by
  refine ⟨fun q => ?_, h.2⟩
  simp only [modHead_heads, Fin.getElem_fin, Vector.getElem_set]
  split
  · exact hf
  · exact h.1 q

/-- A change of a Head Record that leaves its service state alone, its counts in range and its tests as
they are. -/
theorem keeps_modHead (p : Head) (f : HeadRecord → HeadRecord) (hs : ∀ h, (f h).service = h.service)
    (hr : ∀ h, h.failures ≤ 255 ∧ h.noReplies ≤ 3 → (f h).failures ≤ 255 ∧ (f h).noReplies ≤ 3)
    (hc : o.clos = true → ∀ h, (f h).riseOpen = h.riseOpen ∧ (f h).silenceOpen = h.silenceOpen := by
      exact fun _ _ => ⟨rfl, rfl⟩) :
    Keeps o s (modHead p f s) where
  closed := fun a h => closed_modHead p f ⟨(hc a _).1.trans (h.1 p).1, (hc a _).2.trans (h.1 p).2⟩ h
  fewHeads := fun _ h => h.trans
    (congrArg (fun n => decide (n < s.params.minHeads)) (inServiceCount_set s.heads p _ (hs _)).symm)
  decision := fun _ h => h.trans (decideGate_modHead p f hs).symm
  ranges := fun h => ⟨h.1, h.2.1, h.2.2.1, get_set_bounds _ _ _ h.2.2.2.1 (hr _ (h.2.2.2.1 p)), h.2.2.2.2⟩

/-- A change of the service state alone, before FEW_HEADS and the decision follow it. -/
theorem keeps_setService (p : Head) (v : Service) :
    Keeps { o with few := false, dec := false } s (modHead p (fun h => { h with service := v }) s) where
  fewHeads := fun a => Bool.noConfusion a
  decision := fun a => Bool.noConfusion a
  ranges := fun h => ⟨h.1, h.2.1, h.2.2.1, get_set_bounds _ _ _ h.2.2.2.1 (h.2.2.2.1 p), h.2.2.2.2⟩
  closed := fun _ h => closed_modHead p _ (h.1 p) h

theorem keeps_leaveScan (p : Head) : Keeps o s (leaveScan p s) :=
  (keeps_modLine _ _).trans (keeps_displaceFetch _)

theorem grows_headFault (e : Entry) : Grows e { e with capClass := e.capClass.or (some .headFault) } where
  cap _ := by simp
  capped := by
    intro _ h
    unfold CappedTimed at *
    intro a
    cases hc : e.capClass with
    | none => simp [hc] at a
    | some c => exact h (by simpa [hc] using a)

theorem keeps_serviceChanged (p : Head) : Keeps o s (serviceChanged p s) := by
  unfold serviceChanged
  split
  · exact .refl s
  · split
    · exact (keeps_leaveScan _).trans (keeps_modEntry _ _ grows_headFault)
    · exact keeps_leaveScan _
  · split
    · exact .refl s
    · exact keeps_leaveScan _
  · split
    · exact .refl s
    · exact keeps_leaveScan _

theorem keeps_markOut (p : Head) (r : MarkReason) : Keeps o s (markOut p r s) := by
  have h : Keeps { o with few := false, dec := false } s (serviceChanged p
      (latchAlert .headMarked (modHead p (fun h => { h with service := .markedOut r }) s))) :=
    ((keeps_setService p _).trans (keeps_latchAlert _)).trans (keeps_serviceChanged p)
  exact h.thenFew.thenRemake

/-- Two changes of one Head Record are one. -/
theorem modHead_modHead (p : Head) (f g : HeadRecord → HeadRecord) :
    modHead p f (modHead p g s) = modHead p (fun h => f (g h)) s := by
  have : (s.heads.set p (g s.heads[p]))[p] = g s.heads[p] := by simp
  unfold modHead
  simp only [this, Vector.set_set]

/-- A change that leaves the Head Record as it is leaves the state as it is. -/
theorem modHead_self (p : Head) (f : HeadRecord → HeadRecord) (h : f s.heads[p] = s.heads[p]) :
    modHead p f s = s := by
  have : s.heads.set p s.heads[p] = s.heads := by simp
  unfold modHead
  rw [h, this]

/-- The comparison of a rise closes it (R68). -/
theorem autoMarkOut_closes (p : Head)
    (h : TestsClosed (modHead p (fun h => { h with riseOpen := false }) s)) :
    TestsClosed (autoMarkOut p s) := by
  unfold autoMarkOut
  split
  · simp only
    split
    · exact (keeps_markOut (o := ⟨false, false, false, false, false, false, false, false, false, true⟩)
        p _).closed rfl h
    · exact h
  · rename_i hr
    rwa [modHead_self p _ (by simp only [Bool.not_eq_true] at hr; rw [← hr])] at h

/-- The test of a failed exchange closes it (R69). -/
theorem linkMarkOut_closes (p : Head)
    (h : TestsClosed (modHead p (fun h => { h with silenceOpen := false }) s)) :
    TestsClosed (linkMarkOut p s) := by
  unfold linkMarkOut
  split
  · simp only
    split
    · exact (keeps_markOut (o := ⟨false, false, false, false, false, false, false, false, false, true⟩)
        p _).closed rfl h
    · exact h
  · rename_i hr
    rwa [modHead_self p _ (by simp only [Bool.not_eq_true] at hr; rw [← hr])] at h

theorem keeps_autoMarkOut (p : Head) : Keeps o s (autoMarkOut p s) := by
  have k : Keeps { o with clos := false } s (modHead p (fun h => { h with riseOpen := false }) s) :=
    keeps_modHead _ _ (fun _ => rfl) (fun _ h => h) (fun a => Bool.noConfusion a)
  have g : Keeps { o with clos := false } s (autoMarkOut p s) := by
    unfold autoMarkOut
    split
    · exact keeps_ite (k.trans (keeps_markOut _ _)) k
    · exact .refl s
  exact { g with closed := fun _ h => autoMarkOut_closes p (closed_modHead p _ ⟨rfl, (h.1 p).2⟩ h) }

theorem keeps_linkMarkOut (p : Head) : Keeps o s (linkMarkOut p s) := by
  have k : Keeps { o with clos := false } s (modHead p (fun h => { h with silenceOpen := false }) s) :=
    keeps_modHead _ _ (fun _ => rfl) (fun _ h => h) (fun a => Bool.noConfusion a)
  have g : Keeps { o with clos := false } s (linkMarkOut p s) := by
    unfold linkMarkOut
    split
    · exact keeps_ite (k.trans (keeps_markOut _ _)) k
    · exact .refl s
  exact { g with closed := fun _ h => linkMarkOut_closes p (closed_modHead p _ ⟨(h.1 p).1, rfl⟩ h) }

theorem keeps_modStats (p : Head) (f : HeadStats → HeadStats) : Keeps o s (modStats p f s) :=
  keeps_modHead _ _ (fun _ => rfl) (fun _ h => h)

/-! ### Records and departures -/

theorem satInc_le {top n : Nat} (h : n ≤ top) : satInc top n ≤ top := by
  unfold satInc; split <;> omega

theorem keeps_appendRecord (r : JarRecord) : Keeps o s (appendRecord r s) := by
  unfold appendRecord
  simp only
  split
  · rename_i hq
    exact {
      alert := fun _ => rfl
      pit := fun _ => { latches := fun j h => getElem_set_true s.alerts.latch _ _ h }
      queue := fun h => by
        unfold QueueBounded queueCapacity at *
        simp only [List.length_append, latchAlert_records, List.length_drop, List.length_cons,
          List.length_nil]
        omega
      ranges := fun h => ⟨h.1, h.2.1, satInc_le h.2.2.1, h.2.2.2⟩ }
  · rename_i hq
    exact {
      queue := fun h => by
        unfold QueueBounded queueCapacity at *
        simp only [List.length_append, List.length_cons, List.length_nil]
        omega }

theorem keeps_departCounts (d : Disposition) (v : Vector Nat 13) :
    Keeps o s { s with reject := countDisposition d s.reject, classCounts := v } :=
  { confirms := fun _ => by cases d <;> exact ⟨rfl, rfl, rfl, rfl⟩ }

theorem keeps_handToRecords (d : Disposition) (e : Entry) : Keeps o s (handToRecords d e s) := by
  unfold handToRecords
  simp only
  split
  · exact (keeps_appendRecord _).trans (keeps_departCounts _ _)
  · exact keeps_departCounts _ _

theorem countP_without (q : Entry → Bool) (e : Entry) (l : List Entry)
    (hp : l.Pairwise (fun e f => f.position < e.position)) (he : e ∈ l) :
    (l.filter (fun f => f.position != e.position)).countP q + (if q e then 1 else 0) = l.countP q := by
  induction l with
  | nil => cases he
  | cons a l ih =>
    rw [List.pairwise_cons] at hp
    rcases List.mem_cons.1 he with rfl | h
    · have hf : l.filter (fun f => f.position != e.position) = l := by
        rw [List.filter_eq_self]
        intro f hf
        have := hp.1 f hf
        simp only [bne_iff_ne, ne_eq]
        omega
      simp only [List.filter_cons, bne_self_eq_false, Bool.false_eq_true, if_false, hf, List.countP_cons]
    · have hne := hp.1 e h
      have h1 : (a.position != e.position) = true := by simp only [bne_iff_ne, ne_eq]; omega
      simp only [List.filter_cons, h1, if_true, List.countP_cons]
      have := ih hp.2 h
      omega

/-- The entry leaves the Track; `rs` is what RETIRING holds after it. -/
theorem keeps_removal (e : Entry) (he : e ∈ s.track.entries) (q : List ProtectedSeg) (na nr : Nat)
    (rs : Option Recipe)
    (hn : e.bank = .active ∧ na = s.track.activeCount - 1 ∧ nr = s.track.retiringCount
      ∨ e.bank = .retiring ∧ na = s.track.activeCount ∧ nr = s.track.retiringCount - 1)
    (hr : BanksMatch s → (rs.isSome = true ↔ 0 < nr))
    (hk : o.pit = true → o.outK = true ∧ e.position = s.track.geometry.k ∨ e.position = s.track.geometry.j) :
    Keeps o s { s with
      track.entries := s.track.entries.filter (fun f => f.position != e.position)
      track.activeCount := na, track.retiringCount := nr
      traces.protectedSegs := q, recipes.retiring := rs } where
  positive := fun _ h f hf => h f (List.mem_filter.1 hf).1
  rest := fun h a => by
    show s.track.entries.filter _ = []
    rw [h a]; rfl
  banks := fun b => ⟨hr b, fun a => b.2.1 (by
    change 0 < na at a
    rcases hn with ⟨_, h, _⟩ | ⟨_, h, _⟩ <;> omega), b.2.2⟩
  track := by
    rintro ⟨h1, h2, h3⟩
    refine ⟨List.Pairwise.filter _ h1, ?_⟩
    have ka := countP_without (fun f => f.bank == .active) e _ h1 he
    have kr := countP_without (fun f => f.bank == .retiring) e _ h1 he
    unfold CountsMatch
    simp only
    rcases hn with ⟨hb, rfl, rfl⟩ | ⟨hb, rfl, rfl⟩ <;> simp [hb] at ka kr <;> omega
  stations := fun _ dx dk dj _ h f hf => h f (List.mem_filter.1 hf).1
  joins := fun _ => ⟨rfl, List.filter_sublist.map _⟩
  pit := fun a => { remain := fun f hf h1 h2 => ⟨f, List.mem_filter.2 ⟨hf, by
    simp only [bne_iff_ne, ne_eq]
    intro h
    rcases hk a with b | b
    · exact h1 b.1 (h.trans b.2)
    · exact h2 (h.trans b)⟩, rfl⟩ }

theorem keeps_leaveTrack (e : Entry) (he : e ∈ s.track.entries)
    (hk : o.pit = true → o.outK = true ∧ e.position = s.track.geometry.k ∨ e.position = s.track.geometry.j) :
    Keeps o s (leaveTrack e s) := by
  unfold leaveTrack
  split
  · rename_i h
    simp only [Bool.and_eq_true, beq_iff_eq] at h
    have hrem : removeEntry e s = { s with
        track.entries := s.track.entries.filter (fun f => f.position != e.position)
        track.retiringCount := s.track.retiringCount - 1
        traces.protectedSegs := s.traces.protectedSegs.filter (fun g => g.jar != e.jar) } := by
      unfold removeEntry; simp only [h.1]
    unfold retiringEmptied
    rw [hrem]
    have k := keeps_removal (o := o) e he
      (s.traces.protectedSegs.filter (fun g => g.jar != e.jar)) s.track.activeCount
      (s.track.retiringCount - 1) none (.inr ⟨h.1, rfl, rfl⟩) (fun _ => by simp [h.2]) hk
    exact k.trans keeps_retireSwap
  · rename_i h
    simp only [Bool.and_eq_true, beq_iff_eq, not_and] at h
    unfold removeEntry
    simp only
    cases hb : e.bank with
    | active =>
      exact keeps_removal e he _ _ _ s.recipes.retiring (.inl ⟨hb, rfl, rfl⟩) (fun b => b.1) hk
    | retiring =>
      refine keeps_removal e he _ _ _ s.recipes.retiring (.inr ⟨hb, rfl, rfl⟩) (fun b => ?_) hk
      have := h hb
      rw [b.1]
      omega

/-- A departure (R17). -/
theorem keeps_depart (d : Disposition) (e : Entry) (he : e ∈ s.track.entries)
    (hk : o.pit = true → o.outK = true ∧ e.position = s.track.geometry.k ∨ e.position = s.track.geometry.j) :
    Keeps o s (depart d e s) :=
  (((keeps_leaveTrack e he hk).trans (keeps_handToRecords _ _)).trans keeps_waitTurretEnd).trans keeps_drainEnd

/-! ### Traces and capture -/

theorem writeSlot_head (k : Nat) (x : Sample) (m : List (Nat × Sample)) (b : Nat)
    (hb : b < k) (hm : ∀ q ∈ m, b < q.1) : ∀ q ∈ writeSlot k x m, b < q.1 := by
  induction m with
  | nil => intro q hq; simp [writeSlot] at hq; simp [hq, hb]
  | cons a m ih =>
    intro q hq
    have ha := hm a (by simp)
    unfold writeSlot at hq
    split at hq
    · rcases List.mem_cons.1 hq with rfl | h
      · exact hb
      · exact hm q h
    · split at hq
      · rcases List.mem_cons.1 hq with rfl | h
        · exact hb
        · exact hm q (by simp [h])
      · rcases List.mem_cons.1 hq with rfl | h
        · exact ha
        · exact ih (fun q h => hm q (by simp [h])) q h

/-- Slots of the ring stay strictly rising. -/
theorem writeSlot_sorted (k : Nat) (x : Sample) (m : List (Nat × Sample))
    (hm : (m.map Prod.fst).Pairwise (· < ·)) : ((writeSlot k x m).map Prod.fst).Pairwise (· < ·) := by
  induction m with
  | nil => simp [writeSlot]
  | cons a m ih =>
    simp only [List.map_cons, List.pairwise_cons, List.mem_map, forall_exists_index, and_imp,
      forall_apply_eq_imp_iff₂] at hm
    obtain ⟨n, y⟩ := a
    unfold writeSlot
    split
    · rename_i h
      simp only [List.map_cons, List.pairwise_cons, List.mem_cons, List.mem_map, forall_eq_or_imp,
        forall_exists_index, and_imp, forall_apply_eq_imp_iff₂]
      exact ⟨⟨h, fun q hq => h.trans (hm.1 q hq)⟩, hm.1, hm.2⟩
    · split
      · rename_i h
        subst h
        simp only [List.map_cons, List.pairwise_cons, List.mem_map, forall_exists_index, and_imp,
          forall_apply_eq_imp_iff₂]
        exact hm
      · rename_i h1 h2
        simp only [List.map_cons, List.pairwise_cons, List.mem_map, forall_exists_index, and_imp,
          forall_apply_eq_imp_iff₂]
        exact ⟨writeSlot_head k x m n (by omega) hm.1, ih hm.2⟩

theorem writeSlot_bound (k : Nat) (x : Sample) (m : List (Nat × Sample)) (hk : k < ringSize)
    (hm : ∀ q ∈ m, q.1 < ringSize) : ∀ q ∈ writeSlot k x m, q.1 < ringSize := by
  induction m with
  | nil => intro q hq; simp [writeSlot] at hq; simp [hq, hk]
  | cons a m ih =>
    obtain ⟨n, y⟩ := a
    intro q hq
    unfold writeSlot at hq
    split at hq
    · rcases List.mem_cons.1 hq with rfl | h
      · exact hk
      · exact hm q h
    · split at hq
      · rcases List.mem_cons.1 hq with rfl | h
        · exact hk
        · exact hm q (by simp [h])
      · rcases List.mem_cons.1 hq with rfl | h
        · exact hm _ (by simp)
        · exact ih (fun q h => hm q (by simp [h])) q h

theorem slotOf_lt (w : Word32) : slotOf w < ringSize := Nat.mod_lt _ (by decide)

theorem ringWf_iff (m : List (Nat × Sample)) :
    ringWf m = true ↔ (∀ q ∈ m, q.1 < ringSize) ∧ (m.map Prod.fst).Pairwise (· < ·) := by
  simp [ringWf]

/-- Every write to the ring keeps its canonical form. -/
theorem ringWf_writeSamples (xs : List Sample) : ∀ (w : Word32) (m : List (Nat × Sample)),
    ringWf m = true → ringWf (writeSamples w xs m) = true := by
  induction xs with
  | nil => intro _ _ h; exact h
  | cons x xs ih =>
    intro w m h
    rw [ringWf_iff] at h
    exact ih _ _ ((ringWf_iff _).2 ⟨writeSlot_bound _ _ _ (slotOf_lt w) h.1, writeSlot_sorted _ _ _ h.2⟩)

theorem keeps_freezeCapture : Keeps o s (freezeCapture s) :=
  (keeps_capture _).trans (keeps_latchAlert _)

theorem keeps_captureSees (c : FinalClass) : Keeps o s (captureSees c s) := by
  unfold captureSees
  split
  · split
    · exact keeps_freezeCapture
    · exact keeps_capture _
  · exact .refl s

theorem keeps_captureFreezes : Keeps o s (captureFreezes s) := by
  unfold captureFreezes
  split
  · exact keeps_freezeCapture
  · exact .refl s

theorem keeps_captureStored : Keeps o s (captureStored s) := by
  unfold captureStored
  split
  · exact (keeps_capture _).trans keeps_captureFreezes
  · exact .refl s

theorem keeps_storeSegment (jar : Word32) (xs : List Sample) :
    Keeps o s (storeSegment jar xs s) := by
  have h : Keeps o s
      { s with traces.slots := writeSamples s.traces.writeCount xs s.traces.slots
               traces.writeCount := s.traces.writeCount + BitVec.ofNat 32 xs.length
               traces.protectedSegs := s.traces.protectedSegs ++ [⟨jar, s.traces.writeCount⟩] } :=
    { ring := fun h => ringWf_writeSamples _ _ _ h }
  exact h.trans keeps_captureStored

theorem keeps_handCurve (jar : Word32) (xs : List Sample) :
    Keeps o s (handCurve jar xs s) := by
  unfold handCurve
  split
  · exact keeps_addFlag _ _
  · split
    · exact keeps_addFlag _ _
    · exact (keeps_storeSegment _ _).trans (keeps_modEntry _ _ (fun _ => {}))

/-! ### The line port -/

theorem keeps_restartTimer (hx : o.fix = false) : Keeps o s (restartTimer s) := by
  unfold restartTimer
  split
  · exact keeps_port _ hx
  · exact keeps_port _ hx

theorem keeps_goodFrame (hx : o.fix = false) : Keeps o s (goodFrame s) := by
  have h : Keeps o s (restartTimer { s with port.rxBuf := [] }) :=
    (keeps_port _ hx).trans (keeps_restartTimer hx)
  unfold goodFrame
  simp only
  split
  · exact h.trans (keeps_setHold _ _ (fun _ a => HoldReason.noConfusion a))
  · exact h

theorem keeps_sendReply (a : Nat) (c : Byte) (r : ResultCode) (p : List Byte) (hx : o.fix = false) :
    Keeps o s (sendReply a c r p s) := keeps_port _ hx

theorem keeps_rxByte (b : Byte) (hx : o.fix = false) : Keeps o s (rxByte s b) := by
  unfold rxByte
  simp only
  split
  · split
    · exact keeps_port _ hx
    · exact .refl s
  · split
    · exact keeps_port _ hx
    · split
      · split
        · exact keeps_goodFrame hx
        · exact keeps_port _ hx
      · exact keeps_port _ hx

theorem keeps_whenRunning (f : State → State) (h : Keeps o s (f s)) :
    Keeps o s (whenRunning f s) := keeps_ite h (.refl s)

theorem keeps_whenReceiving (f : State → State) (h : Keeps o s (f s)) :
    Keeps o s (whenReceiving f s) := keeps_whenRunning _ (keeps_ite (.refl s) h)

/-- A served request keeps what its block keeps. -/
theorem keeps_serve (c : Byte) (fits : Bool) (block : State → Answer)
    (h : ∀ t, Keeps o t (block t).state) (hx : o.fix = false) : Keeps o s (serve c fits block s) := by
  refine keeps_whenReceiving _ ?_
  simp only
  split
  · exact keeps_goodFrame hx
  · split
    · exact ((keeps_goodFrame hx).trans (h _)).trans (keeps_sendReply _ _ _ _ hx)
    · exact (keeps_goodFrame hx).trans (keeps_sendReply _ _ _ _ hx)

theorem keeps_serveAt (a : Address) (c : Byte) (p : List Byte) (block : State → Answer)
    (h : ∀ t, Keeps o t (block t).state) (hx : o.fix = false) : Keeps o s (serveAt a c p block s) := by
  unfold serveAt
  split
  · exact keeps_serve _ _ _ h hx
  · refine keeps_whenReceiving _ ?_
    split
    · exact (keeps_goodFrame hx).trans (h _)
    · exact keeps_goodFrame hx

end Sys2Proof.Machine
end

