-- ==== Sys2Proof/Laws/KeepsCommands.lean ====
section
/-! SUPPORT. What the operations of Capping Control, the Check Station, the Reject Gate, the Head Link, the
Lift Controller and the requests keep. -/

-- One declaration is checked after another: side by side they take more threads than the memory limit allows.
set_option Elab.async false

namespace Sys2Proof.Machine

variable {o : Scope} {s t u : State}

theorem entryAt_mem {p : Nat} {e : Entry} (h : entryAt p s = some e) : e ∈ s.track.entries :=
  List.mem_of_find?_eq_some h

theorem entryAt_position {p : Nat} {e : Entry} (h : entryAt p s = some e) : e.position = p := by
  have := List.find?_some h
  simpa using this

/-! ### Capping Control -/

theorem keeps_setBinding (p : Head) (b : Binding) : Keeps o s (setBinding p b s) := keeps_capping _

theorem keeps_countStale (p : Head) : Keeps o s (countStale p s) := keeps_modStats _ _

theorem grows_class (c : CapClass) (hc : c ≠ .cappedOk) (e : Entry) : Grows e { e with capClass := some c } where
  cap _ := rfl
  capped := fun _ _ a => absurd (Option.some.inj a) hc

theorem keeps_applyForJar (e : Entry) : Keeps o s (applyForJar e s) := by
  have h : Keeps o s (placeApply e.pocket (e.attempts + 1) (recipeOf e.bank s).torqueSet
      (recipeOf e.bank s).angleMax (recipeOf e.bank s).steamDwell
      (modEntry e.jar (fun f => { f with attempts := f.attempts + 1 }) s)) :=
    (keeps_modEntry _ _ (fun _ => {})).trans (keeps_placeApply _ _ _ _ _)
  unfold applyForJar
  simp only
  split
  · exact (h.trans (keeps_modEntry _ _ (grows_class _ (by decide)))).trans (keeps_setBinding _ _)
  · exact h

theorem keeps_arriveA (e : Entry) : Keeps o s (arriveA e s) := by
  unfold arriveA
  split
  · exact .refl s
  · split
    · exact keeps_modEntry _ _ (grows_class _ (by decide))
    · split
      · exact keeps_modEntry _ _ (grows_class _ (by decide))
      · exact (keeps_setBinding _ _).trans (keeps_applyForJar _)

theorem keeps_askCurve (p : Head) (j : Word32) (n : Nat) : Keeps o s (askCurve p j n s) := by
  unfold askCurve
  split
  · exact keeps_addFlag _ _
  · split
    · exact keeps_placeCurve _ _
    · exact .refl s

theorem keeps_finalResult (p : Head) (j : Word32) (r : DoneReport) :
    Keeps o s (finalResult p j r s) := by
  unfold finalResult
  simp only
  split
  · exact ((keeps_setBinding _ _).trans (keeps_modEntry _ _ (fun e =>
      { seated := fun _ _ => rfl, capped := fun _ _ _ => rfl }))).trans (keeps_askCurve _ _ _)
  · exact (keeps_setBinding _ _).trans (keeps_askCurve _ _ _)

theorem modEntry_modEntry (j : Word32) (f g : Entry → Entry) (hf : ∀ e, (f e).jar = e.jar) :
    modEntry j g (modEntry j f s) = modEntry j (fun e => g (f e)) s := by
  have h : (s.track.entries.map (fun e => if e.jar == j then f e else e)).map
      (fun e => if e.jar == j then g e else e)
      = s.track.entries.map (fun e => if e.jar == j then g (f e) else e) := by
    rw [List.map_map]
    refine List.map_congr_left fun e _ => ?_
    simp only [Function.comp_def]
    by_cases he : (e.jar == j) = true
    · simp only [he, if_true, hf]
    · have he' : (e.jar == j) = false := by simpa using he
      simp [he']
  unfold modEntry
  simp only [h]

/-- A DONE taken writes the outcome and, where it is SEATED, the seal time with it. -/
theorem keeps_takeDone (p : Head) (j : Word32) (r : DoneReport) : Keeps o s (takeDone p j r s) := by
  by_cases hr : r.outcome = .seated
  · have hseat : takeDone p j r s
        = finalResult p j r (modEntry j (writeCycle r) (modStats p (countOutcome r.outcome) s)) := by
      unfold takeDone
      simp only
      split
      · rw [if_neg]
        simp [reapplies, hr]
      · rfl
    rw [hseat]
    unfold finalResult
    simp only [hr, beq_self_eq_true, if_true]
    refine Keeps.trans ?_ (keeps_askCurve _ _ _)
    change Keeps o s (setBinding p _ (modEntry j _ (modEntry j (writeCycle r) _)))
    rw [modEntry_modEntry j (writeCycle r) _ (fun _ => rfl)]
    exact ((keeps_modStats _ _).trans (keeps_modEntry _ _ (fun e =>
      { seated := fun _ _ => rfl, capped := fun _ _ _ => rfl }))).trans (keeps_setBinding _ _)
  · have hw : Keeps o s (modEntry j (writeCycle r) (modStats p (countOutcome r.outcome) s)) :=
      (keeps_modStats _ _).trans (keeps_modEntry _ _ (fun e =>
        { seated := fun _ a => absurd (Option.some.inj a) hr }))
    unfold takeDone
    simp only
    split
    · split
      · exact (hw.trans (keeps_addFlag _ _)).trans (keeps_applyForJar _)
      · exact hw.trans (keeps_finalResult _ _ _)
    · exact hw.trans (keeps_finalResult _ _ _)

theorem keeps_lateReport (p : Head) (b : Bool) : Keeps o s (lateReport p b s) := by
  unfold lateReport
  simp only
  split
  · exact (keeps_countStale _).trans (keeps_setBinding _ _)
  · exact keeps_countStale _

theorem keeps_takeReport (p : Head) (r : Report) : Keeps o s (takeReport p r s) := by
  unfold takeReport
  simp only
  split
  · split
    · exact keeps_takeDone _ _ _
    · exact .refl s
  · split
    · exact keeps_lateReport _ _
    · exact .refl s
  · split
    · exact keeps_lateReport _ _
    · exact .refl s
  · exact .refl s

theorem keeps_arriveE (e : Entry) : Keeps o s (arriveE e s) := by
  unfold arriveE
  simp only
  split
  · exact keeps_placeAbort _
  · exact .refl s

/-- CAPPED_OK is settled only for an entry that already has it or whose last outcome is SEATED (Table 6-2). -/
theorem settledClass_cappedOk (b : Bool) (r : Recipe) (e : Entry) (h : settledClass b r e = .cappedOk) :
    e.capClass = some .cappedOk ∨ e.lastOutcome = some .seated := by
  unfold settledClass at h
  split at h
  · rename_i c hc
    exact .inl (hc.trans (congrArg some h))
  · split at h
    · cases h
    · split at h
      · cases h
      · cases h
      · cases h
      · cases h
      · rename_i hs
        exact .inr hs
      · cases h

theorem grows_settled (b : Bool) (r : Entry → Recipe) (e : Entry) :
    Grows e { e with capClass := some (settledClass b (r e) e) } where
  cap _ := rfl
  capped := fun hs hc a => by
    rcases settledClass_cappedOk b (r e) e (Option.some.inj a) with h | h
    · exact hc h
    · exact hs h

theorem keeps_releaseBinding (p : Head) (j : Word32) : Keeps o s (releaseBinding p j s) := by
  unfold releaseBinding
  simp only
  split
  · exact keeps_setBinding _ _
  · exact .refl s

theorem keeps_displaceFetchOf (p : Head) (j : Word32) : Keeps o s (displaceFetchOf p j s) := by
  unfold displaceFetchOf
  split
  · split
    · exact keeps_displaceFetch _
    · exact .refl s
  · exact .refl s

theorem keeps_leaveScanIfMarked (p : Head) : Keeps o s (leaveScanIfMarked p s) := by
  unfold leaveScanIfMarked
  split
  · exact keeps_leaveScan _
  · exact keeps_leaveScan _
  · exact .refl s
  · exact .refl s

theorem keeps_arriveX (e : Entry) : Keeps o s (arriveX e s) :=
  (((keeps_modEntry _ _ (grows_settled _ (fun f => recipeOf f.bank s))).trans
    (keeps_releaseBinding _ _)).trans (keeps_displaceFetchOf _ _)).trans (keeps_leaveScanIfMarked _)

theorem keeps_purgeTurret (e : Entry) : Keeps o s (purgeTurret e s) := by
  unfold purgeTurret
  split
  · exact ((keeps_releaseBinding _ _).trans (keeps_displaceFetchOf _ _)).trans (keeps_leaveScanIfMarked _)
  · exact .refl s

theorem keeps_purgeOldest (hp : o.pit = false) : Keeps o s (purgeOldest s) := by
  unfold purgeOldest
  split
  · exact .refl s
  · simp only
    split
    · rename_i h
      exact (keeps_purgeTurret _).trans (keeps_depart _ _ (entryAt_mem h)
        (fun a => by rw [hp] at a; cases a))
    · exact keeps_purgeTurret _

theorem keeps_purge (hp : o.pit = false) (n : Nat) : ∀ s, Keeps o s (purge n s) := by
  induction n with
  | zero => exact Keeps.refl
  | succ n ih => exact fun s => (keeps_purgeOldest hp).trans (ih _)

/-! ### Check Station -/

theorem grows_judge (d : Nat) (now : Word32) (z : Nat) (b : Bool) (r : Entry → Recipe) (e : Entry) :
    Grows e (judge d now z b (r e) e) := by
  unfold judge
  simp only
  split
  · exact {}
  · exact {}

theorem keeps_headTakesClass (p : Head) (c : FinalClass) : Keeps o s (headTakesClass p c s) := by
  have h : Keeps { o with clos := false } s (modHead p (fun h => { h with
      failures := failureEffect c h.failures, riseOpen := h.riseOpen || countsAsFailure c }) s) :=
    keeps_modHead _ _ (fun _ => rfl) (fun h hh => ⟨by
      cases c <;> simp only [failureEffect] <;> first | exact satInc_le hh.1 | exact hh.1 | exact Nat.zero_le _,
      hh.2⟩) (fun a => Bool.noConfusion a)
  have g : Keeps { o with clos := false } s (headTakesClass p c s) := by
    unfold headTakesClass
    exact keeps_ite (h.trans (keeps_autoMarkOut _)) h
  refine { g with closed := fun _ a => ?_ }
  unfold headTakesClass
  simp only
  split
  · refine autoMarkOut_closes p ?_
    rw [modHead_modHead]
    exact closed_modHead p _ ⟨rfl, (a.1 p).2⟩ a
  · rename_i hc
    exact closed_modHead p _ ⟨by rw [(a.1 p).1]; simpa using hc, (a.1 p).2⟩ a

theorem keeps_handClass (e : Entry) (c : FinalClass) : Keeps o s (handClass e c s) := by
  have h : Keeps o s (headTakesClass e.pocket c (modEntry e.jar (fun f => { f with
      action := some s.dispTable[classIx c].action, policy := some s.dispTable[classIx c].policy
      alertFlag := s.dispTable[classIx c].alert }) s)) :=
    (keeps_modEntry _ _ (fun e => { action := fun _ => rfl })).trans (keeps_headTakesClass _ _)
  unfold handClass
  simp only
  split
  · exact (h.trans (keeps_latchAlert _)).trans (keeps_captureSees _)
  · exact h.trans (keeps_captureSees _)

theorem keeps_checkJar (d : Nat) (e : Entry) : Keeps o s (checkJar d e s) := by
  have h : Keeps o s (modEntry e.jar (fun g =>
      judge d s.timeBase s.check.z (zeroIsStale s) (recipeOf g.bank s) g) s) :=
    keeps_modEntry _ _ (grows_judge _ _ _ _ (fun g => recipeOf g.bank s))
  unfold checkJar
  simp only
  split
  · exact h.trans (keeps_handClass _ _)
  · exact h

/-- Counts of the Check Station within their range. -/
theorem keeps_check (q : CheckStation)
    (h : s.check.sinceZero ≤ 65535 → s.check.z ≤ 4095 → s.check.z0 ≤ 4095 →
      q.sinceZero ≤ 65535 ∧ q.z ≤ 4095 ∧ q.z0 ≤ 4095) (hz : o.fix = true → q.z0 = s.check.z0)
    (hc : o.clos = true → s.check.testOpen = false → q.testOpen = false := by exact fun _ h => h) :
    Keeps o s { s with check := q } :=
  { closed := fun a h => ⟨h.1, hc a h.2⟩
    settings := fun a => by unfold State.fixed; simp only [hz a]
    ranges := fun r =>
      have k := h r.2.1 r.2.2.2.2.1 r.2.2.2.2.2.1
      ⟨r.1, k.1, r.2.2.1, r.2.2.2.1, k.2.1, k.2.2, r.2.2.2.2.2.2⟩ }

theorem keeps_zeroStaleTest : Keeps o s (zeroStaleTest s) := by
  unfold zeroStaleTest
  split
  · exact keeps_ite
      ((keeps_check { s.check with staleGiven := true, testOpen := false } (fun a b c => ⟨a, b, c⟩)
        (fun _ => rfl) (fun _ _ => rfl)).trans (keeps_latchAlert _))
      (keeps_check { s.check with testOpen := false } (fun a b c => ⟨a, b, c⟩) (fun _ => rfl) (fun _ _ => rfl))
  · exact .refl s

/-- The test of a pitch closes it (R130). -/
theorem zeroStaleTest_closes (h : ∀ p : Head, s.heads[p].riseOpen = false ∧ s.heads[p].silenceOpen = false) :
    TestsClosed (zeroStaleTest s) := by
  unfold zeroStaleTest
  split
  · simp only
    split <;> exact ⟨h, rfl⟩
  · rename_i a
    exact ⟨h, by simpa using a⟩

theorem keeps_zeroPitch : Keeps o s (zeroPitch s) :=
  { (keeps_check (o := { o with clos := false })
        { s.check with sinceZero := satInc 65535 s.check.sinceZero, testOpen := true }
        (fun a b c => ⟨satInc_le a, b, c⟩) (fun _ => rfl) (fun a => Bool.noConfusion a)).trans
      keeps_zeroStaleTest with
    closed := fun _ h => zeroStaleTest_closes h.1 }

/-- An eighth of the way from Z to a sample, truncated, stays between the two. -/
theorem zeroMove_le (z d : Nat) (hz : z ≤ 4095) (hd : d ≤ 4095) :
    ((z : Int) + ((d : Int) - z).tdiv 8).toNat ≤ 4095 := by
  rcases Int.le_total 0 ((d : Int) - z) with h | h
  · rw [Int.tdiv_eq_ediv_of_nonneg h]
    omega
  · have e : (d : Int) - z = -((z : Int) - d) := by omega
    rw [e, Int.neg_tdiv, Int.tdiv_eq_ediv_of_nonneg (by omega)]
    omega

theorem keeps_emptyArrival (d : Nat) (hd : d ≤ 4095) : Keeps o s (emptyArrival d s) := by
  unfold emptyArrival
  simp only
  split
  · exact keeps_check { s.check with
      z := ((s.check.z : Int) + ((d : Int) - s.check.z).tdiv 8).toNat, sinceZero := 0, staleGiven := false }
      (fun _ b c => ⟨Nat.zero_le _, zeroMove_le _ _ b hd, c⟩) (fun _ => rfl)
  · exact keeps_check { s.check with disturbances := satInc max32 s.check.disturbances }
      (fun a b c => ⟨a, b, c⟩) (fun _ => rfl)

theorem defl_le (x : BitVec 12) : x.toNat ≤ 4095 := by have := x.isLt; omega

/-! ### Reject Gate and the acts of a pitch -/

theorem keeps_confirmDeadlines (h : o.conf = false) : Keeps o s (confirmDeadlines s) :=
  (keeps_reject _ h).trans (keeps_foldl _ _ (fun _ _ => keeps_raiseCause _) _)

theorem keeps_arriveJ (h : o.conf = false) (e : Entry) (he : e ∈ s.track.entries)
    (hj : e.position = s.track.geometry.j) :
    Keeps o s (arriveJ e s) := by
  unfold arriveJ
  split
  · have h1 : Keeps o s { s with reject.rejOut := true, reject.since := s.timeBase
                                 reject.confirms := s.reject.confirms ++
        [⟨e.jar, s.track.pitchCount + BitVec.ofNat 32 s.params.confirmWindow⟩] } :=
      keeps_reject _ h
    exact h1.trans (keeps_depart _ _ he (fun _ => .inr hj))
  · exact keeps_depart _ _ he (fun _ => .inr hj)
  · exact .refl s

theorem keeps_confirmPulse (h : o.conf = false) : Keeps o s (confirmPulse s) := by
  unfold confirmPulse
  split
  · exact keeps_reject _ h
  · exact keeps_latchAlert _

theorem keeps_actAtK (ho : o.pit = true → o.outK = true) (rs : RunState) (p : PitchPins) : Keeps o s (actAtK rs p s) := by
  unfold actAtK
  split
  · rename_i h
    split
    · exact (keeps_depart _ _ (entryAt_mem h) (fun a => .inl ⟨ho a, entryAt_position h⟩)).trans (keeps_raiseCause _)
    · exact keeps_checkJar _ _
  · split
    · split
      · exact keeps_raiseCause _
      · exact keeps_emptyArrival _ (defl_le _)
    · exact .refl s

theorem keeps_faultAdmitted (e : Entry) : Keeps o s (faultAdmitted e s) := by
  unfold faultAdmitted
  split
  · exact (keeps_modEntry _ _ (grows_faultMark _)).trans (keeps_placeAbort _)
  · exact .refl s

theorem keeps_countAdmission (hw : o.pit = true → o.adm = false) : Keeps o s (countAdmission s) := by
  have h : Keeps o s { s with run.admitted := satInc max32 s.run.admitted } := {}
  unfold countAdmission
  simp only
  split
  · exact h.trans (keeps_batchEnd hw)
  · exact h

theorem keeps_admissionSwap : Keeps o s (admissionSwap s) := by
  unfold admissionSwap
  split
  · rename_i hq
    split
    · rename_i h
      simp only [Bool.and_eq_true] at h
      exact keeps_swapAndComplete _ h.2 (by rw [hq]; simp)
    · exact .refl s
  · exact .refl s

/-- The relations of Table 1-9. -/
theorem geometryOk_iff (g : Geometry) : GeometryOk g ↔
    1 ≤ g.a ∧ g.a < g.e ∧ (g.e < g.x ∧ g.x ≤ 17) ∧ (g.x < g.k ∧ g.k ≤ g.x + 200)
      ∧ (g.k < g.j ∧ g.j ≤ g.k + 32) := by
  unfold GeometryOk brokenGeometry
  simp only [firstBroken]
  by_cases h1 : 1 ≤ g.a <;> simp only [h1, decide_true, decide_false, if_true, true_and, false_and] <;>
    try (simp; done)
  by_cases h2 : g.a < g.e <;> simp only [h2, decide_true, decide_false, if_true, true_and, false_and] <;>
    try (simp; done)
  by_cases h3 : g.e < g.x ∧ g.x ≤ 17 <;>
    simp only [h3, decide_true, decide_false, if_true, true_and, false_and] <;> try (simp; done)
  by_cases h4 : g.x < g.k ∧ g.k ≤ g.x + 200 <;>
    simp only [h4, decide_true, decide_false, if_true, true_and, false_and] <;> simp

/-- The new entry joins as the youngest, when the advance has emptied position 0 and ACTIVE holds a recipe. -/
theorem keeps_join (irt : Nat) (ho : o.adm = false) (hp : ∀ e ∈ s.track.entries, 0 < e.position)
    (ha : s.recipes.active.isSome = true) (hw : Awake s.run.state) :
    Keeps o s { s with track.entries := s.track.entries ++ [newEntry irt s]
                       track.activeCount := s.track.activeCount + 1
                       track.nextJar := nextJarAfter s.track.nextJar, recipes.firstMark := false } where
  positive := fun a => by simp [ho] at a
  joins := fun a => by simp [ho] at a
  rest := fun _ a => by
    change s.run.state = .idle ∨ s.run.state = .prepare at a
    rcases hw with h | h | h | h <;> simp [h] at a
  pit := fun _ => { remain := fun e he _ _ => ⟨e, List.mem_append_left _ he, rfl⟩ }
  banks := fun b => ⟨b.1, fun _ => ha, b.2.2⟩
  track := by
    rintro ⟨h1, h2, h3⟩
    refine ⟨?_, ?_, ?_⟩
    · unfold PositionsFall at *
      rw [List.pairwise_append]
      refine ⟨h1, by simp, ?_⟩
      intro e he f hf
      simp only [List.mem_singleton] at hf
      subst hf
      exact hp e he
    · simp only [List.countP_append, List.countP_cons, List.countP_nil, newEntry]
      simpa using h2
    · simp only [List.countP_append, List.countP_cons, List.countP_nil, newEntry]
      simpa using h3
  stations := by
    intro _ dx dk dj hg h e he
    simp only [List.mem_append, List.mem_singleton] at he
    rcases he with he | rfl
    · exact h e he
    · have hgo := (geometryOk_iff _).1 hg.1
      refine ⟨(fun a => nomatch a), (fun a => nomatch a), ?_, ?_, ?_⟩
      · intro a; change s.track.geometry.x < 0 ∨ s.track.geometry.x = 0 ∧ _ at a; omega
      · intro a; change s.track.geometry.k < 0 ∨ s.track.geometry.k = 0 ∧ _ at a; omega
      · change 0 < s.track.geometry.j ∨ _; omega

theorem keeps_admission (irt : Nat) (ho : o.adm = false) (hp : ∀ e ∈ s.track.entries, 0 < e.position)
    (ha : s.recipes.active.isSome = true) (hw : Awake s.run.state) : Keeps o s (admission irt s) := by
  have k : Keeps { o with adm := true, pit := true } s (admissionSwap s) := keeps_admissionSwap
  have k' : Keeps o s (admissionSwap s) := keeps_admissionSwap
  exact ((k'.trans (keeps_join irt ho (k.positive rfl hp) (k.active ha) (k.awake rfl rfl hw))).trans
    (keeps_faultAdmitted _)).trans (keeps_countAdmission fun _ => ho)

/-! ### Head Link -/

theorem keeps_reportToHeadMap (p : Head) (b : Bool) : Keeps o s (reportToHeadMap p b s) := by
  unfold reportToHeadMap
  split
  · exact keeps_modHead p (fun h => { h with noReplies := 0 }) (fun _ => rfl)
      (fun _ h => ⟨h.1, Nat.zero_le _⟩)
  · have k : Keeps { o with clos := false } s (modHead p (fun h => { h with
        noReplies := satInc 3 h.noReplies, silenceOpen := true
        stats := { h.stats with noReply := satInc max32 h.stats.noReply } }) s) :=
      keeps_modHead p _ (fun _ => rfl) (fun _ h => ⟨h.1, satInc_le h.2⟩) (fun a => Bool.noConfusion a)
    refine { k.trans (keeps_linkMarkOut _) with closed := fun _ a => ?_ }
    refine linkMarkOut_closes p ?_
    rw [modHead_modHead]
    exact closed_modHead p _ ⟨(a.1 p).1, rfl⟩ a

theorem keeps_takeGood (x : Exchange) (r : Report) : Keeps o s (takeGood x r s) := by
  unfold takeGood
  simp only
  split
  · split
    · exact (keeps_countStale _).trans (keeps_modLine _ _)
    · exact (keeps_takeReport _ _).trans (keeps_modLine _ _)
  · split
    · exact keeps_countStale _
    · exact keeps_takeReport _ _

theorem keeps_settleUnconfirmed (x : Exchange) (g : Option Report) (b : Bool) :
    Keeps o s (settleUnconfirmed x g b s) := by
  unfold settleUnconfirmed
  split
  · exact keeps_modLine _ _
  · exact .refl s
  · simp only
    split
    · exact .refl s
    · split
      · exact ((keeps_modLine _ _).trans (keeps_displaceFetch _)).trans (keeps_modLine _ _)
      · exact keeps_modLine _ _

theorem keeps_settleFetch (x : Exchange) (g : Option Report) (b : Bool) :
    Keeps o s (settleFetch x g b s) := by
  unfold settleFetch
  split
  · exact .refl s
  · split
    · exact (keeps_modLine _ _).trans (keeps_handCurve _ _)
    · split
      · exact keeps_placeCurveAgain _
      · exact .refl s

theorem keeps_endExchange (hp : o.pit = false) (g : Option Report) (x : Exchange) : Keeps o s (endExchange g x s) := by
  unfold endExchange
  simp only
  split
  · exact ((((keeps_reportToHeadMap _ _).trans (keeps_takeGood _ _)).trans
      (keeps_settleUnconfirmed _ _ _)).trans (keeps_settleFetch _ _ _)).trans (keeps_link _ hp)
  · exact (((keeps_reportToHeadMap _ _).trans (keeps_settleUnconfirmed _ _ _)).trans
      (keeps_settleFetch _ _ _)).trans (keeps_link _ hp)

theorem keeps_takeCommand (p : Head) : Keeps o s (takeCommand p s) := by
  unfold takeCommand
  split
  · exact (keeps_modLine _ _).trans (keeps_modStats _ _)
  · exact keeps_modLine _ _
  · exact keeps_modLine _ _
  · exact keeps_modLine _ _

theorem keeps_scanTurn (hp : o.pit = false) : Keeps o s (scanTurn s) := by
  unfold scanTurn
  split
  · exact .refl s
  · simp only
    split
    · exact ((keeps_link { s.link with pointer := _ } hp).trans (keeps_takeCommand _)).trans (keeps_link _ hp)
    · exact .refl s

/-! ### Lift Controller -/

theorem keeps_sampleLift (p : LiftPins) : Keeps o s (sampleLift p s) := keeps_inputs _

theorem keeps_homeStep (b : Bool) : Keeps o s (homeStep b s) := by
  unfold homeStep
  simp only
  split
  · exact keeps_inputs _
  · split
    · exact (keeps_inputs _).trans (keeps_homeReading _)
    · exact (keeps_inputs _).trans keeps_homeFails

theorem keeps_seekStep : Keeps o s (seekStep s) := by
  unfold seekStep
  split
  · split
    · exact keeps_iteProp (keeps_lift _) (keeps_lift _)
    · exact .refl s
  · exact .refl s

theorem keeps_homeEnded (r : Option Requester) : Keeps o s (homeEnded r s) := by
  unfold homeEnded
  split
  · exact keeps_latchAlert _
  · exact keeps_seekForRun
  · exact .refl _

theorem keeps_settleEnd : Keeps o s (settleEnd s) := by
  unfold settleEnd
  simp only
  split
  · exact (keeps_lift _).trans (keeps_homeEnded _)
  · exact (keeps_lift _).trans keeps_seekEnded
  all_goals exact .refl s

end Sys2Proof.Machine
end

