-- ==== Sys2Proof/Laws/KeepsRequests.lean ====
section
/-! SUPPORT. What the block of each request keeps. -/

-- One declaration is checked after another: side by side they take more threads than the memory limit allows.
set_option Elab.async false

namespace Sys2Proof.Machine

variable {o : Scope} {s t u : State}

/-! ### Records and traces -/

theorem keeps_fetchRecords (p : List Byte) : Keeps o s (fetchRecordsBlock p s).state :=
  { queue := fun h => by
      unfold QueueBounded at *
      simp only [fetchRecordsBlock, List.length_drop]
      omega }

theorem keeps_readTrace (p : List Byte) : Keeps o s (readTraceBlock p s).state := by
  unfold readTraceBlock
  simp only
  split
  · exact .refl s
  · split
    · exact .refl s
    · exact .refl s

theorem keeps_armCapture (p : List Byte) : Keeps o s (armCaptureBlock p s).state := by
  unfold armCaptureBlock
  simp only
  split
  · exact keeps_capture _
  · exact keeps_capture _
  · exact .refl s
  · exact .refl s

/-! ### Recipes and changeovers -/

theorem keeps_stageRecipe (p : List Byte) : Keeps o s (stageRecipeBlock p s).state := by
  unfold stageRecipeBlock
  split
  · exact .refl s
  · simp only
    split
    · exact .refl s
    · exact {}

theorem keeps_discardStaged : Keeps o s (discardStagedBlock s).state := by
  unfold discardStagedBlock
  split
  · exact .refl s
  · exact {}

theorem keeps_readRecipe (p : List Byte) : Keeps o s (readRecipeBlock p s).state := by
  unfold readRecipeBlock
  split <;> exact .refl s

theorem keeps_requestChangeover (hp : o.pit = false) (p : List Byte) (lp : LiftPins) :
    Keeps o s (requestChangeoverBlock p lp s).state := by
  unfold requestChangeoverBlock
  split
  · exact .refl s
  · rename_i hr
    split
    · exact .refl s
    · split
      · exact .refl s
      · exact .refl s
      · split
        · exact .refl s
        · simp only [Answer.plain]
          refine keeps_ite ?_ (keeps_request _ (fun a => by simp [hp] at a))
          have hr' : runOrHold s = true := by simpa using hr
          exact ((keeps_request _ (fun a => by simp [hp] at a)).trans (keeps_sampleLift lp)).trans (keeps_enterChange hr')

theorem keeps_cancelChangeover (hp : o.pit = false) : Keeps o s (cancelChangeoverBlock s).state := by
  unfold cancelChangeoverBlock
  split
  · exact .refl s
  · simp only
    split
    · exact .refl s
    · exact keeps_request _ (fun _ _ => rfl)
    · exact keeps_request _ (fun _ _ => rfl)
    · simp only [Answer.plain]
      split
      · rename_i h
        exact (keeps_request _ (fun _ _ => rfl)).trans (keeps_enterDrain (.refl _) (fun _ => runOrHold_notFault h)
          (fun a => by simp [hp] at a))
      · exact keeps_request _ (fun _ _ => rfl)

/-! ### Run messages -/

theorem startRunRefusal_none (h : startRunRefusal s = none) :
    s.run.state = .idle ∧ s.track.entries = []
      ∧ (s.recipes.active.isNone = true → s.recipes.staged.isSome = true) := by
  unfold startRunRefusal at h
  split at h
  · cases h
  · rename_i h1
    split at h
    · cases h
    · rename_i h2
      split at h
      · cases h
      · split at h
        · cases h
        · split at h
          · cases h
          · rename_i h3
            refine ⟨by simpa using h1, by simpa using h2, fun a => ?_⟩
            cases hst : s.recipes.staged <;> simp_all

theorem keeps_startRun (hp : o.pit = false) (p : List Byte) (lp : LiftPins) : Keeps o s (startRunBlock p lp s).state := by
  unfold startRunBlock
  split
  · exact .refl s
  · rename_i h
    obtain ⟨hi, he, ha⟩ := startRunRefusal_none h
    have k : Keeps o s (if s.recipes.active.isNone then doSwap s else s) := by
      split
      · rename_i hn
        exact keeps_doSwap (.inr he) (ha hn) (fun a => by simp [hp] at a)
      · exact .refl s
    have hact : (if s.recipes.active.isNone then doSwap s else s).recipes.active.isSome = true := by
      split
      · rename_i hn
        have hst := ha hn
        have : (doSwap s).recipes.active = s.recipes.staged := rfl
        rw [this]; exact hst
      · rename_i hn
        cases ha : s.recipes.active <;> simp_all
    have hst : (if s.recipes.active.isNone then doSwap s else s).run.state = .idle := by
      split
      · have : (doSwap s).run = s.run := by unfold doSwap; simp only; split <;> rfl
        rw [this]; exact hi
      · exact hi
    have hent : (if s.recipes.active.isNone then doSwap s else s).track.entries = [] := by
      split
      · unfold doSwap; simp only; split <;> simp [he]
      · exact he
    simp only [Answer.plain]
    revert k hact hst hent
    generalize (if s.recipes.active.isNone then doSwap s else s) = v
    intro k hact hst hent
    have k2 : Keeps { o with dec := false } v (sampleLift lp (clearRunCounters
        { v with run.batchNumber := field p 0 2, run.batchSize := clampTo 0 maxBatchSize (field p 2 4)
                 run.admitted := 0, run.batchEnded := false })) :=
      { decision := fun a => Bool.noConfusion a
        pit := fun a => by simp [hp] at a }
    exact k.trans ((k2.thenState (r := .prepare) (fun _ a => by simp [hst] at a)
      (fun a => RunState.noConfusion a) (fun a => RunState.noConfusion a)
      (fun a => RunState.noConfusion a) (fun _ _ => hact) (fun _ _ => hent)
      (fun a => by simp [hp] at a)).trans keeps_liftForRun)

theorem keeps_stopRun (hp : o.pit = false) : Keeps o s (stopRunBlock s).state := by
  have k : Keeps { o with dec := false } s { s with run.request := none, run.batchEnded := true } :=
    { decision := fun a => Bool.noConfusion a
      pit := fun _ => { calm := fun _ => ⟨rfl, rfl, rfl⟩ } }
  unfold stopRunBlock
  split
  · exact .refl s
  · exact .refl s
  · exact .refl s
  · rename_i h
    exact keeps_enterIdle (fun _ a => by simp [h] at a) (fun a => a (.inr h)) (by simp [h, Awake])
  · rename_i h
    exact keeps_enterDrain k (fun _ a => by simp [h] at a) (fun a => by simp [hp] at a)
  · rename_i h
    exact keeps_enterDrain k (fun _ a => by simp [h] at a) (fun a => by simp [hp] at a)
  · rename_i h
    exact keeps_enterDrain k (fun _ a => by simp [h] at a) (fun a => by simp [hp] at a)

theorem keeps_holdBlock : Keeps o s (holdBlock s).state :=
  keeps_setHold _ _ (fun _ a => HoldReason.noConfusion a)

theorem keeps_resumeBlock : Keeps o s (resumeBlock s).state :=
  keeps_setHold _ _ (fun _ a => HoldReason.noConfusion a)

theorem keeps_insertGaps (p : List Byte) : Keeps o s (insertGapsBlock p s).state := by
  unfold insertGapsBlock
  split
  · exact .refl s
  · have k : Keeps { o with dec := false } s { s with
        gate.gapCount := min maxGaps (s.gate.gapCount + clampTo 1 maxGaps (field p 0 1)) } :=
      { decision := fun a => Bool.noConfusion a
        ranges := fun r => ⟨Nat.min_le_left _ _, r.2⟩ }
    exact k.thenRemake

/-- Only the end of a fault leaves FAULT. -/
theorem keeps_leaveFault (h : o.stay = false) (hp : o.pit = false) : Keeps o s (leaveFault s) := by
  unfold leaveFault
  simp only
  have k : Keeps o s (if frozen s then purge s.track.entries.length s else s) :=
    keeps_ite (keeps_purge hp _ _) (.refl s)
  revert k
  generalize (if frozen s then purge s.track.entries.length s else s) = v
  intro k
  have k2 : Keeps { o with dec := false } v { v with run.causes := noMembers 7 } :=
    { causes := fun a => by simp [h] at a }
  exact k.trans (keeps_enterDrain k2 (fun a => by simp [h] at a) (fun a => by simp [hp] at a))

theorem keeps_clearFault (h : o.stay = false) (hp : o.pit = false) (lp : LiftPins) : Keeps o s (clearFaultBlock lp s).state := by
  unfold clearFaultBlock
  simp only
  split
  · exact .refl s
  · split
    · exact keeps_sampleLift _
    · exact (keeps_sampleLift _).trans (keeps_leaveFault h hp)

theorem keeps_homeLift (lp : LiftPins) : Keeps o s (homeLiftBlock lp s).state := by
  unfold homeLiftBlock
  split
  · exact .refl s
  · split
    · exact .refl s
    · exact .refl s
    all_goals exact (keeps_sampleLift _).trans (keeps_startHome _)

/-! ### Setup -/

theorem fixedRejects_writeDisp (v : Vector DispEntry 13) (q : FinalClass × DispEntry) (h : FixedRejects v) :
    FixedRejects (writeDisp v q) := by
  intro c hc
  unfold writeDisp
  simp only [Fin.getElem_fin, Vector.getElem_set]
  split
  · rename_i hq
    have : c = q.1 := by
      have : classIx q.1 = classIx c := Fin.ext hq
      revert this
      cases c <;> cases q.1 <;> simp [classIx]
    subst this
    simp [hc]
  · exact h c hc

theorem fixedRejects_foldl (l : List (FinalClass × DispEntry)) : ∀ v : Vector DispEntry 13,
    FixedRejects v → FixedRejects (l.foldl writeDisp v) := by
  induction l with
  | nil => exact fun _ h => h
  | cons q l ih => exact fun v h => ih _ (fixedRejects_writeDisp v q h)

theorem keeps_setDisposition (hx : o.fix = false) (p : List Byte) : Keeps o s (setDispositionBlock p s).state := by
  unfold setDispositionBlock
  split
  · exact .refl s
  · exact { fixed := fun h => ⟨fixedRejects_foldl _ _ h.1, h.2⟩, settings := fun a => by rw [hx] at a; cases a }

theorem keeps_setGeometry (hx : o.fix = false) (hp : o.pit = false) (p : List Byte) : Keeps o s (setGeometryBlock p s).state := by
  unfold setGeometryBlock
  split
  · exact .refl s
  · rename_i h
    simp only
    split
    · exact .refl s
    · rename_i hg
      simp only [Bool.or_eq_true, Bool.not_eq_true', not_or, Bool.not_eq_false,
        List.isEmpty_iff] at h
      exact {
        geometries := fun g => ⟨hg, g.2⟩
        pit := fun a => by rw [hp] at a; cases a
        settings := fun a => by rw [hx] at a; cases a
        stations := fun _ _ _ _ _ _ e he => by
          have he' : e ∈ s.track.entries := he
          rw [h.2] at he'
          cases he' }

theorem applyPair_bounds (l : List (Head × Bool)) : ∀ hs : Vector HeadRecord 18,
    (∀ q : Head, hs[q].failures ≤ 255 ∧ hs[q].noReplies ≤ 3) →
      ∀ q : Head, (l.foldl applyPair hs)[q].failures ≤ 255 ∧ (l.foldl applyPair hs)[q].noReplies ≤ 3 := by
  induction l with
  | nil => exact fun _ h => h
  | cons a l ih =>
    intro hs h
    refine ih _ (get_set_bounds _ _ _ h ?_)
    split
    · exact ⟨Nat.zero_le _, Nat.zero_le _⟩
    · exact h a.1

/-- The pairs of SET HEAD SERVICE open no test. -/
theorem applyPair_closed (l : List (Head × Bool)) : ∀ hs : Vector HeadRecord 18,
    (∀ q : Head, hs[q].riseOpen = false ∧ hs[q].silenceOpen = false) →
      ∀ q : Head, (l.foldl applyPair hs)[q].riseOpen = false ∧ (l.foldl applyPair hs)[q].silenceOpen = false := by
  induction l with
  | nil => exact fun _ h => h
  | cons a l ih =>
    intro hs h
    refine ih _ (fun q => ?_)
    unfold applyPair
    simp only [Fin.getElem_fin, Vector.getElem_set]
    split
    · split <;> exact h a.1
    · exact h q

theorem keeps_applyService (l : List (Head × Bool)) : Keeps o s (applyService l s) := by
  have k : Keeps { o with few := false, dec := false } s { s with heads := l.foldl applyPair s.heads } :=
    { fewHeads := fun a => Bool.noConfusion a
      decision := fun a => Bool.noConfusion a
      ranges := fun r => ⟨r.1, r.2.1, r.2.2.1, applyPair_bounds _ _ r.2.2.2.1, r.2.2.2.2⟩
      closed := fun _ h => ⟨applyPair_closed _ _ h.1, h.2⟩ }
  exact (k.trans (keeps_foldl _ _ (fun _ _ => keeps_serviceChanged _) _)).thenFew.thenRemake

theorem keeps_setHeadService (p : List Byte) : Keeps o s (setHeadServiceBlock p s).state := by
  unfold setHeadServiceBlock
  split
  · exact .refl s
  · exact keeps_applyService _

theorem get_map_heads (f : HeadRecord → HeadRecord) (hs : Vector HeadRecord 18) (q : Head) :
    (hs.map f)[q] = f hs[q] := by simp

/-- A change of every Head Record that leaves service states and counts alone. -/
theorem keeps_mapHeads (f : HeadRecord → HeadRecord) (hf : ∀ h, (f h).service = h.service)
    (hr : ∀ h, (f h).failures = h.failures ∧ (f h).noReplies = h.noReplies)
    (hc : ∀ h, (f h).riseOpen = h.riseOpen ∧ (f h).silenceOpen = h.silenceOpen) :
    Keeps o s { s with heads := s.heads.map f } where
  fewHeads := fun _ h => h.trans (congrArg (fun n => decide (n < s.params.minHeads)) (by
    rw [inServiceCount_map, inServiceCount_map, Vector.toList_map, List.map_map]
    simp only [Function.comp_def, hf]))
  decision := fun _ h => h.trans (congrArg (fun v : Service =>
    if s.run.state == .run && !s.run.batchEnded && v == .inService then
      (if s.gate.gapCount == 0 then Decision.admitJar else .gap)
    else .closed) ((congrArg HeadRecord.service
      (get_map_heads f s.heads (s.track.pocket + 1))).trans (hf _)).symm)
  ranges := fun r => ⟨r.1, r.2.1, r.2.2.1, fun q => by
    simp only
    rw [get_map_heads, (hr _).1, (hr _).2]
    exact r.2.2.2.1 q, r.2.2.2.2⟩
  closed := fun _ h => ⟨fun q => by
    simp only
    rw [get_map_heads, (hc _).1, (hc _).2]
    exact h.1 q, h.2⟩

theorem keeps_clearHeadStats (p : List Byte) : Keeps o s (clearHeadStatsBlock p s).state := by
  unfold clearHeadStatsBlock
  split
  · exact keeps_mapHeads _ (fun _ => rfl) (fun _ => ⟨rfl, rfl⟩) (fun _ => ⟨rfl, rfl⟩)
  · split
    · exact keeps_modHead _ (fun h => { h with stats := clearStats }) (fun _ => rfl) (fun _ h => h)
    · exact .refl s

/-- A clamped value lies in its range. -/
theorem clampTo_range (lo hi n : Nat) (h : lo ≤ hi) : lo ≤ clampTo lo hi n ∧ clampTo lo hi n ≤ hi := by
  unfold clampTo
  split
  · omega
  · split <;> omega

/-- A clamped set of line parameters is in range. -/
theorem paramsOk_clampParams (q : LineParams) : ParamsOk (clampParams q) := by
  refine ⟨clampTo_range _ _ _ (by decide), ?_, (clampTo_range 0 20 _ (by decide)).2,
    clampTo_range _ _ _ (by decide), (clampTo_range 0 1023 _ (by decide)).2,
    clampTo_range _ _ _ (by decide), clampTo_range _ _ _ (by decide), clampTo_range _ _ _ (by decide),
    (clampTo_range 0 1000 _ (by decide)).2, clampTo_range _ _ _ (by decide)⟩
  by_cases h : q.linkTimeout = 0
  · exact .inl (if_pos h)
  · right
    simp only [clampParams, if_neg h]
    exact clampTo_range _ _ _ (by decide)

theorem keeps_setLineParameters (hx : o.fix = false) (p : List Byte) : Keeps o s (setLineParametersBlock p s).state := by
  have k : Keeps { o with few := false } s { s with params := clampParams (paramsOfBytes p) } :=
    { fewHeads := fun a => Bool.noConfusion a
      params := fun h => ⟨paramsOk_clampParams _, h.2⟩
      settings := fun a => by rw [hx] at a; cases a }
  exact k.thenFew.trans (keeps_restartTimer hx)

theorem keeps_setAlertMask (hx : o.fix = false) (hp : o.pit = false) (p : List Byte) : Keeps o s (setAlertMaskBlock p s).state := by
  unfold setAlertMaskBlock
  split
  · exact keeps_alerts _ _ (fun a => by rw [hx] at a; cases a) hp
  · exact .refl s

theorem keeps_ackAlerts (hp : o.pit = false) (p : List Byte) : Keeps o s (ackAlertsBlock p s).state := by
  unfold ackAlertsBlock
  split
  · exact keeps_alerts _ _ (fun _ => rfl) hp
  · exact .refl s

theorem keeps_setTraceMode (hx : o.fix = false) (p : List Byte) : Keeps o s (setTraceModeBlock p s).state := by
  unfold setTraceModeBlock
  split
  · exact { settings := fun a => by rw [hx] at a; cases a }
  · exact .refl s

theorem keeps_setZero (hx : o.fix = false) : Keeps o s (setZeroBlock s).state :=
  keeps_check { s.check with z0 := s.check.z } (fun a b _ => ⟨a, b, b⟩)
    (fun a => by rw [hx] at a; cases a)

/-- A commit takes the live settings, and with them what holds of them. -/
theorem keeps_commitSettings (hx : o.fix = false) : Keeps o s (commitSettingsBlock s).state := by
  unfold commitSettingsBlock
  split
  · exact .refl s
  · exact {
      settings := fun a => by rw [hx] at a; cases a
      fixed := fun h => ⟨h.1, fun i hi => by cases hi; exact h.1, h.2.2⟩
      params := fun h => ⟨h.1, fun i hi => by cases hi; exact h.1, h.2.2⟩
      geometries := fun h => ⟨h.1, fun i hi => by cases hi; exact h.1, h.2.2⟩
      ranges := fun r => ⟨r.1, r.2.1, r.2.2.1, r.2.2.2.1, r.2.2.2.2.1, r.2.2.2.2.2.1,
        fun i hi => by cases hi; exact r.2.2.2.2.2.1, r.2.2.2.2.2.2.2⟩
      stations := fun _ _ _ _ _ h => h }

/-- The write of an image ends, and the store has what held of it. -/
theorem keeps_writeEnd (hx : o.fix = false) (i : StoredImage) (h : s.commit = some i) :
    Keeps o s { s with store := i, commit := none } where
  settings := fun a => by rw [hx] at a; cases a
  fixed := fun g => ⟨g.1, (fun _ hi => nomatch hi), g.2.1 i h⟩
  params := fun g => ⟨g.1, (fun _ hi => nomatch hi), g.2.1 i h⟩
  geometries := fun g => ⟨g.1, (fun _ hi => nomatch hi), g.2.1 i h⟩
  ranges := fun r => ⟨r.1, r.2.1, r.2.2.1, r.2.2.2.1, r.2.2.2.2.1, r.2.2.2.2.2.1,
    (fun _ hi => nomatch hi), r.2.2.2.2.2.2.1 i h⟩

end Sys2Proof.Machine
end

