-- ==== Sys2Proof/Laws/KeepsPitch.lean ====
section
/-! SUPPORT. What the acts of a forward pitch keep, and that a pitch takes each act once. -/

-- One declaration is checked after another: side by side they take more threads than the memory limit allows.
set_option Elab.async false

namespace Sys2Proof.Machine

variable {o : Scope} {s t u : State}

theorem keeps_arrivalAt (pos : Nat) (act : Entry → State → State)
    (h : ∀ e, e ∈ s.track.entries → e.position = pos → Keeps o s (act e s)) :
    Keeps o s (arrivalAt pos act s) := by
  unfold arrivalAt
  split
  · rename_i e he
    exact h _ (entryAt_mem he) (entryAt_position he)
  · exact .refl s

/-- The act at the infeed. A jar joins only where the decision was ADMIT. -/
theorem keeps_actAtInfeed (rs : RunState) (d : Decision) (p : PitchPins) (ho : d = .admitJar → o.adm = false)
    (hd : o.dec = false)
    (h : d = .admitJar → (∀ e ∈ s.track.entries, 0 < e.position) ∧ s.recipes.active.isSome = true
      ∧ Awake s.run.state) :
    Keeps o s (actAtInfeed rs d p s) := by
  unfold actAtInfeed
  split
  · split
    · exact keeps_admission _ (ho rfl) (h rfl).1 (h rfl).2.1 (h rfl).2.2
    · exact {}
  · have k : Keeps o s { s with gate.gapCount := s.gate.gapCount - 1 } :=
      { decision := fun a => by simp [hd] at a
        ranges := fun r => ⟨(Nat.sub_le _ _).trans r.1, r.2⟩ }
    simp only
    split
    · exact k.trans (keeps_raiseCause _)
    · exact k
  · split
    · exact keeps_raiseCause _
    · exact .refl s

/-- One act of a pitch. -/
theorem keeps_pitchAct (rs : RunState) (d : Decision) (p : PitchPins) (a : PitchAct)
    (ho : a = .infeed → d = .admitJar → o.adm = false) (hc : a = .deadlines ∨ a = .atJ → o.conf = false)
    (hd : o.dec = false) (hk : a = .atK → o.pit = true → o.outK = true)
    (h : a = .infeed → d = .admitJar →
      (∀ e ∈ s.track.entries, 0 < e.position) ∧ s.recipes.active.isSome = true ∧ Awake s.run.state) :
    Keeps o s (pitchAct rs d p s a) := by
  cases a with
  | deadlines => exact keeps_confirmDeadlines (hc (.inl rfl))
  | atA => exact keeps_arrivalAt _ _ (fun e _ _ => keeps_arriveA e)
  | atE => exact keeps_arrivalAt _ _ (fun e _ _ => keeps_arriveE e)
  | atX => exact keeps_arrivalAt _ _ (fun e _ _ => keeps_arriveX e)
  | atK => exact keeps_actAtK (hk rfl) _ _
  | atJ => exact keeps_arrivalAt _ _ (fun e he hj => keeps_arriveJ (hc (.inr rfl)) e he hj)
  | infeed => exact keeps_actAtInfeed _ _ _ (ho rfl) hd (h rfl)

/-- What the acts of a pitch keep together: all but the decision, the confirm list and the list of entries. -/
def Scope.acts : Scope := ⟨true, true, false, false, false, true, true, true, true, true⟩

/-- The same with no entry joining. -/
def Scope.actsNoJoin : Scope := ⟨true, true, false, true, false, true, true, true, true, true⟩

/-- Acts each taken once. The infeed act, where it admits, finds position 0 empty and a recipe in ACTIVE. -/
theorem keeps_acts (rs : RunState) (d : Decision) (p : PitchPins) (l : List PitchAct) (hn : l.Nodup) :
    ∀ s, (PitchAct.infeed ∈ l → d = .admitJar →
        (∀ e ∈ s.track.entries, 0 < e.position) ∧ s.recipes.active.isSome = true ∧ Awake s.run.state) →
      Keeps Scope.acts s (l.foldl (pitchAct rs d p) s) := by
  induction l with
  | nil => exact fun s _ => .refl s
  | cons a l ih =>
    intro s h
    rw [List.nodup_cons] at hn
    refine Keeps.trans (keeps_pitchAct rs d p a (fun _ _ => rfl) (fun _ => rfl) rfl (fun _ _ => rfl) (fun ha => h (by simp [ha])))
      (ih hn.2 _ ?_)
    intro hi hd
    have hna : a ≠ .infeed := fun e => hn.1 (e ▸ hi)
    have k : Keeps Scope.actsNoJoin s (pitchAct rs d p s a) :=
      keeps_pitchAct rs d p a (fun e => absurd e hna) (fun _ => rfl) rfl (fun _ _ => rfl) (fun e => absurd e hna)
    have hh := h (by simp [hi]) hd
    exact ⟨k.positive rfl hh.1, k.active hh.2.1, k.awake rfl rfl hh.2.2⟩

/-- Acts that admit no jar. -/
theorem keeps_actsNoJoin (rs : RunState) (d : Decision) (p : PitchPins) (l : List PitchAct)
    (h : PitchAct.infeed ∈ l → d ≠ .admitJar) :
    ∀ s, Keeps Scope.actsNoJoin s (l.foldl (pitchAct rs d p) s) := by
  induction l with
  | nil => exact fun s => .refl s
  | cons a l ih =>
    intro s
    have ha : a = .infeed → d ≠ .admitJar := fun e => h (by simp [e])
    exact (keeps_pitchAct rs d p a (fun e c => absurd c (ha e)) (fun _ => rfl) rfl (fun _ _ => rfl) (fun e c => absurd c (ha e))).trans
      (ih (fun hi => h (by simp [hi])) _)

theorem mem_schedule (order : List PitchAct) : ∀ rest : List PitchAct, rest.Nodup →
    (scheduleActs order rest).Nodup ∧ ∀ a, a ∈ scheduleActs order rest ↔ a ∈ rest := by
  induction order with
  | nil => intro rest h; exact ⟨h, fun _ => Iff.rfl⟩
  | cons b order ih =>
    intro rest h
    unfold scheduleActs
    split
    · rename_i hc
      have hb : b ∈ rest := by simpa using hc
      obtain ⟨h1, h2⟩ := ih (rest.erase b) (h.erase b)
      refine ⟨?_, ?_⟩
      · rw [List.nodup_cons]
        refine ⟨?_, h1⟩
        rw [h2]
        exact h.not_mem_erase
      · intro a
        rw [List.mem_cons, h2, h.mem_erase_iff]
        constructor
        · rintro (rfl | h)
          · exact hb
          · exact h.2
        · intro ha
          by_cases e : a = b <;> simp [e, ha]
    · exact ih rest h

theorem gateFirst_perm (l : List PitchAct) : (gateFirst l).Perm l := by
  induction l with
  | nil => exact .refl _
  | cons a l ih =>
    cases a <;> unfold gateFirst
    case atJ =>
      split
      · rename_i h
        have h' : PitchAct.deadlines ∈ l := by simpa using h
        exact (List.Perm.swap _ _ _).trans ((List.perm_cons_erase h').symm.cons _)
      · exact .refl _
    all_goals exact ih.cons _

/-- A pitch takes each of its acts once, whatever the order asked for. -/
theorem pitchActs_each_once (order : List PitchAct) :
    (pitchActs order).Nodup ∧ ∀ a, a ∈ pitchActs order := by
  obtain ⟨h1, h2⟩ := mem_schedule order defaultActs (by decide)
  have hp := gateFirst_perm (scheduleActs order defaultActs)
  exact ⟨hp.nodup_iff.2 h1, fun a => hp.mem_iff.2 ((h2 a).2 (by cases a <;> decide))⟩

end Sys2Proof.Machine
end

