-- ==== Sys2Proof/Laws/PerInstr.lean ====
section
/-! SUPPORT. What holds of the syntax of every command, one lemma per command. -/

-- One declaration is checked after another: side by side they take more threads than the memory limit allows.
set_option Elab.async false

namespace Sys2Proof.Laws.FrameBounds

/-- A well-formed command that stands for a request frame has a code and a payload that R156 allows. -/
def Statement (i : Instr) : Prop :=
  i.wellFormed = true → ∀ c p, i.message = some (c, p) → p.length ≤ 240 ∧ c.toNat < 128

/-- A frame within the limits has a code and a payload that R156 allows. -/
theorem of_fitsFrame {m : Byte × List Byte} (h : fitsFrame m = true) :
    m.2.length ≤ 240 ∧ m.1.toNat < 128 := by
  simpa [fitsFrame] using h

/-- A request held to the limits of a frame keeps them. -/
theorem of_message {i : Instr} (hw : i.wellFormed = i.message.all fitsFrame) : Statement i := by
  intro h c p hm
  rw [hw, hm] at h
  exact of_fitsFrame h

/-- A command that stands for no request frame is held to nothing. -/
theorem of_none {i : Instr} (h : i.message = none) : Statement i := by
  intro _ c p hm
  rw [h] at hm
  cases hm

theorem forwardPitch (pins : PitchPins) (order : List PitchAct) : Statement (.forwardPitch pins order) := of_none rfl
theorem reversePitch : Statement .reversePitch := of_none rfl
theorem indexPulse : Statement .indexPulse := of_none rfl
theorem rejConf : Statement .rejConf := of_none rfl
theorem capLowAsserted : Statement .capLowAsserted := of_none rfl
theorem capLowReleased : Statement .capLowReleased := of_none rfl
theorem liftFltAsserted : Statement .liftFltAsserted := of_none rfl
theorem powerOn : Statement .powerOn := of_none rfl
theorem resetInput : Statement .resetInput := of_none rfl
theorem startup (pins : StartupPins) : Statement (.startup pins) := of_none rfl
theorem frameIgnored (bytes : List Byte) : Statement (.frameIgnored bytes) := of_none rfl
theorem frameGapTimeout : Statement .frameGapTimeout := of_none rfl
theorem unknown (code : Byte) (payload : List Byte) : Statement (.unknown code payload) := by
  intro h c p hm
  cases hm
  simp only [Instr.wellFormed, Bool.and_eq_true] at h
  exact of_fitsFrame h.1

theorem queryUnit (payload : List Byte) : Statement (.queryUnit payload) := of_message rfl
theorem readStatus (payload : List Byte) (lift : LiftPins) : Statement (.readStatus payload lift) := of_message rfl
theorem readSettings (payload : List Byte) : Statement (.readSettings payload) := of_message rfl
theorem readCounts (payload : List Byte) : Statement (.readCounts payload) := of_message rfl
theorem readHead (payload : List Byte) : Statement (.readHead payload) := of_message rfl
theorem readRecipe (payload : List Byte) : Statement (.readRecipe payload) := of_message rfl
theorem readDisposition (payload : List Byte) : Statement (.readDisposition payload) := of_message rfl
theorem fetchRecords (payload : List Byte) : Statement (.fetchRecords payload) := of_message rfl
theorem readTrace (payload : List Byte) : Statement (.readTrace payload) := of_message rfl
theorem armCapture (payload : List Byte) : Statement (.armCapture payload) := of_message rfl
theorem releaseCapture (payload : List Byte) : Statement (.releaseCapture payload) := of_message rfl
theorem stageRecipe (payload : List Byte) : Statement (.stageRecipe payload) := of_message rfl
theorem discardStaged (payload : List Byte) : Statement (.discardStaged payload) := of_message rfl
theorem setDisposition (payload : List Byte) : Statement (.setDisposition payload) := of_message rfl
theorem setGeometry (payload : List Byte) : Statement (.setGeometry payload) := of_message rfl
theorem setHeadService (payload : List Byte) : Statement (.setHeadService payload) := of_message rfl
theorem setLineParameters (payload : List Byte) : Statement (.setLineParameters payload) := of_message rfl
theorem setAlertMask (payload : List Byte) : Statement (.setAlertMask payload) := of_message rfl
theorem setZeroReference (payload : List Byte) : Statement (.setZeroReference payload) := of_message rfl
theorem setTraceMode (payload : List Byte) : Statement (.setTraceMode payload) := of_message rfl
theorem commitSettings (payload : List Byte) : Statement (.commitSettings payload) := of_message rfl
theorem startRun (payload : List Byte) (lift : LiftPins) : Statement (.startRun payload lift) := of_message rfl
theorem stopRun (addr : Address) (payload : List Byte) : Statement (.stopRun addr payload) := of_message rfl
theorem hold (addr : Address) (payload : List Byte) : Statement (.hold addr payload) := of_message rfl
theorem resume (addr : Address) (payload : List Byte) : Statement (.resume addr payload) := of_message rfl
theorem requestChangeover (payload : List Byte) (lift : LiftPins) : Statement (.requestChangeover payload lift) := of_message rfl
theorem cancelChangeover (payload : List Byte) : Statement (.cancelChangeover payload) := of_message rfl
theorem insertGaps (payload : List Byte) : Statement (.insertGaps payload) := of_message rfl
theorem clearFault (payload : List Byte) (lift : LiftPins) : Statement (.clearFault payload lift) := of_message rfl
theorem homeLift (payload : List Byte) (lift : LiftPins) : Statement (.homeLift payload lift) := of_message rfl
theorem ackAlerts (payload : List Byte) : Statement (.ackAlerts payload) := of_message rfl
theorem clearHeadStats (payload : List Byte) : Statement (.clearHeadStats payload) := of_message rfl
theorem linkTimeout : Statement .linkTimeout := of_none rfl
theorem commitWriteEnd : Statement .commitWriteEnd := of_none rfl
theorem rejOutPulseEnd : Statement .rejOutPulseEnd := of_none rfl
theorem homeStep (liftHome : Bool) : Statement (.homeStep liftHome) := of_none rfl
theorem homeFailure : Statement .homeFailure := of_none rfl
theorem seekStep : Statement .seekStep := of_none rfl
theorem settleEnd : Statement .settleEnd := of_none rfl
theorem exchangeStart : Statement .exchangeStart := of_none rfl
theorem replyReceived (frame : List Byte) : Statement (.replyReceived frame) := of_none rfl
theorem replyWindowExpiry : Statement .replyWindowExpiry := of_none rfl
theorem replyGapTimeout : Statement .replyGapTimeout := of_none rfl
theorem confirmDeadline : Statement .confirmDeadline := of_none rfl
theorem zeroStale : Statement .zeroStale := of_none rfl
theorem batchEnd (lift : LiftPins) : Statement (.batchEnd lift) := of_none rfl
theorem retiringEmptied (lift : LiftPins) : Statement (.retiringEmptied lift) := of_none rfl
theorem waitTurretEnd (lift : LiftPins) : Statement (.waitTurretEnd lift) := of_none rfl
theorem drainEnd : Statement .drainEnd := of_none rfl
theorem autoMarkOut (head : Head) : Statement (.autoMarkOut head) := of_none rfl
theorem linkMarkOut (head : Head) : Statement (.linkMarkOut head) := of_none rfl
theorem captureFrozen : Statement .captureFrozen := of_none rfl
theorem millisecondTick : Statement .millisecondTick := of_none rfl
theorem lineReplySent : Statement .lineReplySent := of_none rfl

end Sys2Proof.Laws.FrameBounds
end

