-- ==== Sys2Proof/Tests/Slice0.lean ====
section
/-! SUPPORT. The model's own tests. Expected results come from the tables and worked examples of the spec,
named in each comment, or from its rules by hand. The last part shows, for every statement with hypotheses,
states and operands that meet them. -/

open Sys2Proof Sys2Proof.Machine

namespace Sys2Proof.Tests

set_option Elab.async false

/-! ### Small states -/

/-- A reading of the state a command leaves. -/
def got {α : Type} (f : State → α) (o : Host.Outcome State Fault Refusal) : Option α :=
  match o with
  | .next s => some (f s)
  | .fault _ | .refused _ => none

/-- The reply a command leaves: result and payload. -/
def reply (o : Host.Outcome State Fault Refusal) : Option (ResultCode × List Byte) :=
  (got (fun s => s.port.reply.map (fun r => (r.result, r.payload))) o).join

/-- Recipe 370 of the examples (sections 6.9, 7.9 and 8.9). -/
def recipe370 : Recipe :=
  { id := 370, name := List.replicate 12 0x20, liftHeight := 4200, stepPeriod := 8, torqueSet := 260
    torqueLo := 200, torqueHi := 320, angleLo := 1500, angleHi := 2100, angleMax := 2400
    steamDwell := 120, attemptsLimit := 2, dFull := 1400, tau := 60000, dudFraction := 60
    bulgeLimit := 300, gain := 96, tRef := 850, tAmb := 200, tMin := 650 }

/-- Recipe 410 of sections 3.9 and 7.10. -/
def recipe410 : Recipe := { recipe370 with id := 410, liftHeight := 5100, stepPeriod := 12 }

/-- RUN with an open batch, recipe 370 in ACTIVE and the decision ADMIT. -/
def inRun : State :=
  { State.reset with
    run := { State.reset.run with state := .run, batchEnded := false }
    gate := { State.reset.gate with decision := .admitJar, gateOut := true }
    recipes := { State.reset.recipes with active := some recipe370 }
    track := { State.reset.track with synced := true } }

/-- A jar admitted in pocket `p`, at position `pos`, with no class yet. -/
def jarAt (n : Word32) (pos : Nat) (p : Head) : Entry :=
  { jar := n, pocket := p, bank := .active, recipeId := 370, batch := 0, position := pos
    admissionPitch := 0, admissionTime := 0, fillTemp := some 781, attempts := 0, lastOutcome := none
    peakTorque := none, seatAngle := none, steam := false, sealTime := none, capClass := none, d := none
    dReq := none, dt := none, finalClass := none, action := none, policy := none, alertFlag := false
    disposition := none, flags := noMembers 11, trace := none }

/-- A jar that has passed x with class CAPPED_OK, sealed at time 0. -/
def cappedAt (n : Word32) (pos : Nat) (p : Head) : Entry :=
  { jarAt n pos p with
    attempts := 1, lastOutcome := some .seated, peakTorque := some 265, seatAngle := some 1820
    steam := true, sealTime := some 0, capClass := some .cappedOk }

/-- A jar checked GOOD. -/
def goodAt (n : Word32) (pos : Nat) (p : Head) : Entry :=
  { cappedAt n pos p with
    d := some 993, dReq := some 857, dt := some 41300, finalClass := some .good
    action := some .pass, policy := some .none }

/-- A jar checked DUD. -/
def dudAt (n : Word32) (pos : Nat) (p : Head) : Entry :=
  { goodAt n pos p with finalClass := some .dud, action := some .reject, policy := some .trace }

/-- A state with these entries, all of bank ACTIVE. -/
def withJars (es : List Entry) (s : State) : State :=
  { s with track := { s.track with entries := es, activeCount := es.length, nextJar := 1000 } }

/-- A state with the run state `st`, and the decision that stands there. -/
def inState (st : RunState) (s : State) : State :=
  remakeDecision { s with run := { s.run with state := st, lstop := st == .fault } }

/-- FAULT for `c`. -/
def inFault (c : Cause) (s : State) : State :=
  inState .fault { s with run := { s.run with causes := s.run.causes.set (causeIx c) true, batchEnded := true } }

/-- A READY lift at `pos`. -/
def liftAt (pos : Nat) (s : State) : State :=
  { s with lift := { s.lift with state := .ready, position := pos, known := true } }

def noLift : LiftPins := ⟨false, false⟩
def pitchOf (jarIn jarChk : Bool) (defl : BitVec 12) : PitchPins := ⟨jarIn, jarChk, defl, 2666, noLift⟩

/-! ### WellFormed refuses ill-formed commands -/

theorem test_wf_order : (Instr.forwardPitch (pitchOf false false 0) [.atJ, .atJ]).wellFormed = false := by decide
theorem test_wf_order_ok : (Instr.forwardPitch (pitchOf false false 0) [.atJ, .atK]).wellFormed = true := by decide
theorem test_wf_unknown_code : (Instr.unknown 0x30 []).wellFormed = false := by decide
theorem test_wf_unknown_reply_code : (Instr.unknown 0x90 []).wellFormed = false := by decide
theorem test_wf_unknown_ok : (Instr.unknown 0x7F []).wellFormed = true := by decide
theorem test_wf_payload : (Instr.stageRecipe (List.replicate 241 0)).wellFormed = false := by decide +kernel
theorem test_wf_payload_ok : (Instr.stageRecipe (List.replicate 240 0)).wellFormed = true := by decide +kernel
theorem test_wf_reply_short : (Instr.replyReceived [1, 1, 0]).wellFormed = false := by decide
theorem test_wf_reply_long : (Instr.replyReceived (List.replicate 260 0)).wellFormed = false := by decide +kernel

/-- No row of the table has bits, so a word spells no command and puts none in the queue. -/
theorem test_no_words : decodeTableWord 16 0x30 = none ∧ State.reset.withFetchWord 16 0x30 = State.reset := by
  decide +kernel

/-! ### Check codes and frames (R170, R171, R173) -/

/-- The worked CRC-16 of R170. -/
theorem test_crc16_digits :
    crc16 [0x31, 0x32, 0x33, 0x34, 0x35, 0x36, 0x37, 0x38, 0x39] = 0x29B1#16 := by decide +kernel
theorem test_crc16_unit : crc16 [0x01, 0x00, 0x00] = 0xFBAC#16 := by decide +kernel
/-- The worked QUERY UNIT request of R170. -/
theorem test_query_unit_frame : requestFrame 1 0x00 [] = [0xC5, 0x01, 0x00, 0x00, 0xFB, 0xAC] := by
  decide +kernel
theorem test_crc8_poll : crc8 [0x05] = 0x1B#8 ∧ commandFrame 4 .poll = [0x05, 0x03, 0x48] := by decide +kernel

/-! ### Commands of the sensors and the encoder -/

/-- Table 1-14, pitch 5001: the decision ADMIT and a jar make entry 120 in pocket 5. -/
theorem test_pitch_admits :
    got (fun s => (s.track.entries.map (fun e => (e.jar, e.position, e.pocket)), s.track.nextJar, s.track.pitchCount))
      (exec (.forwardPitch (pitchOf true false 0) [])
        { inRun with track := { inRun.track with pocket := 3, nextJar := 120, pitchCount := 5000 } })
      = some ([(120, 0, 4)], 121, 5001) := by decide +kernel

/-- Table 2-5: with a gap waiting, the pitch spends it and admits nothing; no gap is spent on head 9. -/
theorem test_pitch_gap :
    got (fun s => (s.track.entries, s.gate.gapCount, s.gate.decision, s.track.pocket.number))
      (exec (.forwardPitch (pitchOf false false 0) [])
        { inRun with
          gate := { inRun.gate with decision := .gap, gateOut := false, gapCount := 1 }
          track := { inRun.track with pocket := 6 }
          heads := inRun.heads.set 8 (resetHead (.markedOut .host)) })
      = some ([], 0, .closed, 8) := by decide +kernel

/-- R8: a reverse pitch in IDLE with an empty Track lowers the pocket counter, wrapping from 1 to 18. -/
theorem test_reverse_wraps :
    got (fun s => (s.track.pocket.number, s.run.state)) (exec .reversePitch State.reset) = some (18, .idle) := by
  decide +kernel
theorem test_reverse_faults :
    got (fun s => (s.run.state, s.run.lstop, setBits s.run.causes)) (exec .reversePitch inRun)
      = some (.fault, true, 2) := by decide +kernel

/-- Table 1-15: INDEX with the counter at 3 gives INTERRUPTED to 303 and 304 only, and their heads an ABORT. -/
theorem test_index_slip :
    got (fun s => (s.track.entries.map (fun e => (e.jar, e.position, e.capClass)),
        s.link.lines[(2 : Head)].slot, s.link.lines[(3 : Head)].slot, frozen s))
      (exec .indexPulse
        { withJars [goodAt 301 96 0, cappedAt 302 40 1, jarAt 303 11 2, jarAt 304 4 3] inRun with
          track := { (withJars [goodAt 301 96 0, cappedAt 302 40 1, jarAt 303 11 2, jarAt 304 4 3] inRun).track with
            pocket := 2 } })
      = some ([(301, 96, some .cappedOk), (302, 40, some .cappedOk), (303, 11, some .interrupted),
          (304, 4, some .interrupted)], .abort, .abort, true) := by decide +kernel

/-- Table 9-2: a pulse takes the oldest confirm entry, and the last pulse is a stray one. -/
theorem test_confirm :
    got (fun s => s.reject.confirms)
      (exec .rejConf { inRun with reject := { inRun.reject with confirms := [⟨6601, 9005⟩, ⟨6603, 9007⟩] } })
      = some [⟨6603, 9007⟩] := by decide +kernel
theorem test_confirm_stray :
    got (fun s => s.alerts.latch[alertIx .strayReject]) (exec .rejConf inRun) = some true := by decide +kernel

/-- Table 2-5: CAP_LOW asserted and released. -/
theorem test_cap_low :
    got (fun s => (s.run.state, s.gate.decision, s.gate.gateOut)) (exec .capLowAsserted inRun)
      = some (.hold, .closed, false) := by decide +kernel
theorem test_cap_low_released :
    got (fun s => (s.run.state, s.gate.decision))
      (exec .capLowReleased (inState .hold { inRun with run := { inRun.run with hold := inRun.run.hold.set 2 true } }))
      = some (.run, .admitJar) := by decide +kernel

/-- Table 7-4: LIFT_FLT in CHANGE fails the lift where it stands, and FAULT is entered. -/
theorem test_lift_flt :
    got (fun s => (s.lift.state, s.lift.position, s.lift.stepCount, s.run.state, s.run.phase))
      (exec .liftFltAsserted
        { inState .change { inRun with run := { inRun.run with phase := .lift } } with
          lift := { State.reset.lift with state := .seeking, position := 4800, known := true, stepCount := 600
                                          target := some 5100 } })
      = some (.failed, 4800, 600, .fault, .none) := by decide +kernel

/-! ### Reset, start-up and the line -/

/-- POWER_ON and STARTUP give the state after reset, but for the count of resets kept for the trace slots. -/
theorem test_power_up :
    got (fun s => decide ({ s with traces := { s.traces with epoch := 0 } } = State.reset))
      (runCommands [.powerOn, .startup ⟨false, false, noLift⟩] State.reset) = some true := by decide +kernel

/-- Section 11.7: the reset 20 ms into a commit leaves the factory values. -/
theorem test_commit_cut :
    got (fun s => (s.params.failLimit, s.resetCause, s.storeDefaulted))
      (runCommands [.setLineParameters [1, 7, 208, 3, 12, 0, 40, 2, 88, 1, 244, 20, 0, 150, 4], .lineReplySent,
        .commitSettings [], .resetInput, .startup ⟨false, false, noLift⟩] State.reset)
      = some (5, .resetInput, true) := by decide +kernel
theorem test_commit_kept :
    got (fun s => (s.params.failLimit, s.storeDefaulted))
      (runCommands [.setLineParameters [1, 7, 208, 3, 12, 0, 40, 2, 88, 1, 244, 20, 0, 150, 4], .lineReplySent,
        .commitSettings [], .commitWriteEnd, .resetInput, .startup ⟨false, false, noLift⟩] State.reset)
      = some (3, false) := by decide +kernel

/-- R156: a frame with a bad CRC is discarded, and a good one restarts the link timer. -/
theorem test_frame_bad :
    got (fun s => (s.port.rxBuf, s.port.timer.expiresAt))
      (exec (.frameIgnored [0xC5, 0x01, 0x00, 0x00, 0xFB, 0xAD]) { State.reset with timeBase := 500 })
      = some ([], 2000) := by decide +kernel
theorem test_frame_good :
    got (fun s => (s.port.rxBuf, s.port.timer.expiresAt))
      (exec (.frameIgnored [0xC5, 0x01, 0x00, 0x00, 0xFB, 0xAC]) { State.reset with timeBase := 500 })
      = some ([], 2500) := by decide +kernel
theorem test_frame_gap :
    got (fun s => s.port.rxBuf) (runCommands [.frameIgnored [0xC5, 0x01], .frameGapTimeout] State.reset)
      = some [] := by decide +kernel
theorem test_unknown : reply (exec (.unknown 0x7F [1, 2]) State.reset) = some (.unknown, []) := by decide +kernel

/-- Table 11-6: at 52,000 the timeout runs out, and at 53,410 a good frame ends the silence. -/
theorem test_link_timeout :
    got (fun s => (s.port.timer.state, setBits s.run.hold, s.run.state))
      (exec .linkTimeout { inRun with timeBase := 52000, port := { inRun.port with timer := ⟨.running, 52000⟩ } })
      = some (.expired, 2, .hold) := by decide +kernel
theorem test_link_back :
    got (fun s => (s.port.timer, setBits s.run.hold, s.run.state))
      (exec (.readStatus [] noLift)
        (inState .hold { inRun with
          timeBase := 53410, port := { inRun.port with timer := ⟨.expired, 52000⟩ }
          run := { inRun.run with hold := inRun.run.hold.set 1 true } }))
      = some (⟨.running, 55410⟩, 0, .run) := by decide +kernel

theorem test_tick_wraps :
    got (·.timeBase) (exec .millisecondTick { State.reset with timeBase := 0xFFFFFFFF }) = some 0 := by
  decide +kernel
/-- R157: the reply of DISCARD STAGED, its CRC taken by hand from the generator of R170. -/
theorem test_reply_sent :
    got (fun s => (s.port.lpTxd.take 5, s.port.lpDe, s.port.reply))
      (runCommands [.discardStaged [], .lineReplySent] State.reset)
      = some ([0xC5, 0x01, 0xA1, 0x00, 0x00], false, none) := by decide +kernel

/-- R156: LP_DE is asserted for the sending of a reply, and a frame that comes meanwhile is discarded. -/
theorem test_sending :
    got (fun s => (s.port.lpDe, s.port.timer.expiresAt, s.port.reply.map (·.code)))
      (runCommands [.queryUnit [], .millisecondTick, .discardStaged []] State.reset)
      = some (true, 2000, some 0x00) := by decide +kernel
/-- R158: until the reply of SET LINE PARAMETERS has gone, frames are judged by the old address. -/
theorem test_new_address :
    got (fun s => s.port.timer.expiresAt)
      (runCommands [.setLineParameters [2, 7, 208, 5, 12, 0, 40, 2, 88, 1, 244, 20, 0, 150, 4], .millisecondTick,
        .lineReplySent, .frameIgnored [0xC5, 0x01, 0x00, 0x00, 0xFB, 0xAC]] State.reset) = some 2000
      ∧ judgedAddress ({ State.reset with
          params := { factoryParams with unitAddress := 2 }
          port := { State.reset.port with reply := some ⟨1, 0x25, .done, []⟩ } }) = 1 := by decide +kernel

/-! ### Queries -/

/-- Table 12-4: the product code 0418h, 240, the strap and the address (R159). -/
theorem test_query_unit :
    (reply (exec (.queryUnit []) State.reset)).map (fun r => (r.1, r.2.take 2, r.2.drop 3))
      = some (.done, [0x04, 0x18], [240, 0, 1]) := by decide +kernel
/-- Table 12-7: reset cause 1, a defaulted store, and the lift inputs as they stand (R117). -/
theorem test_read_status :
    (reply (exec (.readStatus [] ⟨true, false⟩) State.reset)).map
        (fun r => (r.2.length, r.2.take 2, field r.2 60 1, field r.2 61 2, field r.2 43 2))
      = some (88, [1, 1], 8, 0, 0xFFFF) := by decide +kernel
/-- Table 11-3 and Table 11-4: the factory settings as READ SETTINGS carries them. -/
theorem test_read_settings :
    reply (exec (.readSettings []) State.reset)
      = some (.done, [1, 7, 208, 5, 12, 0, 40, 2, 88, 1, 244, 20, 0, 150, 4, 2, 10, 13, 93, 101, 0x1F, 0xFF,
          8, 0, 1]) := by decide +kernel
theorem test_read_counts :
    (reply (exec (.readCounts []) { State.reset with classCounts := State.reset.classCounts.set 12 7 })).map
        (fun r => (r.2.length, field r.2 48 4)) = some (69, 7) := by decide +kernel
theorem test_read_head :
    (reply (exec (.readHead [9]) { State.reset with heads := State.reset.heads.set 8 (resetHead (.markedOut .host)) })).map
        (fun r => (r.2.length, r.2.take 2, r.2.drop 36)) = some (38, [1, 1], [0, 17]) := by decide +kernel
theorem test_read_head_19 : reply (exec (.readHead [19]) State.reset) = some (.badValue, []) := by decide +kernel
theorem test_read_recipe_empty : reply (exec (.readRecipe [2]) State.reset) = some (.done, [2]) := by decide +kernel
/-- Table 9-1, classes 2 and 13 (the table's second and last rows). -/
theorem test_read_disposition :
    (reply (exec (.readDisposition []) State.reset)).map (fun r => ((r.2.drop 3).take 3, r.2.drop 36))
      = some ([1, 2, 1], [0, 0, 0]) := by decide +kernel

/-! ### Setup -/

/-- Section 9.7: PASS for NO_CAP is stored as REJECT, and the last entry of a class stands. -/
theorem test_set_disposition :
    got (fun s => (s.port.reply.map (·.result), s.dispTable[(0 : Fin 13)], s.dispTable[(11 : Fin 13)]))
      (exec (.setDisposition [3, 12, 1, 2, 0, 1, 0, 2, 1, 12, 1, 2, 1]) State.reset)
      = some (some .doneClamped, ⟨.reject, .trace, true⟩, ⟨.reject, .trace, true⟩) := by decide +kernel
/-- Table 1-9: the short geometry of section 1.9 stands, and e = 1 breaks relation 2. -/
theorem test_set_geometry :
    got (·.track.geometry) (exec (.setGeometry [1, 3, 5, 7, 9]) State.reset) = some ⟨1, 3, 5, 7, 9⟩ := by
  decide +kernel
theorem test_set_geometry_relation :
    reply (exec (.setGeometry [1, 1, 5, 7, 9]) State.reset) = some (.badValue, [2]) := by decide +kernel
/-- R65: seven heads marked out leave 11 in service, below M = 12. -/
theorem test_set_head_service :
    got (fun s => (inServiceCount s.heads, s.run.hold[holdIx .fewHeads]))
      (exec (.setHeadService [7, 1, 1, 2, 1, 3, 1, 4, 1, 5, 1, 6, 1, 7, 1]) State.reset) = some (11, true) := by
  decide +kernel
/-- R161: a link timeout of 50 is moved to 100. -/
theorem test_line_parameters :
    got (fun s => (s.params.linkTimeout, s.port.timer.expiresAt, s.port.reply.map (·.result)))
      (exec (.setLineParameters [1, 0, 50, 3, 12, 0, 40, 2, 88, 1, 244, 20, 0, 150, 4]) State.reset)
      = some (100, 100, some .doneClamped) := by decide +kernel
theorem test_alert_mask :
    got (fun s => (setBits s.alerts.mask, s.alerts.pin)) (exec (.setAlertMask [0x0F, 0xFF]) State.reset)
      = some (0x0FFF, false) := by decide +kernel
theorem test_ack_alerts :
    got (fun s => (setBits s.alerts.latch, s.alerts.pin)) (exec (.ackAlerts [0x10, 0]) State.reset)
      = some (0, false) := by decide +kernel
theorem test_zero_reference :
    got (·.check.z0) (exec (.setZeroReference []) { State.reset with check := { State.reset.check with z := 2049 } })
      = some 2049 := by decide +kernel
theorem test_trace_mode : got (·.traces.modeAll) (exec (.setTraceMode [0]) State.reset) = some false := by
  decide +kernel
theorem test_clear_stats :
    got (fun s => (s.heads[(4 : Head)].stats.stale, s.heads[(5 : Head)].stats.stale))
      (exec (.clearHeadStats [5])
        { State.reset with heads := State.reset.heads.map (fun h => { h with stats := { h.stats with stale := 2 } }) })
      = some (0, 2) := by decide +kernel

/-! ### Runs, recipes and changeovers -/

/-- R46: the attempts limit 9 is clamped to 4; torque lo above the setpoint is relation 1. -/
theorem test_stage_recipe :
    got (fun s => (s.recipes.staged.map (·.attemptsLimit), s.port.reply.map (·.result)))
      (exec (.stageRecipe (recipeBytes { recipe370 with attemptsLimit := 9 })) State.reset)
      = some (some 4, some .doneClamped) := by decide +kernel
theorem test_stage_relation :
    reply (exec (.stageRecipe (recipeBytes { recipe370 with torqueLo := 261 })) State.reset)
      = some (.badValue, [1]) := by decide +kernel
theorem test_discard :
    got (·.recipes.staged) (exec (.discardStaged []) { State.reset with recipes := { State.reset.recipes with staged := some recipe370 } })
      = some none := by decide +kernel

/-- Table 7-3: START RUN with an UNKNOWN lift starts a home, and STAGED is promoted. -/
theorem test_start_run :
    got (fun s => (s.run.state, s.lift.state, s.run.batchSize, s.recipes.active.map (·.id)))
      (exec (.startRun [0, 1, 0, 0, 19, 136] noLift)
        { State.reset with
          track := { State.reset.track with synced := true }
          recipes := { State.reset.recipes with staged := some recipe370 } })
      = some (.prepare, .homing, 5000, some 370) := by decide +kernel
theorem test_start_unsynced :
    reply (exec (.startRun [0, 1, 0, 0, 19, 136] noLift) State.reset) = some (.wrongState, []) := by decide +kernel
theorem test_stop_run :
    got (fun s => (s.run.state, s.run.batchEnded)) (exec (.stopRun .unit []) (withJars [jarAt 1 3 0] inRun))
      = some (.drain, true) := by decide +kernel
theorem test_hold :
    got (fun s => (s.run.state, s.port.reply)) (exec (.hold .broadcast []) inRun) = some (.hold, none) := by
  decide +kernel
theorem test_resume :
    got (fun s => (s.run.state, setBits s.run.hold))
      (exec (.resume .unit []) (inState .hold { inRun with run := { inRun.run with hold := inRun.run.hold.set 0 true } }))
      = some (.run, 0) := by decide +kernel
/-- Table 2-5: the count of 2 makes the decision GAP at once. -/
theorem test_insert_gaps :
    got (fun s => (s.gate.gapCount, s.gate.decision)) (exec (.insertGaps [2]) inRun) = some (2, .gap) := by
  decide +kernel
theorem test_insert_gaps_19 :
    got (fun s => (s.gate.gapCount, s.port.reply.map (·.result))) (exec (.insertGaps [19]) inRun)
      = some (18, some .doneClamped) := by decide +kernel
/-- Table 3-3: equal lift heights make a mode NOW request FLYING, at AT_ADMISSION. -/
theorem test_changeover :
    got (fun s => s.run.request.map (fun r => (r.kind, r.stage)))
      (exec (.requestChangeover [1, 0, 2, 0, 0, 0, 0] noLift)
        { inRun with recipes := { inRun.recipes with staged := some { recipe410 with liftHeight := 4200 } } })
      = some (some (.flying, .atAdmission)) := by decide +kernel
theorem test_cancel :
    got (·.run.request)
      (exec (.cancelChangeover []) { inRun with run := { inRun.run with request := some ⟨.now, .flying, 2, 0, .atAdmission⟩ } })
      = some none := by decide +kernel
/-- Table 1-14, pitch 5006: the swap is made inside the admission, and three entries go to RETIRING. -/
theorem test_flying_swap :
    got (fun s => (s.track.activeCount, s.track.retiringCount, s.recipes.active.map (·.id), s.track.entries.map (·.bank)))
      (exec (.forwardPitch (pitchOf true false 0) [])
        { withJars [jarAt 120 4 4, jarAt 121 3 5, jarAt 122 1 7] inRun with
          run := { inRun.run with request := some ⟨.now, .flying, 2, 0, .atAdmission⟩ }
          recipes := { inRun.recipes with staged := some { recipe410 with liftHeight := 4200 } } })
      = some (1, 3, some 410, [.retiring, .retiring, .retiring, .active]) := by decide +kernel
/-- Table 1-15: CLEAR FAULT purges the four entries, oldest first; 302 keeps no final class. -/
theorem test_clear_fault :
    got (fun s => (s.run.state, s.track.entries.length, s.records.queue.map (fun r => (r.jar, r.finalClass))))
      (exec (.clearFault [] noLift)
        (inFault .encoderSlip (withJars [goodAt 301 96 0, cappedAt 302 40 1] inRun)))
      = some (.idle, 0, [(301, some .good), (302, none)]) := by decide +kernel
theorem test_clear_fault_busy :
    reply (exec (.clearFault [] ⟨false, true⟩) (inFault .strayJar inRun)) = some (.busy, []) := by decide +kernel
theorem test_drain_end :
    got (fun s => (s.run.state, s.gate.gapCount))
      (exec .drainEnd { inState .drain inRun with gate := { inRun.gate with gapCount := 3 } }) = some (.idle, 0) := by
  decide +kernel
theorem test_batch_end :
    got (fun s => (s.run.state, s.run.batchEnded))
      (exec (.batchEnd noLift) { withJars [jarAt 1 3 0] inRun with run := { inRun.run with batchSize := 5, admitted := 5 } })
      = some (.drain, true) := by decide +kernel
theorem test_retiring_emptied :
    got (·.recipes.retiring) (exec (.retiringEmptied noLift) { inRun with recipes := { inRun.recipes with retiring := some recipe410 } })
      = some none := by decide +kernel
/-- Section 3.9: with the turret empty the lift seeks the STAGED height. -/
theorem test_wait_turret :
    got (fun s => (s.run.phase, s.lift.state, s.lift.target))
      (exec (.waitTurretEnd noLift)
        (liftAt 4200 { inState .change (withJars [cappedAt 1 40 0] inRun) with
          run := { inRun.run with state := .change, phase := .waitTurret
                                  request := some ⟨.now, .drained, 2, 0, .inChange⟩ }
          recipes := { inRun.recipes with staged := some recipe410 } }))
      = some (.lift, .seeking, some 5100) := by decide +kernel

/-! ### Heads and the head link -/

/-- The turn of head 5 with APPLY(18, 1) in its slot (Table 5-4, turn 1). -/
def turnOf (c : Slot) : State :=
  { withJars [jarAt 5210 4 4] inRun with
    link := { inRun.link with
      pointer := 4
      lines := inRun.link.lines.set 4 { resetHeadLine with slot := c, tag := 18, applyConfirmed := true } } }

/-- Head 5 in an exchange that sent `c`, its jar 5210 bound at stage APPLIED under tag 18. -/
def exchangeOf (c : HeadCommand) : State :=
  { turnOf .empty with
    link := { (turnOf .empty).link with exchange := some ⟨4, c, 500⟩ }
    capping := inRun.capping.set 4 ⟨some 5210, .applied, none⟩ }

/-- The DONE of cycle 18 of head 5, attempt 1. -/
def doneOf5 (o : CycleOutcome) : Report := .done ⟨18, 1, o, 265, 1820, true, 4, 27⟩

theorem test_exchange_start :
    got (fun s => (s.link.hlTxd.take 3, s.link.lines[(4 : Head)].slot, s.heads[(4 : Head)].stats.applySent))
      (exec .exchangeStart (turnOf (.apply ⟨18, 1, 260, 2400, 120⟩))) = some ([5, 1, 18], .empty, 1) := by
  decide +kernel
/-- R82: a head outside the scan set is passed over at once, and the exchange is made with the next. -/
theorem test_exchange_skip :
    got (fun s => (s.link.pointer, s.link.exchange.map (·.head)))
      (exec .exchangeStart { inRun with heads := inRun.heads.set 0 (resetHead (.markedOut .link)) })
      = some (1, some 1) := by decide +kernel
/-- Table 5-4, turn 4: CROSS_THREAD below e places the reapply under the next tag. -/
theorem test_reply_reapply :
    got (fun s => (s.link.lines[(4 : Head)].slot, s.heads[(4 : Head)].stats.crossThread, s.link.pointer))
      (exec (.replyReceived (reportFrame 4 (doneOf5 .crossThread)))
        { exchangeOf .poll with track := { (exchangeOf .poll).track with entries := [{ jarAt 5210 5 4 with attempts := 1 }] } })
      = some (.apply ⟨19, 2, 260, 2400, 120⟩, 1, 5) := by decide +kernel
/-- Table 5-4, turn 9: SEATED is the final result, and the CURVE is placed. The seal time is 40 ms back. -/
theorem test_reply_seated :
    got (fun s => (s.track.entries.map (·.sealTime), s.capping[(4 : Head)].stage, s.link.lines[(4 : Head)].slot))
      (exec (.replyReceived (reportFrame 4 (doneOf5 .seated))) { exchangeOf .poll with timeBase := 1000 })
      = some ([some 960], .result, .curve) := by decide +kernel
/-- Table 5-4, turn 8: a bad CRC-8 fails the exchange. -/
theorem test_reply_bad_crc :
    got (fun s => (s.heads[(4 : Head)].noReplies, s.heads[(4 : Head)].stats.noReply))
      (exec (.replyReceived [5, 1, 0, 0]) (exchangeOf .poll)) = some (1, 1) := by decide +kernel
theorem test_window_expiry :
    got (fun s => s.link.lines[(4 : Head)].unconfirmed)
      (exec .replyWindowExpiry (exchangeOf (.apply ⟨18, 1, 260, 2400, 120⟩)))
      = some (some ⟨18, 1, 260, 2400, 120⟩) := by decide +kernel
theorem test_gap_third :
    got (fun s => (s.heads[(4 : Head)].service, s.alerts.latch[alertIx .headMarked]))
      (exec .replyGapTimeout
        { exchangeOf .poll with heads := inRun.heads.set 4 { resetHead .inService with noReplies := 2 } })
      = some (.markedOut .link, true) := by decide +kernel
/-- Table 4-5: the fifth failure in a row marks head 7 out. -/
theorem test_auto_mark_out :
    got (fun s => s.heads[(6 : Head)].service)
      (exec (.autoMarkOut 6)
        { inRun with heads := inRun.heads.set 6 { resetHead .inService with failures := 5, riseOpen := true } })
      = some (.markedOut .failures) := by decide +kernel
/-- R75: a head at or above a lowered F stays in service until its next failing class. -/
theorem test_lowered_limit :
    let s := { inRun with heads := inRun.heads.set 6 { resetHead .inService with failures := 5 } }
    got (fun s => s.heads[(6 : Head)].service) (exec (.autoMarkOut 6) s) = some .inService
      ∧ (headTakesClass 6 .dud s).heads[(6 : Head)].service = .markedOut .failures := by decide +kernel
theorem test_link_mark_out :
    got (fun s => s.heads[(6 : Head)].service)
      (exec (.linkMarkOut 6)
        { inRun with heads := inRun.heads.set 6 { resetHead .inService with noReplies := 3, silenceOpen := true } })
      = some (.markedOut .link) := by decide +kernel
/-- Section 5.7: a LINK head given reason HOST stays HOST until its first failed exchange. -/
theorem test_link_to_host :
    got (fun s => s.heads[(6 : Head)].service)
      (exec (.linkMarkOut 6)
        { inRun with heads := inRun.heads.set 6 { resetHead (.markedOut .host) with noReplies := 3 } })
      = some (.markedOut .host) := by decide +kernel

/-! ### The lift -/

/-- R111, steps 1 and 2: the first reading is inactive, and the first step is made at once. -/
theorem test_home_lift :
    got (fun s => (s.lift.state, s.lift.requester, s.lift.period, s.lift.stepCount))
      (exec (.homeLift [] noLift) State.reset) = some (.homing, some .host, 20, 1) := by decide +kernel
/-- R113: a HOME LIFT in IDLE with LIFT_FLT asserted latches LIFT_FAILED. -/
theorem test_home_lift_flt :
    got (fun s => (s.lift.state, s.lift.stepCount, s.alerts.latch[alertIx .liftFailed]))
      (exec (.homeLift [] ⟨false, true⟩) State.reset) = some (.failed, 0, true) := by decide +kernel
/-- Table 7-3: LIFT_HOME found after 3800 steps, the settle, and the seek to 4200. -/
def homing (steps : Nat) (r : Requester) : State :=
  { inState .prepare inRun with
    timeBase := 7600
    lift := { resetLift with state := .homing, stepCount := steps, requester := some r, settleTime := 150 } }
theorem test_home_found :
    got (fun s => (s.lift.known, s.lift.settling, s.lift.stepCount)) (exec (.homeStep true) (homing 3800 .run))
      = some (true, true, 3800) := by decide +kernel
theorem test_home_settles :
    got (fun s => (s.lift.state, s.lift.target, s.run.state))
      (exec .settleEnd { homing 3800 .run with
        timeBase := 7750
        lift := { (homing 3800 .run).lift with known := true, settling := true, settleSince := 7600 } })
      = some (.seeking, some 4200, .prepare) := by decide +kernel
theorem test_home_fails :
    got (fun s => (s.lift.state, setBits s.run.causes)) (exec .homeFailure (homing 16000 .run))
      = some (.failed, 64) := by decide +kernel
theorem test_home_fails_at_step :
    got (fun s => (s.lift.state, s.lift.stepCount)) (exec (.homeStep false) (homing 15999 .run))
      = some (.homing, 16000) := by decide +kernel
theorem test_seek_step :
    got (fun s => (s.lift.position, s.lift.settling))
      (exec .seekStep { inRun with lift := { resetLift with state := .seeking, position := 4199, target := some 4200 } })
      = some (4200, true) := by decide +kernel

/-! ### Capping and the check -/

/-- Table 6-3, jars 7102, 7104, 7105 and 7110. -/
theorem test_seated_classes :
    (seatedClass recipe370 334 1790 true, seatedClass recipe370 250 2140 true, seatedClass recipe370 262 1760 false,
      seatedClass recipe370 320 2100 true) = (.overTorque, .angleOut, .steamLow, .cappedOk) := by decide
/-- Table 6-3, jars 7103, 7107, 7108 and 7109. -/
theorem test_settled_classes :
    (settledClass true recipe370 { jarAt 1 13 0 with lastOutcome := some .overAngle },
      settledClass true recipe370 { jarAt 1 13 0 with lastOutcome := some .aborted },
      settledClass false recipe370 (jarAt 1 13 0),
      settledClass true recipe370 { jarAt 1 13 0 with lastOutcome := some .crossThread })
      = (.underTorque, .interrupted, .headFault, .crossThread) := by decide
/-- The table of R121. -/
theorem test_deflection :
    (deflection 2710 2048 96, deflection 2001 2048 96, deflection 2046 2048 20, deflection 4095 2048 96,
      deflection 120 2048 96) = (993, -70, 0, 2000, -2000) := by decide
/-- The values of R122. -/
theorem test_fill_temp :
    (fillTempOf 15, fillTempOf 16, fillTempOf 2666, fillTempOf 4078, fillTempOf 4079)
      = (none, some 4, some 781, some 1194, none) := by decide
/-- The table of R123. -/
theorem test_temp_factor :
    (tempFactor (some 781) 200 850, tempFactor (some 905) 200 850, tempFactor (some 190) 200 850,
      tempFactor none 200 850) = (228, 256, 0, 256) := by decide
/-- Table 8-5 and case A of Table 8-6. -/
theorem test_required :
    (coolingFactor 41300 60000, requiredDeflection 1400 228 176, dudThreshold 857 60, coolingFactor 65535 60000,
      requiredDeflection 1400 228 256, dudThreshold 1246 60) = (176, 857, 514, 256, 1246, 747) := by decide
/-- Table 8-5: the check of jar 5040. -/
theorem test_check_good :
    got (fun s => s.track.entries.map (fun e => (e.dReq, e.finalClass, e.action)))
      (exec (.forwardPitch (pitchOf false true 2710) [])
        { withJars [cappedAt 5040 92 0] inRun with timeBase := 41300 })
      = some [(some 857, some .good, some .pass)] := by decide +kernel
/-- Table 8-6, cases A and C. -/
theorem test_check_limits :
    (vacuumClass 993 300 false 747 1246, vacuumClass (-387) 300 false 514 857, vacuumClass (-70) 300 false 514 857,
      vacuumClass 993 300 true 514 857) = (.lowVacuum, .bulge, .dud, .unverified) := by decide
/-- The table of R131. -/
theorem test_zero :
    ((emptyArrival 2061 State.reset).check.z, (emptyArrival 2043 State.reset).check.z,
      (emptyArrival 2088 State.reset).check.z, (emptyArrival 2100 State.reset).check.z,
      (emptyArrival 2100 State.reset).check.disturbances) = (2049, 2048, 2053, 2048, 1) := by decide +kernel
/-- Table 8-7, pitch 3: 601 is above S = 600. -/
theorem test_zero_stale :
    got (fun s => (s.check.staleGiven, s.alerts.latch[alertIx .zeroStale]))
      (exec .zeroStale { inRun with check := { inRun.check with sinceZero := 601, testOpen := true } })
      = some (true, true) := by decide +kernel

/-! ### The gate, records and capture -/

/-- Table 9-2, pitch 9007: the deadline of 6603 is taken first, and 6606 is still rejected. -/
theorem test_reject :
    got (fun s => (s.reject.confirms, s.run.state, s.reject.rejOut))
      (exec (.forwardPitch (pitchOf false false 2048) [])
        { withJars [dudAt 6606 100 0] inRun with
          track := { (withJars [dudAt 6606 100 0] inRun).track with pitchCount := 9006 }
          reject := { inRun.reject with confirms := [⟨6603, 9007⟩, ⟨6605, 9009⟩] } })
      = some ([⟨6605, 9009⟩, ⟨6606, 9011⟩], .fault, true) := by decide +kernel
theorem test_confirm_deadline :
    got (fun s => (s.reject.confirms, setBits s.run.causes))
      (exec .confirmDeadline { inRun with reject := { inRun.reject with confirms := [⟨6603, 0⟩, ⟨6605, 2⟩] } })
      = some ([⟨6605, 2⟩], 16) := by decide +kernel
theorem test_pulse_end :
    got (·.reject.rejOut)
      (exec .rejOutPulseEnd { inRun with timeBase := 140, reject := { inRun.reject with rejOut := true, since := 100 } })
      = some false := by decide +kernel
/-- A count of 9 is clamped to 5 (section 10.4). -/
theorem test_fetch_records :
    (reply (exec (.fetchRecords [9])
      { State.reset with records := ⟨List.replicate 7 (recordOf false .passed (goodAt 1 101 0)), 0⟩ })).map
        (fun r => (r.1, r.2.length, r.2.take 5, r.2.drop 221)) = some (.doneClamped, 223, [5, 0, 0, 0, 1], [0, 2]) := by
  decide +kernel
theorem test_arm_capture :
    got (·.capture) (exec (.armCapture [11, 2]) State.reset) = some ⟨.armed, 11, 2, 0⟩ := by decide +kernel
theorem test_release_capture :
    got (·.capture.state) (exec (.releaseCapture []) { State.reset with capture := ⟨.frozen, 11, 2, 0⟩ }) = some .off := by
  decide +kernel
/-- Table 10-1: the second segment after the trigger freezes the unit. -/
theorem test_capture_frozen :
    got (fun s => (s.capture.state, s.alerts.latch[alertIx .captureFrozen]))
      (exec .captureFrozen { inRun with capture := ⟨.triggered, 11, 2, 0⟩ }) = some (.frozen, true) := by
  decide +kernel
theorem test_capture_triggers : (captureSees .dud { inRun with capture := ⟨.armed, 11, 2, 0⟩ }).capture = ⟨.triggered, 11, 2, 2⟩ := by
  decide +kernel
/-- Section 10.4: the reference 32,700 lies 8320 samples back and is gone; 39,340 is intact. -/
theorem test_read_trace :
    reply (exec (.readTrace [0, 0, 0x7F, 0xBC, 20]) { State.reset with traces := { State.reset.traces with writeCount := 41020 } })
      = some (.gone, [])
      ∧ intact { State.reset.traces with writeCount := 41020 } 39340 20 = true := by decide +kernel

/-! ### States and operands that meet the hypotheses of each statement -/

/-- A jar about to come to k in each state of the sensor, and one about to come to j. -/
def toK : State := withJars [cappedAt 5040 92 0] inRun
def toJ : State := withJars [dudAt 6606 100 0] inRun
/-- CHANGE with the turret empty, recipe 410 staged, a READY lift. -/
def changing (pos : Nat) : State :=
  liftAt pos { inState .change (withJars [cappedAt 1 40 0] inRun) with
    run := { inRun.run with state := .change, phase := .waitTurret
                            request := some ⟨.now, .drained, 2, 0, .inChange⟩ }
    recipes := { inRun.recipes with staged := some recipe410 } }
def silent : State := { State.reset with port := { State.reset.port with timer := ⟨.expired, 0⟩ } }

theorem witness_StepTakesFrontCommand : State.reset.pending = [] := rfl
theorem witness_EveryCommandAnswersNext :
    (enterReset .powerOn State.reset).power = .inReset ∧ resets (.hold .unit []) = false := by decide +kernel
/-- An admitting pocket, a gap pocket and a frozen Track. -/
theorem witness_ForwardPitchCounts :
    inRun.power = .running ∧ GateAndBanks inRun ∧ frozen inRun = false ∧ inRun.gate.decision = .admitJar
      ∧ (pitchOf false false 0).jarIn = false
      ∧ (let s := { inRun with gate := { inRun.gate with decision := .gap, gateOut := false, gapCount := 1 } }
         GateAndBanks s ∧ s.gate.decision = .gap) := by
  unfold GateAndBanks DecisionStands BanksMatch; decide +kernel
theorem witness_FrozenTrackStands :
    (inFault .encoderSlip toK).power = .running ∧ (inFault .encoderSlip toK).run.state = .fault
      ∧ frozen (inFault .encoderSlip toK) = true := by decide +kernel
/-- A state with one confirm entry that reaches its deadline in `n` pitches. -/
def dueIn (n : Word32) (s : State) : State :=
  { s with reject := { s.reject with confirms := [⟨6603, s.track.pitchCount + n⟩] } }
/-- A deadline at the next pitch and one at the pitch after it, frozen and in RUN. -/
theorem witness_deadlines :
    (let s := inFault .encoderSlip toK
     (∃ c ∈ (dueIn 1 s).reject.confirms, c.deadline = (dueIn 1 s).track.pitchCount + 1)
       ∧ (∀ c ∈ (dueIn 2 s).reject.confirms, c.deadline ≠ (dueIn 2 s).track.pitchCount + 1)
       ∧ frozen (dueIn 1 s) = true)
    ∧ GateAndBanks (dueIn 1 inRun) ∧ LstopFollows (dueIn 1 inRun) ∧ frozen (dueIn 1 inRun) = false
    ∧ (∃ c ∈ (dueIn 1 inRun).reject.confirms, c.deadline = (dueIn 1 inRun).track.pitchCount + 1)
    ∧ GateAndBanks (dueIn 2 inRun) ∧ (dueIn 2 inRun).reject.confirms ≠ []
    ∧ (∀ c ∈ (dueIn 2 inRun).reject.confirms, c.deadline ≠ (dueIn 2 inRun).track.pitchCount + 1) := by
  unfold GateAndBanks DecisionStands BanksMatch LstopFollows; decide +kernel
/-- The entry of `toJ` comes to j, that of the second state to neither k nor j. -/
theorem witness_EntriesAdvanceByOne :
    toK.power = .running ∧ frozen toK = false ∧ GateAndBanks toK ∧ GateAndBanks (withJars [cappedAt 1 91 0] inRun)
      ∧ GeometryOk toK.track.geometry
      ∧ (∀ e ∈ (withJars [cappedAt 1 91 0] inRun).track.entries, e.position + 1 ≠ 93 ∧ e.position + 1 ≠ 101)
      ∧ ∀ s ∈ [dueIn 1 inRun, dueIn 2 inRun], GateAndBanks s ∧ GeometryOk s.track.geometry := by
  unfold GateAndBanks DecisionStands BanksMatch GeometryOk; decide +kernel
theorem witness_MarkedOutPocketStaysEmpty :
    let s := remakeDecision { inRun with heads := inRun.heads.set 1 (resetHead (.markedOut .host)) }
    s.power = .running ∧ GateAndBanks s ∧ s.heads[s.track.pocket + 1].service ≠ .inService := by
  unfold GateAndBanks DecisionStands BanksMatch; decide +kernel
theorem witness_AdmissionMakesEntry :
    inRun.power = .running ∧ frozen inRun = false ∧ GateAndBanks inRun ∧ GeometryOk inRun.track.geometry
      ∧ inRun.gate.decision = .admitJar ∧ (pitchOf true false 0).jarIn = true ∧ inRun.run.request = none
      ∧ inRun.recipes.active = some recipe370
      ∧ (let s := { withJars [jarAt 120 4 4] inRun with
           run := { inRun.run with request := some ⟨.now, .flying, 2, 0, .atAdmission⟩ }
           recipes := { inRun.recipes with staged := some recipe410 } }
         GateAndBanks s ∧ CountsMatch s ∧ frozen s = false ∧ s.gate.decision = .admitJar
           ∧ s.run.request = some ⟨.now, .flying, 2, 0, .atAdmission⟩
           ∧ s.recipes.staged = some recipe410 ∧ s.recipes.retiring = none ∧ s.track.retiringCount = 0) := by
  unfold GateAndBanks DecisionStands BanksMatch GeometryOk CountsMatch; decide +kernel
/-- A jar is admitted on the pitch whose deadline enters FAULT, in either order of the two acts; a pocket's jar and
its head's ABORT (R34). -/
theorem witness_AdmissionMakesEntry_fault :
    let s := dueIn 1 inRun
    frozen s = false ∧ GateAndBanks s ∧ GeometryOk s.track.geometry ∧ s.gate.decision = .admitJar
      ∧ JarsDistinct s ∧ PocketsFollow s
      ∧ ∀ order ∈ [[PitchAct.deadlines], [.infeed, .deadlines]],
        got (fun t => (t.run.state, t.track.entries.map (·.capClass), t.link.lines[(1 : Head)].slot))
          (exec (.forwardPitch (pitchOf true false 0) order) s) = some (.fault, [some .interrupted], .abort) := by
  unfold GateAndBanks DecisionStands BanksMatch GeometryOk JarsDistinct jarAge PocketsFollow; decide +kernel
/-- A request at AT_ADMISSION while RETIRING still holds a record: an open-ended batch, and sizes of which the next
jar is not the last and is (R54). -/
theorem witness_AdmissionMakesEntry_retiring :
    let s (size : Nat) := { withJars [{ jarAt 120 40 4 with bank := .retiring }] inRun with
      track := { (withJars [{ jarAt 120 40 4 with bank := .retiring }] inRun).track with
        activeCount := 0, retiringCount := 1 }
      run := { inRun.run with request := some ⟨.now, .flying, 2, 0, .atAdmission⟩, batchSize := size }
      recipes := { inRun.recipes with staged := some recipe410, retiring := some recipe370 } }
    (∀ size ∈ [0, 1, 2], frozen (s size) = false ∧ GateAndBanks (s size) ∧ GeometryOk (s size).track.geometry
        ∧ (s size).gate.decision = .admitJar ∧ (s size).recipes.retiring.isSome = true
        ∧ ∀ e ∈ (s size).track.entries, e.position + 1 ≠ 93 ∧ e.position + 1 ≠ 101)
      ∧ (s 0).run.batchSize = 0 ∧ (s 2).run.admitted + 1 < (s 2).run.batchSize
      ∧ ¬((s 1).run.batchSize = 0 ∨ (s 1).run.admitted + 1 < (s 1).run.batchSize)
      ∧ got (fun t => t.run.state) (exec (.forwardPitch (pitchOf true false 0) []) (s 2)) = some .run := by
  unfold GateAndBanks DecisionStands BanksMatch GeometryOk; decide +kernel
/-- A stray jar at the infeed in DRAIN, and one at k in RUN. -/
theorem witness_StrayJarFaults :
    (let s := inState .drain toK
     frozen s = false ∧ GateAndBanks s ∧ LstopFollows s ∧ tracking s.run.state = true
       ∧ s.gate.decision ≠ .admitJar ∧ (pitchOf true true 0).jarIn = true ∧ GeometryOk s.track.geometry)
    ∧ frozen inRun = false ∧ GateAndBanks inRun ∧ LstopFollows inRun ∧ tracking inRun.run.state = true
      ∧ (pitchOf false true 0).jarChk = true ∧ ∀ e ∈ inRun.track.entries, e.position + 1 ≠ 93 := by
  unfold GateAndBanks DecisionStands BanksMatch GeometryOk LstopFollows; decide +kernel
theorem witness_MissingJarDeparts :
    toK.power = .running ∧ frozen toK = false ∧ GateAndBanks toK ∧ LstopFollows toK
      ∧ GeometryOk toK.track.geometry ∧ tracking toK.run.state = true ∧ cappedAt 5040 92 0 ∈ toK.track.entries
      ∧ (cappedAt 5040 92 0).position + 1 = toK.track.geometry.k ∧ (pitchOf true false 0).jarChk = false := by
  unfold GateAndBanks DecisionStands BanksMatch GeometryOk LstopFollows; decide +kernel
/-- A jar with action REJECT and one with PASS come to j, the newest jar number of the Track. -/
theorem witness_RejectArrivalFires :
    toJ.power = .running ∧ frozen toJ = false ∧ GateAndBanks toJ ∧ GeometryOk toJ.track.geometry
      ∧ PositionsFall toJ ∧ dudAt 6606 100 0 ∈ toJ.track.entries
      ∧ (dudAt 6606 100 0).position + 1 = toJ.track.geometry.j ∧ (dudAt 6606 100 0).action = some .reject
      ∧ (goodAt 6606 100 0).action = some .pass := by
  unfold GateAndBanks DecisionStands BanksMatch GeometryOk PositionsFall; decide +kernel
theorem witness_RejectArrivalFires_distinct :
    let only (e : Entry) := { inRun with track := { inRun.track with entries := [e], activeCount := 1, nextJar := 6607 } }
    (JarsDistinct (only (dudAt 6606 100 0)) ∧ GateAndBanks (only (dudAt 6606 100 0)))
      ∧ JarsDistinct (only (goodAt 6606 100 0)) ∧ GateAndBanks (only (goodAt 6606 100 0))
      ∧ goodAt 6606 100 0 ∈ (only (goodAt 6606 100 0)).track.entries := by
  unfold JarsDistinct jarAge GateAndBanks DecisionStands BanksMatch; decide +kernel
/-- A departure into a queue of 511 and of 512 records, from ACTIVE, and the last one from RETIRING. -/
theorem witness_DepartureRecorded :
    (recordFor .rejected (departing .rejected (dudAt 6606 101 0))).isSome = true
      ∧ 512 ≤ (List.replicate 512 (recordOf false .passed (goodAt 1 101 0))).length
      ∧ ¬(512 ≤ (List.replicate 511 (recordOf false .passed (goodAt 1 101 0))).length)
      ∧ inRun.run.request = none ∧ (dudAt 6606 101 0).bank = .active
      ∧ ({ dudAt 6606 101 0 with bank := .retiring } : Entry).bank = .retiring := by decide +kernel
/-- The policies of R146, an entry that departs early with each capping class, and the counters at their ends; no
class counter rises for an early CAPPED_OK. -/
theorem witness_DepartureRecorded_cases :
    (goodAt 1 101 0).policy = some .none ∧ (dudAt 6606 101 0).policy = some .trace
      ∧ (recordFor .passed { goodAt 1 101 0 with policy := some .record, trace := some ⟨5, 6⟩ }).map (·.trace) = some none
      ∧ (recordFor .missing { goodAt 1 101 0 with trace := some ⟨5, 6⟩ }).map (·.trace) = some (some ⟨5, 6⟩)
      ∧ (cappedAt 1 3 0).finalClass = none ∧ (cappedAt 1 3 0).capClass = some .cappedOk ∧ (jarAt 1 3 0).capClass = none
      ∧ (depart .purged { jarAt 1 3 0 with capClass := some .interrupted } inRun).classCounts
          = inRun.classCounts.set (classIx .interrupted) 1
      ∧ (depart .missing (cappedAt 1 3 0) inRun).classCounts = inRun.classCounts
      ∧ (depart .missing (cappedAt 1 3 0) { inRun with reject := { inRun.reject with missing := 4294967295 } }).reject.missing
          = 4294967295 := by decide +kernel
theorem witness_ReversePitchLowersPocket :
    State.reset.power = .running ∧ LstopFollows State.reset ∧ State.reset.run.state = .idle
      ∧ State.reset.track.entries = [] ∧ LstopFollows inRun
      ∧ ¬(inRun.run.state = .idle ∧ inRun.track.entries = []) := by unfold LstopFollows; decide +kernel
/-- Pocket 1, pocket 18 in IDLE, and pocket 18 in RUN. -/
theorem witness_IndexSetsPocket :
    LstopFollows State.reset ∧ State.reset.track.pocket = 0
      ∧ (let s := { State.reset with track := { State.reset.track with pocket := 17 } }
         LstopFollows s ∧ s.track.pocket ≠ 0 ∧ s.run.state = .idle)
      ∧ (let s := { inRun with track := { inRun.track with pocket := 17 } }
         LstopFollows s ∧ s.track.pocket ≠ 0 ∧ s.run.state ≠ .idle) := by unfold LstopFollows; decide +kernel
theorem witness_ConfirmPulseTakesOldest :
    inRun.power = .running ∧ inRun.reject.confirms = []
      ∧ ({ inRun with reject := { inRun.reject with confirms := [⟨6606, 9011⟩] } }).reject.confirms = ⟨6606, 9011⟩ :: [] := by
  decide +kernel
theorem witness_ResetEndsOperations :
    State.reset.commit = none ∧ ({ State.reset with commit := some (withCrc factoryImage) }).commit.isSome = true := by
  decide +kernel
/-- A store that was never committed, and one with its CRC; a link timeout that runs and one that is off. -/
theorem witness_StartupLoadsSettings :
    (enterReset .resetInput State.reset).power = .inReset
      ∧ (enterReset .resetInput State.reset).store.crc ≠ imageCrc (enterReset .resetInput State.reset).store.image
      ∧ (let s := enterReset .resetInput { State.reset with store := withCrc factoryImage }
         s.store.crc = imageCrc s.store.image) ∧ factoryParams.linkTimeout ≠ 0 := by decide +kernel
theorem witness_CommittedSettingsSurviveReset :
    Ready inRun ∧ inRun.commit = none := by unfold Ready; decide +kernel
/-- A confirm entry, an entry of each stretch of the Track and the step FORWARD_PITCH. -/
def busyState : State :=
  { withJars [dudAt 6606 100 8, cappedAt 6607 40 14, jarAt 6608 1 17] inRun with
    track := { (withJars [dudAt 6606 100 8, cappedAt 6607 40 14, jarAt 6608 1 17] inRun).track with
      nextJar := 6609, pitchCount := 9000 }
    reject := { inRun.reject with confirms := [⟨6603, 9002⟩] }
    alerts := { inRun.alerts with pin := true }
    pending := [.forwardPitch (pitchOf true true 2710) []] }
theorem witness_OutputsFollowState :
    GateAndBanks busyState ∧ LstopFollows busyState ∧ GateOutFollows busyState ∧ AlertFollows busyState
      ∧ (got (fun _ => true) (step busyState)) = some true := by
  unfold GateAndBanks DecisionStands BanksMatch LstopFollows GateOutFollows AlertFollows; decide +kernel
theorem witness_RunControlKept :
    GateAndBanks busyState ∧ PhaseInChange busyState ∧ HoldMatches busyState ∧ FewHeadsMatches busyState := by
  unfold GateAndBanks DecisionStands BanksMatch PhaseInChange HoldMatches FewHeadsMatches; decide +kernel
theorem witness_TrackKept :
    GateAndBanks busyState ∧ PositionsFall busyState ∧ CountsMatch busyState ∧ GeometriesOk busyState
      ∧ StationsPassed busyState ∧ EmptyAtRest busyState ∧ PocketsFollow busyState
      ∧ EmptyAtRest State.reset ∧ State.reset.run.state = .idle ∧ PocketsFollow State.reset := by
  unfold GateAndBanks DecisionStands BanksMatch PositionsFall CountsMatch GeometriesOk GeometryOk StationsPassed
    EntryPassed EmptyAtRest PocketsFollow
  decide +kernel
theorem witness_JarNumbersKept :
    GateAndBanks busyState ∧ GeometriesOk busyState ∧ StationsPassed busyState ∧ JarsDistinct busyState := by
  unfold GateAndBanks DecisionStands BanksMatch GeometriesOk GeometryOk StationsPassed EntryPassed JarsDistinct jarAge
  decide +kernel
theorem busyState_params : AllParamsOk busyState := by
  have h : ParamsOk factoryParams := by unfold ParamsOk; decide
  exact ⟨h, nofun, h⟩
theorem witness_ConfirmListBounded :
    GateAndBanks busyState ∧ ∀ c ∈ busyState.reject.confirms,
      1 ≤ pitchesLeft busyState.track.pitchCount c ∧ pitchesLeft busyState.track.pitchCount c ≤ 8 := by
  unfold GateAndBanks DecisionStands BanksMatch; decide +kernel
theorem witness_ConfirmListBounded_spread : ∀ n ∈ List.range 9, 1 ≤ n →
    busyState.reject.confirms.countP (fun c => decide (n ≤ pitchesLeft busyState.track.pitchCount c)) ≤ 9 - n := by
  decide +kernel
theorem witness_FixedClassesAndBoundsKept :
    GateAndBanks busyState ∧ QueueBounded busyState ∧ RingCanonical busyState ∧ CountsInRange busyState
      ∧ TestsClosed busyState := by
  unfold GateAndBanks DecisionStands BanksMatch QueueBounded RingCanonical CountsInRange TestsClosed
  decide +kernel
theorem witness_FixedClassesAndBoundsKept_fixed : FixedClassesReject busyState := by
  have h1 : busyState.commit = none := rfl
  have h2 : FixedRejects factoryDispTable := by intro c h; cases c <;> first | rfl | cases h
  exact ⟨h2, (by rw [h1]; intro i h; cases h), h2⟩
theorem witness_FaultLeftOnlyByClearFault :
    let s := { inFault .strayJar toK with pending := [.clearFault [] noLift] }
    GateAndBanks s ∧ s.pending = [.clearFault [] noLift] ∧ s.run.state = .fault
      ∧ got (fun t => t.run.state) (step s) = some .drain := by
  unfold GateAndBanks DecisionStands BanksMatch; decide +kernel
/-- A timer that runs, one that has expired, a timeout of 0, and a timer due exactly now. -/
theorem witness_LinkTimerFollowsFrames :
    HoldMatches State.reset ∧ State.reset.params.linkTimeout ≠ 0 ∧ State.reset.port.timer.state ≠ .expired
      ∧ HoldMatches silent ∧ silent.port.timer.state = .expired
      ∧ ({ State.reset with params := { factoryParams with linkTimeout := 0 } }).params.linkTimeout = 0
      ∧ (let s := { State.reset with timeBase := 2000 }
         s.power = .running ∧ s.port.timer.state = .running
           ∧ (s.timeBase - s.port.timer.expiresAt).toNat < 2147483648)
      ∧ ¬((State.reset.timeBase - State.reset.port.timer.expiresAt).toNat < 2147483648) := by
  unfold HoldMatches; decide +kernel
/-- A frame of 240 bytes, at unit 1, at 0 and at unit 2. -/
theorem witness_IgnoredFramesOnlyRestartTimer :
    State.reset.power = .running ∧ sending State.reset = false
      ∧ sending { State.reset with port := { State.reset.port with reply := some ⟨1, 0, .done, []⟩, lpDe := true } } = true
      ∧ State.reset.port.rxBuf = [] ∧ leadByte ∉ [0x00, 0xC4]
      ∧ (List.replicate 240 (0 : Byte)).length ≤ 240
      ∧ beValue [0xFB, 0xAC] = (crc16 [0x01, 0x00, 0x00]).toNat
      ∧ ((1 : Byte).toNat = State.reset.params.unitAddress) ∧ ¬((2 : Byte).toNat = State.reset.params.unitAddress) := by
  decide +kernel
theorem witness_UnfitRequestsRefused :
    Ready State.reset ∧ (Instr.insertGaps []).message = some (0x36, []) ∧ toUnit (.insertGaps []) = true
      ∧ lengthFits (.insertGaps []) = false
      ∧ (let s := { State.reset with port := { State.reset.port with reply := some ⟨1, 0, .done, []⟩ } }
         s.power = .running ∧ s.port.reply.isSome = true ∧ sending s = false
           ∧ sending { s with port := { s.port with lpDe := true } } = true)
      ∧ (Instr.insertGaps [1]).message.isSome = true ∧ toUnit (.hold .broadcast [0]) = false
      ∧ lengthFits (.hold .broadcast [0]) = false := by unfold Ready; decide +kernel
theorem witness_ReplyFrameSent :
    ({ State.reset with port := { State.reset.port with reply := some ⟨1, 0, .done, []⟩ } }).port.reply
        = some ⟨1, 0, .done, []⟩ ∧ State.reset.power = .running ∧ State.reset.port.reply = none := by decide +kernel
theorem witness_TimeBaseTicks : State.reset.power = .running ∧ State.reset.port.reply = none := ⟨rfl, rfl⟩
theorem witness_CapLowMovesRun : inRun.power = .running ∧ HoldMatches inRun := by
  unfold HoldMatches; decide +kernel
theorem witness_HoldAndResumeServed : HoldMatches inRun ∧ Ready inRun ∧ sending inRun = false := by
  unfold HoldMatches Ready; decide +kernel
theorem witness_InsertGapsServed :
    Ready State.reset ∧ (goodFrame State.reset).run.state = .idle ∧ Ready inRun
      ∧ (goodFrame inRun).run.state ≠ .idle := by unfold Ready; decide +kernel

/-- IDLE and synchronised, recipe 370 staged, a lift READY at `pos`. -/
def startable (pos : Nat) : State :=
  liftAt pos { State.reset with
    track := { State.reset.track with synced := true }
    recipes := { State.reset.recipes with staged := some recipe370 } }
/-- Each check of START RUN, a lift at the ACTIVE height, one that is not, and one that is UNKNOWN. -/
theorem witness_StartRunServed :
    ([0, 1, 0, 0, 19, 136] : List Byte).length = 6 ∧ Ready (startable 4200) ∧ Ready inRun
      ∧ (goodFrame inRun).run.state ≠ .idle
      ∧ (let g := goodFrame { startable 0 with lift := { resetLift with state := .homing } }
         g.run.state = .idle ∧ g.track.entries = [] ∧ g.track.synced = true ∧ g.lift.state = .homing)
      ∧ (let g := goodFrame { startable 0 with recipes := State.reset.recipes }
         g.run.state = .idle ∧ g.track.entries = [] ∧ g.track.synced = true ∧ g.lift.state = .ready
           ∧ g.recipes.active = none ∧ g.recipes.staged = none)
      ∧ (let g := goodFrame (startable 4200)
         g.run.state = .idle ∧ g.track.entries = [] ∧ g.track.synced = true
           ∧ g.recipes.active.or g.recipes.staged = some recipe370 ∧ g.track.activeCount = 0
           ∧ g.lift.state = .ready ∧ g.lift.position = recipe370.liftHeight)
      ∧ (let g := goodFrame (startable 4199)
         g.recipes.active.or g.recipes.staged = some recipe370 ∧ g.lift.state = .ready
           ∧ g.lift.position ≠ recipe370.liftHeight)
      ∧ (let g := goodFrame { startable 0 with lift := resetLift }
         g.recipes.active.or g.recipes.staged = some recipe370 ∧ g.lift.state = .unknown)
      ∧ noLift.liftFlt = false ∧ (⟨false, true⟩ : LiftPins).liftFlt = true := by unfold Ready; decide +kernel
theorem witness_StopRunServed : Ready inRun ∧ inRun.power = .running ∧ sending inRun = false := by unfold Ready; decide +kernel
theorem witness_ClearFaultServed :
    Ready inRun ∧ (goodFrame inRun).run.state ≠ .fault ∧ Ready (inFault .strayJar toK)
      ∧ (goodFrame (inFault .strayJar toK)).run.state = .fault
      ∧ (⟨false, true⟩ : LiftPins).liftFlt = true ∧ noLift.liftFlt = false
      ∧ frozen (goodFrame (inFault .strayJar toK)) = false := by unfold Ready; decide +kernel
theorem witness_FrozenTrackPurged :
    let s := inFault .encoderSlip (withJars [goodAt 301 96 0, cappedAt 302 40 1] inRun)
    let g := goodFrame s
    Ready s ∧ PositionsFall s ∧ CountsMatch s ∧ BanksMatch s ∧ g.run.state = .fault ∧ g.run.request = none
      ∧ noLift.liftFlt = false ∧ frozen g = true ∧ g.records.queue.length + g.track.entries.length ≤ 512 := by
  unfold Ready PositionsFall CountsMatch BanksMatch; decide +kernel
/-- A frozen Track with four jars below x: heads 2 and 3 bound at stage APPLIED and RESULT, an open fetch of head 3,
head 4 marked out, head 5 with nothing of its jar; and a jar past x. -/
def purging : State :=
  inFault .encoderSlip { withJars [cappedAt 301 40 0, jarAt 302 12 1, jarAt 303 8 2, jarAt 304 5 3, jarAt 305 3 4] inRun with
    capping := (inRun.capping.set 1 ⟨some 302, .applied, none⟩).set 2 ⟨some 303, .result, none⟩
    link := { inRun.link with lines := inRun.link.lines.set 2 { resetHeadLine with fetch := some ⟨303, 0, .sent⟩ } }
    heads := inRun.heads.set 3 (resetHead (.markedOut .failures)) }
theorem witness_FrozenTrackPurged_heads :
    let g := goodFrame purging
    Ready purging ∧ PositionsFall purging ∧ CountsMatch purging ∧ BanksMatch purging ∧ frozen g = true
      ∧ g.run.state = .fault ∧ g.run.request = none
      ∧ jarAt 302 12 1 ∈ g.track.entries ∧ (jarAt 302 12 1).position < g.track.geometry.x
      ∧ g.capping[(1 : Head)].bound = some 302 ∧ g.capping[(2 : Head)].stage ≠ .applied
      ∧ (∃ f, g.link.lines[(jarAt 303 8 2).pocket].fetch = some f ∧ f.jar = 303)
      ∧ g.heads[(3 : Head)].service = .markedOut .failures ∧ g.capping[(4 : Head)].bound ≠ some 305 := by
  refine ⟨by unfold Ready; decide +kernel, by unfold PositionsFall; decide +kernel, by unfold CountsMatch; decide +kernel,
    by unfold BanksMatch; decide +kernel, by decide +kernel, by decide +kernel, by decide +kernel, by decide +kernel,
    by decide +kernel, by decide +kernel, by decide +kernel, ⟨⟨303, 0, .sent⟩, by decide +kernel, rfl⟩,
    by decide +kernel, by decide +kernel⟩
/-- R107: the bound head is released with its tag as late watch, the fetch is closed with TRACE_LOST (bit 8). -/
theorem test_purge_heads :
    got (fun t => (t.capping[(1 : Head)], t.link.lines[(2 : Head)].fetch, t.records.queue.map (fun r => setBits r.flags / 256 % 2)))
      (exec (.clearFault [] noLift) purging) = some (⟨none, .none, some 0⟩, none, [0, 0, 1, 0, 0]) := by decide +kernel
/-- An entry just below x and one at x. -/
theorem witness_FaultEntryMarksEntries :
    inRun.run.state ≠ .fault ∧ (inFault .strayJar inRun).run.state = .fault
      ∧ (let s := withJars [cappedAt 1 13 0, jarAt 2 12 1] inRun
         jarAt 2 12 1 ∈ s.track.entries ∧ (jarAt 2 12 1).position < s.track.geometry.x
           ∧ (jarAt 2 12 1).capClass = none) := by decide +kernel
/-- A batch that ends at its last jar with no request, a flying one with and without RETIRING, a drained one. -/
def batchDone (r : Option Changeover) (ret : Option Recipe) : State :=
  { withJars [jarAt 1 3 0] inRun with
    run := { inRun.run with batchSize := 5, admitted := 5, request := r }
    recipes := { inRun.recipes with staged := some recipe410, retiring := ret } }
theorem witness_DrainAndBatchEnd :
    (inState .drain inRun).run.state = .drain ∧ (inState .drain inRun).track.entries = []
      ∧ ¬((inState .drain toK).run.state = .drain ∧ (inState .drain toK).track.entries = [])
      ∧ (let s := batchDone none none
         s.run.state = .run ∧ s.run.batchSize ≠ 0 ∧ s.run.batchSize ≤ s.run.admitted ∧ s.run.batchEnded = false
           ∧ s.run.request = none)
      ∧ (let s := batchDone (some ⟨.atBatchEnd, .flying, 2, 0, .waiting⟩) (some recipe370)
         s.run.request = some ⟨.atBatchEnd, .flying, 2, 0, .waiting⟩ ∧ s.recipes.retiring.isSome = true)
      ∧ (let s := batchDone (some ⟨.now, .flying, 2, 0, .atAdmission⟩) none
         s.recipes.retiring = none ∧ s.track.retiringCount = 0 ∧ s.recipes.staged = some recipe410
           ∧ s.run.request = some ⟨.now, .flying, 2, 0, .atAdmission⟩)
      ∧ (let s := batchDone (some ⟨.atBatchEnd, .drained, 2, 0, .waiting⟩) none
         s.run.request = some ⟨.atBatchEnd, .drained, 2, 0, .waiting⟩
           ∧ ∃ e ∈ s.track.entries, e.position < s.track.geometry.x) := by decide +kernel
/-- A size of 0, one jar short of the size, and a flag already set. -/
theorem witness_DrainAndBatchEnd_notDue :
    ¬(inRun.run.batchSize ≠ 0)
      ∧ (let s := { inRun with run := { inRun.run with batchSize := 5, admitted := 4 } }
         ¬(s.run.batchSize ≤ s.run.admitted))
      ∧ (let s := { inRun with run := { inRun.run with batchSize := 5, admitted := 5, batchEnded := true } }
         ¬(s.run.batchEnded = false)) := by decide +kernel
theorem witness_TurretWaitEndsInLift :
    (let s := changing 4200
     s.power = .running ∧ s.run.state = .change ∧ s.run.phase = .waitTurret ∧ s.recipes.retiring = none
       ∧ (∀ e ∈ s.track.entries, s.track.geometry.x ≤ e.position) ∧ noLift.liftFlt = false
       ∧ s.recipes.staged = some recipe410 ∧ s.lift.state = .ready ∧ s.lift.position ≠ recipe410.liftHeight
       ∧ s.track.retiringCount = 0)
    ∧ ¬(inRun.run.state = .change) ∧ (changing 5100).lift.position = recipe410.liftHeight
    ∧ (changing 5100).run.request = some ⟨.now, .drained, 2, 0, .inChange⟩
    ∧ (let s := { changing 0 with lift := resetLift }
       s.lift.state = .unknown ∧ s.run.phase = .waitTurret ∧ s.recipes.staged = some recipe410)
    ∧ (⟨false, true⟩ : LiftPins).liftFlt = true := by decide +kernel
/-- A swap with jars on ACTIVE and one with none; RETIRING emptied with a request at AT_RETIRE and without. -/
theorem witness_SwapMovesBanks :
    CountsMatch toK ∧ toK.track.retiringCount = 0 ∧ 0 < toK.track.activeCount
      ∧ CountsMatch inRun ∧ inRun.track.activeCount = 0 ∧ inRun.power = .running ∧ inRun.run.state ≠ .change
      ∧ ¬(inRun.track.retiringCount = 0 ∧ inRun.recipes.retiring.isSome = true)
      ∧ (let s := batchDone (some ⟨.atBatchEnd, .flying, 2, 0, .atRetire⟩) (some recipe370)
         s.track.retiringCount = 0 ∧ s.recipes.retiring.isSome = true
           ∧ s.run.request = some ⟨.atBatchEnd, .flying, 2, 0, .atRetire⟩ ∧ s.recipes.staged = some recipe410)
      ∧ (batchDone none (some recipe370)).run.request = none := by
  unfold CountsMatch; decide +kernel
/-- Each check of REQUEST CHANGEOVER, a flying and a drained request, and each stage for CANCEL. -/
theorem witness_ChangeoverRequested :
    ([1, 0, 2, 0, 0, 0, 0] : List Byte).length = 7 ∧ field ([1, 0, 2, 0, 0, 0, 0] : List Byte) 0 1 = 1
      ∧ Ready State.reset ∧ ¬((goodFrame State.reset).run.state = .run ∨ (goodFrame State.reset).run.state = .hold)
      ∧ (let g := goodFrame (batchDone (some ⟨.now, .flying, 2, 0, .atAdmission⟩) none)
         g.run.state = .run ∧ g.run.request ≠ none)
      ∧ ((goodFrame inRun).run.state = .run ∧ (goodFrame inRun).run.request = none
         ∧ (goodFrame inRun).recipes.staged = none)
      ∧ (let g := goodFrame (batchDone none none)
         g.run.state = .run ∧ g.run.request = none ∧ g.recipes.staged = some recipe410
           ∧ g.recipes.active = some recipe370 ∧ recipe370.liftHeight ≠ recipe410.liftHeight
           ∧ g.run.batchSize ≠ 0 ∧ ∃ e ∈ g.track.entries, e.position < g.track.geometry.x)
      ∧ (let g := goodFrame { inRun with recipes := { inRun.recipes with staged := some recipe370 } }
         g.recipes.active = some recipe370 ∧ g.recipes.staged = some recipe370)
      ∧ (goodFrame (batchDone (some ⟨.now, .drained, 2, 0, .inChange⟩) none)).run.request
          = some ⟨.now, .drained, 2, 0, .inChange⟩
      ∧ (let g := goodFrame (batchDone (some ⟨.now, .flying, 2, 0, .atRetire⟩) (some recipe370))
         g.run.request = some ⟨.now, .flying, 2, 0, .atRetire⟩ ∧ g.run.state = .run) := by
  unfold Ready; decide +kernel
theorem witness_RecipesStaged :
    Ready State.reset ∧ (recipeBytes recipe370).length = 46 ∧ (goodFrame State.reset).run.request = none
      ∧ (goodFrame (batchDone (some ⟨.now, .flying, 2, 0, .atAdmission⟩) none)).run.request ≠ none
      ∧ Ready (batchDone (some ⟨.now, .flying, 2, 0, .atAdmission⟩) none)
      ∧ RecipeInRange recipe370 ∧ brokenRelation recipe370 = none
      ∧ brokenRelation { recipe370 with torqueHi := 259 } = some 2 := by
  unfold Ready RecipeInRange; decide +kernel
theorem witness_RecipesStaged_relations :
    (∀ n, recipeRelation recipe370 n) ∧ recipeRelation { recipe370 with torqueHi := 259 } 0
      ∧ ¬recipeRelation { recipe370 with torqueHi := 259 } 1 := by
  refine ⟨?_, by simp [recipeRelation, recipe370], by simp [recipeRelation, recipe370]⟩
  intro n; fin_cases n <;> simp [recipeRelation, recipe370]
theorem witness_RecipeRecordRoundTrip :
    (recipeBytes recipe370).length = 46 ∧ RecipeInRange recipe370 ∧ recipe370.name.length = 12
      ∧ Ready State.reset ∧ State.reset.run.request = none ∧ recipeOfBytes (recipeBytes recipe370) = recipe370 := by
  unfold RecipeInRange Ready; decide +kernel
/-- Heads 1 and 18, a pair with head 19, a pair with state 2, and head 19 for CLEAR HEAD STATS. -/
theorem witness_HeadServiceSet :
    Ready inRun ∧ listFits 18 2 [2, 1, 1, 18, 0] = true ∧ pairsOf [1, 1, 18, 0] = [(1, 1), (18, 0)]
      ∧ (∀ q ∈ pairsOf [1, 1, 18, 0], 1 ≤ q.1 ∧ q.1 ≤ 18 ∧ q.2 ≤ 1)
      ∧ ((pairsOf [1, 1, 18, 0]).filter (fun q => q.1 == 18)).getLast? = some (18, 0)
      ∧ ((pairsOf [1, 1, 18, 0]).filter (fun q => q.1 == 1)).getLast? = some (1, 1)
      ∧ listFits 18 2 [1, 19, 0] = true ∧ (∃ q ∈ pairsOf [19, 0], ¬(1 ≤ q.1 ∧ q.1 ≤ 18 ∧ q.2 ≤ 1))
      ∧ (∃ q ∈ pairsOf [18, 2], ¬(1 ≤ q.1 ∧ q.1 ≤ 18 ∧ q.2 ≤ 1)) ∧ 18 < (19 : Byte).toNat := by
  unfold Ready; decide +kernel
/-- Head 3 with no jar in the turret and an open fetch of a jar past x leaves the set; head 5, with its jar at 4, stays,
and so does head 1, given IN_SERVICE. -/
theorem witness_HeadServiceSet_scan :
    let s := { withJars [cappedAt 303 40 2, jarAt 305 4 4] inRun with
      link := { inRun.link with lines := inRun.link.lines.set 2 { resetHeadLine with fetch := some ⟨303, 0, .sent⟩ } } }
    let c : Instr := .setHeadService [3, 1, 0, 3, 1, 5, 1]
    Ready s ∧ s.heads[(2 : Head)].service = .inService
      ∧ got (fun t => (t.heads[(2 : Head)].service, t.link.lines[(2 : Head)].fetch,
          t.track.entries.map (fun e => e.flags.has .traceLost))) (exec c s) = some (.markedOut .host, none, [true, false])
      ∧ got (fun t => (t.heads[(4 : Head)].service, inScanSet 4 t, inScanSet 2 t, inScanSet 0 t)) (exec c s)
        = some (.markedOut .host, true, false, true) := by
  unfold Ready; decide +kernel
/-- A count of exactly F and one below it; a no-reply count of 3 and of 2; a comparison open and none. -/
theorem witness_MarkOutsTaken :
    (let s := { inRun with heads := inRun.heads.set 6 { resetHead .inService with
       failures := 5, noReplies := 3, riseOpen := true, silenceOpen := true } }
     s.power = .running ∧ s.params.failLimit ≠ 0 ∧ s.params.failLimit ≤ s.heads[(6 : Head)].failures
       ∧ s.heads[(6 : Head)].service = .inService ∧ s.heads[(6 : Head)].noReplies = 3
       ∧ s.heads[(6 : Head)].riseOpen = true ∧ s.heads[(6 : Head)].silenceOpen = true)
    ∧ (let s := { inRun with heads := inRun.heads.set 6 { resetHead .inService with
         failures := 4, noReplies := 2, riseOpen := true, silenceOpen := true } }
       s.heads[(6 : Head)].riseOpen = true ∧ ¬(s.params.failLimit ≤ s.heads[(6 : Head)].failures)
         ∧ s.heads[(6 : Head)].silenceOpen = true ∧ ¬(s.heads[(6 : Head)].noReplies = 3))
    ∧ inRun.heads[(6 : Head)].riseOpen = false ∧ inRun.heads[(6 : Head)].silenceOpen = false := by
  decide +kernel
theorem witness_ExchangesStartAndFail :
    inRun.power = .running ∧ inRun.link.exchange = none ∧ (exchangeOf .poll).link.exchange.isSome = true
      ∧ InScan (inRun.link.pointer + 0) inRun
      ∧ (let s := { inRun with heads := inRun.heads.set 0 (resetHead (.markedOut .link)) }
         s.link.exchange = none ∧ InScan (s.link.pointer + 1) s ∧ ∀ m, m < (1 : Head) → ¬InScan (s.link.pointer + m) s)
      ∧ (let s := { inRun with heads := Vector.replicate 18 (resetHead (.markedOut .host)) }
         s.power = .running ∧ ∀ p, ¬InScan p s)
      ∧ (let s := { exchangeOf .poll with link := { (exchangeOf .poll).link with
           lines := inRun.link.lines.set 4 { resetHeadLine with fetch := some ⟨5210, 0, .sent⟩ } } }
         s.link.lines[(4 : Head)].fetch = some ⟨5210, 0, .sent⟩ ∧ s.link.lines[(4 : Head)].slot = .empty
           ∧ s.heads[(4 : Head)].noReplies < 2)
      ∧ (exchangeOf .poll).link.exchange = some ⟨4, .poll, 500⟩ ∧ (exchangeOf .poll).heads[(4 : Head)].noReplies ≤ 3
      ∧ (exchangeOf (.apply ⟨18, 1, 260, 2400, 120⟩)).link.exchange = some ⟨4, .apply ⟨18, 1, 260, 2400, 120⟩, 500⟩
      ∧ (let s := { exchangeOf .poll with heads := inRun.heads.set 4 { resetHead .inService with noReplies := 2 } }
         2 ≤ s.heads[(4 : Head)].noReplies ∧ s.heads[(4 : Head)].service ≠ .markedOut .link) := by
  unfold InScan; decide +kernel
/-- Head 5 as in `exchangeOf .poll`, its jar gone past x under the late watch, or with an APPLY unconfirmed. -/
def lateOf5 : State := { exchangeOf .poll with capping := inRun.capping.set 4 ⟨none, .none, some 18⟩ }
def unconfirmedOf5 : State :=
  { exchangeOf .poll with link := { (exchangeOf .poll).link with
      lines := inRun.link.lines.set 4 { resetHeadLine with
        tag := 18, applyConfirmed := true, unconfirmed := some ⟨18, 1, 260, 2400, 120⟩ } } }
/-- R88: a report that shows the head missed the APPLY places it again; one with its tag does not. -/
theorem test_apply_again :
    got (fun s => s.link.lines[(4 : Head)].slot) (exec (.replyReceived (reportFrame 4 (.busy 17 1))) unconfirmedOf5)
        = some (.apply ⟨18, 1, 260, 2400, 120⟩)
      ∧ got (fun s => s.link.lines[(4 : Head)].slot) (exec (.replyReceived (reportFrame 4 (.busy 18 1))) unconfirmedOf5)
        = some .empty := by decide +kernel
/-- A current SEATED, a current CROSS_THREAD that is reapplied, a late report, an unconfirmed APPLY, a stale tag
and a broken frame. -/
theorem witness_GoodReplyEndsExchange :
    (exchangeOf .poll).power = .running ∧ (exchangeOf .poll).link.exchange = some ⟨4, .poll, 500⟩
      ∧ parseReply 4 [5, 1, 0, 0] = none ∧ (doneOf5 .seated).inRange = true ∧ (doneOf5 .crossThread).inRange = true
      ∧ reportTag (.busy 17 1) = some 17 ∧ (17 : Byte) ≠ (exchangeOf .poll).link.lines[(4 : Head)].tag
      ∧ (18 : Byte) = (exchangeOf .poll).link.lines[(4 : Head)].tag
      ∧ (exchangeOf .poll).link.lines[(4 : Head)].applyConfirmed = true
      ∧ (exchangeOf .poll).capping[(4 : Head)].bound = some 5210
      ∧ (exchangeOf .poll).capping[(4 : Head)].stage = .applied
      ∧ entryOf 5210 (exchangeOf .poll) = some (jarAt 5210 4 4) ∧ (jarAt 5210 4 4).capClass = none
      ∧ (exchangeOf .poll).link.lines[(4 : Head)].slot = .empty ∧ (exchangeOf .poll).traces.modeAll = true
      ∧ (exchangeOf .poll).link.lines[(4 : Head)].fetch = none
      ∧ lateOf5.link.exchange = some ⟨4, .poll, 500⟩ ∧ lateOf5.capping[(4 : Head)].stage = .none
      ∧ lateOf5.capping[(4 : Head)].lateWatch = some lateOf5.link.lines[(4 : Head)].tag
      ∧ unconfirmedOf5.link.exchange = some ⟨4, .poll, 500⟩
      ∧ unconfirmedOf5.link.lines[(4 : Head)].unconfirmed = some ⟨18, 1, 260, 2400, 120⟩
      ∧ unconfirmedOf5.link.lines[(4 : Head)].slot = .empty ∧ unconfirmedOf5.link.lines[(4 : Head)].tag = 18
      ∧ (jarAt 5210 4 4).attempts < (recipeOf .active (exchangeOf .poll)).attemptsLimit
      ∧ (jarAt 5210 4 4).position < (exchangeOf .poll).track.geometry.e := by decide +kernel
/-- CROSS_THREAD at the attempts limit, at e, and of a jar that holds a class is final; with an ABORT in the slot the
reapply is refused. -/
def crossing (e : Entry) (c : Slot) : State :=
  { exchangeOf .poll with
    track := { (exchangeOf .poll).track with entries := [e] }
    link := { (exchangeOf .poll).link with
      lines := inRun.link.lines.set 4 { resetHeadLine with slot := c, tag := 18, applyConfirmed := true } } }
theorem witness_GoodReplyEndsExchange_crossThread :
    (let r := recipeOf .active (crossing (jarAt 5210 4 4) .empty)
     ¬(({ jarAt 5210 4 4 with attempts := 2 } : Entry).attempts < r.attemptsLimit)
       ∧ ¬((jarAt 5210 10 4).position < (crossing (jarAt 5210 10 4) .empty).track.geometry.e)
       ∧ ({ jarAt 5210 4 4 with capClass := some .interrupted } : Entry).capClass ≠ none)
    ∧ got (fun t => (t.capping[(4 : Head)].stage, t.heads[(4 : Head)].stats.crossThread, t.link.lines[(4 : Head)].tag))
        (exec (.replyReceived (reportFrame 4 (doneOf5 .crossThread))) (crossing (jarAt 5210 10 4) .empty))
      = some (.result, 1, 18)
    ∧ (crossing (jarAt 5210 4 4) .abort).link.lines[(4 : Head)].slot = .abort
    ∧ entryOf 5210 (crossing (jarAt 5210 4 4) .abort) = some (jarAt 5210 4 4)
    ∧ got (fun t => (t.capping[(4 : Head)].bound, t.track.entries.map (·.capClass)))
        (exec (.replyReceived (reportFrame 4 (doneOf5 .crossThread))) (crossing (jarAt 5210 4 4) .abort))
      = some (none, [some .headFault]) := by decide +kernel
theorem witness_HeadLinkFramesRoundTrip :
    (doneOf5 .seated).inRange = true ∧ (Report.curve 1 (List.replicate 32 ⟨0, 0⟩)).inRange = true
      ∧ (1 : Head) ≠ 0 ∧ parseReply 4 (reportFrame 4 (.busy 18 4)) = some (.busy 18 4)
      ∧ (HeadCommand.apply ⟨255, 4, 1000, 3600, 800⟩).inRange := by
  unfold HeadCommand.inRange; decide +kernel
/-- Each arrival at a; at e and at x a head bound to the jar at each stage, and a free one. -/
theorem witness_TurretStationsAct :
    jarAt 5210 4 4 ∈ (exchangeOf .poll).track.entries ∧ (jarAt 5210 4 4).capClass = none
      ∧ (inFault .strayJar (exchangeOf .poll)).run.state = .fault
      ∧ (exchangeOf .poll).run.state ≠ .fault
      ∧ (exchangeOf .poll).heads[(4 : Head)].service ≠ .markedOut .link
      ∧ (exchangeOf .poll).link.lines[(4 : Head)].slot ≠ .abort ∧ (turnOf .abort).link.lines[(4 : Head)].slot = .abort
      ∧ (exchangeOf .poll).capping[(4 : Head)].bound = some (jarAt 5210 4 4).jar
      ∧ (exchangeOf .poll).capping[(4 : Head)].stage = .applied
      ∧ (turnOf .empty).capping[(4 : Head)].bound ≠ some (jarAt 5210 4 4).jar
      ∧ (cappedAt 1 13 0).capClass ≠ none
      ∧ (let s := { exchangeOf .poll with capping := inRun.capping.set 4 ⟨some 5210, .result, none⟩ }
         s.capping[(4 : Head)].stage = .result) := by decide +kernel
/-- A jar one position before `pos`, in the pocket that follows from it, the newest jar of the Track. -/
def comingTo (pos : Nat) (s : State) : State :=
  let e := jarAt 5210 (pos - 1) (0 - Fin.ofNat 18 (pos - 1))
  { s with track := { s.track with entries := [e], activeCount := 1, nextJar := 5211 } }
/-- A jar that comes to a, to e and to x in RUN, and one that comes to a in FAULT. -/
theorem witness_TurretStationsAct_pitch :
    ∀ s ∈ [comingTo 2 inRun, comingTo 10 inRun, comingTo 13 inRun, inFault .strayJar (comingTo 2 inRun)],
      s.power = .running ∧ frozen s = false ∧ GateAndBanks s ∧ GeometryOk s.track.geometry ∧ PositionsFall s
        ∧ CountsMatch s ∧ JarsDistinct s ∧ PocketsFollow s
        ∧ got (fun t => decide (t.run.state = .fault) == decide (s.run.state = .fault))
            (exec (.forwardPitch (pitchOf true false 2048) []) s) = some true := by
  unfold GateAndBanks DecisionStands BanksMatch GeometryOk PositionsFall CountsMatch JarsDistinct jarAge PocketsFollow
  decide +kernel
/-- At x a head marked out with HOST leaves the scan set, and an open fetch of the jar is closed. -/
theorem witness_TurretStationsAct_scan :
    (let s := { turnOf .curve with heads := inRun.heads.set 4 (resetHead (.markedOut .host)) }
     (arriveX (jarAt 5210 4 4) s).link.lines[(4 : Head)].slot = .empty)
    ∧ (let s := { turnOf .empty with link := { inRun.link with
         lines := inRun.link.lines.set 4 { resetHeadLine with fetch := some ⟨5210, 18, .sent⟩ } } }
       (arriveX (jarAt 5210 4 4) s).track.entries.map (fun f => f.flags.has .traceLost) = [true]) := by decide +kernel
/-- Readings with the step count at 15999 and at 16000, one step short of the target, and each end of a settle. -/
theorem witness_LiftMovesServed :
    LstopFollows State.reset ∧ Ready State.reset ∧ (goodFrame State.reset).run.state = .idle
      ∧ (goodFrame State.reset).lift.state = .unknown ∧ (⟨false, true⟩ : LiftPins).liftFlt = true ∧ LstopFollows inRun ∧ (goodFrame inRun).run.state ≠ .idle
      ∧ LstopFollows (homing 15999 .run) ∧ (homing 15999 .run).lift.state = .homing
      ∧ (homing 15999 .run).lift.settling = false ∧ (homing 15999 .run).lift.stepCount < 16000
      ∧ 16000 ≤ (homing 16000 .run).lift.stepCount ∧ (homing 16000 .run).run.state = .prepare
      ∧ (let s := { inRun with lift := { resetLift with state := .seeking, position := 4199, target := some 4200 } }
         s.lift.target = some 4200 ∧ s.lift.settling = false ∧ s.lift.position ≠ 4200)
      ∧ (let s := { homing 3800 .run with
           timeBase := 7750
           lift := { (homing 3800 .run).lift with known := true, settling := true, settleSince := 7600 } }
         s.lift.settling = true ∧ s.lift.settleTime ≤ (s.timeBase - s.lift.settleSince).toNat
           ∧ s.lift.requester = some .run ∧ s.recipes.active = some recipe370
           ∧ s.lift.position ≠ recipe370.liftHeight) := by
  unfold LstopFollows Ready; decide +kernel
/-- A settle time that ends at exactly 150 ms: of the seek of phase LIFT, of its home, and of a home in PREPARE at the
ACTIVE height 0. -/
def settled (st : LiftState) (pos : Nat) (s : State) : State :=
  { s with timeBase := 7750
           lift := { resetLift with state := st, position := pos, known := true, requester := some .run, settling := true
                                    settleTime := 150, settleSince := 7600 } }
def liftPhase : State := { changing 0 with run := { (changing 0).run with phase := .lift } }
theorem witness_LiftMovesServed_change :
    (let s := settled .seeking 5100 liftPhase
     LstopFollows s ∧ s.lift.settleTime ≤ (s.timeBase - s.lift.settleSince).toNat
       ∧ s.run.state = .change ∧ s.run.phase = .lift ∧ s.recipes.staged = some recipe410
       ∧ s.run.request = some ⟨.now, .drained, 2, 0, .inChange⟩ ∧ s.recipes.retiring = none ∧ s.track.retiringCount = 0
       ∧ got (fun t => (t.run.state, t.recipes.active, t.run.batchNumber)) (exec .settleEnd s)
         = some (.run, some recipe410, 2))
    ∧ (let s := settled .homing 0 liftPhase
       LstopFollows s ∧ s.lift.position ≠ recipe410.liftHeight
         ∧ got (fun t => (t.lift.state, t.lift.target)) (exec .settleEnd s) = some (.seeking, some 5100))
    ∧ (let s := settled .homing 0 (inState .prepare { inRun with
         recipes := { inRun.recipes with active := some { recipe370 with liftHeight := 0 } } })
       LstopFollows s ∧ s.run.state = .prepare
         ∧ got (fun t => (t.lift.state, t.run.state)) (exec .settleEnd s) = some (.ready, .run))
    ∧ (let s := settled .seeking 5100 (inState .drain inRun)
       LstopFollows s ∧ s.run.state ≠ .prepare ∧ s.run.state ≠ .change) := by
  unfold LstopFollows; decide +kernel
theorem witness_SealArithmeticBounded :
    (2048 : Nat) ≤ 2710 ∧ (2001 : Nat) ≤ 2048 ∧ (41300 : Nat) < 60000 ∧ (200 : Nat) < 850 ∧ (190 : Nat) ≤ 200 ∧ (850 : Nat) ≤ 905 ∧ (0 : Nat) < 60000 ∧ (60000 : Nat) ≤ 65535
      ∧ tempFactor (some 781) 200 850 ≤ 256 ∧ coolingFactor 41300 60000 ≤ 256 ∧ (60 : Nat) ≤ 100 := by decide
/-- A fresh zero at exactly S, a stale one at S + 1, a cold fill, and an entry without a seal time. -/
theorem witness_CheckJudgesJar :
    cappedAt 5040 92 0 ∈ toK.track.entries ∧ (cappedAt 5040 92 0).capClass = some .cappedOk
      ∧ (cappedAt 5040 92 0).sealTime ≠ none
      ∧ ¬(toK.params.staleLimit < 600) ∧ toK.params.staleLimit < 601
      ∧ ({ jarAt 1 92 0 with capClass := some .headFault } : Entry).sealTime = none
      ∧ coldFill (some 629) recipe370.tMin = true ∧ coldFill (some 650) recipe370.tMin = false
      ∧ 65535 < ((65536 : Word32) - 0).toNat ∧ toK.params.failLimit ≠ 0
      ∧ toK.heads[(0 : Head)].service = .inService
      ∧ ({ toK with capture := ⟨.armed, 11, 2, 0⟩ }).capture.trigger = (classIx .dud).val + 1
      ∧ ({ toK with capture := ⟨.armed, 11, 0, 0⟩ }).capture.post = 0 ∧ toK.capture.state ≠ .armed := by decide +kernel
/-- F = 0; a count below F = 5 and one that reaches it; a head MARKED_OUT already; differences of 65535 and 65536. -/
theorem witness_CheckJudgesJar_service :
    let xt := { jarAt 1 92 0 with capClass := some .crossThread, sealTime := some (0 : Word32) }
    let at_ (n f : Nat) (sv : Service) (time : Word32) : State :=
      { withJars [xt] inRun with
        timeBase := time, params := { factoryParams with failLimit := f }
        heads := inRun.heads.set 0 { resetHead sv with failures := n } }
    let judged (s : State) := ((checkJar 2048 xt s).heads[(0 : Head)].service, (checkJar 2048 xt s).heads[(0 : Head)].failures,
      (checkJar 2048 xt s).track.entries.map (·.flags.has .dtClamped))
    judged (at_ 4 0 .inService 65535) = (.inService, 5, [false])
      ∧ judged (at_ 3 5 .inService 65536) = (.inService, 4, [true])
      ∧ judged (at_ 4 5 .inService 65535) = (.markedOut .failures, 5, [false])
      ∧ judged (at_ 4 5 (.markedOut .host) 65536) = (.markedOut .host, 5, [true]) := by decide +kernel
/-- A CAPPED_OK jar that comes to k with its jar there in RUN, and one in FAULT. -/
theorem witness_CheckJudgesJar_pitch :
    let s := { inRun with track := { inRun.track with entries := [cappedAt 5040 92 0], activeCount := 1, nextJar := 5041 } }
    (∀ s' ∈ [s, inFault .strayJar s], s'.power = .running ∧ frozen s' = false ∧ GateAndBanks s' ∧ GeometryOk s'.track.geometry
        ∧ PositionsFall s' ∧ CountsMatch s' ∧ JarsDistinct s' ∧ cappedAt 5040 92 0 ∈ s'.track.entries
        ∧ (cappedAt 5040 92 0).position + 1 = s'.track.geometry.k)
      ∧ (pitchOf true true 2710).jarChk = true ∧ (inFault .strayJar s).run.state = .fault := by
  unfold GateAndBanks DecisionStands BanksMatch GeometryOk PositionsFall CountsMatch JarsDistinct jarAge
  decide +kernel
/-- Samples at Z + W and at Z + W + 1; a count above S, one that the pitch takes above S, and none. -/
theorem witness_ZeroFollowsEmptyPositions :
    2088 ≤ inRun.check.z + inRun.params.zeroWindow ∧ inRun.check.z ≤ 2088 + inRun.params.zeroWindow
      ∧ inRun.check.z + inRun.params.zeroWindow < 2089
      ∧ (let s := { inRun with check := { inRun.check with sinceZero := 601, testOpen := true } }
         s.power = .running ∧ tracking s.run.state = true ∧ s.params.staleLimit < s.check.sinceZero
           ∧ s.check.staleGiven = false ∧ s.check.testOpen = true)
      ∧ (let s := { inRun with check := { inRun.check with sinceZero := 600 } }
         s.check.sinceZero ≤ 65535 ∧ s.params.staleLimit < min 65535 (s.check.sinceZero + 1)
           ∧ s.check.staleGiven = false)
      ∧ ¬(inRun.params.staleLimit < inRun.check.sinceZero) ∧ inRun.check.testOpen = false := by decide +kernel
/-- An empty position k in RUN and a jar there; FAULT, which is no tracking state. -/
theorem witness_ZeroFollowsEmptyPositions_pitch :
    inRun.power = .running ∧ frozen inRun = false ∧ GeometryOk inRun.track.geometry ∧ tracking inRun.run.state = true
      ∧ (pitchOf true false 2088).jarChk = false ∧ (∀ e ∈ inRun.track.entries, e.position + 1 ≠ inRun.track.geometry.k)
      ∧ (∃ e ∈ toK.track.entries, e.position + 1 = toK.track.geometry.k)
      ∧ tracking (inFault .strayJar toK).run.state = false ∧ frozen (inFault .strayJar toK) = false
      ∧ (zeroPitch { inRun with check := { inRun.check with sinceZero := 600 } }).alerts.latch[alertIx .zeroStale] = true := by
  unfold GeometryOk; decide +kernel
/-- Classes 1 and 13, a class 14, and a fixed class given PASS. -/
theorem witness_DispositionSet :
    Ready State.reset ∧ listFits 13 4 [2, 1, 0, 2, 1, 13, 1, 0, 0] = true
      ∧ (∀ q ∈ rawDispsOf [1, 0, 2, 1, 13, 1, 0, 0], 1 ≤ q.cls ∧ q.cls ≤ 13 ∧ q.action ≤ 1 ∧ q.policy ≤ 2 ∧ q.alert ≤ 1)
      ∧ (∃ q ∈ rawDispsOf [1, 0, 2, 1, 13, 1, 0, 0], q.action = 0 ∧ (q.cls ≤ 4 ∨ q.cls = 9))
      ∧ (∀ q ∈ rawDispsOf [13, 0, 0, 0], q.action = 0 → ¬(q.cls ≤ 4 ∨ q.cls = 9))
      ∧ listFits 13 4 [1, 14, 0, 0, 0] = true ∧ (∃ q ∈ rawDispsOf [14, 0, 0, 0], ¬(q.cls ≤ 13)) := by
  unfold Ready; decide +kernel
/-- A deadline that is the pitch count and one that is not; 40 ms and 39 ms after the arrival. -/
theorem witness_GateEventsTaken :
    (let s := { inRun with timeBase := 140
                           reject := { inRun.reject with confirms := [⟨6603, 0⟩], rejOut := true, since := 100 } }
     s.power = .running ∧ LstopFollows s ∧ (∃ c ∈ s.reject.confirms, c.deadline = s.track.pitchCount)
       ∧ s.reject.rejOut = true ∧ 40 ≤ (s.timeBase - s.reject.since).toNat)
    ∧ (let s := { inRun with timeBase := 139
                             reject := { inRun.reject with confirms := [⟨6603, 1⟩], rejOut := true, since := 100 } }
       LstopFollows s ∧ (∀ c ∈ s.reject.confirms, c.deadline ≠ s.track.pitchCount)
         ∧ (s.timeBase - s.reject.since).toNat < 40) := by unfold LstopFollows; decide +kernel
theorem witness_RecordsFetchedAndCaptureServed :
    Ready State.reset ∧ (goodFrame State.reset).capture.state = .off
      ∧ (let s := { State.reset with capture := ⟨.armed, 11, 2, 0⟩ }
         Ready s ∧ (goodFrame s).capture.state = .armed)
      ∧ (let s := { State.reset with capture := ⟨.triggered, 11, 2, 0⟩ }
         Ready s ∧ (goodFrame s).capture.state = .triggered ∧ s.capture.remaining = 0)
      ∧ ¬(State.reset.capture.state = .triggered ∧ State.reset.capture.remaining = 0) := by
  unfold Ready; decide +kernel
/-- Tables 12-3 and 12-6: the last 23 bytes of a record with a seal time of FFFFFFFFh, d of -3 and no trace, and of one
with every optional field absent. -/
theorem test_record_bytes :
    (recordBytes (recordOf true .rejected { dudAt 1 101 0 with sealTime := some 0xFFFFFFFF#32, d := some (-3) })).drop 21
      = [0xFF, 0xFF, 0xFF, 0xFE, 1, 1, 0x01, 0x09, 0x07, 0x1C, 0x03, 0x0D, 0xFF, 0xFD, 0x03, 0x59, 0xA1, 0x54, 0, 0, 0, 0, 0]
    ∧ (recordBytes (recordOf true .purged { jarAt 1 3 0 with fillTemp := none })).drop 21
      = [0xFF, 0xFF, 0xFF, 0xFF, 0, 0, 0xFF, 0xFF, 0xFF, 0xFF, 0xFF, 0xFF, 0x80, 0x00, 0xFF, 0xFF, 0xFF, 0xFF, 0, 0, 0, 0, 0] := by
  decide +kernel
/-- Curves of 1 and of 32 samples; lengths 0 and 33; references 8192 and 8193 samples back. -/
theorem witness_CurveReadsBack :
    (1 ≤ [(⟨0, 0⟩ : Sample)].length ∧ (List.replicate 32 (⟨0, 0⟩ : Sample)).length ≤ 32)
      ∧ (let s := storeSegment 1 (List.replicate 32 ⟨0, 0⟩) State.reset
         intact s.traces 0 32 = true ∧ intact (storeSegment 2 [⟨0, 0⟩] s).traces 0 32 = true)
      ∧ Ready State.reset ∧ ([0, 0, 0, 0, 33] : List Byte).length = 5 ∧ 32 < field ([0, 0, 0, 0, 33] : List Byte) 4 1
      ∧ 1 ≤ field ([0, 0, 0, 0, 32] : List Byte) 4 1 ∧ field ([0, 0, 0, 0, 32] : List Byte) 4 1 ≤ 32
      ∧ (goodFrame State.reset).traces.writeCount.toNat < 32
      ∧ (let g := goodFrame { State.reset with traces := { State.reset.traces with writeCount := 8192 } }
         32 ≤ (g.traces.writeCount - 0).toNat ∧ (g.traces.writeCount - 0).toNat ≤ 8192)
      ∧ 8192 < ((8193 : Word32) - 0).toNat := by unfold Ready; decide +kernel
/-- Head 5 with the fetch of jar 5210 open under its tag: the current CURVE, and a report without it. -/
def fetchingOf5 : State :=
  { exchangeOf .poll with link := { (exchangeOf .poll).link with
      lines := inRun.link.lines.set 4 { resetHeadLine with
        tag := 18, applyConfirmed := true, fetch := some ⟨5210, 18, .sent⟩ } } }
theorem witness_CurveReadsBack_fetch :
    fetchingOf5.power = .running ∧ fetchingOf5.link.exchange = some ⟨4, .poll, 500⟩
      ∧ fetchingOf5.link.lines[(4 : Head)].fetch = some ⟨5210, 18, .sent⟩
      ∧ fetchingOf5.link.lines[(4 : Head)].unconfirmed = none ∧ fetchingOf5.link.lines[(4 : Head)].tag = 18
      ∧ fetchingOf5.link.lines[(4 : Head)].applyConfirmed = true
      ∧ fetchingOf5.link.lines[(4 : Head)].slot = .empty ∧ (Report.busy 18 1).inRange = true
      ∧ fetchingOf5.capture.state ≠ .frozen ∧ fetchingOf5.traces.protectedSegs = [] := by decide +kernel
/-- Table 10-1: with two segments to go, one stored curve leaves one, and the next freezes the unit. -/
theorem test_curve_stored :
    got (fun s => (s.track.entries.map (·.trace), s.traces.writeCount, s.capture, s.link.lines[(4 : Head)].fetch))
      (exec (.replyReceived (reportFrame 4 (.curve 18 [⟨1, 2⟩, ⟨3, 4⟩])))
        { fetchingOf5 with capture := ⟨.triggered, 11, 2, 2⟩ })
      = some ([some ⟨0, 2⟩], 2, ⟨.triggered, 11, 2, 1⟩, none) := by decide +kernel
theorem test_curve_frozen :
    got (fun s => (s.track.entries.map (fun e => (e.trace, e.flags.has .traceFrozen)), s.traces.writeCount))
      (exec (.replyReceived (reportFrame 4 (.curve 18 [⟨1, 2⟩])))
        { fetchingOf5 with capture := ⟨.frozen, 11, 2, 0⟩ }) = some ([(none, true)], 0) := by decide +kernel
theorem witness_QueriesServed :
    Ready inRun ∧ ((0 : Byte) = 0 ∨ 18 < (0 : Byte).toNat) ∧ 18 < (19 : Byte).toNat ∧ 3 < (4 : Byte).toNat
      ∧ (some recipe370 = (goodFrame inRun).recipes.active) := by unfold Ready; decide +kernel
theorem witness_SettingsReplaced :
    Ready State.reset ∧ ([1, 3, 5, 7, 9] : List Byte).length = 5 ∧ (goodFrame State.reset).run.state = .idle
      ∧ (goodFrame State.reset).track.entries = [] ∧ Ready inRun ∧ (goodFrame inRun).run.state ≠ .idle
      ∧ brokenGeometry (geometryOfBytes [1, 1, 5, 7, 9]) = some 2 ∧ brokenGeometry (geometryOfBytes [1, 3, 5, 7, 9]) = none
      ∧ 8192 ≤ field ([0x20, 0] : List Byte) 0 2 ∧ field ([0x1F, 0xFF] : List Byte) 0 2 < 8192
      ∧ 1 < (2 : Byte).toNat ∧ (goodFrame State.reset).commit = none
      ∧ ([1, 0, 50, 3, 12, 0, 40, 2, 88, 1, 244, 20, 0, 150, 4] : List Byte).length = 15
      ∧ (let s := { State.reset with commit := some (withCrc factoryImage) }
         Ready s ∧ (goodFrame s).commit ≠ none ∧ s.power = .running) := by unfold Ready; decide +kernel
theorem witness_SettingsReplaced_relations :
    (∀ n, geometryRelation (geometryOfBytes [1, 3, 5, 7, 9]) n) ∧ geometryRelation (geometryOfBytes [1, 1, 5, 7, 9]) 0
      ∧ ¬geometryRelation (geometryOfBytes [1, 1, 5, 7, 9]) 1 := by
  have h1 : geometryOfBytes [1, 3, 5, 7, 9] = ⟨1, 3, 5, 7, 9⟩ := by decide
  have h2 : geometryOfBytes [1, 1, 5, 7, 9] = ⟨1, 1, 5, 7, 9⟩ := by decide
  rw [h1, h2]
  refine ⟨?_, by simp [geometryRelation], by simp [geometryRelation]⟩
  intro n; fin_cases n <;> simp [geometryRelation]

end Sys2Proof.Tests
end

