-- ==== Sys2Proof/Proofs/TimeBase.lean ====
section
/-! PROOFS. The millisecond time base (R1): what a tick, a reset and a start-up do to it. -/

namespace Sys2Proof.Machine

variable {s t : State} {c : Instr}

/-! ### The tick (R1, log entry 15) -/

theorem whenRunning_of_running (f : State → State) (h : s.power = .running) : whenRunning f s = f s := by
  simp [whenRunning, h]

@[simp] theorem startSending_timeBase (s : State) : (startSending s).timeBase = s.timeBase := rfl

/-- The start of a reply's sending changes the port alone. -/
theorem startSending_frame (s : State) : startSending s = { s with port := (startSending s).port } := rfl

theorem exec_millisecondTick (h : s.power = .running) :
    exec .millisecondTick s = .next (startSending { s with timeBase := s.timeBase + 1 }) :=
  congrArg Host.Outcome.next (whenRunning_of_running _ h)

/-! ### Reset and start-up (R167, R168) -/

/-- Both reset commands enter the reset state and differ only in the cause they record. -/
theorem exec_reset_eq_enterReset (h : c = .powerOn ∨ c = .resetInput) (s : State) :
    ∃ cause, exec c s = .next (enterReset cause s) := by
  rcases h with rfl | rfl
  · exact ⟨.powerOn, rfl⟩
  · exact ⟨.resetInput, rfl⟩

@[simp] theorem enterReset_power (cause : ResetCause) (s : State) : (enterReset cause s).power = .inReset := rfl

theorem exec_startup_of_inReset (pins : StartupPins) (h : s.power = .inReset) :
    exec (.startup pins) s = .next (startUp pins s) := by
  change execStartup pins s = _
  simp [execStartup, h]

@[simp] theorem restartTimer_timeBase (s : State) : (restartTimer s).timeBase = s.timeBase := by
  unfold restartTimer; split <;> rfl

@[simp] theorem loadImage_timeBase (i : Image) (s : State) : (loadImage i s).timeBase = s.timeBase := rfl

@[simp] theorem formHolds_timeBase (capLow : Bool) (s : State) : (formHolds capLow s).timeBase = s.timeBase := rfl

@[simp] theorem startBlocks_timeBase (pins : StartupPins) (s : State) : (startBlocks pins s).timeBase = 0 := rfl

/-- The time base is 0 after start-up, whether the Retained Store is taken or defaulted. -/
@[simp] theorem startUp_timeBase (pins : StartupPins) (s : State) : (startUp pins s).timeBase = 0 := by
  unfold startUp
  cases crcMatches s.store <;> simp

/-- A command that answers a next state hands it to the commands after it. -/
theorem runCommands_cons_of_next (cs : List Instr) (h : exec c s = .next t) :
    runCommands (c :: cs) s = runCommands cs t := by
  simp [runCommands, h]

/-- A reset command and the start-up after it leave what start-up makes of the reset state. -/
theorem runCommands_reset_startup (h : c = .powerOn ∨ c = .resetInput) (pins : StartupPins) (s : State) :
    ∃ cause, runCommands [c, .startup pins] s = .next (startUp pins (enterReset cause s)) := by
  obtain ⟨cause, hreset⟩ := exec_reset_eq_enterReset h s
  refine ⟨cause, ?_⟩
  calc runCommands [c, .startup pins] s
      = runCommands [.startup pins] (enterReset cause s) := runCommands_cons_of_next _ hreset
    _ = runCommands [] (startUp pins (enterReset cause s)) :=
      runCommands_cons_of_next _ (exec_startup_of_inReset pins (enterReset_power cause s))
    _ = .next (startUp pins (enterReset cause s)) := rfl

end Sys2Proof.Machine

namespace Sys2Proof.Proofs

open Sys2Proof.Machine

/-- Settles O30: the tick is one increment followed by the start of a waiting reply, and start-up builds the
time base anew whatever state the reset left. -/
theorem timeBaseTicks : Obligations.TimeBaseTicks := by
  refine ⟨fun s hrun => ?_, by decide, fun c pins s hc => ?_⟩
  · refine ⟨_, exec_millisecondTick hrun, startSending_frame _, startSending_timeBase _, fun hreply => ?_⟩
    exact startSending_idle (s := { s with timeBase := s.timeBase + 1 }) hreply
  · obtain ⟨cause, hrun⟩ := runCommands_reset_startup hc pins s
    exact ⟨_, hrun, startUp_timeBase pins _⟩

end Sys2Proof.Proofs
end

