-- ==== Sys2Proof/Proofs/Commands.lean ====
section
/-! PROOFS. What every command but the turns of the turret and the resets keeps: the lemmas of
Sys2Proof/Laws/ put together, one arm of `exec` after another. -/

-- One declaration is checked after another: side by side they take more threads than the memory limit allows.
set_option Elab.async false

namespace Sys2Proof.Machine

variable {s t : State} {c : Instr}

/-- The commands a step takes apart from the turns of the turret and the resets. -/
def plainCommand : Instr → Bool
  | .forwardPitch _ _ | .reversePitch | .indexPulse | .powerOn | .resetInput | .startup _ => false
  | _ => true

/-- CLEAR FAULT, the one command that can end a fault (R37). -/
def clearsFault : Instr → Bool
  | .clearFault _ _ => true
  | _ => false

/-- What a plain command keeps: all but the confirm list and the settings, and FAULT unless it is CLEAR FAULT. -/
def Scope.plain (c : Instr) : Scope := ⟨!clearsFault c, true, true, true, false, true, false, false, false, true⟩

/-- The command answers a next state and keeps the clauses of `o`. -/
def KeepsNext (o : Scope) (c : Instr) (s : State) : Prop := ∃ t, exec c s = .next t ∧ Keeps o s t

theorem keepsNext_running {o : Scope} {f : State → State} (he : exec c s = .next (whenRunning f s))
    (h : Keeps o s (f s)) : KeepsNext o c s := ⟨_, he, keeps_whenRunning f h⟩

theorem keepsNext_request {o : Scope} {code : Byte} {fits : Bool} {block : State → Answer}
    (he : exec c s = .next (serve code fits block s)) (h : ∀ t, Keeps o t (block t).state) (hx : o.fix = false) :
    KeepsNext o c s := ⟨_, he, keeps_serve code fits block h hx⟩

theorem keepsNext_query {o : Scope} {code : Byte} {fits : Bool} {block : State → Answer}
    (he : exec c s = .next (serve code fits block s)) (h : ∀ t, (block t).state = t) (hx : o.fix = false) :
    KeepsNext o c s := keepsNext_request he (fun t => by rw [h t]; exact .refl t) hx

theorem keeps_whenInFlight {o : Scope} (f : Exchange → State → State) (h : ∀ x, Keeps o s (f x s)) :
    Keeps o s (whenInFlight f s) := by
  unfold whenInFlight
  split
  · exact h _
  · exact .refl s

/-- A plain command keeps what `Scope.plain` claims. -/
theorem exec_plain_keeps (h : plainCommand c = true) : KeepsNext (Scope.plain c) c s := by
  cases c with
  | forwardPitch | reversePitch | indexPulse | powerOn | resetInput | startup => simp [plainCommand] at h
  | rejConf => exact keepsNext_running rfl (keeps_confirmPulse rfl)
  | capLowAsserted =>
    exact keepsNext_running rfl ((keeps_inputs _).trans (keeps_setHold _ _ (fun _ a => HoldReason.noConfusion a)))
  | capLowReleased =>
    exact keepsNext_running rfl ((keeps_inputs _).trans (keeps_setHold _ _ (fun _ a => HoldReason.noConfusion a)))
  | liftFltAsserted => exact keepsNext_running rfl ((keeps_inputs _).trans keeps_liftFault)
  | frameIgnored bytes =>
    exact ⟨_, rfl, keeps_whenReceiving _ (keeps_foldl _ _ (fun _ b => keeps_rxByte b rfl) s)⟩
  | frameGapTimeout => exact keepsNext_running rfl (keeps_port _ rfl)
  | unknown code p => exact keepsNext_query rfl (fun _ => rfl) rfl
  | queryUnit p => exact keepsNext_query rfl (fun _ => rfl) rfl
  | readStatus p lp => exact keepsNext_query rfl (fun _ => rfl) rfl
  | readSettings p => exact keepsNext_query rfl (fun _ => rfl) rfl
  | readCounts p => exact keepsNext_query rfl (fun _ => rfl) rfl
  | readHead p => exact keepsNext_query rfl (fun _ => by unfold readHeadBlock; split <;> rfl) rfl
  | readRecipe p => exact keepsNext_request rfl (fun _ => keeps_readRecipe p) rfl
  | readDisposition p => exact keepsNext_query rfl (fun _ => rfl) rfl
  | fetchRecords p => exact keepsNext_request rfl (fun _ => keeps_fetchRecords p) rfl
  | readTrace p => exact keepsNext_request rfl (fun _ => keeps_readTrace p) rfl
  | armCapture p => exact keepsNext_request rfl (fun _ => keeps_armCapture p) rfl
  | releaseCapture p => exact keepsNext_request rfl (fun _ => keeps_capture _) rfl
  | stageRecipe p => exact keepsNext_request rfl (fun _ => keeps_stageRecipe p) rfl
  | discardStaged p => exact keepsNext_request rfl (fun _ => keeps_discardStaged) rfl
  | setDisposition p => exact keepsNext_request rfl (fun _ => keeps_setDisposition rfl p) rfl
  | setGeometry p => exact keepsNext_request rfl (fun _ => keeps_setGeometry rfl rfl p) rfl
  | setHeadService p => exact keepsNext_request rfl (fun _ => keeps_setHeadService p) rfl
  | setLineParameters p => exact keepsNext_request rfl (fun _ => keeps_setLineParameters rfl p) rfl
  | setAlertMask p => exact keepsNext_request rfl (fun _ => keeps_setAlertMask rfl rfl p) rfl
  | setZeroReference p => exact keepsNext_request rfl (fun _ => keeps_setZero rfl) rfl
  | setTraceMode p => exact keepsNext_request rfl (fun _ => keeps_setTraceMode rfl p) rfl
  | commitSettings p => exact keepsNext_request rfl (fun _ => keeps_commitSettings rfl) rfl
  | startRun p lp => exact keepsNext_request rfl (fun _ => keeps_startRun rfl p lp) rfl
  | stopRun a p => exact ⟨_, rfl, keeps_serveAt a _ p _ (fun _ => keeps_stopRun rfl) rfl⟩
  | hold a p => exact ⟨_, rfl, keeps_serveAt a _ p _ (fun _ => keeps_holdBlock) rfl⟩
  | resume a p => exact ⟨_, rfl, keeps_serveAt a _ p _ (fun _ => keeps_resumeBlock) rfl⟩
  | requestChangeover p lp => exact keepsNext_request rfl (fun _ => keeps_requestChangeover rfl p lp) rfl
  | cancelChangeover p => exact keepsNext_request rfl (fun _ => keeps_cancelChangeover rfl) rfl
  | insertGaps p => exact keepsNext_request rfl (fun _ => keeps_insertGaps p) rfl
  | clearFault p lp => exact keepsNext_request rfl (fun _ => keeps_clearFault rfl rfl lp) rfl
  | homeLift p lp => exact keepsNext_request rfl (fun _ => keeps_homeLift lp) rfl
  | ackAlerts p => exact keepsNext_request rfl (fun _ => keeps_ackAlerts rfl p) rfl
  | clearHeadStats p => exact keepsNext_request rfl (fun _ => keeps_clearHeadStats p) rfl
  | linkTimeout =>
    exact keepsNext_running rfl (keeps_ite
      ((keeps_port _ rfl).trans (keeps_setHold _ _ (fun _ a => HoldReason.noConfusion a))) (.refl s))
  | commitWriteEnd =>
    refine keepsNext_running rfl ?_
    split
    · rename_i i hi
      exact keeps_writeEnd rfl i hi
    · exact .refl s
  | rejOutPulseEnd => exact keepsNext_running rfl (keeps_ite (keeps_reject _ rfl) (.refl s))
  | homeStep b => exact keepsNext_running rfl (keeps_homeStep b)
  | homeFailure => exact keepsNext_running rfl (keeps_ite ((keeps_inputs _).trans keeps_homeFails) (.refl s))
  | seekStep => exact keepsNext_running rfl keeps_seekStep
  | settleEnd => exact keepsNext_running rfl (keeps_ite keeps_settleEnd (.refl s))
  | exchangeStart => exact keepsNext_running rfl (keeps_scanTurn rfl)
  | replyReceived f => exact keepsNext_running rfl (keeps_whenInFlight _ (fun _ => keeps_endExchange rfl _ _))
  | replyWindowExpiry => exact keepsNext_running rfl (keeps_whenInFlight _ (fun _ => keeps_endExchange rfl _ _))
  | replyGapTimeout => exact keepsNext_running rfl (keeps_whenInFlight _ (fun _ => keeps_endExchange rfl _ _))
  | confirmDeadline => exact keepsNext_running rfl (keeps_confirmDeadlines rfl)
  | zeroStale => exact keepsNext_running rfl (keeps_ite keeps_zeroStaleTest (.refl s))
  | batchEnd lp =>
    refine keepsNext_running rfl ?_
    exact keeps_ite ((keeps_sampleLift lp).trans (keeps_batchEnd (fun a => Bool.noConfusion a))) (keeps_sampleLift lp)
  | retiringEmptied lp =>
    refine keepsNext_running rfl ?_
    simp only
    split
    · rename_i h
      simp only [Bool.and_eq_true, beq_iff_eq] at h
      exact ((keeps_sampleLift lp).trans (keeps_retiringEmptied h.1)).trans keeps_waitTurretEnd
    · exact keeps_sampleLift lp
  | waitTurretEnd lp => exact keepsNext_running rfl ((keeps_sampleLift lp).trans keeps_waitTurretEnd)
  | drainEnd => exact keepsNext_running rfl keeps_drainEnd
  | autoMarkOut p => exact keepsNext_running rfl (keeps_autoMarkOut p)
  | linkMarkOut p => exact keepsNext_running rfl (keeps_linkMarkOut p)
  | captureFrozen => exact keepsNext_running rfl keeps_captureFreezes
  | millisecondTick => exact keepsNext_running rfl ((keeps_time _ rfl).trans (keeps_port _ rfl))
  | lineReplySent =>
    refine keepsNext_running rfl ?_
    split
    · exact keeps_port _ rfl
    · exact .refl s

end Sys2Proof.Machine
end

