-- ==== Sys2Proof/Proofs/Pitch.lean ====
section
/-! PROOFS. How a forward pitch is taken apart: the state its acts begin from, the acts one after another, and
which entries stand in the Track after each (R13, R15). -/

-- One declaration is checked after another: side by side they take more threads than the memory limit allows.
set_option Elab.async false

namespace Sys2Proof.Machine

variable {s t u : State} {rs : RunState} {d : Decision} {pins : PitchPins} {a : PitchAct} {l : List PitchAct}

/-! ### The pitch and its acts -/

theorem exec_forwardPitch (order : List PitchAct) (h : s.power = .running) :
    exec (.forwardPitch pins order) s = .next (forwardPitch pins order s) :=
  congrArg Host.Outcome.next (whenRunning_of_running _ h)

/-- The acts of a pitch taken one after another. -/
def takeActs (rs : RunState) (d : Decision) (pins : PitchPins) (l : List PitchAct) (s : State) : State :=
  l.foldl (pitchAct rs d pins) s

@[simp] theorem takeActs_nil : takeActs rs d pins [] s = s := rfl

@[simp] theorem takeActs_cons : takeActs rs d pins (a :: l) s = takeActs rs d pins l (pitchAct rs d pins s a) := rfl

theorem takeActs_append (l m : List PitchAct) :
    takeActs rs d pins (l ++ m) s = takeActs rs d pins m (takeActs rs d pins l s) := List.foldl_append

/-- Where the acts of a pitch begin. -/
def pitchStart (pins : PitchPins) (s : State) : State := atStations (samplePitch pins s)

/-- Where the acts of a pitch end. -/
def pitchEnd (pins : PitchPins) (order : List PitchAct) (s : State) : State :=
  takeActs s.run.state s.gate.decision pins (pitchActs order) (pitchStart pins s)

/-- A pitch of a Track that is not frozen: its acts, then the test of R58 and the standing decision. -/
theorem forwardPitch_moving (order : List PitchAct) (h : frozen s = false) :
    forwardPitch pins order s = remakeDecision (waitTurretEnd (pitchEnd pins order s)) := by
  simp only [forwardPitch, h, Bool.false_eq_true, if_false]
  rfl

/-- A pitch of a frozen Track moves the counters and takes the deadlines (R20, R140). -/
theorem forwardPitch_frozen (order : List PitchAct) (h : frozen s = true) :
    forwardPitch pins order s = remakeDecision (confirmDeadlines (countPitch (samplePitch pins s))) := by
  simp only [forwardPitch, h, if_true]

/-! ### Where the acts begin -/

/-- The test of R130 changes the Check Station and the Alert Latch alone. -/
theorem zeroStaleTest_frame (s : State) :
    zeroStaleTest s = { s with check := (zeroStaleTest s).check, alerts := (zeroStaleTest s).alerts } := by
  unfold zeroStaleTest
  split
  · simp only
    split <;> rfl
  · rfl

theorem zeroPitch_frame (s : State) :
    zeroPitch s = { s with check := (zeroPitch s).check, alerts := (zeroPitch s).alerts } := by
  unfold zeroPitch
  rw [zeroStaleTest_frame]

/-- Beside the Check Station and its alert, only the counters and the positions have moved where acts begin. -/
theorem pitchStart_frame (pins : PitchPins) (s : State) :
    pitchStart pins s = { advance (countPitch (samplePitch pins s)) with
      check := (pitchStart pins s).check, alerts := (pitchStart pins s).alerts } := by
  unfold pitchStart atStations
  simp only
  split
  · rw [zeroPitch_frame]
  · rfl

/-- The advance of one entry (R15). -/
def Entry.moved (e : Entry) : Entry := { e with position := e.position + 1 }

@[simp] theorem pitchStart_run : (pitchStart pins s).run = s.run := by rw [pitchStart_frame]; rfl
@[simp] theorem pitchStart_track : (pitchStart pins s).track = { s.track with
    pitchCount := s.track.pitchCount + 1, pocket := s.track.pocket + 1
    entries := s.track.entries.map Entry.moved } := by rw [pitchStart_frame]; rfl
@[simp] theorem pitchStart_recipes : (pitchStart pins s).recipes = s.recipes := by rw [pitchStart_frame]; rfl
@[simp] theorem pitchStart_reject : (pitchStart pins s).reject = s.reject := by rw [pitchStart_frame]; rfl
@[simp] theorem pitchStart_gate : (pitchStart pins s).gate = s.gate := by rw [pitchStart_frame]; rfl
@[simp] theorem pitchStart_link : (pitchStart pins s).link = s.link := by rw [pitchStart_frame]; rfl
@[simp] theorem pitchStart_heads : (pitchStart pins s).heads = s.heads := by rw [pitchStart_frame]; rfl
@[simp] theorem pitchStart_capping : (pitchStart pins s).capping = s.capping := by rw [pitchStart_frame]; rfl
@[simp] theorem pitchStart_capture : (pitchStart pins s).capture = s.capture := by rw [pitchStart_frame]; rfl
@[simp] theorem pitchStart_timeBase : (pitchStart pins s).timeBase = s.timeBase := by rw [pitchStart_frame]; rfl
@[simp] theorem pitchStart_params : (pitchStart pins s).params = s.params := by rw [pitchStart_frame]; rfl
@[simp] theorem pitchStart_dispTable : (pitchStart pins s).dispTable = s.dispTable := by rw [pitchStart_frame]; rfl

/-- The levels of the inputs are read and the counters move on before the acts. -/
theorem pitchStart_keeps : Keeps { Scope.actsNoJoin with stat := false, fix := false, adm := false, pit := false } s
    (pitchStart pins s) where
  pending := by rw [pitchStart_frame]; rfl
  power := by rw [pitchStart_frame]; rfl
  fault _ h := by rwa [pitchStart_run]
  fewHeads _ h := by rw [pitchStart_frame]; exact h
  decision a := Bool.noConfusion a
  positive a := Bool.noConfusion a
  confirms a := Bool.noConfusion a
  active h := by rwa [pitchStart_recipes]
  lstop h := by rw [pitchStart_frame]; exact h
  gateOut h := by rw [pitchStart_frame]; exact h
  alert h := by
    unfold pitchStart atStations
    simp only
    split
    · exact (keeps_zeroPitch (o := Scope.acts)).alert h
    · exact h
  phase h := by rw [pitchStart_frame]; exact h
  hold h := by rw [pitchStart_frame]; exact h
  banks h := by rw [pitchStart_frame]; exact h
  fixed h := by rw [pitchStart_frame]; exact h
  queue h := by rw [pitchStart_frame]; exact h
  ring h := by rw [pitchStart_frame]; exact h
  ranges h := by
    unfold pitchStart atStations
    simp only
    split
    · exact (keeps_zeroPitch (o := Scope.acts)).ranges h
    · exact h
  params h := by rw [pitchStart_frame]; exact h
  geometries h := by rw [pitchStart_frame]; exact h
  track := by
    rintro ⟨hpos, hcounts⟩
    unfold PositionsFall CountsMatch at *
    simp only [pitchStart_track, List.pairwise_map, List.countP_map]
    exact ⟨hpos.imp (fun h => Nat.succ_lt_succ h), hcounts⟩
  stations a := Bool.noConfusion a
  joins a := Bool.noConfusion a
  settings a := Bool.noConfusion a
  causes _ c h := by rwa [pitchStart_run]
  pit a := Bool.noConfusion a
  closed _ h := by
    unfold pitchStart atStations
    simp only
    split
    · exact (keeps_zeroPitch (o := Scope.acts)).closed rfl h
    · exact h
  rest h a := by
    rw [pitchStart_run] at a
    simp [h a]
  awake a := Bool.noConfusion a
  pocket a := Bool.noConfusion a

/-! ### The infeed -/

/-- What the infeed act, still to come, finds: where it admits, position 0 is empty, ACTIVE holds a recipe, and
the run state is one in which a jar may join. -/
def InfeedReady (d : Decision) (l : List PitchAct) (s : State) : Prop :=
  PitchAct.infeed ∈ l → d = .admitJar →
    (∀ e ∈ s.track.entries, 0 < e.position) ∧ s.recipes.active.isSome = true ∧ Awake s.run.state

theorem pitchStart_positive : ∀ e ∈ (pitchStart pins s).track.entries, 0 < e.position := by
  simp [Entry.moved]

/-- ADMIT stands only in RUN (R38). -/
theorem run_of_admitJar (hg : GateAndBanks s) (hd : s.gate.decision = .admitJar) : s.run.state = .run := by
  have h := hg.1
  rw [DecisionStands, hd] at h
  unfold decideGate at h
  by_contra hr
  simp [hr] at h

/-- A gap is spent only in RUN (R38). -/
theorem run_of_gap (hg : GateAndBanks s) (hd : s.gate.decision = .gap) : s.run.state = .run := by
  have h := hg.1
  rw [DecisionStands, hd] at h
  unfold decideGate at h
  by_contra hr
  simp [hr] at h

theorem infeedReady_pitchStart (hg : GateAndBanks s) (l : List PitchAct) :
    InfeedReady s.gate.decision l (pitchStart pins s) := by
  intro _ hd
  have hr := run_of_admitJar hg hd
  refine ⟨pitchStart_positive, ?_, ?_⟩
  · rw [pitchStart_recipes]; exact hg.2.2.2 (by simp [hr])
  · rw [pitchStart_run]; simp [Awake, hr]

/-- One act keeps what the acts of a pitch keep. -/
theorem keeps_act (h : InfeedReady d (a :: l) s) : Keeps Scope.acts s (pitchAct rs d pins s a) :=
  keeps_pitchAct rs d pins a (fun _ _ => rfl) (fun _ => rfl) rfl (fun _ _ => rfl) (fun ha => h (by simp [ha]))

/-- An act that is not that of the infeed lets none join. -/
theorem keeps_act_noJoin (ha : a ≠ .infeed) : Keeps Scope.actsNoJoin s (pitchAct rs d pins s a) :=
  keeps_pitchAct rs d pins a (fun e => absurd e ha) (fun _ => rfl) rfl (fun _ _ => rfl) (fun e => absurd e ha)

theorem infeedReady_act (hn : (a :: l).Nodup) (h : InfeedReady d (a :: l) s) :
    InfeedReady d l (pitchAct rs d pins s a) := by
  intro hi hd
  have k := keeps_act_noJoin (rs := rs) (d := d) (pins := pins) (s := s)
    (fun e : a = .infeed => (List.nodup_cons.1 hn).1 (e ▸ hi))
  obtain ⟨hpos, hact, hawake⟩ := h (List.mem_cons_of_mem _ hi) hd
  exact ⟨k.positive rfl hpos, k.active hact, k.awake rfl rfl hawake⟩

/-- Induction along the acts of a pitch. The motive may speak of the acts still to come. -/
theorem takeActs_induction {P : List PitchAct → State → Prop}
    (act : ∀ a l s, (a :: l).Nodup → InfeedReady d (a :: l) s → P (a :: l) s → P l (pitchAct rs d pins s a))
    (l : List PitchAct) : ∀ s, l.Nodup → InfeedReady d l s → P l s → P [] (takeActs rs d pins l s) := by
  induction l with
  | nil => exact fun _ _ _ h => h
  | cons a l ih =>
    exact fun s hn hi h => ih _ (List.nodup_cons.1 hn).2 (infeedReady_act hn hi) (act a l s hn hi h)

/-! ### The entries after an act -/

/-- What the entry of an admission from `s` keeps from then on: its label but for recipe and batch, which a swap
of the same admission may set (R13, R54). -/
def AdmittedLabel (pins : PitchPins) (s : State) (x : Label) : Prop :=
  x.jar = s.track.nextJar ∧ x.pocket = s.track.pocket ∧ x.position = 0 ∧ x.admissionPitch = s.track.pitchCount
    ∧ x.admissionTime = s.timeBase ∧ x.fillTemp = fillTempOf pins.irt.toNat

/-- The state in which the entry of an admission is made: after the swap of R54, if there is one. -/
theorem newEntry_label (irt : Nat) (s : State) : (newEntry irt s).label =
    ⟨s.track.nextJar, s.track.pocket, 0, (recipeOf .active s).id, s.run.batchNumber, s.track.pitchCount, s.timeBase,
      fillTempOf irt⟩ := rfl

/-- What no operation inside a pitch but an admission changes. -/
theorem Keeps.fixedFields {o : Scope} (k : Keeps o s t) (h : o.fix = true) :
    t.track.pocket = s.track.pocket ∧ t.track.pitchCount = s.track.pitchCount ∧ t.timeBase = s.timeBase
      ∧ t.track.geometry = s.track.geometry ∧ t.params = s.params ∧ t.dispTable = s.dispTable := by
  have h := k.settings h
  simp only [State.fixed, Fixed.mk.injEq] at h
  obtain ⟨_, h2, h3, h4, _, _, _, _, _, h10, _, _, _, h14, _, h16⟩ := h
  exact ⟨h14, h16, h10, h3, h2, h4⟩

/-- The label of the entry an admission makes. -/
theorem admission_label (s : State) :
    AdmittedLabel pins s (newEntry pins.irt.toNat (admissionSwap s)).label := by
  have k : Keeps Scope.actsNoJoin s (admissionSwap s) := keeps_admissionSwap
  obtain ⟨hpocket, hcount, htime, _⟩ := k.fixedFields rfl
  exact ⟨(k.joins rfl).1, hpocket, rfl, hcount, htime, rfl⟩

/-- What is done after the entry has joined: the writes of R34 and the count of R29. -/
theorem keeps_afterJoin (e : Entry) (s : State) :
    Keeps { Scope.actsNoJoin with pit := false } s (countAdmission (faultAdmitted e s)) :=
  (keeps_faultAdmitted e).trans (keeps_countAdmission (fun a => Bool.noConfusion a))

/-- An admission raises the next jar number, and its entry is the only one that joins. -/
theorem admission_joins (s : State) :
    (admission pins.irt.toNat s).track.nextJar = nextJarAfter s.track.nextJar
      ∧ ((admission pins.irt.toNat s).track.entries.map Entry.label).Sublist
        (s.track.entries.map Entry.label ++ [(newEntry pins.irt.toNat (admissionSwap s)).label]) := by
  have k : Keeps Scope.actsNoJoin s (admissionSwap s) := keeps_admissionSwap
  obtain ⟨hnext, hsub⟩ := k.joins rfl
  obtain ⟨hnext', hsub'⟩ := (keeps_afterJoin (newEntry pins.irt.toNat (admissionSwap s))
    { admissionSwap s with
        track.entries := (admissionSwap s).track.entries ++ [newEntry pins.irt.toNat (admissionSwap s)]
        track.activeCount := (admissionSwap s).track.activeCount + 1
        track.nextJar := nextJarAfter (admissionSwap s).track.nextJar
        recipes.firstMark := false }).joins rfl
  refine ⟨?_, ?_⟩
  · rw [← hnext]; exact hnext'
  · refine hsub'.trans ?_
    simp only [List.map_append, List.map_cons, List.map_nil]
    exact hsub.append_right _

/-- The infeed act of an admitting pocket with a jar is the admission (R13, R41). -/
theorem actAtInfeed_admits (hd : d = .admitJar) (hj : pins.jarIn = true) :
    pitchAct rs d pins s .infeed = admission pins.irt.toNat s := by
  simp [pitchAct, actAtInfeed, hd, hj]

/-- Any other act lets no entry join. -/
theorem act_noJoin (h : ¬(a = .infeed ∧ d = .admitJar ∧ pins.jarIn = true)) :
    Keeps Scope.actsNoJoin s (pitchAct rs d pins s a) := by
  by_cases ha : a = .infeed
  · subst ha
    cases hd : d with
    | admitJar =>
      have hj : pins.jarIn = false := by simpa [hd] using h
      simpa [pitchAct, actAtInfeed, hj] using ({} : Keeps Scope.actsNoJoin s _)
    | closed | gap =>
      exact keeps_pitchAct _ _ _ _ (fun _ a => nomatch a) (fun _ => rfl) rfl (fun _ _ => rfl) (fun _ a => nomatch a)
  · exact keeps_act_noJoin ha

/-- Between `u` and `v` no entry has joined the Track. -/
def NoneJoined (u v : State) : Prop :=
  v.track.nextJar = u.track.nextJar ∧ (v.track.entries.map Entry.label).Sublist (u.track.entries.map Entry.label)

/-- Between `u` and `v` the entry of one admission has joined, and no other. -/
def OneJoined (pins : PitchPins) (u v : State) : Prop :=
  v.track.nextJar = nextJarAfter u.track.nextJar ∧ ∃ x, AdmittedLabel pins u x
    ∧ (v.track.entries.map Entry.label).Sublist (u.track.entries.map Entry.label ++ [x])

/-- The pitch has admitted: the decision was ADMIT, JAR_IN showed a jar, and the infeed act is over. -/
def Admits (d : Decision) (pins : PitchPins) (l : List PitchAct) : Prop :=
  d = .admitJar ∧ pins.jarIn = true ∧ PitchAct.infeed ∉ l

/-- Which entries have joined, with the acts `l` still to come. -/
structure JoinedAmid (d : Decision) (pins : PitchPins) (u : State) (l : List PitchAct) (v : State) : Prop where
  fixed : v.fixed = u.fixed
  one : Admits d pins l → OneJoined pins u v
  none : ¬Admits d pins l → NoneJoined u v

theorem NoneJoined.keeps {o : Scope} (h : NoneJoined u s) (k : Keeps o s t) (ho : o.adm = true) : NoneJoined u t :=
  ⟨(k.joins ho).1.trans h.1, (k.joins ho).2.trans h.2⟩

theorem OneJoined.keeps {o : Scope} (h : OneJoined pins u s) (k : Keeps o s t) (ho : o.adm = true) :
    OneJoined pins u t := by
  obtain ⟨hnext, x, hx, hsub⟩ := h
  exact ⟨(k.joins ho).1.trans hnext, x, hx, (k.joins ho).2.trans hsub⟩

theorem AdmittedLabel.ofFixed {x : Label} (h : AdmittedLabel pins s x) (hf : s.fixed = u.fixed)
    (hn : s.track.nextJar = u.track.nextJar) : AdmittedLabel pins u x := by
  simp only [State.fixed, Fixed.mk.injEq] at hf
  obtain ⟨_, _, _, _, _, _, _, _, _, htime, _, _, _, hpocket, _, hcount⟩ := hf
  unfold AdmittedLabel at *
  rwa [← hn, ← hpocket, ← hcount, ← htime]

theorem act_joinedAmid (hn : (a :: l).Nodup) (hi : InfeedReady d (a :: l) s) (h : JoinedAmid d pins u (a :: l) s) :
    JoinedAmid d pins u l (pitchAct rs d pins s a) := by
  have hfix : (pitchAct rs d pins s a).fixed = u.fixed := ((keeps_act hi).settings rfl).trans h.fixed
  by_cases ha : a = .infeed ∧ d = .admitJar ∧ pins.jarIn = true
  · obtain ⟨rfl, hd, hj⟩ := ha
    have hnone := h.none fun hA => hA.2.2 (List.mem_cons_self ..)
    obtain ⟨hnext, hsub⟩ := admission_joins (pins := pins) s
    refine ⟨hfix, fun _ => ?_, fun hA => absurd ⟨hd, hj, (List.nodup_cons.1 hn).1⟩ hA⟩
    rw [actAtInfeed_admits hd hj]
    exact ⟨hnext.trans (congrArg nextJarAfter hnone.1), _, (admission_label s).ofFixed h.fixed hnone.1,
      hsub.trans (hnone.2.append_right _)⟩
  · have k := act_noJoin (rs := rs) (s := s) ha
    have hiff : Admits d pins (a :: l) ↔ Admits d pins l := by
      constructor
      · exact fun hA => ⟨hA.1, hA.2.1, fun hm => hA.2.2 (List.mem_cons_of_mem _ hm)⟩
      · exact fun hA => ⟨hA.1, hA.2.1, fun hm => (List.mem_cons.1 hm).elim
          (fun e => ha ⟨e.symm, hA.1, hA.2.1⟩) hA.2.2⟩
    exact ⟨hfix, fun hA => (h.one (hiff.2 hA)).keeps k rfl, fun hA => (h.none (fun q => hA (hiff.1 q))).keeps k rfl⟩

theorem joinedAmid_refl (hl : PitchAct.infeed ∈ l) : JoinedAmid d pins u l u :=
  ⟨rfl, fun h => absurd hl h.2.2, fun _ => ⟨rfl, List.Sublist.refl _⟩⟩

theorem pitchEnd_joined (order : List PitchAct) (hg : GateAndBanks s) :
    JoinedAmid s.gate.decision pins (pitchStart pins s) [] (pitchEnd pins order s) := by
  obtain ⟨hn, hall⟩ := pitchActs_each_once order
  exact takeActs_induction (fun a l s hn hi hp => act_joinedAmid hn hi hp) _ _ hn (infeedReady_pitchStart hg _)
    (joinedAmid_refl (hall _))

end Sys2Proof.Machine
end

