-- ==== Sys2Proof/Proofs/TrackInvariants.lean ====
section
/-! PROOFS. What every step keeps of the Jar Track: positions, counts, geometry, what the stations gave each
entry, the pockets, and the jar numbers (R3, R6, R9, R11, R18, R104, R137). -/

-- One declaration is checked after another: side by side they take more threads than the memory limit allows.
set_option Elab.async false

namespace Sys2Proof.Machine

variable {s t u : State} {rs : RunState} {d : Decision} {pins : PitchPins} {a : PitchAct} {l : List PitchAct}
  {c : Instr}

/-! ### Positions, counts, geometry and stations -/

/-- What TrackKept says of the Track but for the pockets. -/
structure TrackSound (s : State) : Prop where
  positions : PositionsFall s
  counts : CountsMatch s
  geometries : GeometriesOk s
  stations : StationsPassed s

theorem TrackSound.keeps {o : Scope} (h : TrackSound s) (k : Keeps o s t) (ho : o.stat = true) : TrackSound t where
  positions := (k.track ⟨h.positions, h.counts⟩).1
  counts := (k.track ⟨h.positions, h.counts⟩).2
  geometries := k.geometries h.geometries
  stations := (stationsAt_iff t).1 (k.stations ho _ _ _ h.geometries ((stationsAt_iff s).2 h.stations))

theorem TrackSound.ofEmpty (he : t.track.entries = []) (ha : t.track.activeCount = 0)
    (hr : t.track.retiringCount = 0) (hg : GeometriesOk t) : TrackSound t where
  positions := by simp [PositionsFall, he]
  counts := by simp [CountsMatch, he, ha, hr]
  geometries := hg
  stations := by simp [StationsPassed, he]

/-! ### What the acts at x, k and j give (R16, R104, R137) -/

theorem eq_of_position_eq (h : PositionsFall s) {e f : Entry} (he : e ∈ s.track.entries) (hf : f ∈ s.track.entries)
    (hp : e.position = f.position) : e = f := by
  have hnodup : (s.track.entries.map (·.position)).Nodup := List.pairwise_map.2 (h.imp (fun hlt => Nat.ne_of_gt hlt))
  exact List.inj_on_of_nodup_map hnodup he hf hp

theorem entryAt_none {pos : Nat} (h : entryAt pos s = none) : ∀ e ∈ s.track.entries, e.position ≠ pos := by
  simpa [entryAt] using h

/-- The entry at a position is found there (R9). -/
theorem entryAt_eq (h : PositionsFall s) {e : Entry} (he : e ∈ s.track.entries) : entryAt e.position s = some e := by
  cases hf : entryAt e.position s with
  | none => exact absurd rfl (entryAt_none hf e he)
  | some f => rw [eq_of_position_eq h (entryAt_mem hf) he (entryAt_position hf)]

/-- A change of the entry of one jar: what stands after it is an entry from before it, changed where it is the
entry at the jar's position. -/
theorem mem_modEntry_of_grows (h : PositionsFall s) {e f : Entry} {F : Entry → Entry} (he : e ∈ s.track.entries)
    (hF : ∀ g, Grows g (F g)) (hf : f ∈ (modEntry e.jar F s).track.entries) :
    ∃ g ∈ s.track.entries, Grows g f ∧ (g.position = e.position → f = F g) := by
  obtain ⟨g, hg, rfl⟩ := List.mem_map.1 hf
  refine ⟨g, hg, ?_⟩
  by_cases hj : g.jar = e.jar
  · simp only [hj, beq_self_eq_true, if_true]
    exact ⟨hF g, fun _ => trivial⟩
  · simp only [hj, beq_iff_eq, if_false]
    exact ⟨{}, fun hp => absurd (congrArg Entry.jar (eq_of_position_eq h hg he hp)) hj⟩

/-- After the act at x an entry there has a capping class. -/
theorem atX_stations (h : PositionsFall s) {dx dk dj : Bool} (hg : GeometriesOk s) (hs : StationsAt dx dk dj s) :
    StationsAt true dk dj (arrivalAt s.track.geometry.x arriveX s) := by
  unfold arrivalAt
  split
  · rename_i e he
    have k : Keeps Scope.acts (modEntry e.jar (fun f => { f with
        capClass := some (settledClass (hasFinal e s) (recipeOf f.bank s) f) }) s) (arriveX e s) :=
      ((keeps_releaseBinding _ _).trans (keeps_displaceFetchOf _ _)).trans (keeps_leaveScanIfMarked _)
    refine k.stations rfl _ _ _ hg (fun f hf => ?_)
    obtain ⟨g, hgm, hgrow, hat⟩ := mem_modEntry_of_grows h (entryAt_mem he)
      (grows_settled (hasFinal e s) (fun f => recipeOf f.bank s)) hf
    obtain ⟨h1, h2, h3, h4, h5⟩ := hgrow.entryAt _ dx dk dj (hs g hgm)
    refine ⟨h1, h2, fun hx => ?_, h4, h5⟩
    rcases hx with hx | ⟨hx, _⟩
    · exact h3 (.inl hx)
    · rw [hat ((hgrow.position.symm.trans hx.symm).trans (entryAt_position he).symm)]; rfl
  · rename_i he
    intro f hf
    obtain ⟨h1, h2, h3, h4, h5⟩ := hs f hf
    exact ⟨h1, h2, fun hx => h3 (hx.imp_right fun hx => absurd hx.1.symm (entryAt_none he f hf)), h4, h5⟩

/-! ### The check (R120, R129) -/

/-- What the check writes into the entry of a jar before its class is handed on. -/
def verdict (defl : Nat) (s : State) (e : Entry) : Entry :=
  judge defl s.timeBase s.check.z (zeroIsStale s) (recipeOf e.bank s) e

/-- What the entry copies from the Disposition Table (R129). -/
def Entry.assigned (q : DispEntry) (e : Entry) : Entry :=
  { e with action := some q.action, policy := some q.policy, alertFlag := q.alert }

/-- The final class handed on to the Head Map, the Alert Latch and the Capture Unit (R67, R129, R154). -/
def handOn (p : Head) (c : FinalClass) (alert : Bool) (s : State) : State :=
  captureSees c (if alert then latchAlert .classAlert (headTakesClass p c s) else headTakesClass p c s)

theorem grows_verdict (defl : Nat) (s : State) (e : Entry) : Grows e (verdict defl s e) :=
  grows_judge defl s.timeBase s.check.z (zeroIsStale s) (fun e => recipeOf e.bank s) e

theorem handClass_eq (e : Entry) (c : FinalClass) (s : State) :
    handClass e c s = handOn e.pocket c s.dispTable[classIx c].alert
      (modEntry e.jar (Entry.assigned s.dispTable[classIx c]) s) := rfl

/-- The check as one change of the entry and one hand-over. -/
theorem checkJar_eq (defl : Nat) {e : Entry} {c : FinalClass} (hc : (verdict defl s e).finalClass = some c) :
    checkJar defl e s = handOn e.pocket c s.dispTable[classIx c].alert
      (modEntry e.jar (fun g => (verdict defl s g).assigned s.dispTable[classIx c]) s) := by
  have hl := (grows_verdict defl s e).label
  have hcheck : checkJar defl e s = handClass (verdict defl s e) c (modEntry e.jar (verdict defl s) s) := by
    unfold checkJar
    change (match (verdict defl s e).finalClass with | some c => _ | none => _) = _
    rw [hc]
    rfl
  rw [hcheck, handClass_eq, show (verdict defl s e).jar = e.jar from congrArg Label.jar hl,
    show (verdict defl s e).pocket = e.pocket from congrArg Label.pocket hl,
    modEntry_modEntry _ _ _ (fun g => congrArg Label.jar (grows_verdict defl s g).label)]
  rfl

theorem keeps_handOn {o : Scope} (p : Head) (c : FinalClass) (b : Bool) : Keeps o s (handOn p c b s) :=
  (keeps_ite ((keeps_headTakesClass p c).trans (keeps_latchAlert _)) (keeps_headTakesClass p c)).trans
    (keeps_captureSees c)

/-- The check of a jar with a capping class, timed where the class is CAPPED_OK, gives a final class. -/
theorem verdict_finalClass_isSome (defl : Nat) (s : State) {e : Entry} (hcap : e.capClass.isSome = true)
    (htimed : CappedTimed e) : (verdict defl s e).finalClass.isSome = true := by
  obtain ⟨cc, hcc⟩ := Option.isSome_iff_exists.1 hcap
  unfold verdict judge
  simp only
  cases hseal : e.sealTime with
  | some _ => simp [hcc]
  | none =>
    have : cc ≠ .cappedOk := fun h => by simp [CappedTimed, hcc, h, hseal] at htimed
    cases cc <;> simp [hcc, CapClass.final] at this ⊢

theorem Grows.assigned {e f : Entry} (h : Grows e f) (q : DispEntry) : Grows e (f.assigned q) where
  position := h.position
  bank := h.bank
  label := h.label
  cap := h.cap
  action := fun _ => rfl
  seated := h.seated
  capped := h.capped

/-- The check gives the entry at k its action (R129). -/
theorem checkJar_stations {defl : Nat} {e : Entry} (h : PositionsFall s) {dx dk dj : Bool} (hg : GeometriesOk s)
    (hs : StationsAt dx dk dj s) (he : e ∈ s.track.entries) (hp : e.position = s.track.geometry.k) :
    StationsAt dx true dj (checkJar defl e s) := by
  obtain ⟨_, htimed, hcap, _⟩ := hs e he
  have hxk := ((geometryOk_iff _).1 hg.1).2.2.2.1.1
  obtain ⟨c, hc⟩ := Option.isSome_iff_exists.1
    (verdict_finalClass_isSome defl s (hcap (.inl (by omega))) htimed)
  rw [checkJar_eq defl hc]
  refine (keeps_handOn (o := Scope.acts) _ _ _).stations rfl _ _ _ hg (fun f hf => ?_)
  obtain ⟨g, hgm, hgrow, hat⟩ := mem_modEntry_of_grows h he
    (fun g => (grows_verdict defl s g).assigned s.dispTable[classIx c]) hf
  obtain ⟨h1, h2, h3, h4, h5⟩ := hgrow.entryAt _ dx dk dj (hs g hgm)
  refine ⟨h1, h2, h3, fun hk => ?_, h5⟩
  rcases hk with hk | ⟨hk, _⟩
  · exact h4 (.inl hk)
  · rw [hat ((hgrow.position.symm.trans hk.symm).trans hp.symm)]; rfl

/-! ### Departures at k and j (R16, R17, R137) -/

@[simp] theorem removeEntry_entries (e : Entry) (s : State) :
    (removeEntry e s).track.entries = s.track.entries.filter (fun f => f.position != e.position) := by
  unfold removeEntry
  cases e.bank <;> rfl

/-- What follows the removal of the entry in its departure. -/
theorem keeps_afterRemoval {o : Scope} (disp : Disposition) (e : Entry) (s : State) :
    Keeps o (removeEntry e s) (depart disp e s) := by
  have hleave : Keeps o (removeEntry e s) (leaveTrack e s) := by
    unfold leaveTrack
    split
    · rename_i h
      simp only [Bool.and_eq_true, beq_iff_eq] at h
      refine keeps_retiringEmptied ?_
      simp [removeEntry, h.1, h.2]
    · exact .refl _
  exact ((hleave.trans (keeps_handToRecords _ _)).trans keeps_waitTurretEnd).trans keeps_drainEnd

/-- After a departure no entry stands where the jar stood. -/
theorem depart_position (disp : Disposition) (e : Entry) (s : State) :
    ∀ f ∈ (depart disp e s).track.entries, f.position ≠ e.position := by
  intro f hf
  have hsub := ((keeps_afterRemoval (o := Scope.actsNoJoin) disp e s).joins rfl).2
  obtain ⟨g, hg, hgf⟩ := List.mem_map.1 (hsub.subset (List.mem_map_of_mem hf))
  rw [← show g.position = f.position from congrArg Label.position hgf]
  rw [removeEntry_entries, List.mem_filter] at hg
  simpa using hg.2

/-- An operation in which no entry joins leaves a position empty. -/
theorem Keeps.noneAt {o : Scope} (k : Keeps o s t) (h : o.adm = true) {pos : Nat}
    (hs : ∀ f ∈ s.track.entries, f.position ≠ pos) : ∀ f ∈ t.track.entries, f.position ≠ pos := by
  intro f hf
  obtain ⟨g, hg, hgf⟩ := List.mem_map.1 ((k.joins h).2.subset (List.mem_map_of_mem hf))
  rw [← show g.position = f.position from congrArg Label.position hgf]
  exact hs g hg

theorem StationsAt.emptyK {dx dk dj : Bool} (h : StationsAt dx dk dj s)
    (hk : ∀ f ∈ s.track.entries, f.position ≠ s.track.geometry.k) : StationsAt dx true dj s := by
  intro f hf
  obtain ⟨h1, h2, h3, h4, h5⟩ := h f hf
  exact ⟨h1, h2, h3, fun a => h4 (a.imp_right fun a => absurd a.1.symm (hk f hf)), h5⟩

theorem StationsAt.emptyJ {dx dk dj : Bool} (h : StationsAt dx dk dj s)
    (hj : ∀ f ∈ s.track.entries, f.position ≠ s.track.geometry.j) : StationsAt dx dk true s := by
  intro f hf
  obtain ⟨h1, h2, h3, h4, h5⟩ := h f hf
  exact ⟨h1, h2, h3, h4, h5.imp_right fun a => absurd a.1 (hj f hf)⟩

theorem atK_stations (h : PositionsFall s) {dx dk dj : Bool} (hg : GeometriesOk s) (hs : StationsAt dx dk dj s) :
    StationsAt dx true dj (actAtK rs pins s) := by
  have k : Keeps Scope.acts s (actAtK rs pins s) := keeps_actAtK (fun _ => rfl) rs pins
  have hs' := k.stations rfl _ _ _ hg hs
  have hgeo := (k.fixedFields rfl).2.2.2.1
  revert hs'
  unfold actAtK at hgeo ⊢
  split
  · rename_i e he
    split
    · rename_i hmiss
      intro hs'
      simp only [he, hmiss, if_true] at hgeo
      refine hs'.emptyK ?_
      rw [hgeo]
      refine (keeps_raiseCause (o := Scope.actsNoJoin) .jarMissing).noneAt rfl ?_
      rw [← entryAt_position he]
      exact depart_position .missing e s
    · intro _
      exact checkJar_stations h hg hs (entryAt_mem he) (entryAt_position he)
  · rename_i he
    intro hs'
    refine hs'.emptyK ?_
    simp only [he] at hgeo
    rw [hgeo]
    have hnone := entryAt_none he
    have k' : Keeps Scope.actsNoJoin s (actAtK rs pins s) := keeps_actAtK (fun _ => rfl) rs pins
    unfold actAtK at k'
    simp only [he] at k'
    exact k'.noneAt rfl hnone

theorem atJ_stations {dx dk dj : Bool} (hg : GeometriesOk s) (hs : StationsAt dx dk dj s) :
    StationsAt dx dk true (arrivalAt s.track.geometry.j arriveJ s) := by
  have k : Keeps Scope.acts s (arrivalAt s.track.geometry.j arriveJ s) :=
    keeps_arrivalAt _ _ (fun e he hj => keeps_arriveJ rfl e he hj)
  have hs' := k.stations rfl _ _ _ hg hs
  refine hs'.emptyJ ?_
  rw [(k.fixedFields rfl).2.2.2.1]
  unfold arrivalAt
  split
  · rename_i e he
    have hkj := ((geometryOk_iff _).1 hg.1).2.2.2.2.1
    have haction := (hs e (entryAt_mem he)).2.2.2.1 (.inl (by rw [entryAt_position he]; exact hkj))
    rw [← entryAt_position he]
    unfold arriveJ
    split
    · exact depart_position _ _ _
    · exact depart_position _ _ _
    · rename_i hnone
      simp [hnone] at haction
  · rename_i he
    exact entryAt_none he

/-! ### The acts of a pitch -/

/-- The Track in the middle of a pitch, with the acts `l` still to come. -/
structure TrackAmid (l : List PitchAct) (s : State) : Prop where
  positions : PositionsFall s
  counts : CountsMatch s
  geometries : GeometriesOk s
  stations : StationsAt (decide (PitchAct.atX ∉ l)) (decide (PitchAct.atK ∉ l)) (decide (PitchAct.atJ ∉ l)) s

theorem decide_notMem_cons {a b : PitchAct} (h : b ≠ a) : decide (b ∉ a :: l) = decide (b ∉ l) := by
  simp [h]

theorem act_trackAmid (hn : (a :: l).Nodup) (hi : InfeedReady d (a :: l) s) (h : TrackAmid (a :: l) s) :
    TrackAmid l (pitchAct rs d pins s a) := by
  have k := keeps_act (rs := rs) (pins := pins) hi
  obtain ⟨hpos, hcounts⟩ := k.track ⟨h.positions, h.counts⟩
  refine ⟨hpos, hcounts, k.geometries h.geometries, ?_⟩
  have hs := h.stations
  have hnot := (List.nodup_cons.1 hn).1
  cases a with
  | atX =>
    rw [decide_notMem_cons (b := .atK) (by decide), decide_notMem_cons (b := .atJ) (by decide)] at hs
    rw [decide_eq_true hnot]
    exact atX_stations h.positions h.geometries hs
  | atK =>
    rw [decide_notMem_cons (b := .atX) (by decide), decide_notMem_cons (b := .atJ) (by decide)] at hs
    rw [decide_eq_true hnot]
    exact atK_stations h.positions h.geometries hs
  | atJ =>
    rw [decide_notMem_cons (b := .atX) (by decide), decide_notMem_cons (b := .atK) (by decide)] at hs
    rw [decide_eq_true hnot]
    exact atJ_stations h.geometries hs
  | deadlines | atA | atE | infeed =>
    rw [decide_notMem_cons (by decide), decide_notMem_cons (by decide), decide_notMem_cons (by decide)] at hs
    exact k.stations rfl _ _ _ h.geometries hs

/-- The advance brings no entry past a station of which it lacks what the station gives. -/
theorem pitchStart_trackAmid (h : TrackSound s) (hl : ∀ a, a ∈ l) : TrackAmid l (pitchStart pins s) := by
  have k := pitchStart_keeps (s := s) (pins := pins)
  obtain ⟨hpos, hcounts⟩ := k.track ⟨h.positions, h.counts⟩
  refine ⟨hpos, hcounts, k.geometries h.geometries, ?_⟩
  simp only [hl, not_true, decide_false]
  intro f hf
  simp only [pitchStart_track, List.mem_map] at hf ⊢
  obtain ⟨e, he, rfl⟩ := hf
  obtain ⟨h1, h2, h3, h4, h5⟩ := h.stations e he
  refine ⟨h1, h2, fun a => h3 ?_, fun a => h4 ?_, ?_⟩
  · exact a.elim Nat.le_of_lt_succ (fun a => nomatch a.2)
  · exact a.elim Nat.le_of_lt_succ (fun a => nomatch a.2)
  · exact (Nat.lt_or_eq_of_le (Nat.succ_le_of_lt h5)).imp_right (fun a => ⟨a, rfl⟩)

/-- What follows the acts of a pitch. -/
theorem keeps_pitchTail {o : Scope} : Keeps o s (remakeDecision (waitTurretEnd s)) :=
  (keeps_waitTurretEnd (o := { o with dec := false })).thenRemake

theorem forwardPitch_sound (order : List PitchAct) (hg : GateAndBanks s) (h : TrackSound s) :
    TrackSound (forwardPitch pins order s) := by
  cases hf : frozen s with
  | true =>
    rw [forwardPitch_frozen order hf]
    have hcount : TrackSound (countPitch (samplePitch pins s)) := ⟨h.positions, h.counts, h.geometries, h.stations⟩
    exact hcount.keeps (((keeps_confirmDeadlines (o := { Scope.acts with fix := false }) rfl)).trans keeps_remake) rfl
  | false =>
    rw [forwardPitch_moving order hf]
    obtain ⟨hn, hall⟩ := pitchActs_each_once order
    have hend : TrackAmid [] (pitchEnd pins order s) := takeActs_induction
      (fun a l s hn hi hp => act_trackAmid hn hi hp) _ _ hn (infeedReady_pitchStart hg _)
      (pitchStart_trackAmid h hall)
    have hsound : TrackSound (pitchEnd pins order s) :=
      ⟨hend.positions, hend.counts, hend.geometries, (stationsAt_iff _).1 (by simpa using hend.stations)⟩
    exact hsound.keeps (keeps_pitchTail (o := Scope.acts)) rfl

end Sys2Proof.Machine
end

