-- ==== Sys2Proof/Proofs/TrackKept.lean ====
section
/-! PROOFS. The invariants of the Jar Track (O21) and of its jar numbers (O22): labels of entries through every
command, and the turns of the turret and the resets. -/

-- One declaration is checked after another: side by side they take more threads than the memory limit allows.
set_option Elab.async false

namespace Sys2Proof.Machine

variable {s t u : State} {rs : RunState} {d : Decision} {pins : PitchPins} {a : PitchAct} {l : List PitchAct}
  {c : Instr}

/-! ### Jar numbers as a condition of labels (R9, R11) -/

/-- Jar numbers rise along the list, none is 0, and the jar at position n lies at most 2 (n + `slack`) numbers
behind the next one. -/
def JarsRise (slack : Nat) (next : Word32) (ls : List Label) : Prop :=
  next ≠ 0 ∧ ls.Pairwise (fun x y => (next - y.jar).toNat < (next - x.jar).toNat)
    ∧ ∀ x ∈ ls, x.jar ≠ 0 ∧ 1 ≤ (next - x.jar).toNat ∧ (next - x.jar).toNat ≤ 2 * (x.position + slack)

theorem jarsDistinct_iff (s : State) :
    JarsDistinct s ↔ JarsRise 1 s.track.nextJar (s.track.entries.map Entry.label) := by
  simp [JarsDistinct, JarsRise, jarAge, Entry.label, List.pairwise_map]

theorem JarsRise.sublist {n : Nat} {next : Word32} {ls ms : List Label} (h : JarsRise n next ls)
    (hs : ms.Sublist ls) : JarsRise n next ms :=
  ⟨h.1, h.2.1.sublist hs, fun x hx => h.2.2 x (hs.subset hx)⟩

theorem JarsRise.mono {m n : Nat} {next : Word32} {ls : List Label} (h : JarsRise m next ls) (hmn : m ≤ n) :
    JarsRise n next ls :=
  ⟨h.1, h.2.1, fun x hx => ⟨(h.2.2 x hx).1, (h.2.2 x hx).2.1, (h.2.2 x hx).2.2.trans (by omega)⟩⟩

/-- The next jar number moves on by one, and past 0 by two (R11). -/
theorem nextJarAfter_age (n j : Word32) (h : (n - j).toNat ≤ 1000) :
    nextJarAfter n ≠ 0 ∧ (nextJarAfter n - j).toNat = (n - j).toNat + (if n = 0xFFFFFFFF#32 then 2 else 1) := by
  unfold nextJarAfter
  split
  · rename_i hn
    subst hn
    refine ⟨by decide, ?_⟩
    bv_omega
  · rename_i hn
    exact ⟨by bv_omega, by bv_omega⟩

/-- The jar of an admission joins as the youngest. -/
theorem JarsRise.append {next : Word32} {ls : List Label} {x : Label} (h : JarsRise 0 next ls)
    (hb : ∀ y ∈ ls, y.position ≤ 500) (hx : x.jar = next) (hp : x.position = 0) :
    JarsRise 1 (nextJarAfter next) (ls ++ [x]) := by
  obtain ⟨hnext, hpair, hall⟩ := h
  have hself := nextJarAfter_age next next (by simp)
  have hage : ∀ y ∈ ls, (next - y.jar).toNat ≤ 1000 := fun y hy => by
    have := (hall y hy).2.2; have := hb y hy; omega
  refine ⟨hself.1, ?_, ?_⟩
  · rw [List.pairwise_append]
    refine ⟨?_, by simp, ?_⟩
    · refine hpair.imp_of_mem ?_
      intro y z hy hz hyz
      rw [(nextJarAfter_age next y.jar (hage y hy)).2, (nextJarAfter_age next z.jar (hage z hz)).2]
      omega
    · intro y hy z hz
      rw [List.mem_singleton] at hz
      subst hz
      have := (hall y hy).2.1
      rw [hx, (nextJarAfter_age next y.jar (hage y hy)).2, hself.2]
      simp only [BitVec.sub_self, BitVec.toNat_ofNat]
      omega
  · intro y hy
    rcases List.mem_append.1 hy with hy | hy
    · obtain ⟨h0, h1, h2⟩ := hall y hy
      rw [(nextJarAfter_age next y.jar (hage y hy)).2]
      refine ⟨h0, by omega, ?_⟩
      split <;> omega
    · rw [List.mem_singleton] at hy
      subst hy
      rw [hx, hself.2, hp]
      refine ⟨hnext, ?_, ?_⟩ <;> simp only [BitVec.sub_self, BitVec.toNat_ofNat] <;> split <;> omega

theorem Keeps.jarsDistinct {o : Scope} (k : Keeps o s t) (ho : o.adm = true) (h : JarsDistinct s) :
    JarsDistinct t := by
  rw [jarsDistinct_iff] at *
  rw [(k.joins ho).1]
  exact h.sublist (k.joins ho).2

theorem jarsDistinct_pairwise (h : JarsDistinct s) : s.track.entries.Pairwise (fun e f => e.jar ≠ f.jar) :=
  h.2.1.imp (fun {e f} hlt he => by simp [jarAge, he] at hlt)

theorem jarsDistinct_ofEmpty (he : t.track.entries = []) (hn : t.track.nextJar ≠ 0) : JarsDistinct t := by
  exact ⟨hn, by simp [he], by simp [he]⟩

/-- Positions lie before j, and j at most 249 (R9, Table 1-9). -/
theorem position_lt (hg : GeometriesOk s) (hs : StationsPassed s) {e : Entry} (he : e ∈ s.track.entries) :
    e.position < 249 := by
  have hgo := (geometryOk_iff _).1 hg.1
  have := (hs e he).2.2.2.2
  omega

theorem forwardPitch_jars (order : List PitchAct) (hg : GateAndBanks s) (hgeo : GeometriesOk s)
    (hs : StationsPassed s) (h : JarsDistinct s) : JarsDistinct (forwardPitch pins order s) := by
  cases hf : frozen s with
  | true =>
    rw [forwardPitch_frozen order hf]
    have hcount : JarsDistinct (countPitch (samplePitch pins s)) := h
    exact ((keeps_confirmDeadlines (o := { Scope.actsNoJoin with fix := false }) rfl).trans keeps_remake).jarsDistinct
      rfl hcount
  | false =>
    rw [forwardPitch_moving order hf]
    refine (keeps_pitchTail (o := Scope.actsNoJoin)).jarsDistinct rfl ?_
    have hstart : JarsRise 0 (pitchStart pins s).track.nextJar ((pitchStart pins s).track.entries.map Entry.label) := by
      obtain ⟨h0, h1, h2⟩ := h
      refine ⟨by simpa using h0, ?_, ?_⟩
      · simpa [List.pairwise_map, Entry.moved, Entry.label, jarAge] using h1
      · simpa [Entry.moved, Entry.label, jarAge] using h2
    have hbound : ∀ x ∈ (pitchStart pins s).track.entries.map Entry.label, x.position ≤ 500 := by
      simp only [pitchStart_track, List.map_map, List.mem_map, Function.comp_apply, forall_exists_index, and_imp,
        forall_apply_eq_imp_iff₂]
      intro e he
      have := position_lt hgeo hs he
      change e.position + 1 ≤ 500
      omega
    have hjoin := pitchEnd_joined (pins := pins) order hg
    rw [jarsDistinct_iff]
    by_cases hA : Admits s.gate.decision pins []
    · obtain ⟨hnext, x, ⟨hjar, _, hpos, _⟩, hsub⟩ := hjoin.one hA
      rw [hnext]
      exact (hstart.append hbound hjar hpos).sublist hsub
    · obtain ⟨hnext, hsub⟩ := hjoin.none hA
      rw [hnext]
      exact (hstart.sublist hsub).mono (Nat.zero_le 1)

/-! ### Pockets as a condition of labels (R6, R9) -/

/-- Pocket and position of every entry add up to the pocket `p`. -/
def RidesIn (p : Head) (ls : List Label) : Prop := ∀ x ∈ ls, x.pocket + Fin.ofNat 18 x.position = p

theorem pocketsFollow_iff (s : State) : PocketsFollow s ↔
    ∃ p, RidesIn p (s.track.entries.map Entry.label) ∧ (frozen s = false → p = s.track.pocket) := by
  simp [PocketsFollow, RidesIn, Entry.label]

theorem pocketsFollow_ofEmpty (h : t.track.entries = []) : PocketsFollow t :=
  ⟨t.track.pocket, by simp [h], fun _ => rfl⟩

theorem frozen_of_causes (h : ∀ c, s.run.causes[causeIx c] = true → t.run.causes[causeIx c] = true)
    (ht : frozen t = false) : frozen s = false := by
  unfold frozen at *
  rw [Bool.or_eq_false_iff] at *
  exact ⟨Bool.eq_false_iff.2 fun a => Bool.eq_false_iff.1 ht.1 (h .encoderSlip a),
    Bool.eq_false_iff.2 fun a => Bool.eq_false_iff.1 ht.2 (h .reverseMotion a)⟩

/-- Where no entry joins, the pocket counter stands and a frozen Track stays frozen, the pockets follow on. -/
theorem Keeps.pocketsFollow {o : Scope} (k : Keeps o s t) (ho : o.adm = true)
    (hf : frozen t = false → frozen s = false) (h : PocketsFollow s) : PocketsFollow t := by
  rw [pocketsFollow_iff] at *
  obtain ⟨p, hp, hpocket⟩ := h
  exact ⟨p, fun x hx => hp x ((k.joins ho).2.subset hx), fun a => (hpocket (hf a)).trans (k.pocket ho).symm⟩

theorem Keeps.noEntries {o : Scope} (k : Keeps o s t) (ho : o.adm = true) (h : s.track.entries = []) :
    t.track.entries = [] := by
  have := (k.joins ho).2
  rw [h] at this
  exact List.map_eq_nil_iff.1 (List.sublist_nil.1 this)

theorem Keeps.pocketsFollow_stay {o : Scope} (k : Keeps o s t) (ho : o.adm = true) (hs : o.stay = true) :
    PocketsFollow s → PocketsFollow t :=
  k.pocketsFollow ho (frozen_of_causes (k.causes hs))

/-- A raised ENCODER_SLIP or REVERSE_MOTION freezes the Track (R20). -/
theorem frozen_raiseCause {c : Cause} (hc : c = .encoderSlip ∨ c = .reverseMotion) : frozen (raiseCause c s) = true := by
  have hset : (s.run.causes.set (causeIx c) true)[causeIx c] = true := by simp
  have hcause : (raiseCause c s).run.causes[causeIx c] = true := by
    unfold raiseCause
    simp only
    split
    · exact hset
    · exact (keeps_enterFault (o := Scope.acts)).causes rfl c hset
  rcases hc with rfl | rfl <;> simp [frozen, hcause]

theorem moved_pocket (p : Head) (n : Nat) : p + Fin.ofNat 18 (n + 1) = p + Fin.ofNat 18 n + 1 := by
  apply Fin.ext
  simp only [Fin.add_def, Fin.ofNat]
  omega

theorem forwardPitch_pockets (order : List PitchAct) (hg : GateAndBanks s) (h : PocketsFollow s) :
    PocketsFollow (forwardPitch pins order s) := by
  cases hf : frozen s with
  | true =>
    rw [forwardPitch_frozen order hf]
    have hcount : PocketsFollow (countPitch (samplePitch pins s)) := by
      obtain ⟨p, hp, _⟩ := h
      exact ⟨p, hp, fun a => by rw [show frozen (countPitch (samplePitch pins s)) = true from hf] at a; cases a⟩
    exact ((keeps_confirmDeadlines (o := { Scope.actsNoJoin with fix := false }) rfl).trans
      keeps_remake).pocketsFollow_stay rfl rfl hcount
  | false =>
    rw [forwardPitch_moving order hf]
    refine (keeps_pitchTail (o := Scope.actsNoJoin)).pocketsFollow_stay rfl rfl ?_
    have hjoin := pitchEnd_joined (pins := pins) order hg
    have hpocket : (pitchEnd pins order s).track.pocket = s.track.pocket + 1 := by
      have := congrArg Fixed.pocket hjoin.fixed
      simpa [State.fixed] using this
    have hstart : RidesIn (s.track.pocket + 1) ((pitchStart pins s).track.entries.map Entry.label) := by
      obtain ⟨p, hp, hps⟩ := h
      have hps := hps hf
      subst hps
      intro x hx
      simp only [pitchStart_track, List.map_map, List.mem_map, Function.comp_apply] at hx
      obtain ⟨e, he, rfl⟩ := hx
      change e.pocket + Fin.ofNat 18 (e.position + 1) = _
      rw [moved_pocket, hp e he]
    rw [pocketsFollow_iff]
    refine ⟨s.track.pocket + 1, ?_, fun _ => hpocket.symm⟩
    by_cases hA : Admits s.gate.decision pins []
    · obtain ⟨_, x, ⟨_, hxp, hx0, _⟩, hsub⟩ := hjoin.one hA
      intro y hy
      rcases List.mem_append.1 (hsub.subset hy) with hy | hy
      · exact hstart y hy
      · rw [List.mem_singleton] at hy
        subst hy
        rw [hx0, hxp]
        simp
    · exact fun y hy => hstart y ((hjoin.none hA).2.subset hy)

/-! ### The other turns of the turret (R7, R8) -/

/-- A reverse pitch and INDEX touch the pocket counter, the flag of R7, the gate and, where they raise a cause,
what raising it touches. -/
theorem reversePitch_keeps {o : Scope} : Keeps o { s with track.pocket := s.track.pocket - 1 } (reversePitch s) := by
  unfold reversePitch
  exact keeps_ite keeps_remake (keeps_remake.trans (keeps_raiseCause _))

theorem indexPulse_keeps {o : Scope} : Keeps o { s with track.synced := true, track.pocket := 0 } (indexPulse s) := by
  unfold indexPulse
  exact keeps_ite (.refl _) (keeps_ite keeps_remake (keeps_remake.trans (keeps_raiseCause _)))

/-- On a Track that has come to be frozen the pocket counter may stand anywhere. -/
theorem pocketsFollow_ofFrozen (hs : (t.track.entries.map Entry.label).Sublist (s.track.entries.map Entry.label))
    (hf : frozen t = true) (h : PocketsFollow s) : PocketsFollow t := by
  rw [pocketsFollow_iff] at *
  obtain ⟨p, hp, _⟩ := h
  exact ⟨p, fun x hx => hp x (hs.subset hx), fun a => by rw [hf] at a; cases a⟩

theorem reversePitch_pockets (h : PocketsFollow s) : PocketsFollow (reversePitch s) := by
  have k := reversePitch_keeps (o := Scope.actsNoJoin) (s := s)
  by_cases hi : (s.run.state == .idle && s.track.entries.isEmpty) = true
  · simp only [Bool.and_eq_true, List.isEmpty_iff] at hi
    exact pocketsFollow_ofEmpty (by simp [reversePitch, hi])
  · refine pocketsFollow_ofFrozen (s := s) (k.joins rfl).2 ?_ h
    simp only [reversePitch, hi]
    exact frozen_raiseCause (.inr rfl)

theorem indexPulse_pockets (he : EmptyAtRest s) (h : PocketsFollow s) : PocketsFollow (indexPulse s) := by
  have k := indexPulse_keeps (o := Scope.actsNoJoin) (s := s)
  by_cases h0 : s.track.pocket = 0
  · have : indexPulse s = { s with track.synced := true, track.pocket := s.track.pocket } := by
      simp [indexPulse, h0]
    rw [this]
    exact h
  · by_cases hi : s.run.state = .idle
    · have hempty := he (.inl hi)
      exact pocketsFollow_ofEmpty (k.noEntries rfl (he (.inl hi)))
    · refine pocketsFollow_ofFrozen (s := s) (k.joins rfl).2 ?_ h
      simp only [indexPulse, beq_iff_eq, h0, hi, if_false]
      exact frozen_raiseCause (.inl rfl)

/-! ### The purge (R21) -/

theorem addFlag_labels (jar : Word32) (k : JarFlag) (s : State) :
    (addFlag jar k s).track.entries.map Entry.label = s.track.entries.map Entry.label := by
  simp only [addFlag_track, modEntry_track, List.map_map]
  refine List.map_congr_left fun e _ => ?_
  simp only [Function.comp_apply]
  split <;> rfl

theorem displaceFetch_labels (p : Head) (s : State) :
    (displaceFetch p s).track.entries.map Entry.label = s.track.entries.map Entry.label := by
  unfold displaceFetch
  split
  · rfl
  · exact addFlag_labels _ _ _

theorem releaseBinding_track (p : Head) (jar : Word32) (s : State) : (releaseBinding p jar s).track = s.track := by
  unfold releaseBinding
  simp only
  split <;> rfl

theorem displaceFetchOf_labels (p : Head) (jar : Word32) (s : State) :
    (displaceFetchOf p jar s).track.entries.map Entry.label = s.track.entries.map Entry.label := by
  unfold displaceFetchOf
  split
  · split
    · exact displaceFetch_labels p s
    · rfl
  · rfl

theorem leaveScanIfMarked_labels (p : Head) (s : State) :
    (leaveScanIfMarked p s).track.entries.map Entry.label = s.track.entries.map Entry.label := by
  unfold leaveScanIfMarked
  split
  · exact displaceFetch_labels p _
  · exact displaceFetch_labels p _
  · rfl
  · rfl

theorem purgeTurret_labels (e : Entry) (s : State) :
    (purgeTurret e s).track.entries.map Entry.label = s.track.entries.map Entry.label := by
  unfold purgeTurret
  split
  · rw [leaveScanIfMarked_labels, displaceFetchOf_labels, releaseBinding_track]
  · rfl

/-- The oldest entry leaves a Track that is purged. -/
theorem purgeOldest_length {e : Entry} {es : List Entry} (he : s.track.entries = e :: es) :
    (purgeOldest s).track.entries.length ≤ es.length := by
  have hlabels := purgeTurret_labels e s
  have hlen : (purgeTurret e s).track.entries.length = es.length + 1 := by
    simpa [he] using congrArg List.length hlabels
  obtain ⟨f, fs, hf⟩ := List.exists_cons_of_length_eq_add_one hlen
  have hfp : f.position = e.position := by
    rw [hf, he] at hlabels
    exact congrArg Label.position (List.cons.inj hlabels).1
  have hfound : entryAt e.position (purgeTurret e s) = some f := by simp [entryAt, hf, hfp]
  have hpurge : purgeOldest s = depart .purged f (purgeTurret e s) := by
    unfold purgeOldest
    rw [he]
    simp only [hfound]
  rw [hpurge]
  have hsub := ((keeps_afterRemoval (o := Scope.actsNoJoin) .purged f (purgeTurret e s)).joins rfl).2.length_le
  simp only [List.length_map, removeEntry_entries, hf, List.filter_cons, bne_self_eq_false, Bool.false_eq_true,
    if_false] at hsub
  have hfilter := List.length_filter_le (fun g : Entry => g.position != f.position) fs
  simp only [hf, List.length_cons] at hlen
  omega

theorem purge_empties (n : Nat) : ∀ s : State, s.track.entries.length ≤ n → (purge n s).track.entries = [] := by
  induction n with
  | zero => exact fun s h => List.length_eq_zero_iff.1 (Nat.le_zero.1 h)
  | succ n ih =>
    intro s h
    refine ih _ ?_
    cases he : s.track.entries with
    | nil => simp [purgeOldest, he]
    | cons e es =>
      have := purgeOldest_length he
      rw [he, List.length_cons] at h
      omega

theorem enterDrain_entries (s : State) : (enterDrain s).track.entries = s.track.entries := by
  unfold enterDrain drainEnd
  split <;> rfl

/-- Leaving FAULT purges a frozen Track and leaves the pockets of any other as they are (R37). -/
theorem leaveFault_pockets (h : PocketsFollow s) : PocketsFollow (leaveFault s) := by
  cases hf : frozen s with
  | true =>
    refine pocketsFollow_ofEmpty ?_
    simp only [leaveFault, hf, if_true, enterDrain_entries]
    exact purge_empties _ s (Nat.le_refl _)
  | false =>
    exact (keeps_leaveFault (o := Scope.plain (.clearFault [] default)) rfl rfl).pocketsFollow rfl (fun _ => hf) h

theorem clearFaultBlock_pockets (lp : LiftPins) (h : PocketsFollow s) :
    PocketsFollow (clearFaultBlock lp s).state := by
  unfold clearFaultBlock
  simp only
  split
  · exact h
  · split
    · exact h
    · exact leaveFault_pockets (s := sampleLift lp s) h

/-- A condition on states that running parts keep is kept by a command that only a running part takes. -/
theorem whenRunning_keeps {P : State → Prop} {f : State → State} (h0 : P s) (hf : P (f s)) :
    P (whenRunning f s) := by
  unfold whenRunning
  split
  · exact hf
  · exact h0

/-- What a served request leaves, by the ways it is served (R156, R157). -/
theorem serve_keeps {P : State → Prop} {code : Byte} {fits : Bool} {block : State → Answer} (h0 : P s)
    (hg : P (goodFrame s)) (hb : P (block (goodFrame s)).state)
    (hr : ∀ (t : State) addr r payload, P t → P (sendReply addr code r payload t)) : P (serve code fits block s) := by
  unfold serve whenReceiving
  refine whenRunning_keeps h0 ?_
  cases sending s with
  | true => exact h0
  | false =>
    simp only [Bool.false_eq_true, if_false]
    split
    · exact hg
    · split
      · exact hr _ _ _ _ hb
      · exact hr _ _ _ _ hg

/-! ### Resets (R22, R167, R168) -/

theorem factoryGeometry_ok : GeometryOk factoryGeometry := rfl

theorem enterReset_store (cause : ResetCause) (s : State) :
    (enterReset cause s).store.image = (s.commit.getD s.store).image := by
  unfold enterReset
  simp only
  cases s.commit <;> rfl

theorem enterReset_sound (cause : ResetCause) (h : GeometriesOk s) : TrackSound (enterReset cause s) := by
  refine .ofEmpty rfl rfl rfl ⟨factoryGeometry_ok, (fun i (hi : i ∈ (none : Option StoredImage)) => nomatch hi), ?_⟩
  rw [enterReset_store]
  cases hc : s.commit with
  | none => exact h.2.2
  | some i => exact h.2.1 i hc

/-- The Track after a start-up is that of State.reset with the loaded geometry. -/
theorem startUp_track (pins : StartupPins) (s : State) :
    (startUp pins s).track = { State.reset.track with geometry := (startImage s.store).geometry } := by
  unfold startUp restartTimer
  simp only
  split <;> split <;> rfl

theorem startUp_store (pins : StartupPins) (s : State) :
    (startUp pins s).store = s.store ∧ (startUp pins s).commit = none := by
  unfold startUp restartTimer
  simp only
  split <;> split <;> exact ⟨rfl, rfl⟩

theorem startImage_geometry_ok (t : StoredImage) (h : GeometryOk t.image.geometry) :
    GeometryOk (startImage t).geometry := by
  unfold startImage
  split
  · exact h
  · exact factoryGeometry_ok

theorem startUp_sound (pins : StartupPins) (h : GeometriesOk s) : TrackSound (startUp pins s) := by
  obtain ⟨_, _, hstored⟩ := h
  have htrack := startUp_track pins s
  obtain ⟨hstore, hcommit⟩ := startUp_store pins s
  have hgeo : (startUp pins s).track.geometry = (startImage s.store).geometry := by rw [htrack]
  refine .ofEmpty (by rw [htrack]; rfl) (by rw [htrack]; rfl) (by rw [htrack]; rfl) ⟨?_, ?_, ?_⟩
  · rw [hgeo]
    exact startImage_geometry_ok s.store hstored
  · intro i hi
    rw [hcommit] at hi
    cases hi
  · rw [hstore]
    exact hstored

/-! ### Every command -/

/-- The commands that `exec_plain_keeps` leaves out. -/
theorem exec_turns_and_resets (h : plainCommand c = false) :
    (∃ pins order, c = .forwardPitch pins order) ∨ c = .reversePitch ∨ c = .indexPulse
      ∨ (∃ cause, ∀ s, exec c s = .next (enterReset cause s)) ∨ ∃ pins, c = .startup pins := by
  cases c <;> simp [plainCommand] at h
  case powerOn => exact .inr (.inr (.inr (.inl ⟨.powerOn, fun _ => rfl⟩)))
  case resetInput => exact .inr (.inr (.inr (.inl ⟨.resetInput, fun _ => rfl⟩)))
  all_goals simp

theorem TrackSound.pocketMoved (h : TrackSound s) (p : Head) (b : Bool) :
    TrackSound { s with track.pocket := p, track.synced := b } :=
  ⟨h.positions, h.counts, h.geometries, h.stations⟩

/-- Every command keeps the Track sound. -/
theorem exec_sound (c : Instr) (hg : GateAndBanks s) (h : TrackSound s) (he : exec c s = .next t) : TrackSound t := by
  cases hp : plainCommand c with
  | true =>
    obtain ⟨t', he', k⟩ := exec_plain_keeps (s := s) hp
    cases he.symm.trans he'
    exact h.keeps k rfl
  | false =>
    rcases exec_turns_and_resets hp with ⟨pins, order, rfl⟩ | rfl | rfl | ⟨cause, hc⟩ | ⟨pins, rfl⟩
    · cases he
      exact whenRunning_keeps h (forwardPitch_sound order hg h)
    · cases he
      exact whenRunning_keeps h ((h.pocketMoved _ s.track.synced).keeps (reversePitch_keeps (o := Scope.acts)) rfl)
    · cases he
      exact whenRunning_keeps h ((h.pocketMoved 0 true).keeps (indexPulse_keeps (o := Scope.acts)) rfl)
    · cases (hc s).symm.trans he
      exact enterReset_sound cause h.geometries
    · cases he
      split
      · exact startUp_sound pins h.geometries
      · exact h

/-- Every command keeps the Track empty in IDLE and PREPARE. -/
theorem exec_emptyAtRest (c : Instr) (hg : GateAndBanks s) (h : EmptyAtRest s) (he : exec c s = .next t) :
    EmptyAtRest t := by
  cases hp : plainCommand c with
  | true =>
    obtain ⟨t', he', k⟩ := exec_plain_keeps (s := s) hp
    cases he.symm.trans he'
    exact k.rest h
  | false =>
    rcases exec_turns_and_resets hp with ⟨pins, order, rfl⟩ | rfl | rfl | ⟨cause, hc⟩ | ⟨pins, rfl⟩
    · cases he
      refine whenRunning_keeps h ?_
      cases hf : frozen s with
      | true =>
        rw [forwardPitch_frozen order hf]
        have hcount : EmptyAtRest (countPitch (samplePitch pins s)) := h
        exact ((keeps_confirmDeadlines (o := { Scope.acts with fix := false }) rfl).trans keeps_remake).rest hcount
      | false =>
        rw [forwardPitch_moving order hf]
        exact ((keeps_acts _ _ _ _ (pitchActs_each_once order).1 _ (infeedReady_pitchStart hg _)).trans
          keeps_pitchTail).rest (pitchStart_keeps.rest h)
    · cases he
      refine whenRunning_keeps h ?_
      have h' : EmptyAtRest { s with track.pocket := s.track.pocket - 1 } := h
      exact (reversePitch_keeps (o := Scope.acts)).rest h'
    · cases he
      refine whenRunning_keeps h ?_
      have h' : EmptyAtRest { s with track.synced := true, track.pocket := 0 } := h
      exact (indexPulse_keeps (o := Scope.acts)).rest h'
    · cases (hc s).symm.trans he
      exact fun _ => rfl
    · cases he
      split
      · exact fun _ => by rw [startUp_track]; rfl
      · exact h

/-- Every command leaves each jar in its own pocket. -/
theorem exec_pockets (c : Instr) (hg : GateAndBanks s) (hr : EmptyAtRest s) (h : PocketsFollow s)
    (he : exec c s = .next t) : PocketsFollow t := by
  cases hp : plainCommand c with
  | true =>
    cases hc : clearsFault c with
    | false =>
      obtain ⟨t', he', k⟩ := exec_plain_keeps (s := s) hp
      cases he.symm.trans he'
      exact k.pocketsFollow_stay rfl (by simp [Scope.plain, hc]) h
    | true =>
      cases c <;> simp [clearsFault] at hc
      cases he
      have hgood : PocketsFollow (goodFrame s) :=
        (keeps_goodFrame (o := { Scope.actsNoJoin with fix := false }) rfl).pocketsFollow_stay rfl rfl h
      exact serve_keeps h hgood (clearFaultBlock_pockets _ hgood) (fun _ _ _ _ h => h)
  | false =>
    rcases exec_turns_and_resets hp with ⟨pins, order, rfl⟩ | rfl | rfl | ⟨cause, hc⟩ | ⟨pins, rfl⟩
    · cases he; exact whenRunning_keeps h (forwardPitch_pockets order hg h)
    · cases he; exact whenRunning_keeps h (reversePitch_pockets h)
    · cases he; exact whenRunning_keeps h (indexPulse_pockets hr h)
    · cases (hc s).symm.trans he; exact pocketsFollow_ofEmpty rfl
    · cases he
      split
      · exact pocketsFollow_ofEmpty (by rw [startUp_track]; rfl)
      · exact h

/-- Every command keeps the jar numbers rising. -/
theorem exec_jars (c : Instr) (hg : GateAndBanks s) (hgeo : GeometriesOk s) (hs : StationsPassed s)
    (h : JarsDistinct s) (he : exec c s = .next t) : JarsDistinct t := by
  cases hp : plainCommand c with
  | true =>
    obtain ⟨t', he', k⟩ := exec_plain_keeps (s := s) hp
    cases he.symm.trans he'
    exact k.jarsDistinct rfl h
  | false =>
    rcases exec_turns_and_resets hp with ⟨pins, order, rfl⟩ | rfl | rfl | ⟨cause, hc⟩ | ⟨pins, rfl⟩
    · cases he; exact whenRunning_keeps h (forwardPitch_jars order hg hgeo hs h)
    · cases he
      refine whenRunning_keeps h ?_
      have h' : JarsDistinct { s with track.pocket := s.track.pocket - 1 } := h
      exact (reversePitch_keeps (o := Scope.actsNoJoin)).jarsDistinct rfl h'
    · cases he
      refine whenRunning_keeps h ?_
      have h' : JarsDistinct { s with track.synced := true, track.pocket := 0 } := h
      exact (indexPulse_keeps (o := Scope.actsNoJoin)).jarsDistinct rfl h'
    · cases (hc s).symm.trans he
      exact jarsDistinct_ofEmpty rfl (show (1 : Word32) ≠ 0 by decide)
    · cases he
      split
      · refine jarsDistinct_ofEmpty ?_ ?_
        · rw [startUp_track]; rfl
        · rw [startUp_track]; exact show (1 : Word32) ≠ 0 by decide
      · exact h

/-- A step takes the command at the front of the queue, or none. -/
theorem step_cases (h : step s = .next t) :
    t = s ∨ ∃ c rest, s.pending = c :: rest ∧ exec c { s with pending := rest } = .next t := by
  unfold step at h
  split at h
  · cases h; exact .inl rfl
  · rename_i c rest hp
    exact .inr ⟨c, rest, hp, h⟩

end Sys2Proof.Machine

namespace Sys2Proof.Proofs

open Sys2Proof.Machine

/-- Settles O21: plain commands keep the Track by `Keeps`, a pitch act by act, with the stations still to come. -/
theorem trackKept : Obligations.TrackKept := by
  intro s t hg hpos hcounts hgeo hstations hstep
  rcases step_cases hstep with rfl | ⟨c, rest, _, he⟩
  · exact ⟨hpos, hcounts, hgeo, hstations, fun hr => ⟨hr, id⟩⟩
  · have hsound := exec_sound (s := { s with pending := rest }) c hg ⟨hpos, hcounts, hgeo, hstations⟩ he
    exact ⟨hsound.positions, hsound.counts, hsound.geometries, hsound.stations, fun hr =>
      ⟨exec_emptyAtRest (s := { s with pending := rest }) c hg hr he,
        fun hf => exec_pockets (s := { s with pending := rest }) c hg hr hf he⟩⟩

/-- Settles O22: no operation but an admission makes a label, and the admitted jar is the youngest. -/
theorem jarNumbersKept : Obligations.JarNumbersKept := by
  intro s t hg hgeo hstations hjars hstep
  have h : JarsDistinct t := by
    rcases step_cases hstep with rfl | ⟨c, rest, _, he⟩
    · exact hjars
    · exact exec_jars (s := { s with pending := rest }) c hg hgeo hstations hjars he
  exact ⟨h, jarsDistinct_pairwise h⟩

end Sys2Proof.Proofs
end

