-- ==== Sys2Proof/Proofs/Causes.lean ====
section
/-! PROOFS. What raising a fault cause does (R33 to R35), and from it the turns of the turret that move no entry:
a reverse pitch, INDEX, and every turn of a frozen Track (R7, R8, R20). -/

-- One declaration is checked after another: side by side they take more threads than the memory limit allows.
set_option Elab.async false

namespace Sys2Proof.Machine

variable {s t u : State} {c : Cause} {pins : PitchPins}

/-! ### Command slots and entries -/

/-- From `s` to `t` only entries and what the Head Link holds for the heads have changed. -/
def LinesAndEntries (s t : State) : Prop :=
  t = { s with track.entries := t.track.entries, link.lines := t.link.lines }

theorem LinesAndEntries.refl (s : State) : LinesAndEntries s s := rfl

theorem LinesAndEntries.trans (h : LinesAndEntries s t) (g : LinesAndEntries t u) : LinesAndEntries s u := by
  unfold LinesAndEntries at *
  rw [g, h]

theorem linesAndEntries_modLine (p : Head) (f : HeadLine → HeadLine) (s : State) : LinesAndEntries s (modLine p f s) :=
  rfl

theorem linesAndEntries_modEntry (jar : Word32) (f : Entry → Entry) (s : State) :
    LinesAndEntries s (modEntry jar f s) := rfl

theorem linesAndEntries_displaceFetch (p : Head) (s : State) : LinesAndEntries s (displaceFetch p s) := by
  unfold displaceFetch
  split
  · exact .refl s
  · exact (linesAndEntries_modLine _ _ _).trans (linesAndEntries_modEntry _ _ _)

theorem linesAndEntries_placeAbort (p : Head) (s : State) : LinesAndEntries s (placeAbort p s) := by
  unfold placeAbort
  split
  · exact .refl s
  · exact (linesAndEntries_modLine _ _ _).trans (linesAndEntries_displaceFetch _ _)
  · exact linesAndEntries_modLine _ _ _
  · exact linesAndEntries_modLine _ _ _

theorem linesAndEntries_foldl {α : Type} {f : State → α → State} (h : ∀ u a, LinesAndEntries u (f u a)) (l : List α) :
    ∀ s, LinesAndEntries s (l.foldl f s) := by
  induction l with
  | nil => exact .refl
  | cons a l ih => exact fun s => (h s a).trans (ih _)

theorem placeAbort_labels (p : Head) (s : State) :
    (placeAbort p s).track.entries.map Entry.label = s.track.entries.map Entry.label := by
  unfold placeAbort
  split
  · rfl
  · exact displaceFetch_labels _ _
  · rfl
  · rfl

theorem foldl_labels {α : Type} {f : State → α → State}
    (h : ∀ u a, (f u a).track.entries.map Entry.label = u.track.entries.map Entry.label) (l : List α) :
    ∀ s, (l.foldl f s).track.entries.map Entry.label = s.track.entries.map Entry.label := by
  induction l with
  | nil => exact fun _ => rfl
  | cons a l ih => exact fun s => (ih _).trans (h s a)

/-! ### The entry to FAULT (R34) -/

/-- The entry to FAULT before its ABORTs are placed. -/
def faultMarked (s : State) : State :=
  setRunState .fault { s with run.request := none, run.batchEnded := true
                              track.entries := s.track.entries.map (faultMark s.track.geometry.x) }

theorem linesAndEntries_enterFault (s : State) : LinesAndEntries (faultMarked s) (enterFault s) :=
  linesAndEntries_foldl (fun u (e : Entry) => linesAndEntries_placeAbort e.pocket u) _ _

theorem faultMark_label (x : Nat) (e : Entry) : (faultMark x e).label = e.label := rfl

theorem enterFault_labels (s : State) :
    (enterFault s).track.entries.map Entry.label = s.track.entries.map Entry.label := by
  unfold enterFault
  simp only
  rw [foldl_labels (fun u (e : Entry) => placeAbort_labels e.pocket u)]
  change (s.track.entries.map _).map _ = _
  rw [List.map_map]
  exact List.map_congr_left fun e _ => faultMark_label _ e

@[simp] theorem enterFault_run (s : State) : (enterFault s).run = (faultMarked s).run := by
  rw [linesAndEntries_enterFault s]

@[simp] theorem enterFault_alerts (s : State) : (enterFault s).alerts = s.alerts := by
  rw [linesAndEntries_enterFault s]; rfl

@[simp] theorem faultMarked_run (s : State) : (faultMarked s).run = { s.run with
    state := .fault, lstop := true, phase := .none, request := none, batchEnded := true } := rfl

/-! ### A raised cause (R33) -/

/-- The cause joins the set, and FAULT_ENTERED is latched. -/
def withCause (c : Cause) (s : State) : State :=
  latchAlert .faultEntered { s with run.causes := s.run.causes.set (causeIx c) true }

theorem raiseCause_inFault (h : s.run.state = .fault) : raiseCause c s = withCause c s := by
  simp [raiseCause, withCause, h]

theorem raiseCause_outside (h : s.run.state ≠ .fault) : raiseCause c s = enterFault (withCause c s) := by
  simp [raiseCause, withCause, h]

@[simp] theorem raiseCause_state (c : Cause) (s : State) : (raiseCause c s).run.state = .fault := by
  by_cases h : s.run.state = .fault
  · rw [raiseCause_inFault h]; exact h
  · rw [raiseCause_outside h]; simp

@[simp] theorem raiseCause_causes (c : Cause) (s : State) :
    (raiseCause c s).run.causes = s.run.causes.set (causeIx c) true := by
  by_cases h : s.run.state = .fault
  · rw [raiseCause_inFault h]; rfl
  · rw [raiseCause_outside h]; simp [withCause]

@[simp] theorem raiseCause_alerts (c : Cause) (s : State) :
    (raiseCause c s).alerts = (latchAlert .faultEntered s).alerts := by
  by_cases h : s.run.state = .fault
  · rw [raiseCause_inFault h]; rfl
  · rw [raiseCause_outside h]; simp [withCause]

theorem raiseCause_labels (c : Cause) (s : State) :
    (raiseCause c s).track.entries.map Entry.label = s.track.entries.map Entry.label := by
  by_cases h : s.run.state = .fault
  · rw [raiseCause_inFault h]; rfl
  · rw [raiseCause_outside h]; exact enterFault_labels _

/-- Raised, the part stands in FAULT for the cause (R33 to R35). -/
theorem raiseCause_faultFor (h : LstopFollows s) : FaultFor c (raiseCause c s) := by
  have hlstop := (keeps_raiseCause (o := Scope.acts) c).lstop h
  refine ⟨raiseCause_state c s, by simp, ?_, by simp⟩
  rw [hlstop, raiseCause_state]
  rfl

/-- What a pitch does after it leaves FAULT standing with its causes. -/
theorem Keeps.faultFor {o : Scope} (k : Keeps o s t) (hs : o.stay = true) (hp : o.pit = true)
    (h : FaultFor c s) : FaultFor c t := by
  obtain ⟨hstate, hcause, hlstop, hlatch⟩ := h
  have hfault := k.fault hs hstate
  refine ⟨hfault, k.causes hs c hcause, ?_, (k.pit hp).latches _ hlatch⟩
  rw [k.lstop (by rw [LstopFollows, hlstop, hstate]; rfl), hfault]
  rfl

/-- Raising a cause again changes nothing. -/
theorem raiseCause_twice (c : Cause) (s : State) : raiseCause c (raiseCause c s) = raiseCause c s := by
  have hcauses : (raiseCause c s).run.causes.set (causeIx c) true = (raiseCause c s).run.causes := by simp
  have hlatch : (raiseCause c s).alerts.latch.set (alertIx .faultEntered) true = (raiseCause c s).alerts.latch := by
    simp
  have hpin : (raiseCause c s).alerts.pin = meets (raiseCause c s).alerts.latch (raiseCause c s).alerts.mask := by
    simp
  rw [raiseCause_inFault (raiseCause_state c s)]
  generalize raiseCause c s = u at hcauses hlatch hpin
  unfold withCause latchAlert driveAlert
  simp only [hcauses, hlatch, ← hpin]

theorem labels_eq_pairs (h : t.track.entries.map Entry.label = s.track.entries.map Entry.label) :
    t.track.entries.map (fun e => (e.jar, e.position)) = s.track.entries.map (fun e => (e.jar, e.position)) := by
  have := congrArg (List.map (fun x : Label => (x.jar, x.position))) h
  simpa [Function.comp_def, Entry.label] using this

/-! ### The deadlines (R140) -/

/-- The Reject Confirm List without the entries whose deadline is the pitch count. -/
def withoutDue (s : State) : State :=
  { s with reject.confirms := s.reject.confirms.filter (fun c => c.deadline != s.track.pitchCount) }

theorem foldl_raiseCause {α : Type} (c : Cause) (l : List α) (h : l ≠ []) :
    ∀ s, l.foldl (fun u _ => raiseCause c u) s = raiseCause c s := by
  induction l with
  | nil => exact absurd rfl h
  | cons a l ih =>
    intro s
    cases l with
    | nil => rfl
    | cons b l =>
      rw [List.foldl_cons, ih (by simp), raiseCause_twice]

theorem confirmDeadlines_due (h : ∃ c ∈ s.reject.confirms, c.deadline = s.track.pitchCount) :
    confirmDeadlines s = raiseCause .rejectUnconfirmed (withoutDue s) := by
  obtain ⟨c, hc, hd⟩ := h
  unfold confirmDeadlines
  simp only
  refine foldl_raiseCause _ _ (List.ne_nil_of_mem (a := c) ?_) _
  simp [hc, hd]

theorem confirmDeadlines_none (h : ∀ c ∈ s.reject.confirms, c.deadline ≠ s.track.pitchCount) :
    confirmDeadlines s = withoutDue s := by
  have hnil : s.reject.confirms.filter (fun c => c.deadline == s.track.pitchCount) = [] := by
    simpa [List.filter_eq_nil_iff] using h
  unfold confirmDeadlines
  simp only [hnil, List.foldl_nil]
  rfl

/-! ### Running commands -/

theorem exec_reversePitch (h : s.power = .running) : exec .reversePitch s = .next (reversePitch s) :=
  congrArg Host.Outcome.next (whenRunning_of_running _ h)

theorem exec_indexPulse (h : s.power = .running) : exec .indexPulse s = .next (indexPulse s) :=
  congrArg Host.Outcome.next (whenRunning_of_running _ h)

/-- A reverse pitch in IDLE with an empty Track (R8). -/
theorem reversePitch_idle (h : s.run.state = .idle ∧ s.track.entries = []) :
    reversePitch s = remakeDecision { s with track.pocket := s.track.pocket - 1 } := by
  simp [reversePitch, h]

theorem reversePitch_raises (h : ¬(s.run.state = .idle ∧ s.track.entries = [])) :
    reversePitch s = raiseCause .reverseMotion (remakeDecision { s with track.pocket := s.track.pocket - 1 }) := by
  simp only [reversePitch]
  rw [if_neg]
  simpa using h

theorem indexPulse_atOne (h : s.track.pocket = 0) : indexPulse s = { s with track.synced := true } := by
  simp only [indexPulse, h, beq_self_eq_true, if_true]

theorem indexPulse_idle (h : s.track.pocket ≠ 0) (hi : s.run.state = .idle) :
    indexPulse s = remakeDecision { s with track.synced := true, track.pocket := 0 } := by
  simp [indexPulse, h, hi]

theorem indexPulse_slips (h : s.track.pocket ≠ 0) (hi : s.run.state ≠ .idle) :
    indexPulse s
      = raiseCause .encoderSlip (remakeDecision { s with track.synced := true, track.pocket := 0 }) := by
  simp [indexPulse, h, hi]

end Sys2Proof.Machine

namespace Sys2Proof.Proofs

open Sys2Proof.Machine

/-- Settles O12: the counter moves first, and outside an empty IDLE the cause is raised on what that leaves. -/
theorem reversePitchLowersPocket : Obligations.ReversePitchLowersPocket := by
  intro s hrun hlstop
  have k := reversePitch_keeps (o := Scope.actsNoJoin) (s := s)
  obtain ⟨hpocket, hcount, _⟩ := k.fixedFields rfl
  refine ⟨_, exec_reversePitch hrun, hpocket, hcount, ?_, fun h => ?_, fun h => ?_⟩
  · by_cases h : s.run.state = .idle ∧ s.track.entries = []
    · rw [reversePitch_idle h]; rfl
    · rw [reversePitch_raises h]; exact labels_eq_pairs (raiseCause_labels _ _)
  · rw [reversePitch_idle h]; rfl
  · rw [reversePitch_raises h]
    exact ⟨raiseCause_faultFor hlstop, frozen_raiseCause (.inr rfl)⟩

/-- Settles O13: the three cases of R7, the last of which raises the cause. -/
theorem indexSetsPocket : Obligations.IndexSetsPocket := by
  intro s hrun hlstop
  have k := indexPulse_keeps (o := Scope.actsNoJoin) (s := s)
  obtain ⟨hpocket, _⟩ := k.fixedFields rfl
  have hsynced : (indexPulse s).track.synced = true := congrArg Fixed.synced (k.settings rfl)
  refine ⟨_, exec_indexPulse hrun, hpocket, hsynced, ?_, fun h => indexPulse_atOne h, fun h => ?_, fun h => ?_⟩
  · by_cases h0 : s.track.pocket = 0
    · rw [indexPulse_atOne h0]
    · by_cases hi : s.run.state = .idle
      · rw [indexPulse_idle h0 hi]; rfl
      · rw [indexPulse_slips h0 hi]; exact labels_eq_pairs (raiseCause_labels _ _)
  · rw [indexPulse_idle h.1 h.2]; rfl
  · rw [indexPulse_slips h.1 h.2]
    exact ⟨raiseCause_faultFor hlstop, frozen_raiseCause (.inl rfl)⟩

/-- Settles O4: in FAULT a cause joins the set and is alerted, and nothing else of a turn touches the Track. -/
theorem frozenTrackStands : Obligations.FrozenTrackStands := by
  intro s hrun hfault hfrozen
  refine ⟨fun pins order => ?_, ?_, ?_⟩
  · refine ⟨_, exec_forwardPitch order hrun, ?_⟩
    rw [forwardPitch_frozen order hfrozen]
    by_cases hdue : ∃ c ∈ s.reject.confirms, c.deadline = s.track.pitchCount + 1
    · rw [confirmDeadlines_due (s := countPitch (samplePitch pins s)) hdue,
        raiseCause_inFault (s := withoutDue (countPitch (samplePitch pins s))) hfault]
      exact ⟨rfl, rfl, rfl, rfl, fun _ => ⟨rfl, rfl⟩, fun h => absurd hdue (by simpa using h)⟩
    · have hnone : ∀ c ∈ s.reject.confirms, c.deadline ≠ s.track.pitchCount + 1 := by simpa using hdue
      rw [confirmDeadlines_none (s := countPitch (samplePitch pins s)) hnone]
      exact ⟨rfl, rfl, rfl, rfl, fun h => absurd h hdue, fun _ => ⟨rfl, rfl⟩⟩
  · refine ⟨_, exec_reversePitch hrun, ?_⟩
    rw [reversePitch_raises (by simp [hfault]), raiseCause_inFault (by exact hfault)]
    exact ⟨rfl, rfl⟩
  · refine ⟨_, exec_indexPulse hrun, ?_⟩
    by_cases h0 : s.track.pocket = 0
    · have htrack : { s.track with pocket := 0, synced := true } = { s.track with synced := true } := by rw [← h0]
      rw [indexPulse_atOne h0, htrack]
      exact ⟨rfl, rfl⟩
    · rw [indexPulse_slips h0 (by simp [hfault]), raiseCause_inFault (by exact hfault)]
      exact ⟨rfl, rfl⟩

end Sys2Proof.Proofs
end

