-- ==== Sys2Proof/Proofs/Settings.lean ====
section
/-! PROOFS. Requests to a part that is ready (R156, R157), and the messages that replace settings (R3, R4, R75,
R119, R152, R161 to R166). -/

-- One declaration is checked after another: side by side they take more threads than the memory limit allows.
set_option Elab.async false

namespace Sys2Proof.Machine

variable {s t u : State} {code : Byte} {fits : Bool} {block : State → Answer}

/-! ### A request to a ready part -/

/-- A change of the hold-reason set touches run control, the gate and the Alert Latch alone. -/
theorem setHold_frame (r : HoldReason) (b : Bool) (s : State) :
    setHold r b s = { s with run := (setHold r b s).run, gate := (setHold r b s).gate
                             alerts := (setHold r b s).alerts } := by
  unfold setHold
  simp only
  split
  · rfl
  · split <;> rfl

/-- A good frame touches the port, and where it ends a silence what the hold-reason set touches. -/
theorem goodFrame_frame (s : State) :
    goodFrame s = { s with port := (goodFrame s).port, run := (goodFrame s).run, gate := (goodFrame s).gate
                           alerts := (goodFrame s).alerts } := by
  have htimer : restartTimer { s with port.rxBuf := [] }
      = { s with port := (restartTimer { s with port.rxBuf := [] }).port } := by
    unfold restartTimer; split <;> rfl
  unfold goodFrame
  simp only
  split
  · rw [setHold_frame, htimer]
  · rw [htimer]

theorem restartTimer_reply (s : State) : (restartTimer s).port.reply = s.port.reply := by
  unfold restartTimer; split <;> rfl

theorem goodFrame_reply (s : State) : (goodFrame s).port.reply = s.port.reply := by
  unfold goodFrame
  simp only
  split
  · rw [setHold_frame]; exact restartTimer_reply _
  · exact restartTimer_reply _

/-- A request whose length fits is handed to its block, after its good frame. -/
theorem serve_ready (h : Ready s) (hf : fits = true) :
    serve code fits block s = replied (goodFrame s) code (block (goodFrame s)).result (block (goodFrame s)).payload
      (block (goodFrame s)).state := by
  have hsend : sending s = false := by simp [sending, h.2]
  have hreply : (goodFrame s).port.reply.isSome = false := by simp [goodFrame_reply, h.2]
  unfold serve whenReceiving
  rw [whenRunning_of_running _ h.1]
  simp [hsend, hreply, hf, replied]

/-- A request answered with state, result and payload. -/
theorem next_ready {g t : State} {r : ResultCode} {q : List Byte} (h : Ready s) (hf : fits = true)
    (hg : goodFrame s = g) (hb : block g = ⟨t, r, q⟩) :
    (Host.Outcome.next (serve code fits block s) : Host.Outcome State Fault Refusal) = .next (replied g code r q t) := by
  rw [serve_ready h hf, hg, hb]

/-! ### Machine Geometry (R3, R4) -/

/-- The first place at which a list of relations holds `false`. -/
theorem firstBroken_first : ∀ (l : List Bool) (k n : Nat), l[n]? = some false → (∀ m < n, l[m]? = some true) →
    firstBroken k l = some (k + n)
  | b :: bs, k, 0, h, _ => by
    have : b = false := by simpa using h
    simp [firstBroken, this]
  | b :: bs, k, n + 1, h, hm => by
    have hb : b = true := by simpa using hm 0 (Nat.succ_pos n)
    have ih := firstBroken_first bs (k + 1) n (by simpa using h) (fun m hmn => by
      simpa using hm (m + 1) (Nat.succ_lt_succ hmn))
    rw [firstBroken, hb, if_pos rfl, ih, Nat.add_assoc, Nat.add_comm 1 n]

/-- The relations of Table 1-9 as the list that is tested. -/
def geometryTests (g : Geometry) : List Bool :=
  [1 ≤ g.a, g.a < g.e, decide (g.e < g.x ∧ g.x ≤ 17), decide (g.x < g.k ∧ g.k ≤ g.x + 200),
    decide (g.k < g.j ∧ g.j ≤ g.k + 32)]

theorem brokenGeometry_eq (g : Geometry) : brokenGeometry g = firstBroken 1 (geometryTests g) := rfl

theorem geometryTests_get (g : Geometry) (n : Fin 5) :
    (geometryRelation g n → (geometryTests g)[n.val]? = some true)
      ∧ (¬geometryRelation g n → (geometryTests g)[n.val]? = some false) := by
  fin_cases n <;> simp [geometryTests, geometryRelation]

theorem brokenGeometry_first {g : Geometry} {n : Fin 5} (hm : ∀ m, m < n → geometryRelation g m)
    (hn : ¬geometryRelation g n) : brokenGeometry g = some (n.val + 1) := by
  rw [brokenGeometry_eq, firstBroken_first _ 1 n.val ((geometryTests_get g n).2 hn), Nat.add_comm]
  intro m hmn
  exact (geometryTests_get g ⟨m, hmn.trans n.isLt⟩).1 (hm _ hmn)

theorem brokenGeometry_none {g : Geometry} (h : ∀ n, geometryRelation g n) : brokenGeometry g = none :=
  (geometryOk_iff g).2 ⟨h 0, h 1, h 2, h 3, h 4⟩

theorem setGeometryBlock_busy (p : List Byte) (h : ¬(s.run.state = .idle ∧ s.track.entries = [])) :
    setGeometryBlock p s = .plain .wrongState s := by
  unfold setGeometryBlock
  rw [if_pos]
  simp only [Bool.or_eq_true, bne_iff_ne, Bool.not_eq_true', List.isEmpty_eq_false_iff]
  exact not_and_or.1 h

theorem setGeometryBlock_broken {p : List Byte} {n : Nat} (h : s.run.state = .idle ∧ s.track.entries = [])
    (hb : brokenGeometry (geometryOfBytes p) = some n) : setGeometryBlock p s = .relation n s := by
  simp [setGeometryBlock, h, hb]

theorem setGeometryBlock_taken {p : List Byte} (h : s.run.state = .idle ∧ s.track.entries = [])
    (hb : brokenGeometry (geometryOfBytes p) = none) :
    setGeometryBlock p s = .plain .done { s with track.geometry := geometryOfBytes p } := by
  simp [setGeometryBlock, h, hb]

/-! ### Bytes (R169) -/

theorem beValue_append (l : List Byte) (b : Byte) : beValue (l ++ [b]) = beValue l * 256 + b.toNat := by
  simp [beValue]

theorem beBytes_beValue (l : List Byte) : beBytes l.length (beValue l) = l := by
  induction l using List.reverseRecOn with
  | nil => rfl
  | append_singleton l b ih =>
    rw [List.length_append, beValue_append]
    have hdiv : (beValue l * 256 + b.toNat) / 256 = beValue l := by
      have := b.isLt; omega
    have hmod : BitVec.ofNat 8 (beValue l * 256 + b.toNat) = b := by
      apply BitVec.eq_of_toNat_eq
      have := b.isLt
      simp only [BitVec.toNat_ofNat]
      omega
    change beBytes l.length ((beValue l * 256 + b.toNat) / 256) ++ [_] = _
    rw [hdiv, hmod, ih]

/-- The bytes of a field are those the payload has there. -/
theorem beBytes_field {p : List Byte} {off len : Nat} (h : off + len ≤ p.length) :
    beBytes len (field p off len) = (p.drop off).take len := by
  have := beBytes_beValue ((p.drop off).take len)
  rwa [List.length_take, List.length_drop, Nat.min_eq_left (by omega)] at this

theorem paramsBytes_paramsOfBytes {p : List Byte} (h : p.length = 15) : paramsBytes (paramsOfBytes p) = p := by
  unfold paramsBytes paramsOfBytes
  simp only
  repeat rw [beBytes_field (by omega)]
  match p, h with
  | [_, _, _, _, _, _, _, _, _, _, _, _, _, _, _], _ => rfl

@[simp] theorem field_byte (b : Byte) : field [b] 0 1 = b.toNat := by simp [field, beValue]

/-! ### Line parameters (R75, R161, R162) -/

theorem clampTo_eq {lo hi : Nat} (n : Nat) (h : lo ≤ hi) : clampTo lo hi n = max lo (min n hi) := by
  unfold clampTo
  split
  · omega
  · split <;> omega

theorem clampTo_self {lo hi n : Nat} (h : lo ≤ n ∧ n ≤ hi) : clampTo lo hi n = n := by
  rw [clampTo_eq n (h.1.trans h.2)]; omega

/-- Values in range are the ones the clamp leaves alone. -/
theorem paramsOk_iff_clampParams (q : LineParams) : ParamsOk q ↔ clampParams q = q := by
  constructor
  · rintro ⟨haddr, hlink, hfail, hmin, hzero, hstale, hreply, hperiod, hsettle, hconfirm⟩
    have hlink' : (if q.linkTimeout = 0 then 0 else clampTo 100 10000 q.linkTimeout) = q.linkTimeout := by
      split
      · omega
      · exact clampTo_self (by omega)
    unfold clampParams
    rw [clampTo_self haddr, hlink', clampTo_self ⟨Nat.zero_le _, hfail⟩, clampTo_self hmin,
      clampTo_self ⟨Nat.zero_le _, hzero⟩, clampTo_self hstale, clampTo_self hreply, clampTo_self hperiod,
      clampTo_self ⟨Nat.zero_le _, hsettle⟩, clampTo_self hconfirm]
  · intro h
    rw [← h]
    exact paramsOk_clampParams q

theorem fewHeadsMatches_updateFewHeads (s : State) : FewHeadsMatches (updateFewHeads s) := by
  unfold FewHeadsMatches updateFewHeads
  rw [setHold_member, (setHold_heads _ _).1, (setHold_heads _ _).2]

theorem restartTimer_frame (s : State) : restartTimer s = { s with port := (restartTimer s).port } := by
  unfold restartTimer; split <;> rfl

theorem restartTimer_stopped (h : s.params.linkTimeout = 0) : (restartTimer s).port.timer.state = .stopped := by
  simp [restartTimer, h]

theorem restartTimer_running (h : s.params.linkTimeout ≠ 0) :
    (restartTimer s).port.timer = ⟨.running, s.timeBase + BitVec.ofNat 32 s.params.linkTimeout⟩ := by
  simp [restartTimer, h]

theorem doneOr_bne {α : Type} [DecidableEq α] (a b : α) :
    doneOr (a != b) = if a = b then .done else .doneClamped := by
  by_cases h : a = b <;> simp [doneOr, h]

/-- What SET LINE PARAMETERS leaves (R161). -/
theorem setLineParameters_leaves (q : LineParams) (s : State) :
    let t := restartTimer (updateFewHeads { s with params := q })
    t.params = q ∧ FewHeadsMatches t
      ∧ (q.linkTimeout = 0 → t.port.timer.state = .stopped)
      ∧ (q.linkTimeout ≠ 0 → t.port.timer = ⟨.running, s.timeBase + BitVec.ofNat 32 q.linkTimeout⟩)
      ∧ t = { s with params := q, port := t.port, run := t.run, gate := t.gate, alerts := t.alerts } := by
  intro t
  have hfew := fewHeadsMatches_updateFewHeads { s with params := q }
  have hframe : updateFewHeads { s with params := q } = { s with
      params := q, run := (updateFewHeads { s with params := q }).run
      gate := (updateFewHeads { s with params := q }).gate
      alerts := (updateFewHeads { s with params := q }).alerts } := setHold_frame _ _ _
  have ht : t = { updateFewHeads { s with params := q } with port := t.port } := restartTimer_frame _
  have hparams : (updateFewHeads { s with params := q }).params = q := by rw [hframe]
  have htime : (updateFewHeads { s with params := q }).timeBase = s.timeBase := by rw [hframe]
  refine ⟨by rw [ht]; exact hparams, by rw [ht]; exact hfew, fun h => restartTimer_stopped (by rw [hparams, h]),
    fun h => ?_, ?_⟩
  · have := restartTimer_running (s := updateFewHeads { s with params := q }) (by rw [hparams]; exact h)
    rwa [hparams, htime] at this
  · rw [ht, hframe]

/-! ### Alerts (R163, R164) -/

theorem alertSetOf_refused {w : Nat} (h : 8192 ≤ w) : alertSetOf w = none := by simp [alertSetOf, h]

theorem alertSetOf_taken {w : Nat} (h : w < 8192) : alertSetOf w = some (bitsSet 13 w) := by simp [alertSetOf, h]

theorem getElem_bitsSet {n : Nat} (w : Nat) (k : Fin n) : (bitsSet n w)[k] = w.testBit k.val := by simp [bitsSet]

theorem getElem_without {n : Nat} (v w : Vector Bool n) (k : Fin n) : (without v w)[k] = (v[k] && !w[k]) := by
  simp [without]

theorem alertFollows_driveAlert (s : State) : AlertFollows (driveAlert s) := rfl

end Sys2Proof.Machine

namespace Sys2Proof.Proofs

open Sys2Proof.Machine

/-- SET GEOMETRY (R4). -/
theorem setGeometry_served {s : State} (h : Ready s) {p : List Byte} (hp : p.length = 5) :
    let g := goodFrame s
    let v := geometryOfBytes p
    let free := g.run.state = .idle ∧ g.track.entries = []
    (¬free → exec (.setGeometry p) s = .next (replied g 0x23 .wrongState [] g))
      ∧ (∀ n : Fin 5, free → (∀ m, m < n → geometryRelation v m) → ¬geometryRelation v n →
        exec (.setGeometry p) s = .next (replied g 0x23 .badValue [BitVec.ofNat 8 (n.val + 1)] g))
      ∧ (free → (∀ n, geometryRelation v n) → exec (.setGeometry p) s
          = .next (replied g 0x23 .done [] { g with track.geometry := v })) := by
  intro g v free
  have hfit : (p.length == 5) = true := by simp [hp]
  refine ⟨fun hfree => ?_, fun n hfree hm hn => ?_, fun hfree hall => ?_⟩
  · exact next_ready h hfit rfl (setGeometryBlock_busy p hfree)
  · exact next_ready h hfit rfl (setGeometryBlock_broken hfree (brokenGeometry_first hm hn))
  · exact next_ready h hfit rfl (setGeometryBlock_taken hfree (brokenGeometry_none hall))

/-- SET ALERT MASK and ACK ALERTS (R164). -/
theorem alertSets_served {s : State} (h : Ready s) {p : List Byte} (hp : p.length = 2) :
    let g := goodFrame s
    (8192 ≤ field p 0 2 → exec (.setAlertMask p) s = .next (replied g 0x26 .badValue [] g)
        ∧ exec (.ackAlerts p) s = .next (replied g 0x39 .badValue [] g))
      ∧ (field p 0 2 < 8192 → ∃ t u : State,
        exec (.setAlertMask p) s = .next (replied g 0x26 .done [] t)
          ∧ exec (.ackAlerts p) s = .next (replied g 0x39 .done [] u)
          ∧ t = { g with alerts := { g.alerts with mask := t.alerts.mask, pin := t.alerts.pin } }
          ∧ u = { g with alerts := { g.alerts with latch := u.alerts.latch, pin := u.alerts.pin } }
          ∧ AlertFollows t ∧ AlertFollows u
          ∧ ∀ k : Fin 13, t.alerts.mask[k] = (field p 0 2).testBit k.val
            ∧ u.alerts.latch[k] = (g.alerts.latch[k] && !(field p 0 2).testBit k.val)) := by
  intro g
  have hfit : (p.length == 2) = true := by simp [hp]
  refine ⟨fun hw => ⟨next_ready h hfit rfl ?_, next_ready h hfit rfl ?_⟩, fun hw => ?_⟩
  · rw [setAlertMaskBlock, alertSetOf_refused hw]; rfl
  · rw [ackAlertsBlock, alertSetOf_refused hw]; rfl
  · refine ⟨driveAlert { g with alerts.mask := bitsSet 13 (field p 0 2) },
      driveAlert { g with alerts.latch := without g.alerts.latch (bitsSet 13 (field p 0 2)) },
      next_ready h hfit rfl ?_, next_ready h hfit rfl ?_, rfl, rfl, alertFollows_driveAlert _,
      alertFollows_driveAlert _, fun k => ⟨getElem_bitsSet _ k, ?_⟩⟩
    · rw [setAlertMaskBlock, alertSetOf_taken hw]; rfl
    · rw [ackAlertsBlock, alertSetOf_taken hw]; rfl
    · exact (getElem_without _ _ k).trans (by rw [getElem_bitsSet])

/-- Settles O60: each message by its block on the state its good frame leaves. -/
theorem settingsReplaced : Obligations.SettingsReplaced := by
  intro s g
  refine ⟨fun h => ⟨fun p hp => setGeometry_served h hp, fun p hp => ?_, fun p hp => alertSets_served h hp,
    next_ready h rfl rfl rfl, next_ready h rfl rfl rfl, next_ready h rfl rfl rfl, fun b hb => ?_, fun hc => ?_,
    fun hc => ?_⟩, fun hrun => ⟨fun hc => ?_, fun i hc => ?_⟩⟩
  · refine ⟨restartTimer (updateFewHeads { g with params := clampParams (paramsOfBytes p) }), ?_⟩
    intro at_ q
    have hq : q = clampParams (paramsOfBytes p) := by
      simp only [q, at_, clampParams, paramsOfBytes, clampTo_eq, Nat.reduceLeDiff, Nat.zero_le]
    clear_value q
    subst hq
    obtain ⟨hparams, hfew, hstop, hrunning, hframe⟩ := setLineParameters_leaves (clampParams (paramsOfBytes p)) g
    refine ⟨next_ready h (by simp [hp]) rfl ?_, hparams, paramsOk_clampParams _, paramsOk_iff_clampParams _,
      paramsBytes_paramsOfBytes hp, hfew, hstop, hrunning, hframe⟩
    rw [← doneOr_bne]
    rfl
  · refine next_ready h rfl rfl ?_
    have : flagOf b.toNat = none := by unfold flagOf; rw [if_neg (by omega), if_neg (by omega)]
    simp [setTraceModeBlock, this, Answer.plain]
  · obtain ⟨i, hi⟩ := Option.ne_none_iff_exists'.1 hc
    refine next_ready h rfl rfl ?_
    rw [commitSettingsBlock, hi]; rfl
  · refine next_ready h rfl rfl ?_
    rw [commitSettingsBlock, hc]; rfl
  · refine congrArg Host.Outcome.next ?_
    rw [whenRunning_of_running _ hrun, hc]
  · refine congrArg Host.Outcome.next ?_
    rw [whenRunning_of_running _ hrun, hc]

end Sys2Proof.Proofs
end

