-- ==== Sys2Proof/Proofs/Swap.lean ====
section
/-! PROOFS. The swap of the banks, the completed changeover and the emptying of RETIRING (R19, R50, R51, R54, R56,
R57). -/

-- One declaration is checked after another: side by side they take more threads than the memory limit allows.
set_option Elab.async false

namespace Sys2Proof.Machine

variable {s t u : State} {r : Changeover} {q : Recipe}

/-! ### The swap (R19, R50) -/

@[simp] theorem doSwap_staged (s : State) : (doSwap s).recipes.staged = none := rfl
@[simp] theorem doSwap_active (s : State) : (doSwap s).recipes.active = s.recipes.staged := rfl
@[simp] theorem doSwap_firstMark (s : State) : (doSwap s).recipes.firstMark = true := rfl

/-- The swap changes the banks and the bank each entry references, and nothing else. -/
theorem doSwap_frame (s : State) :
    doSwap s = { s with recipes := (doSwap s).recipes, track := (doSwap s).track } := by
  unfold doSwap; simp only; split <;> rfl

/-- An entry as it references RETIRING. -/
def Entry.retired (e : Entry) : Entry := { e with bank := .retiring }

/-- With jars on ACTIVE, recipe and count move to RETIRING, and so does every entry. -/
theorem doSwap_loaded (h : 0 < s.track.activeCount) :
    (doSwap s).recipes.retiring = s.recipes.active
      ∧ (doSwap s).track = { s.track with entries := s.track.entries.map Entry.retired
                                          retiringCount := s.track.activeCount, activeCount := 0 } := by
  unfold doSwap
  simp only [h, if_true]
  exact ⟨trivial, rfl⟩

/-- With none, the old recipe is dropped. -/
theorem doSwap_unloaded (h : s.track.activeCount = 0) :
    (doSwap s).track = s.track ∧ (doSwap s).recipes.retiring = s.recipes.retiring := by
  simp [doSwap, h]

theorem countP_retired (es : List Entry) :
    (es.map Entry.retired).countP (fun e => e.bank == .active) = 0
      ∧ (es.map Entry.retired).countP (fun e => e.bank == .retiring) = es.length := by
  rw [List.countP_map, List.countP_map]
  exact ⟨List.countP_eq_zero.2 (fun _ _ a => Bool.noConfusion a), List.countP_eq_length.2 (fun _ _ => rfl)⟩

/-- With RETIRING empty the counts are those of the entries after the swap as before it. -/
theorem doSwap_counts (hc : CountsMatch s) (h0 : s.track.retiringCount = 0) : CountsMatch (doSwap s) := by
  obtain ⟨hactive, hretiring⟩ := hc
  rcases Nat.eq_zero_or_pos s.track.activeCount with h | h
  · rw [CountsMatch, (doSwap_unloaded h).1]
    exact ⟨hactive, hretiring⟩
  · have hlen := countP_banks s.track.entries
    obtain ⟨hnone, hall⟩ := countP_retired s.track.entries
    rw [CountsMatch, (doSwap_loaded h).2]
    exact ⟨hnone.symm, hall ▸ by simp only; omega⟩

/-! ### The completed changeover (R57) -/

/-- Outside CHANGE a completed changeover sets the batch, and the standing decision is remade. -/
theorem completeChangeover_outside (h : s.run.state ≠ .change) :
    completeChangeover r s = remakeDecision (latchAlert .changeoverDone
      { s with run.batchNumber := r.nextNumber, run.batchSize := r.nextSize, run.admitted := 0
               run.batchEnded := false, run.request := none }) := by
  simp [completeChangeover, h]

theorem waitTurretEnd_outside (h : s.run.state ≠ .change) : waitTurretEnd s = s := by simp [waitTurretEnd, h]

/-- With no request at stage AT_RETIRE nothing follows the emptying of RETIRING. -/
theorem retireSwap_none (h : ∀ r, s.run.request = some r → r.stage ≠ .atRetire) : retireSwap s = s := by
  cases hr : s.run.request with
  | none => simp [retireSwap, hr]
  | some r => simp [retireSwap, hr, h r hr]

theorem swapAllowed_of (hq : s.recipes.staged = some q) (hr : s.recipes.retiring = none)
    (h0 : s.track.retiringCount = 0) : swapAllowed s = true := by
  simp [swapAllowed, hq, hr, h0]

theorem retireSwap_atRetire (hr : s.run.request = some r) (hs : r.stage = .atRetire) (ha : swapAllowed s = true) :
    retireSwap s = swapAndComplete r s := by
  simp [retireSwap, hr, hs, ha]

/-- The run control a completed changeover leaves outside CHANGE. -/
def RunControl.completed (r : Changeover) (c : RunControl) : RunControl :=
  { c with batchNumber := r.nextNumber, batchSize := r.nextSize, admitted := 0, batchEnded := false, request := none }

/-- The swap of a request with its completion, outside CHANGE. -/
theorem swapAndComplete_outside (h : s.run.state ≠ .change) :
    swapAndComplete r s = remakeDecision (latchAlert .changeoverDone
      { doSwap s with run := s.run.completed r }) := by
  unfold swapAndComplete
  rw [completeChangeover_outside (by rwa [doSwap_run]), doSwap_run]
  rfl

/-! ### RETIRING_EMPTIED (R51, R56) -/

/-- RETIRING_EMPTIED is due: the count is 0 and a record is still there. -/
def emptyingDue (s : State) : Bool := s.track.retiringCount == 0 && s.recipes.retiring.isSome

theorem emptyingDue_iff : emptyingDue s = true ↔ s.track.retiringCount = 0 ∧ s.recipes.retiring.isSome = true := by
  simp [emptyingDue]

theorem exec_retiringEmptied (lp : LiftPins) (h : s.power = .running) :
    exec (.retiringEmptied lp) s = .next (if emptyingDue s then waitTurretEnd (retiringEmptied (sampleLift lp s))
      else sampleLift lp s) :=
  congrArg Host.Outcome.next (whenRunning_of_running _ h)

end Sys2Proof.Machine

namespace Sys2Proof.Proofs

open Sys2Proof.Machine

/-- Settles O41: the swap by the count of ACTIVE, and the emptying outside CHANGE by the stage of the request. -/
theorem swapMovesBanks : Obligations.SwapMovesBanks := by
  refine ⟨fun s hc h0 => ?_, fun lp s hrun hstate => ?_⟩
  · exact ⟨doSwap_counts hc h0, doSwap_frame s, doSwap_active s, doSwap_staged s, doSwap_firstMark s,
      doSwap_unloaded, doSwap_loaded⟩
  · intro g due
    have hstate' : (retiringEmptied g).run.state ≠ .change → waitTurretEnd (retiringEmptied g) = retiringEmptied g :=
      waitTurretEnd_outside
    rw [exec_retiringEmptied lp hrun]
    refine ⟨fun hdue => ?_, fun hdue hnone => ?_, fun r q hdue hr hs hq => ?_⟩
    · rw [if_neg (fun h => hdue (emptyingDue_iff.1 h))]
    · have hempty : retiringEmptied g = { g with recipes.retiring := none } := retireSwap_none hnone
      rw [if_pos (emptyingDue_iff.2 hdue), hstate' (by rw [hempty]; exact hstate), hempty]
    · have hempty : retiringEmptied g = swapAndComplete r { g with recipes.retiring := none } :=
        retireSwap_atRetire hr hs (swapAllowed_of hq rfl hdue.1)
      rw [swapAndComplete_outside (by exact hstate)] at hempty
      refine ⟨retiringEmptied g, ?_, ?_, ?_, ?_, ?_, ?_⟩
      · rw [if_pos (emptyingDue_iff.2 hdue), hstate' (by rw [hempty]; exact hstate)]
      · rw [hempty]; exact (doSwap_active _).trans hq
      · rw [hempty]; exact doSwap_staged _
      · rw [hempty]; rfl
      · rw [hempty, doSwap_frame]; rfl
      · rw [hempty]; rfl

end Sys2Proof.Proofs
end

