-- ==== Sys2Proof/Proofs/Beside.lean ====
section
/-! PROOFS. What an operation of a forward pitch does beside its own work, said once as one relation between the
state before and the state after: to the run control, to the counts, to the other stations, and to a jar that stands
at a place where the operation has no work. -/

-- One declaration is checked after another: side by side they take more threads than the memory limit allows.
set_option Elab.async false

namespace Sys2Proof.Machine

/-! ### Terms -/

/-- FAULT has been entered between the two states (R34). -/
def Entered (s t : State) : Prop := s.run.state ≠ .fault ∧ t.run.state = .fault

/-- A run state in which the gap count is 0 or no pocket is served: an entry to it may clear the gap count (R30). -/
def Asleep (r : RunState) : Prop := r = .idle ∨ r = .fault

/-- No swap of a pending changeover can follow at once: none is pending, or it waits for neither RETIRING nor the
turret (R51, R58). -/
def NoSwapDue (s : State) : Prop :=
  s.run.request = none ∨ s.run.state ≠ .change ∧ ∀ r, s.run.request = some r → r.stage ≠ .atRetire

/-- The batch and the recipes go on as they are, and a request is at most dropped. -/
structure Calm (s t : State) : Prop where
  still : NoSwapDue t
  recipes : t.recipes.active = s.recipes.active ∧ t.recipes.staged = s.recipes.staged
    ∧ t.recipes.firstMark = s.recipes.firstMark := by exact ⟨rfl, rfl, rfl⟩
  batch : t.run.batchNumber = s.run.batchNumber ∧ t.run.batchSize = s.run.batchSize
    ∧ t.run.admitted = s.run.admitted := by exact ⟨rfl, rfl, rfl⟩
  request : t.run.request = s.run.request ∨ t.run.request = none ∧ Asleep t.run.state := by exact .inl rfl

/-- The counts of the infeed stand, but for an entry to IDLE. -/
structure GapsStand (s t : State) : Prop where
  empties : t.gate.emptyPockets = s.gate.emptyPockets := by exact rfl
  gaps : t.gate.gapCount = s.gate.gapCount ∨ t.gate.gapCount = 0 ∧ Asleep t.run.state := by exact .inl rfl

/-- An entry without what a fault, a swap or a lost curve writes into it. -/
def Entry.core (e : Entry) : Entry := { e with bank := .active, capClass := none, flags := noMembers 11 }

/-- The entry `f` in `t` is the entry `e` in `s`, which the operation had no work at: a fault entered has marked it
(R34), a swap has moved its bank, its curve may be lost, and nothing else has changed. -/
structure Aside (s t : State) (e f : Entry) : Prop where
  core : f.core = e.core := by exact rfl
  flags : ∀ k, k ≠ .afterFault → k ≠ .traceLost → f.flags.has k = e.flags.has k := by exact fun _ _ _ => rfl
  grown : ∀ k, e.flags.has k = true → f.flags.has k = true := by exact fun _ h => h
  capClass : (Entered s t → e.position < s.track.geometry.x → e.capClass ≠ none) → f.capClass = e.capClass := by
    exact fun _ => rfl
  marked : Entered s t → f.flags.has .afterFault = true
    ∧ (e.position < s.track.geometry.x → e.capClass = none → f.capClass = some .interrupted)
  recipe : PositionsFall s ∧ CountsMatch s → recipeOf f.bank t = recipeOf e.bank s := by exact fun _ => rfl

/-- The entry `f` in `t` is the entry `e` in `s`, with the flags of its admission and, while no swap is due, its
bank. -/
structure Kin (calm : Bool) (s : State) (e f : Entry) : Prop where
  label : f.label = e.label := by exact rfl
  flags : ∀ k, k = .tempAbsent ∨ k = .firstOfRecipe → f.flags.has k = e.flags.has k := by exact fun _ _ => rfl
  bank : calm = true → NoSwapDue s → f.bank = e.bank := by exact fun _ _ => rfl

/-- The jar `jar` is in the Track, at the place `q` only. -/
def Placed (jar : Word32) (q : Nat) (s : State) : Prop :=
  (∃ e ∈ s.track.entries, e.jar = jar) ∧ ∀ e ∈ s.track.entries, e.jar = jar → e.position = q

/-- The jar `jar` rides on the head `p`, and no entry up to x does but at the place `q`. -/
def Alone (jar : Word32) (q : Nat) (p : Head) (s : State) : Prop :=
  (∀ e ∈ s.track.entries, e.jar = jar → e.pocket = p)
    ∧ ∀ f ∈ s.track.entries, f.pocket = p → f.position ≤ s.track.geometry.x → f.position = q

/-- Every entry of `t` was in `s`, at its position and with its bank. -/
def BanksStand (s t : State) : Prop :=
  ∀ f ∈ t.track.entries, ∃ e ∈ s.track.entries, f.position = e.position ∧ f.bank = e.bank

/-- What the stations behind the turret hold, with the labels of the entries. -/
structure BenchStands (s t : State) : Prop where
  capping : t.capping = s.capping := by exact rfl
  records : t.records = s.records := by exact rfl
  reject : t.reject = s.reject := by exact rfl
  classCounts : t.classCounts = s.classCounts := by exact rfl
  overrun : t.alerts.latch[alertIx .queueOverrun] = s.alerts.latch[alertIx .queueOverrun] := by exact rfl
  labels : t.track.entries.map Entry.label = s.track.entries.map Entry.label := by exact rfl

/-- Which clauses of `Beside` are claimed: the Check Station, the counts of the infeed,
that no batch ends, REJECT_UNCONFIRMED, the Head
Map with the Capture Unit, the stations behind the turret, the batch and the recipes, the two banks, the jar
with the binding of its head, and the line of that head. -/
structure Reach where
  check : Bool
  gate : Bool
  awake : Bool
  unconf : Bool
  heads : Bool
  bench : Bool
  calm : Bool
  active : Bool
  retiring : Bool
  jar : Bool
  line : Bool

/-- All that an operation of a pitch keeps of a Track that moves. -/
def Scope.turn : Scope := ⟨true, false, false, false, false, true, true, true, true, false⟩

variable {o : Reach} {jar : Word32} {q : Nat} {p : Head} {s t u : State}

/-- An operation of a pitch, seen from beside its work and from the jar `jar` at the place `q` on the head `p`. -/
structure Beside (o : Reach) (jar : Word32) (q : Nat) (p : Head) (s t : State) : Prop where
  keeps : Keeps Scope.turn s t := by exact {}
  asleep : Asleep s.run.state → Asleep t.run.state := by exact fun h => h
  calm : o.calm = true → NoSwapDue s → Calm s t := by exact fun _ h => { still := h }
  kin : ∀ e ∈ s.track.entries, e.position ≠ s.track.geometry.k → e.position ≠ s.track.geometry.j →
    ∃ f ∈ t.track.entries, Kin o.calm s e f := by exact fun e he _ _ => ⟨e, he, {}⟩
  banks : o.calm = true → NoSwapDue s → BanksStand s t := by exact fun _ _ f hf => ⟨f, hf, rfl, rfl⟩
  gate : o.gate = true → GapsStand s t := by exact fun _ => {}
  awake : o.awake = true → Awake s.run.state → Awake t.run.state ∧ t.gate.gapCount = s.gate.gapCount := by
    exact fun _ h => ⟨h, rfl⟩
  unconf : o.unconf = true →
    t.run.causes[causeIx .rejectUnconfirmed] = s.run.causes[causeIx .rejectUnconfirmed] := by exact fun _ => rfl
  check : o.check = true → t.check = s.check := by exact fun _ => rfl
  heads : o.heads = true → t.heads = s.heads ∧ t.capture = s.capture := by exact fun _ => ⟨rfl, rfl⟩
  bench : o.bench = true → BenchStands s t := by exact fun _ => {}
  active : o.calm = true → o.active = true → NoSwapDue s → t.track.activeCount = s.track.activeCount := by
    exact fun _ _ _ => rfl
  retiring : o.calm = true → o.retiring = true → NoSwapDue s → t.track.retiringCount = s.track.retiringCount
    ∧ t.recipes.retiring = s.recipes.retiring := by exact fun _ _ _ => ⟨rfl, rfl⟩
  placed : o.jar = true → Placed jar q s → Placed jar q t := by exact fun _ h => h
  alone : o.jar = true → o.line = true → Alone jar q p s → Alone jar q p t := by exact fun _ _ h => h
  entry : o.jar = true → Placed jar q s → ∀ e ∈ s.track.entries, e.jar = jar →
    ∃ f ∈ t.track.entries, Aside s t e f := by
      exact fun _ _ e he _ => ⟨e, he, { marked := fun h => absurd h.2 h.1 }⟩
  service : t.heads[p].service = s.heads[p].service
    ∨ s.heads[p].service = .inService ∧ t.heads[p].service = .markedOut .failures := by exact .inl rfl
  bound : o.jar = true → o.line = true → Placed jar q s → Alone jar q p s → t.capping[p] = s.capping[p] := by
    exact fun _ _ _ _ => rfl
  line : o.jar = true → o.line = true → Placed jar q s → Alone jar q p s →
    (Entered s t → s.track.geometry.x ≤ q) →
    (s.track.geometry.x ≤ q → t.heads[p].service = s.heads[p].service) →
    t.link.lines[p] = s.link.lines[p] := by exact fun _ _ _ _ _ _ => rfl
  struck : o.jar = true → o.line = true → Placed jar q s → Alone jar q p s → Entered s t → q < s.track.geometry.x →
    (∃ e ∈ s.track.entries, e.jar = jar ∧ e.capClass = none) → t.link.lines[p].slot = .abort := by
    exact fun _ _ _ _ h => absurd h.2 h.1

/-! ### One operation after another -/

theorem Keeps.geometryTurn (k : Keeps Scope.turn s t) : t.track.geometry = s.track.geometry := (k.pit rfl).geometry

theorem entered_trans (h : Keeps Scope.turn s t) (hf : Keeps Scope.turn t u) :
    Entered s u ↔ Entered s t ∨ Entered t u := by
  unfold Entered
  have h1 := h.fault rfl
  have h2 := hf.fault rfl
  by_cases ha : s.run.state = .fault <;> by_cases hb : t.run.state = .fault <;>
    by_cases hc : u.run.state = .fault <;> simp_all

theorem Calm.trans (h : Calm s t) (g : Calm t u) (hs : Asleep t.run.state → Asleep u.run.state) : Calm s u := by
  obtain ⟨_, ⟨h1, h2, h3⟩, ⟨h4, h5, h6⟩, hr⟩ := h
  obtain ⟨g0, ⟨g1, g2, g3⟩, ⟨g4, g5, g6⟩, gr⟩ := g
  refine ⟨g0, ⟨g1.trans h1, g2.trans h2, g3.trans h3⟩, ⟨g4.trans h4, g5.trans h5, g6.trans h6⟩, ?_⟩
  rcases gr with gr | gr
  · exact hr.imp (gr.trans ·) fun a => ⟨gr.trans a.1, hs a.2⟩
  · exact .inr gr

theorem GapsStand.trans (h : GapsStand s t) (g : GapsStand t u) (hs : Asleep t.run.state → Asleep u.run.state) :
    GapsStand s u where
  empties := g.empties.trans h.empties
  gaps := by
    rcases g.gaps with gr | gr
    · exact h.gaps.imp (gr.trans ·) fun a => ⟨gr.trans a.1, hs a.2⟩
    · exact .inr gr

theorem BenchStands.trans (h : BenchStands s t) (g : BenchStands t u) : BenchStands s u where
  capping := g.capping.trans h.capping
  records := g.records.trans h.records
  reject := g.reject.trans h.reject
  classCounts := g.classCounts.trans h.classCounts
  overrun := g.overrun.trans h.overrun
  labels := g.labels.trans h.labels

theorem Aside.label {e f : Entry} (h : Aside s t e f) : f.label = e.label := by
  change f.core.label = e.core.label
  rw [h.core]

theorem Aside.position {e f : Entry} (h : Aside s t e f) : f.position = e.position := congrArg Label.position h.label

theorem Aside.sameJar {e f : Entry} (h : Aside s t e f) : f.jar = e.jar := congrArg Label.jar h.label

theorem Aside.trans {e f g : Entry} (h : Aside s t e f) (h' : Aside t u f g) (k : Keeps Scope.turn s t)
    (k' : Keeps Scope.turn t u) : Aside s u e g where
  core := h'.core.trans h.core
  flags x ha hl := (h'.flags x ha hl).trans (h.flags x ha hl)
  grown x a := h'.grown x (h.grown x a)
  capClass a := by
    have hx := k.geometryTurn
    have h1 : f.capClass = e.capClass := h.capClass fun b => a ((entered_trans k k').2 (.inl b))
    exact (h'.capClass fun b hp => by
      rw [h1]; exact a ((entered_trans k k').2 (.inr b)) (by rwa [h.position, hx] at hp)).trans h1
  marked a := by
    have hx := k.geometryTurn
    rcases (entered_trans k k').1 a with b | b
    · refine ⟨h'.grown _ (h.marked b).1, fun hp hc => ?_⟩
      rw [← (h.marked b).2 hp hc]
      exact h'.capClass fun b' => absurd b.2 b'.1
    · refine ⟨(h'.marked b).1, fun hp hc => (h'.marked b).2 (by rwa [h.position, hx]) ?_⟩
      rw [← hc]
      exact h.capClass fun b' => absurd b'.2 b.1
  recipe a := (h'.recipe (k.track a)).trans (h.recipe a)

theorem Kin.trans {c : Bool} {e f g : Entry} (h : Kin c s e f) (h' : Kin c t f g)
    (hs : c = true → NoSwapDue s → NoSwapDue t) : Kin c s e g where
  label := h'.label.trans h.label
  flags k a := (h'.flags k a).trans (h.flags k a)
  bank a b := (h'.bank a (hs a b)).trans (h.bank a b)

/-- A service state that stands over two operations stands over each: a head is only marked out. -/
theorem service_between {a b c : Service} (h : b = a ∨ a = .inService ∧ b = .markedOut .failures)
    (g : c = b ∨ b = .inService ∧ c = .markedOut .failures) (hac : c = a) : b = a ∧ c = b := by
  rcases h with h | ⟨ha, hb⟩
  · exact ⟨h, hac.trans h.symm⟩
  · rcases g with g | ⟨gb, _⟩
    · exact ⟨g.symm.trans hac, g⟩
    · rw [hb] at gb; cases gb

theorem BanksStand.refl (s : State) : BanksStand s s := fun f hf => ⟨f, hf, rfl, rfl⟩

theorem BanksStand.trans (h : BanksStand s t) (g : BanksStand t u) : BanksStand s u := fun f hf =>
  have ⟨e, he, hp, hb⟩ := g f hf
  have ⟨e', he', hp', hb'⟩ := h e he
  ⟨e', he', hp.trans hp', hb.trans hb'⟩

theorem Beside.refl (s : State) : Beside o jar q p s s := {}

theorem Beside.trans (h : Beside o jar q p s t) (g : Beside o jar q p t u) : Beside o jar q p s u where
  keeps := h.keeps.trans g.keeps
  asleep a := g.asleep (h.asleep a)
  calm a b := (h.calm a b).trans (g.calm a (h.calm a b).still) g.asleep
  kin e he hk hj := by
    obtain ⟨f, hf, hef⟩ := h.kin e he hk hj
    have hp : f.position = e.position := congrArg Label.position hef.label
    obtain ⟨f', hf', hff'⟩ := g.kin f hf (by rwa [hp, h.keeps.geometryTurn]) (by rwa [hp, h.keeps.geometryTurn])
    exact ⟨f', hf', hef.trans hff' fun a b => (h.calm a b).still⟩
  banks a b := (h.banks a b).trans (g.banks a (h.calm a b).still)
  gate a := (h.gate a).trans (g.gate a) g.asleep
  awake a b :=
    have h' := h.awake a b
    have g' := g.awake a h'.1
    ⟨g'.1, g'.2.trans h'.2⟩
  unconf a := (g.unconf a).trans (h.unconf a)
  check a := (g.check a).trans (h.check a)
  heads a := ⟨(g.heads a).1.trans (h.heads a).1, (g.heads a).2.trans (h.heads a).2⟩
  bench a := (h.bench a).trans (g.bench a)
  active c a b := (g.active c a (h.calm c b).still).trans (h.active c a b)
  retiring c a b :=
    have hr := h.retiring c a b
    have gr := g.retiring c a (h.calm c b).still
    ⟨gr.1.trans hr.1, gr.2.trans hr.2⟩
  placed w a := g.placed w (h.placed w a)
  alone w v a := g.alone w v (h.alone w v a)
  entry w a e he hj := by
    obtain ⟨f, hf, hef⟩ := h.entry w a e he hj
    obtain ⟨f', hf', hff'⟩ := g.entry w (h.placed w a) f hf (hef.sameJar.trans hj)
    exact ⟨f', hf', hef.trans hff' h.keeps g.keeps⟩
  service := by
    rcases h.service with h' | ⟨h', h''⟩ <;> rcases g.service with g' | ⟨g', g''⟩
    · exact .inl (g'.trans h')
    · exact .inr ⟨h'.symm.trans g', g''⟩
    · exact .inr ⟨h', g'.trans h''⟩
    · exact .inr ⟨h', g''⟩
  bound w v a b := (g.bound w v (h.placed w a) (h.alone w v b)).trans (h.bound w v a b)
  line w v a b he hs := by
    have hx := h.keeps.geometryTurn
    have hst := entered_trans h.keeps g.keeps
    refine (g.line w v (h.placed w a) (h.alone w v b) (fun e => hx ▸ he (hst.2 (.inr e))) (fun e => ?_)).trans
      (h.line w v a b (fun e => he (hst.2 (.inl e))) (fun e => ?_))
    · exact (service_between h.service g.service (hs (hx ▸ e))).2
    · exact (service_between h.service g.service (hs e)).1
  struck w v a b he hq hc := by
    have hx := h.keeps.geometryTurn
    rcases (entered_trans h.keeps g.keeps).1 he with e | e
    · rw [g.line w v (h.placed w a) (h.alone w v b) (fun e' => absurd e.2 e'.1)
        (fun e' => absurd (hx ▸ e') (by omega))]
      exact h.struck w v a b e hq hc
    · refine g.struck w v (h.placed w a) (h.alone w v b) e (by rwa [hx]) ?_
      obtain ⟨c, hcm, hcj, hcc⟩ := hc
      obtain ⟨f, hf, hcf⟩ := h.entry w a c hcm hcj
      exact ⟨f, hf, hcf.sameJar.trans hcj, (hcf.capClass fun e' => absurd e'.2 e.1).trans hcc⟩

/-! ### Sets of alerts and flags -/

theorem alertIx_injective : Function.Injective alertIx :=
  Function.LeftInverse.injective (g := fun i => [AlertKind.faultEntered, .holdEntered, .headMarked, .classAlert,
    .queueOverrun, .captureFrozen, .batchDone, .changeoverDone, .liftDone, .liftFailed, .zeroStale, .strayReject,
    .settingsDefaulted][i]) fun k => by cases k <;> rfl

theorem flagIx_injective : Function.Injective flagIx :=
  Function.LeftInverse.injective (g := fun i => [JarFlag.tempAbsent, .coldFill, .zeroStale, .dtClamped,
    .firstOfRecipe, .afterFault, .retried, .tracePresent, .traceLost, .traceFrozen, .traceOff][i])
    fun k => by cases k <;> rfl

theorem getElem_set_ne {n : Nat} (v : Vector Bool n) {i j : Fin n} (b : Bool) (h : i ≠ j) : (v.set i b)[j] = v[j] := by
  simp only [Fin.getElem_fin, Vector.getElem_set]
  exact if_neg fun a => h (Fin.ext a)

theorem latch_other {k j : AlertKind} (v : AlertSet) (h : k ≠ j) : (v.set (alertIx k) true)[alertIx j] = v[alertIx j] :=
  getElem_set_ne v true fun a => h (alertIx_injective a)

theorem has_add_same (v : JarFlags) (k : JarFlag) : (v.add k).has k = true := by simp [JarFlags.has, JarFlags.add]

theorem has_add_other {v : JarFlags} {k j : JarFlag} (h : k ≠ j) : (v.add k).has j = v.has j :=
  getElem_set_ne v true fun a => h (flagIx_injective a)

theorem has_add_grown {v : JarFlags} {k j : JarFlag} (h : v.has j = true) : (v.add k).has j = true :=
  getElem_set_true v _ _ h

theorem beside_latchAlert (k : AlertKind) (h : o.bench = true → k ≠ .queueOverrun) :
    Beside o jar q p s (latchAlert k s) where
  keeps := keeps_latchAlert k
  bench a := { overrun := latch_other s.alerts.latch (h a) }

theorem beside_ite {c : Bool} (h : Beside o jar q p s t) (g : Beside o jar q p s u) :
    Beside o jar q p s (if c then t else u) := by
  cases c <;> simpa

/-! ### Moves of the run control -/

/-- An operation that touches the run control, the gate, the alerts and the lift alone, and does not enter FAULT. -/
theorem Beside.ofRun (k : Keeps Scope.turn s t)
    (hframe : t = { s with run := t.run, gate := t.gate, alerts := t.alerts, lift := t.lift }) (hn : ¬Entered s t)
    (hs : Asleep s.run.state → Asleep t.run.state) (hc : o.calm = true → NoSwapDue s → Calm s t)
    (hg : o.gate = true → GapsStand s t)
    (hw : o.awake = true → Awake s.run.state → Awake t.run.state ∧ t.gate.gapCount = s.gate.gapCount)
    (hu : t.run.causes = s.run.causes)
    (hl : t.alerts.latch[alertIx .queueOverrun] = s.alerts.latch[alertIx .queueOverrun]) : Beside o jar q p s t := by
  have htrack : t.track = s.track := by rw [hframe]
  have hrecipes : t.recipes = s.recipes := by rw [hframe]
  have hheads : t.heads = s.heads := by rw [hframe]
  have hcapping : t.capping = s.capping := by rw [hframe]
  exact {
    keeps := k, asleep := hs, calm := hc, gate := hg, awake := hw
    kin := fun e he _ _ => ⟨e, by rwa [htrack], {}⟩
    banks := fun _ _ => by rw [BanksStand, htrack]; exact BanksStand.refl s
    unconf := fun _ => by rw [hu]
    check := fun _ => by rw [hframe]
    heads := fun _ => ⟨hheads, by rw [hframe]⟩
    bench := fun _ => ⟨hcapping, by rw [hframe], by rw [hframe], by rw [hframe], hl, by rw [htrack]⟩
    active := fun _ _ _ => by rw [htrack]
    retiring := fun _ _ _ => ⟨by rw [htrack], by rw [hrecipes]⟩
    placed := fun _ h => by rwa [Placed, htrack]
    alone := fun _ _ h => by rwa [Alone, htrack]
    entry := fun _ _ e he _ => ⟨e, by rwa [htrack],
      { marked := fun a => absurd a hn, recipe := fun _ => by simp only [recipeOf, hrecipes] }⟩
    service := .inl (by rw [hheads])
    bound := fun _ _ _ _ => by rw [hcapping]
    line := fun _ _ _ _ _ _ => by rw [hframe]
    struck := fun _ _ _ _ a => absurd a hn }

/-- A move to a state other than FAULT that leaves the batch, the request and the gap count alone. -/
theorem Beside.ofMove (k : Keeps Scope.turn s t)
    (hframe : t = { s with run := t.run, gate := t.gate, alerts := t.alerts })
    (hrun : t.run = { s.run with state := t.run.state, phase := t.run.phase, lstop := t.run.lstop, hold := t.run.hold })
    (hgate : t.gate = { s.gate with decision := t.gate.decision, gateOut := t.gate.gateOut })
    (hn : ¬Entered s t) (hs : Asleep s.run.state → Asleep t.run.state)
    (hw : o.awake = true → Awake s.run.state → Awake t.run.state)
    (hch : o.calm = true → t.run.state = .change → s.run.state = .change)
    (hl : t.alerts.latch[alertIx .queueOverrun] = s.alerts.latch[alertIx .queueOverrun]) : Beside o jar q p s t := by
  have hrecipes : t.recipes = s.recipes := by rw [hframe]
  have hreq : t.run.request = s.run.request := by rw [hrun]
  have hgap : t.gate.gapCount = s.gate.gapCount := by rw [hgate]
  refine .ofRun k (by rw [hframe]) hn hs (fun a b => ?_) (fun _ => ⟨by rw [hgate], .inl hgap⟩)
    (fun a h => ⟨hw a h, hgap⟩) (by rw [hrun]) hl
  refine ⟨?_, by rw [hrecipes]; exact ⟨rfl, rfl, rfl⟩, by rw [hrun]; exact ⟨rfl, rfl, rfl⟩, .inl hreq⟩
  unfold NoSwapDue at b ⊢
  rw [hreq]
  exact b.imp_right fun c => ⟨fun d => c.1 (hch a d), c.2⟩

theorem beside_remake : Beside o jar q p s (remakeDecision s) :=
  .ofMove keeps_remake rfl rfl rfl (fun h => h.1 h.2) id (fun _ => id) (fun _ => id) rfl

theorem enterRunOrHold_cases (s : State) :
    enterRunOrHold s = setRunState .run s ∨ enterRunOrHold s = enterHold s := by
  unfold enterRunOrHold
  split
  · exact .inl rfl
  · exact .inr rfl

theorem latch_enterHold (s : State) :
    (enterHold s).alerts.latch[alertIx .queueOverrun] = s.alerts.latch[alertIx .queueOverrun] :=
  latch_other s.alerts.latch (by decide)

theorem beside_enterRunOrHold (k : Keeps Scope.turn s (enterRunOrHold s)) (hs : ¬Asleep s.run.state) :
    Beside o jar q p s (enterRunOrHold s) := by
  rcases enterRunOrHold_cases s with h | h <;> rw [h] at k ⊢
  · exact .ofMove k rfl rfl rfl (fun a => nomatch a.2) (fun a => absurd a hs) (fun _ _ => .inl rfl)
      (fun _ a => nomatch a) rfl
  · exact .ofMove k rfl rfl rfl (fun a => nomatch a.2) (fun a => absurd a hs) (fun _ _ => .inr (.inl rfl))
      (fun _ a => nomatch a) (latch_enterHold s)

theorem beside_setHold (r : HoldReason) (b : Bool) : Beside o jar q p s (setHold r b s) := by
  have k : Keeps Scope.turn s (setHold r b s) := keeps_setHold r b (fun a => nomatch a)
  revert k
  unfold setHold
  simp only
  split
  · rename_i h
    simp only [Bool.and_eq_true, beq_iff_eq] at h
    have hs : ¬Asleep s.run.state := by simp [Asleep, h.1.1]
    exact fun k => .ofMove k rfl rfl rfl (fun a => nomatch a.2) (fun a => absurd a hs) (fun _ _ => .inr (.inl rfl))
      (fun _ a => nomatch a) (latch_enterHold _)
  · split
    · rename_i h
      simp only [Bool.and_eq_true, beq_iff_eq] at h
      have hs : ¬Asleep s.run.state := by simp [Asleep, h.1.1]
      exact fun k => .ofMove k rfl rfl rfl (fun a => nomatch a.2) (fun a => absurd a hs) (fun _ _ => .inl rfl)
        (fun _ a => nomatch a) rfl
    · exact fun k => .ofMove k rfl rfl rfl (fun a => a.1 a.2) id (fun _ => id) (fun _ => id) rfl

theorem beside_drainEnd : Beside o jar q p s (drainEnd s) := by
  have k : Keeps Scope.turn s (drainEnd s) := keeps_drainEnd
  revert k
  unfold drainEnd
  split
  · rename_i h
    simp only [Bool.and_eq_true, beq_iff_eq] at h
    exact fun k => .ofRun k rfl (fun a => nomatch a.2) (fun _ => .inl rfl)
      (fun _ _ => { still := .inl rfl, request := .inr ⟨rfl, .inl rfl⟩ })
      (fun _ => { gaps := .inr ⟨rfl, .inl rfl⟩ }) (fun _ a => by simp [h.1, Awake] at a) rfl rfl
  · exact fun _ => .refl s

/-- An entry to DRAIN, which the gap count does not stand for. -/
theorem beside_enterDrain (hs : runOrHold s = true) (hg : o.awake = false) : Beside o jar q p s (enterDrain s) := by
  have hstate := runOrHold_state hs
  have k : Keeps Scope.turn s (setRunState .drain s) :=
    (Keeps.refl s).thenState (fun _ a => absurd a (runOrHold_notFault hs)) (fun a => nomatch a) (fun a => nomatch a)
      (fun a => nomatch a) (fun _ a => nomatch a) (hw := fun _ a => nomatch a)
  refine Beside.trans (.ofMove k rfl rfl rfl (fun a => nomatch a.2) (fun a => ?_) (fun a => by simp [hg] at a)
    (fun _ a => nomatch a) rfl) beside_drainEnd
  rcases hstate with h | h <;> simp [h, Asleep] at a

theorem beside_endBatchFlag : Beside o jar q p s (endBatchFlag s) :=
  .ofRun keeps_endBatchFlag rfl (fun h => h.1 h.2) id (fun _ b => { still := b }) (fun _ => {}) (fun _ h => ⟨h, rfl⟩) rfl rfl

/-! ### Command slots and entries -/

theorem placed_iff : Placed jar q s ↔ (∃ x ∈ s.track.entries.map Entry.label, x.jar = jar)
    ∧ ∀ x ∈ s.track.entries.map Entry.label, x.jar = jar → x.position = q := by
  simp [Placed, Entry.label]

theorem alone_iff : Alone jar q p s ↔ (∀ x ∈ s.track.entries.map Entry.label, x.jar = jar → x.pocket = p)
    ∧ ∀ x ∈ s.track.entries.map Entry.label, x.pocket = p → x.position ≤ s.track.geometry.x → x.position = q := by
  simp [Alone, Entry.label]

/-- A change of the entries that leaves their labels alone leaves the places alone. -/
theorem placed_of_labels (h : t.track.entries.map Entry.label = s.track.entries.map Entry.label)
    (hp : Placed jar q s) : Placed jar q t := by
  rw [placed_iff] at *
  rwa [h]

/-- Where no entry joins, the place of a jar that stays is what it was. -/
theorem placed_of_sublist (h : (t.track.entries.map Entry.label).Sublist (s.track.entries.map Entry.label))
    (hp : Placed jar q s) (he : ∃ f ∈ t.track.entries, f.jar = jar) : Placed jar q t := by
  refine ⟨he, ?_⟩
  have := (placed_iff.1 hp).2
  intro f hf hj
  exact this f.label (h.subset (List.mem_map_of_mem hf)) hj

theorem alone_of_sublist (h : (t.track.entries.map Entry.label).Sublist (s.track.entries.map Entry.label))
    (hg : t.track.geometry = s.track.geometry) (ha : Alone jar q p s) : Alone jar q p t := by
  rw [alone_iff] at *
  rw [hg]
  exact ⟨fun x hx => ha.1 x (h.subset hx), fun x hx => ha.2 x (h.subset hx)⟩

/-- An operation on entries and command slots alone that has no work at the jar and its head. -/
theorem Beside.ofLines (k : Keeps Scope.turn s t) (hframe : LinesAndEntries s t)
    (hlabels : t.track.entries.map Entry.label = s.track.entries.map Entry.label)
    (hkin : ∀ e ∈ s.track.entries, ∃ f ∈ t.track.entries, Kin o.calm s e f) (hbanks : BanksStand s t)
    (hentry : o.jar = true → Placed jar q s → ∀ e ∈ s.track.entries, e.jar = jar →
      ∃ f ∈ t.track.entries, Aside s t e f)
    (hline : o.line = true → t.link.lines[p] = s.link.lines[p]) : Beside o jar q p s t := by
  have hrun : t.run = s.run := by rw [hframe]
  have hgate : t.gate = s.gate := by rw [hframe]
  have hrecipes : t.recipes = s.recipes := by rw [hframe]
  have hheads : t.heads = s.heads := by rw [hframe]
  have hcapping : t.capping = s.capping := by rw [hframe]
  have hcounts : t.track.activeCount = s.track.activeCount ∧ t.track.retiringCount = s.track.retiringCount := by
    rw [hframe]; exact ⟨rfl, rfl⟩
  exact {
    keeps := k
    asleep := by rw [hrun]; exact id
    calm := fun _ b => ⟨by rwa [NoSwapDue, hrun], by rw [hrecipes]; exact ⟨rfl, rfl, rfl⟩,
      by rw [hrun]; exact ⟨rfl, rfl, rfl⟩, .inl (by rw [hrun])⟩
    kin := fun e he _ _ => hkin e he
    banks := fun _ _ => hbanks
    gate := fun _ => ⟨by rw [hgate], .inl (by rw [hgate])⟩
    awake := fun _ => by rw [hrun, hgate]; exact fun h => ⟨h, rfl⟩
    unconf := fun _ => by rw [hrun]
    check := fun _ => by rw [hframe]
    heads := fun _ => ⟨hheads, by rw [hframe]⟩
    bench := fun _ => ⟨hcapping, by rw [hframe], by rw [hframe], by rw [hframe], by rw [hframe], hlabels⟩
    active := fun _ _ _ => hcounts.1
    retiring := fun _ _ _ => ⟨hcounts.2, by rw [hrecipes]⟩
    placed := fun _ => placed_of_labels hlabels
    alone := fun _ _ => alone_of_sublist (by rw [hlabels]) k.geometryTurn
    entry := hentry
    service := .inl (by rw [hheads])
    bound := fun _ _ _ _ => by rw [hcapping]
    line := fun _ w _ _ _ _ => hline w
    struck := fun _ _ _ _ a => absurd (hrun ▸ a.2) a.1 }

theorem modEntry_labels {j : Word32} {F : Entry → Entry} (hF : ∀ e, (F e).label = e.label) (s : State) :
    (modEntry j F s).track.entries.map Entry.label = s.track.entries.map Entry.label := by
  simp only [modEntry_track, List.map_map]
  refine List.map_congr_left fun e _ => ?_
  simp only [Function.comp_apply]
  split
  · exact hF e
  · rfl

/-- The entry a change of one jar makes of another. -/
theorem mem_modEntry {j : Word32} {F : Entry → Entry} {e : Entry} (he : e ∈ s.track.entries) :
    (if e.jar == j then F e else e) ∈ (modEntry j F s).track.entries := List.mem_map_of_mem he

theorem banksStand_modEntry {j : Word32} {F : Entry → Entry} (hF : ∀ e, (F e).position = e.position ∧ (F e).bank = e.bank)
    (s : State) : BanksStand s (modEntry j F s) := fun f hf => by
  obtain ⟨e, he, rfl⟩ := List.mem_map.1 hf
  refine ⟨e, he, ?_⟩
  split
  · exact hF e
  · exact ⟨rfl, rfl⟩

/-- The entry of another jar is changed; the flags of its admission stand. -/
theorem beside_modEntry {j : Word32} {F : Entry → Entry} (hj : o.jar = true → j ≠ jar) (hF : ∀ e, Grows e (F e))
    (hflags : ∀ e k, k = .tempAbsent ∨ k = .firstOfRecipe → (F e).flags.has k = e.flags.has k) :
    Beside o jar q p s (modEntry j F s) := by
  refine .ofLines (keeps_modEntry _ _ hF) rfl (modEntry_labels (fun e => (hF e).label) s) (fun e he => ?_)
    (banksStand_modEntry (fun e => ⟨(hF e).position, (hF e).bank⟩) s) (fun a _ e he hej => ?_) (fun _ => rfl)
  · refine ⟨_, mem_modEntry he, ?_⟩
    split
    · exact { label := (hF e).label, flags := hflags e, bank := fun _ _ => (hF e).bank }
    · exact {}
  · refine ⟨_, mem_modEntry he, ?_⟩
    rw [if_neg (by simp only [beq_iff_eq]; exact fun a' => hj a (a'.symm.trans hej))]
    exact { marked := fun h => absurd h.2 h.1 }

/-- A curve may be lost at any jar (R90, R101). -/
theorem aside_lost (e : Entry) : Aside s s e { e with flags := e.flags.add .traceLost } where
  flags _ _ h := has_add_other h.symm
  grown _ h := has_add_grown h
  marked h := absurd h.2 h.1

theorem kin_lost {c : Bool} (e : Entry) : Kin c s e { e with flags := e.flags.add .traceLost } where
  flags k h := has_add_other (by rcases h with rfl | rfl <;> decide)

theorem beside_addLost (j : Word32) : Beside o jar q p s (addFlag j .traceLost s) := by
  refine .ofLines (keeps_addFlag _ _) rfl (addFlag_labels _ _ s) (fun e he => ⟨_, mem_modEntry he, ?_⟩)
    (banksStand_modEntry (F := fun e => { e with flags := e.flags.add .traceLost }) (fun _ => ⟨rfl, rfl⟩) s)
    (fun _ _ e he _ => ⟨_, mem_modEntry he, ?_⟩) (fun _ => rfl)
  · split
    · exact kin_lost e
    · exact {}
  · split
    · exact { aside_lost (s := s) e with marked := fun h => absurd h.2 h.1 }
    · exact { marked := fun h => absurd h.2 h.1 }

theorem lines_modLine_other {r : Head} (f : HeadLine → HeadLine) (h : r ≠ p) (s : State) :
    (modLine r f s).link.lines[p] = s.link.lines[p] := by
  simp only [modLine, Fin.getElem_fin, Vector.getElem_set]
  exact if_neg fun a => h (Fin.ext a)

theorem beside_modLine {r : Head} (f : HeadLine → HeadLine) (h : o.line = true → r ≠ p) :
    Beside o jar q p s (modLine r f s) where
  line _ w _ _ _ _ := lines_modLine_other f (h w) s

theorem beside_displaceFetch {r : Head} (h : o.line = true → r ≠ p) :
    Beside o jar q p s (displaceFetch r s) := by
  unfold displaceFetch
  split
  · exact .refl s
  · exact (beside_modLine _ h).trans (beside_addLost _)

theorem beside_placeAbort {r : Head} (h : o.line = true → r ≠ p) :
    Beside o jar q p s (placeAbort r s) := by
  unfold placeAbort
  split
  · exact .refl s
  · exact (beside_modLine _ h).trans (beside_displaceFetch h)
  · exact beside_modLine _ h
  · exact beside_modLine _ h

/-! ### What the Head Link holds after a command is placed (R84, R90) -/

theorem lines_modLine_same (r : Head) (f : HeadLine → HeadLine) (s : State) :
    (modLine r f s).link.lines[r] = f s.link.lines[r] := by simp [modLine]

/-- A displaced fetch is gone, and nothing else of its head's line (R90). -/
theorem lines_displaceFetch_same (r : Head) (s : State) :
    (displaceFetch r s).link.lines[r] = { s.link.lines[r] with fetch := none } := by
  unfold displaceFetch
  split
  · rename_i h
    rw [← h]
  · rw [addFlag_link, lines_modLine_same]

theorem lines_displaceFetch_other {r : Head} (h : r ≠ p) (s : State) :
    (displaceFetch r s).link.lines[p] = s.link.lines[p] := by
  unfold displaceFetch
  split
  · rfl
  · rw [addFlag_link, lines_modLine_other _ h]

theorem lines_placeAbort_other {r : Head} (h : r ≠ p) (s : State) :
    (placeAbort r s).link.lines[p] = s.link.lines[p] := by
  unfold placeAbort
  split
  · rfl
  · rw [lines_displaceFetch_other h, lines_modLine_other _ h]
  · exact lines_modLine_other _ h s
  · exact lines_modLine_other _ h s

theorem slot_placeAbort (r : Head) (s : State) : (placeAbort r s).link.lines[r].slot = .abort := by
  unfold placeAbort
  split
  · assumption
  · rw [lines_displaceFetch_same, lines_modLine_same]
  · rw [lines_modLine_same]
  · rw [lines_modLine_same]

/-- ABORTs are placed on some heads: on each of these one stands after it, and the lines of the others stand. -/
theorem lines_placeAborts (es : List Entry) : ∀ s : State,
    (p ∈ es.map Entry.pocket ∨ s.link.lines[p].slot = .abort →
        (es.foldl (fun u e => placeAbort e.pocket u) s).link.lines[p].slot = .abort)
      ∧ (p ∉ es.map Entry.pocket → (es.foldl (fun u e => placeAbort e.pocket u) s).link.lines[p] = s.link.lines[p]) := by
  induction es with
  | nil => exact fun s => ⟨fun h => h.elim (fun a => nomatch a) id, fun _ => rfl⟩
  | cons e es ih =>
    intro s
    obtain ⟨h1, h2⟩ := ih (placeAbort e.pocket s)
    by_cases hp : e.pocket = p
    · subst hp
      exact ⟨fun _ => h1 (.inr (slot_placeAbort _ s)), fun a => absurd (List.mem_cons_self ..) a⟩
    · have hl := lines_placeAbort_other hp s
      refine ⟨fun a => h1 ?_, fun a => (h2 fun b => a (List.mem_cons_of_mem _ b)).trans hl⟩
      rw [hl]
      refine a.imp_left fun b => ?_
      rw [List.map_cons, List.mem_cons] at b
      exact b.resolve_left fun c => hp c.symm

/-- The entry `f` is the entry `e`, whose curve may have been lost. -/
structure MayLose (e f : Entry) : Prop where
  core : f = { e with flags := f.flags } := by exact rfl
  flags : ∀ k, k ≠ .traceLost → f.flags.has k = e.flags.has k := by exact fun _ _ => rfl
  grown : ∀ k, e.flags.has k = true → f.flags.has k = true := by exact fun _ h => h

theorem MayLose.trans {e f g : Entry} (h : MayLose e f) (h' : MayLose f g) : MayLose e g where
  core := by rw [h'.core, h.core]
  flags k a := (h'.flags k a).trans (h.flags k a)
  grown k a := h'.grown k (h.grown k a)

/-- From `s` to `t` no more has happened to the entries than lost curves. -/
def CurvesLost (s t : State) : Prop :=
  ∀ e ∈ s.track.entries, ∃ f ∈ t.track.entries, MayLose e f

theorem CurvesLost.refl (s : State) : CurvesLost s s := fun e he => ⟨e, he, {}⟩

theorem CurvesLost.trans (h : CurvesLost s t) (g : CurvesLost t u) : CurvesLost s u := fun e he =>
  have ⟨f, hf, hef⟩ := h e he
  have ⟨f', hf', hff'⟩ := g f hf
  ⟨f', hf', hef.trans hff'⟩

theorem curvesLost_displaceFetch (r : Head) (s : State) : CurvesLost s (displaceFetch r s) := by
  unfold displaceFetch
  split
  · exact .refl s
  · intro e he
    refine ⟨_, mem_modEntry (s := modLine r _ s) he, ?_⟩
    split
    · exact { flags := fun k h => has_add_other h.symm, grown := fun _ h => has_add_grown h }
    · exact {}

theorem curvesLost_placeAbort (r : Head) (s : State) : CurvesLost s (placeAbort r s) := by
  unfold placeAbort
  split
  · exact .refl s
  · exact curvesLost_displaceFetch r (modLine r (fun l => { l with slot := .abort }) s)
  · exact .refl s
  · exact .refl s

theorem curvesLost_foldl {α : Type} {f : State → α → State} (h : ∀ u a, CurvesLost u (f u a)) (l : List α) :
    ∀ s, CurvesLost s (l.foldl f s) := by
  induction l with
  | nil => exact .refl
  | cons a l ih => exact fun s => (h s a).trans (ih _)

theorem banksStand_displaceFetch (r : Head) (s : State) : BanksStand s (displaceFetch r s) := by
  unfold displaceFetch
  split
  · exact .refl s
  · exact banksStand_modEntry (F := fun e => { e with flags := e.flags.add .traceLost }) (fun _ => ⟨rfl, rfl⟩)
      (modLine r _ s)

theorem banksStand_placeAbort (r : Head) (s : State) : BanksStand s (placeAbort r s) := by
  unfold placeAbort
  split
  · exact .refl s
  · exact banksStand_displaceFetch r (modLine r (fun l => { l with slot := .abort }) s)
  · exact .refl s
  · exact .refl s

theorem banksStand_foldl {α : Type} {f : State → α → State} (h : ∀ u a, BanksStand u (f u a)) (l : List α) :
    ∀ s, BanksStand s (l.foldl f s) := by
  induction l with
  | nil => exact .refl
  | cons a l ih => exact fun s => (h s a).trans (ih _)

/-! ### Fault causes (R33 to R35) -/

/-- The turret entries with no class, whose heads are stopped at the entry to FAULT (R34). -/
def stoppedEntries (s : State) : List Entry :=
  s.track.entries.filter fun e => decide (e.position < s.track.geometry.x) && e.capClass.isNone

theorem enterFault_eq (s : State) :
    enterFault s = (stoppedEntries s).foldl (fun u e => placeAbort e.pocket u) (faultMarked s) := rfl

theorem mem_stoppedEntries {e : Entry} : e ∈ stoppedEntries s ↔
    e ∈ s.track.entries ∧ e.position < s.track.geometry.x ∧ e.capClass = none := by
  simp [stoppedEntries]

/-- What the entry to FAULT makes of an entry: the marks of R34, and the loss of a curve its ABORTs displace. -/
theorem enterFault_entry {e : Entry} (he : e ∈ s.track.entries) :
    ∃ f ∈ (enterFault s).track.entries, MayLose (faultMark s.track.geometry.x e) f :=
  curvesLost_foldl (fun u (e : Entry) => curvesLost_placeAbort e.pocket u) _ (faultMarked s) _ (List.mem_map_of_mem he)

theorem MayLose.label {e f : Entry} (h : MayLose e f) : f.label = e.label := by rw [h.core]; rfl

theorem entered_enterFault (hs : s.run.state ≠ .fault) : Entered s (enterFault s) := ⟨hs, by simp⟩

theorem aside_enterFault (hs : s.run.state ≠ .fault) {e f : Entry} (h : MayLose (faultMark s.track.geometry.x e) f) :
    Aside s (enterFault s) e f := by
  have hcap : f.capClass = (faultMark s.track.geometry.x e).capClass := by rw [h.core]
  have hbank : f.bank = e.bank := by rw [h.core]; rfl
  have hrecipes : (enterFault s).recipes = s.recipes := by rw [linesAndEntries_enterFault s]; rfl
  refine ⟨by rw [h.core]; rfl, fun k ha hl => ?_, fun k a => h.grown k (has_add_grown a), fun a => ?_,
    fun _ => ⟨h.grown _ (has_add_same _ _), fun hp hc => ?_⟩, fun _ => by rw [hbank]; simp only [recipeOf, hrecipes]⟩
  · rw [h.flags k hl]
    exact has_add_other ha.symm
  · have hclass := a (entered_enterFault hs)
    rw [hcap]
    unfold faultMark
    simp only
    rw [if_neg (by simpa using hclass)]
  · rw [hcap]
    simp [faultMark, hp, hc]

theorem Aside.kin {c : Bool} {e f : Entry} (h : Aside s t e f) (hb : f.bank = e.bank) : Kin c s e f where
  label := h.label
  flags k a := h.flags k (by rcases a with rfl | rfl <;> decide) (by rcases a with rfl | rfl <;> decide)
  bank _ _ := hb

theorem banksStand_enterFault (s : State) : BanksStand s (enterFault s) := by
  refine BanksStand.trans (t := faultMarked s) (fun f hf => ?_)
    (banksStand_foldl (fun u (e : Entry) => banksStand_placeAbort e.pocket u) _ (faultMarked s))
  obtain ⟨e, he, rfl⟩ := List.mem_map.1 hf
  exact ⟨e, he, rfl, rfl⟩

theorem beside_enterFault (hs : s.run.state ≠ .fault) : Beside o jar q p s (enterFault s) := by
  have k : Keeps Scope.turn s (enterFault s) := keeps_enterFault
  have hframe := linesAndEntries_enterFault s
  have hrun : (enterFault s).run = (faultMarked s).run := enterFault_run s
  have hgate : (enterFault s).gate = (faultMarked s).gate := by rw [hframe]
  have hlabels := enterFault_labels s
  have hentry : ∀ e ∈ s.track.entries, ∃ f ∈ (enterFault s).track.entries, Aside s (enterFault s) e f ∧ f.bank = e.bank :=
    fun e he => have ⟨f, hf, hef⟩ := enterFault_entry he
      ⟨f, hf, aside_enterFault hs hef, by rw [hef.core]; rfl⟩
  have hlines := lines_placeAborts (p := p) (stoppedEntries s) (faultMarked s)
  rw [← enterFault_eq] at hlines
  exact {
    keeps := k
    asleep := fun _ => .inr (by simp)
    calm := fun _ _ => ⟨.inl (by simp), by rw [hframe]; exact ⟨rfl, rfl, rfl⟩, by rw [hrun]; exact ⟨rfl, rfl, rfl⟩,
      .inr ⟨by simp, .inr (by simp)⟩⟩
    kin := fun e he _ _ => have ⟨f, hf, hef, hb⟩ := hentry e he
      ⟨f, hf, hef.kin hb⟩
    banks := fun _ _ => banksStand_enterFault s
    gate := fun _ => ⟨by rw [hgate]; rfl, .inl (by rw [hgate]; rfl)⟩
    awake := fun _ _ => ⟨by rw [hrun]; simp [Awake], by rw [hgate]; rfl⟩
    unconf := fun _ => by rw [hrun]; rfl
    check := fun _ => by rw [hframe]; rfl
    heads := fun _ => by rw [hframe]; exact ⟨rfl, rfl⟩
    bench := fun _ => ⟨by rw [hframe]; rfl, by rw [hframe]; rfl, by rw [hframe]; rfl, by rw [hframe]; rfl,
      by rw [hframe]; rfl, hlabels⟩
    active := fun _ _ _ => by rw [hframe]; rfl
    retiring := fun _ _ _ => by rw [hframe]; exact ⟨rfl, rfl⟩
    placed := fun _ => placed_of_labels hlabels
    alone := fun _ _ => alone_of_sublist (by rw [hlabels]) k.geometryTurn
    entry := fun _ _ e he _ => have ⟨f, hf, hef, _⟩ := hentry e he
      ⟨f, hf, hef⟩
    service := .inl (by rw [hframe]; rfl)
    bound := fun _ _ _ _ => by rw [hframe]; rfl
    line := fun _ _ _ ha hx _ => hlines.2 fun hm => by
      obtain ⟨e, he, hep⟩ := List.mem_map.1 hm
      obtain ⟨hem, hlt, _⟩ := mem_stoppedEntries.1 he
      have := ha.2 e hem hep hlt.le
      have := hx (entered_enterFault hs)
      omega
    struck := fun _ _ hp ha _ hq hc => by
      obtain ⟨e, hem, hej, hcc⟩ := hc
      have hpos := hp.2 e hem hej
      exact hlines.1 (.inl (List.mem_map.2 ⟨e, mem_stoppedEntries.2 ⟨hem, hpos ▸ hq, hcc⟩, ha.1 e hem hej⟩)) }

theorem causeIx_other {c : Cause} (h : c ≠ .rejectUnconfirmed) : causeIx c ≠ causeIx .rejectUnconfirmed := by
  cases c <;> simp [causeIx] at h ⊢

theorem beside_withCause {c : Cause} (hc : o.unconf = true → c ≠ .rejectUnconfirmed) :
    Beside o jar q p s (withCause c s) := by
  refine Beside.trans (t := { s with run.causes := s.run.causes.set (causeIx c) true }) ?_
    (beside_latchAlert _ fun _ => by decide)
  exact {
    keeps := { causes := fun _ j h => getElem_set_true s.run.causes _ _ h }
    unconf := fun a => getElem_set_ne _ _ (causeIx_other (hc a)) }

theorem beside_raiseCause {c : Cause} (hc : o.unconf = true → c ≠ .rejectUnconfirmed) :
    Beside o jar q p s (raiseCause c s) := by
  by_cases hs : s.run.state = .fault
  · rw [raiseCause_inFault hs]
    exact beside_withCause hc
  · rw [raiseCause_outside hs]
    exact (beside_withCause hc).trans (beside_enterFault hs)

/-! ### The swap and the completed changeover (R19, R50, R57) -/

/-- The recipe of an entry is the same before and after the swap (R19). -/
theorem recipeOf_doSwap (hc : CountsMatch s) (h0 : s.track.retiringCount = 0) {e f : Entry} (he : e ∈ s.track.entries)
    (hf : f.bank = if 0 < s.track.activeCount then .retiring else e.bank) :
    recipeOf f.bank (doSwap s) = recipeOf e.bank s := by
  obtain ⟨hactive, hretiring⟩ := hc
  have hbank : e.bank = .active := by
    cases hb : e.bank with
    | active => rfl
    | retiring =>
      have : 0 < s.track.entries.countP (fun e => e.bank == .retiring) := List.countP_pos_iff.2 ⟨e, he, by simp [hb]⟩
      omega
  have hpos : 0 < s.track.activeCount := by
    rw [hactive]
    exact List.countP_pos_iff.2 ⟨e, he, by simp [hbank]⟩
  rw [hf, if_pos hpos, hbank]
  simp only [recipeOf, (doSwap_loaded hpos).1]

/-- What the swap makes of an entry. -/
theorem doSwap_entry {e : Entry} (he : e ∈ s.track.entries) : ∃ f ∈ (doSwap s).track.entries,
    f = { e with bank := if 0 < s.track.activeCount then .retiring else e.bank } := by
  by_cases h : 0 < s.track.activeCount
  · rw [(doSwap_loaded h).2]
    exact ⟨_, List.mem_map_of_mem he, by simp only [if_pos h]; rfl⟩
  · rw [(doSwap_unloaded (by omega)).1]
    exact ⟨e, he, by simp only [if_neg h]⟩

theorem doSwap_labels (s : State) :
    (doSwap s).track.entries.map Entry.label = s.track.entries.map Entry.label := by
  by_cases h : 0 < s.track.activeCount
  · rw [(doSwap_loaded h).2, List.map_map]; rfl
  · rw [(doSwap_unloaded (by omega)).1]

theorem beside_doSwap (hw : swapAllowed s = true) (hq : s.run.request ≠ none) (hd : o.calm = true → ¬NoSwapDue s) :
    Beside o jar q p s (doSwap s) := by
  have h0 := (swapAllowed_staged hw).2
  have k : Keeps Scope.turn s (doSwap s) := keeps_doSwap (.inl h0) (swapAllowed_staged hw).1 (fun _ => hq)
  have hframe := doSwap_frame s
  have hrun := doSwap_run s
  have hgate : (doSwap s).gate = s.gate := by rw [hframe]
  have hlabels := doSwap_labels s
  have hn : ¬Entered s (doSwap s) := fun h => h.1 (by rw [← hrun]; exact h.2)
  exact {
    keeps := k
    asleep := by rw [hrun]; exact id
    calm := fun a b => absurd b (hd a)
    kin := fun e he _ _ => by
      obtain ⟨f, hf, rfl⟩ := doSwap_entry he
      exact ⟨_, hf, { bank := fun a b => absurd b (hd a) }⟩
    banks := fun a b => absurd b (hd a)
    gate := fun _ => ⟨by rw [hgate], .inl (by rw [hgate])⟩
    awake := fun _ => by rw [hrun, hgate]; exact fun h => ⟨h, rfl⟩
    unconf := fun _ => by rw [hrun]
    check := fun _ => by rw [hframe]
    heads := fun _ => by rw [hframe]; exact ⟨rfl, rfl⟩
    bench := fun _ => ⟨by rw [hframe], by rw [hframe], by rw [hframe], by rw [hframe], by rw [hframe], hlabels⟩
    active := fun a _ b => absurd b (hd a)
    retiring := fun a _ b => absurd b (hd a)
    placed := fun _ => placed_of_labels hlabels
    alone := fun _ _ => alone_of_sublist (by rw [hlabels]) k.geometryTurn
    entry := fun _ _ e he _ => by
      obtain ⟨f, hf, hef⟩ := doSwap_entry he
      refine ⟨f, hf, ?_⟩
      subst hef
      exact { marked := fun a => absurd a hn, recipe := fun a => recipeOf_doSwap a.2 h0 he rfl }
    service := .inl (by rw [hframe])
    bound := fun _ _ _ _ => by rw [hframe]
    line := fun _ _ _ _ _ _ => by rw [hframe]
    struck := fun _ _ _ _ a => absurd a hn }

theorem beside_completeChangeover (r : Changeover) (hq : s.run.request ≠ none) (hd : o.calm = true → ¬NoSwapDue s) :
    Beside o jar q p s (completeChangeover r s) := by
  have k : Keeps Scope.turn s (completeChangeover r s) := keeps_completeChangeover r hq
  have hlatch : (s.alerts.latch.set (alertIx .changeoverDone) true)[alertIx .queueOverrun]
      = s.alerts.latch[alertIx .queueOverrun] := latch_other _ (by decide)
  revert k
  unfold completeChangeover
  simp only
  split
  · rename_i hc
    simp only [Bool.and_eq_true, beq_iff_eq] at hc
    have hs : ¬Asleep s.run.state := by simp [Asleep, show s.run.state = .change from hc.2]
    rcases enterRunOrHold_cases (latchAlert .changeoverDone
      { s with run.batchNumber := r.nextNumber, run.batchSize := r.nextSize, run.admitted := 0
               run.batchEnded := false, run.request := none }) with h | h <;> rw [h]
    · exact fun k => .ofRun k rfl (fun a => nomatch a.2) (fun a => absurd a hs) (fun a b => absurd b (hd a))
        (fun _ => {}) (fun _ _ => ⟨.inl rfl, rfl⟩) rfl hlatch
    · exact fun k => .ofRun k rfl (fun a => nomatch a.2) (fun a => absurd a hs) (fun a b => absurd b (hd a))
        (fun _ => {}) (fun _ _ => ⟨.inr (.inl rfl), rfl⟩) rfl ((latch_enterHold _).trans hlatch)
  · exact fun k => .ofRun k rfl (fun a => a.1 a.2) id (fun a b => absurd b (hd a)) (fun _ => {})
      (fun _ h => ⟨h, rfl⟩) rfl hlatch

theorem beside_swapAndComplete {r : Changeover} (hw : swapAllowed s = true) (hq : s.run.request ≠ none)
    (hd : o.calm = true → ¬NoSwapDue s) : Beside o jar q p s (swapAndComplete r s) :=
  (beside_doSwap hw hq hd).trans (beside_completeChangeover r (by rwa [doSwap_run])
    (by rw [NoSwapDue, doSwap_run]; exact hd))

theorem beside_retireSwap : Beside o jar q p s (retireSwap s) := by
  unfold retireSwap
  split
  · rename_i r hq
    split
    · rename_i h
      simp only [Bool.and_eq_true, beq_iff_eq] at h
      refine beside_swapAndComplete h.2 (by simp [hq]) fun _ hd => ?_
      exact hd.elim (fun a => by simp [hq] at a) fun a => a.2 r hq h.1
    · exact .refl s
  · exact .refl s

/-! ### Lift moves (R111, R112, R113, R115) -/

theorem beside_lift (l : Lift) : Beside o jar q p s { s with lift := l } := {}

theorem beside_liftFault : Beside o jar q p s (liftFault s) := by
  unfold liftFault
  simp only
  split
  · exact (beside_lift _).trans (beside_latchAlert _ fun _ => by decide)
  · exact (beside_lift _).trans (beside_raiseCause fun _ => by decide)

theorem beside_startHome (r : Requester) : Beside o jar q p s (startHome r s) := by
  unfold startHome
  simp only
  split
  · exact (beside_lift _).trans beside_liftFault
  · unfold homeReading homeFound
    exact (beside_lift _).trans (beside_ite (beside_lift _) (beside_lift _))

theorem beside_phase {ph : ChangePhase} (hs : s.run.state = .change) (hph : ph ≠ .none) :
    Beside o jar q p s { s with run.phase := ph } :=
  .ofMove (keeps_phase ph hs hph) rfl rfl rfl (fun h => h.1 h.2) id (fun _ => id) (fun _ => id) rfl

theorem not_asleep_prepare (h : s.run.state = .prepare) : ¬Asleep s.run.state := by simp [Asleep, h]

theorem beside_runFromPrepare (h : s.run.state = .prepare) : Beside o jar q p s (enterRunOrHold s) :=
  beside_enterRunOrHold (keeps_enterRunOrHold (.refl s) (fun _ a => by simp [h] at a) (fun b => b.2.2 (.inl h)))
    (not_asleep_prepare h)

theorem beside_seekEnded : Beside o jar q p s (seekEnded s) := by
  unfold seekEnded
  split
  · rename_i hp
    exact beside_runFromPrepare hp
  · rename_i hc
    split
    · rename_i r hph hq
      split
      · rename_i hw
        refine (beside_phase hc (by decide)).trans (beside_swapAndComplete hw (by simp [hq]) fun _ hd => ?_)
        exact hd.elim (fun a => by simp [hq] at a) fun a => a.1 hc
      · exact beside_phase hc (by decide)
    · exact .refl s
  · exact .refl s

theorem beside_startSeek (target period : Nat) : Beside o jar q p s (startSeek target period s) := by
  unfold startSeek
  simp only
  split
  · exact (beside_lift _).trans beside_seekEnded
  · exact beside_lift _

theorem beside_seekForRun : Beside o jar q p s (seekForRun s) := by
  unfold seekForRun
  split
  · split
    · exact beside_startSeek _ _
    · exact .refl s
  · split
    · exact beside_startSeek _ _
    · exact .refl s
  · exact .refl s

theorem beside_liftForRun : Beside o jar q p s (liftForRun s) := by
  unfold liftForRun
  split
  · split
    · rename_i h
      simp only [atActiveHeight, Bool.and_eq_true, beq_iff_eq] at h
      exact beside_runFromPrepare h.1
    · exact beside_seekForRun
  · exact beside_startHome _
  · exact beside_startHome _
  · exact .refl s
  · exact .refl s

theorem beside_waitTurretEnd : Beside o jar q p s (waitTurretEnd s) := by
  unfold waitTurretEnd
  split
  · rename_i h
    simp only [Bool.and_eq_true, beq_iff_eq] at h
    exact (beside_phase h.1.1.1 (by decide)).trans beside_liftForRun
  · exact .refl s

/-! ### The end of a batch (R29, R56) -/

theorem beside_request (r : Changeover) (hq : s.run.request ≠ none) (hc : o.calm = false) :
    Beside o jar q p s { s with run.request := some r } where
  keeps := keeps_request (some r) fun _ a => absurd a hq
  calm a := by simp [hc] at a

theorem beside_enterChange (hs : runOrHold s = true) (hc : o.calm = false) : Beside o jar q p s (enterChange s) := by
  have hstate := runOrHold_state hs
  have k : Keeps Scope.turn s (setRunState .change { s with run.phase := .waitTurret }) := {
    fault := fun _ a => absurd a (runOrHold_notFault hs)
    rest := fun _ a => absurd a (by simp [setRunState_run])
    awake := fun _ _ _ => .inr (.inr (.inl rfl))
    decision := fun a => nomatch a
    lstop := fun _ => rfl
    gateOut := fun _ => rfl
    phase := fun _ => ⟨fun _ a => ChangePhase.noConfusion a, fun _ => rfl⟩
    hold := fun _ => ⟨fun a => RunState.noConfusion a, fun a => RunState.noConfusion a⟩
    banks := fun b => ⟨b.1, b.2.1, fun _ => b.2.2 (by rcases hstate with h | h <;> simp [h])⟩ }
  refine Beside.trans (.ofMove k rfl rfl rfl (fun a => nomatch a.2) (fun a => ?_)
    (fun _ _ => .inr (.inr (.inl rfl))) (fun a => by simp [hc] at a) rfl) beside_waitTurretEnd
  rcases hstate with h | h <;> simp [h, Asleep] at a

/-- The end of a batch. With no request pending the batch and the recipes go on as they are. -/
theorem beside_batchEnd (hg : o.awake = false) (hc : o.calm = true → s.run.request = none) :
    Beside o jar q p s (batchEnd s) := by
  have h : Beside o jar q p s (latchAlert .batchDone (endBatchFlag s)) :=
    beside_endBatchFlag.trans (beside_latchAlert _ fun _ => by decide)
  unfold batchEnd
  simp only
  split
  · split
    · rename_i hr
      exact h.trans (beside_enterDrain hr hg)
    · exact h
  · rename_i hq
    have hcalm : o.calm = false := by
      by_contra a
      have := hc (by simpa using a)
      change s.run.request = _ at hq
      simp [this] at hq
    have hreq (r : Changeover) := h.trans (beside_request (p := p) (q := q) (jar := jar) (o := o) r
      (s := latchAlert .batchDone (endBatchFlag s)) (by rw [hq]; simp) hcalm)
    split
    · split
      · rename_i hr
        exact (hreq _).trans (beside_enterChange hr hcalm)
      · exact hreq _
    · exact (hreq _).trans beside_retireSwap
    · exact (hreq _).trans beside_retireSwap
    · exact h
    · exact h

theorem beside_admitted (n : Nat) (hc : o.calm = false) : Beside o jar q p s { s with run.admitted := n } where
  calm a := by simp [hc] at a

end Sys2Proof.Machine
end

