-- ==== Sys2Proof/Proofs/BesideActs.lean ====
section
/-! PROOFS. The acts of a forward pitch as operations seen from beside their work: each act, and the acts one after
another, for a jar at a station that the act does not serve (R15). -/

-- One declaration is checked after another: side by side they take more threads than the memory limit allows.
set_option Elab.async false

namespace Sys2Proof.Machine

variable {o : Reach} {jar : Word32} {q : Nat} {p : Head} {s t u : State} {rs : RunState} {d : Decision}
  {pins : PitchPins} {a : PitchAct} {l : List PitchAct} {e : Entry} {r : Head}

/-! ### Departures (R17, R18, R142, R146, R147) -/

theorem beside_appendRecord (x : JarRecord) (ho : o.bench = false) : Beside o jar q p s (appendRecord x s) := by
  have k : Keeps Scope.turn s (appendRecord x s) := keeps_appendRecord x
  revert k
  unfold appendRecord
  simp only
  split
  · exact fun k => { keeps := k, bench := fun a => by simp [ho] at a }
  · exact fun k => { keeps := k, bench := fun a => by simp [ho] at a }

theorem beside_departCounts (disp : Disposition) (v : Vector Nat 13) (ho : o.bench = false) :
    Beside o jar q p s { s with reject := countDisposition disp s.reject, classCounts := v } where
  keeps := keeps_departCounts disp v
  bench a := by simp [ho] at a

theorem beside_handToRecords (disp : Disposition) (e : Entry) (ho : o.bench = false) :
    Beside o jar q p s (handToRecords disp e s) := by
  unfold handToRecords
  simp only
  split
  · exact (beside_appendRecord _ ho).trans (beside_departCounts _ _ ho)
  · exact beside_departCounts _ _ ho

/-- The entry leaves the list, its bank is counted down, and RETIRING is emptied with its last jar. -/
def removed (e : Entry) (s : State) : State :=
  if e.bank == .retiring && s.track.retiringCount == 1 then { removeEntry e s with recipes.retiring := none }
  else removeEntry e s

/-- A departure as the removal and what follows it at once (R17, R30, R51, R58). -/
theorem depart_eq (disp : Disposition) (e : Entry) (s : State) : depart disp e s
    = drainEnd (waitTurretEnd (handToRecords disp (departing disp e)
        (if e.bank == .retiring && s.track.retiringCount == 1 then retireSwap (removed e s) else removed e s))) := by
  unfold depart leaveTrack removed
  split <;> rfl

/-- The removal changes the list, the counts of the banks, RETIRING and the protected segments. -/
theorem removed_frame (e : Entry) (s : State) : removed e s = { s with
    recipes := (removed e s).recipes, track := (removed e s).track, traces := (removed e s).traces } := by
  unfold removed removeEntry
  split
  · cases e.bank <;> rfl
  · cases e.bank <;> rfl

theorem removed_entries (e : Entry) (s : State) :
    (removed e s).track = { s.track with
      entries := s.track.entries.filter (fun f => f.position != e.position)
      activeCount := (removed e s).track.activeCount, retiringCount := (removed e s).track.retiringCount } := by
  unfold removed removeEntry
  split
  · cases e.bank <;> rfl
  · cases e.bank <;> rfl

/-- The counts of the banks after the removal (R18). -/
theorem removed_active (h : e.bank = .active) : (removed e s).track.activeCount = s.track.activeCount - 1
    ∧ (removed e s).track.retiringCount = s.track.retiringCount ∧ (removed e s).recipes = s.recipes := by
  simp [removed, removeEntry, h]

theorem removed_retiring (h : e.bank = .retiring) : (removed e s).track.activeCount = s.track.activeCount
    ∧ (removed e s).track.retiringCount = s.track.retiringCount - 1
    ∧ (removed e s).recipes = if s.track.retiringCount = 1 then { s.recipes with retiring := none } else s.recipes := by
  by_cases h1 : s.track.retiringCount = 1 <;> simp [removed, removeEntry, h, h1]

/-- RETIRING is emptied only with its last jar. -/
theorem removed_recipes (e : Entry) (s : State) : (removed e s).recipes = s.recipes
    ∨ e.bank = .retiring ∧ s.track.retiringCount = 1
      ∧ (removed e s).recipes = { s.recipes with retiring := none } := by
  cases h : e.bank with
  | active => exact .inl (removed_active h).2.2
  | retiring =>
    have := (removed_retiring (s := s) h).2.2
    by_cases h1 : s.track.retiringCount = 1
    · exact .inr ⟨rfl, h1, by rw [this, if_pos h1]⟩
    · exact .inl (by rw [this, if_neg h1])

theorem keeps_removed (he : e ∈ s.track.entries)
    (hk : e.position = s.track.geometry.k ∨ e.position = s.track.geometry.j) : Keeps Scope.turn s (removed e s) := by
  have hframe : removed e s = { s with
      track := { s.track with
        entries := s.track.entries.filter (fun f => f.position != e.position)
        activeCount := (removed e s).track.activeCount, retiringCount := (removed e s).track.retiringCount }
      traces.protectedSegs := s.traces.protectedSegs.filter (fun g => g.jar != e.jar)
      recipes.retiring := (removed e s).recipes.retiring } := by
    unfold removed removeEntry
    split
    · cases e.bank <;> rfl
    · cases e.bank <;> rfl
  rw [hframe]
  refine keeps_removal e he _ _ _ _ ?_ (fun hb => ?_) (fun _ => hk.imp_left fun h => ⟨rfl, h⟩)
  · cases hb : e.bank with
    | active => exact .inl ⟨rfl, (removed_active hb).1, (removed_active hb).2.1⟩
    | retiring => exact .inr ⟨rfl, (removed_retiring hb).1, (removed_retiring hb).2.1⟩
  · cases hbank : e.bank with
    | active => rw [(removed_active hbank).2.1, (removed_active hbank).2.2]; exact hb.1
    | retiring =>
      obtain ⟨_, hcount, hrecipes⟩ := removed_retiring (s := s) hbank
      rw [hcount, hrecipes]
      by_cases h1 : s.track.retiringCount = 1
      · simp [h1]
      · rw [if_neg h1, hb.1]
        omega

/-- The recipe of an entry that stays (R51). -/
theorem recipeOf_removed (ht : PositionsFall s ∧ CountsMatch s) (he : e ∈ s.track.entries) {f : Entry}
    (hf : f ∈ s.track.entries) (hp : f.position ≠ e.position) :
    recipeOf f.bank (removed e s) = recipeOf f.bank s := by
  rcases removed_recipes e s with h | ⟨hb, h1, h⟩
  · simp only [recipeOf, h]
  · have hcount := countP_without (fun f => f.bank == .retiring) e _ ht.1 he
    rw [← ht.2.2, h1] at hcount
    simp only [hb, beq_self_eq_true, if_true] at hcount
    cases hfb : f.bank with
    | active => simp only [recipeOf, h]
    | retiring =>
      have : 0 < (s.track.entries.filter (fun f => f.position != e.position)).countP (fun e => e.bank == .retiring) :=
        List.countP_pos_iff.2 ⟨f, List.mem_filter.2 ⟨hf, by simpa using hp⟩, by simp [hfb]⟩
      omega

theorem beside_removed (he : e ∈ s.track.entries)
    (hk : e.position = s.track.geometry.k ∨ e.position = s.track.geometry.j) (hq : o.jar = true → e.position ≠ q)
    (ho : o.bench = false) (ha : o.active = true → e.bank = .retiring) (hr : o.retiring = true → e.bank = .active) :
    Beside o jar q p s (removed e s) := by
  have k := keeps_removed he hk
  have hframe := removed_frame e s
  have htrack := removed_entries e s
  have hentries : (removed e s).track.entries = s.track.entries.filter (fun f => f.position != e.position) := by
    rw [htrack]
  have hrun : (removed e s).run = s.run := by rw [hframe]
  have hgate : (removed e s).gate = s.gate := by rw [hframe]
  have hsub : ((removed e s).track.entries.map Entry.label).Sublist (s.track.entries.map Entry.label) := by
    rw [hentries]; exact List.filter_sublist.map _
  have hn : ¬Entered s (removed e s) := fun h => h.1 (by rw [← hrun]; exact h.2)
  have hstay : ∀ f ∈ s.track.entries, f.position ≠ e.position → f ∈ (removed e s).track.entries := fun f hf hp => by
    rw [hentries]; exact List.mem_filter.2 ⟨hf, by simpa using hp⟩
  have hrecipes : (removed e s).recipes = { s.recipes with retiring := (removed e s).recipes.retiring } := by
    rcases removed_recipes e s with h | h
    · rw [h]
    · rw [h.2.2]
  have hjar (w : o.jar = true) (h : Placed jar q s) {f : Entry} (hf : f ∈ s.track.entries) (hj : f.jar = jar) :
      f.position ≠ e.position := by rw [h.2 f hf hj]; exact (hq w).symm
  exact {
    keeps := k
    asleep := by rw [hrun]; exact id
    calm := fun _ b => ⟨by rwa [NoSwapDue, hrun], by rw [hrecipes]; exact ⟨rfl, rfl, rfl⟩,
      by rw [hrun]; exact ⟨rfl, rfl, rfl⟩, .inl (by rw [hrun])⟩
    kin := fun f hf hfk hfj => ⟨f, hstay f hf (fun h => hk.elim (fun c => hfk (h.trans c)) (fun c => hfj (h.trans c))), {}⟩
    banks := fun _ _ f hf => ⟨f, (List.mem_filter.1 (hentries ▸ hf)).1, rfl, rfl⟩
    gate := fun _ => ⟨by rw [hgate], .inl (by rw [hgate])⟩
    awake := fun _ => by rw [hrun, hgate]; exact fun h => ⟨h, rfl⟩
    unconf := fun _ => by rw [hrun]
    check := fun _ => by rw [hframe]
    heads := fun _ => by rw [hframe]; exact ⟨rfl, rfl⟩
    bench := fun a => by simp [ho] at a
    active := fun _ a _ => (removed_retiring (ha a)).1
    retiring := fun _ a _ => ⟨(removed_active (hr a)).2.1, by rw [(removed_active (hr a)).2.2]⟩
    placed := fun w h => placed_of_sublist hsub h
      (have ⟨f, hf, hj⟩ := h.1; ⟨f, hstay f hf (hjar w h hf hj), hj⟩)
    alone := fun _ _ => alone_of_sublist hsub k.geometryTurn
    entry := fun w h f hf hj => by
      refine ⟨f, hstay f hf (hjar w h hf hj), ?_⟩
      exact { marked := fun a => absurd a hn, recipe := fun ht => recipeOf_removed ht he hf (hjar w h hf hj) }
    service := .inl (by rw [hframe])
    bound := fun _ _ _ _ => by rw [hframe]
    line := fun _ _ _ _ _ _ => by rw [hframe]
    struck := fun _ _ _ _ a => absurd a hn }

theorem beside_depart (disp : Disposition) (he : e ∈ s.track.entries)
    (hk : e.position = s.track.geometry.k ∨ e.position = s.track.geometry.j) (hq : o.jar = true → e.position ≠ q)
    (ho : o.bench = false) (ha : o.active = true → e.bank = .retiring) (hr : o.retiring = true → e.bank = .active) :
    Beside o jar q p s (depart disp e s) := by
  have h : Beside o jar q p s (removed e s) := beside_removed he hk hq ho ha hr
  rw [depart_eq]
  exact (((beside_ite (h.trans beside_retireSwap) h).trans (beside_handToRecords _ _ ho)).trans
    beside_waitTurretEnd).trans beside_drainEnd

/-! ### The stations of the turret (R93, R102, R104, R105) -/

theorem beside_setBinding (b : Binding) (hr : o.line = true → r ≠ p) (ho : o.bench = false) :
    Beside o jar q p s (setBinding r b s) where
  bench a := by simp [ho] at a
  bound _ w _ _ := by
    simp only [setBinding, Fin.getElem_fin, Vector.getElem_set]
    exact if_neg fun c => hr w (Fin.ext c)

theorem beside_placeApply (attempt torque angle dwell : Nat) (hr : o.line = true → r ≠ p) :
    Beside o jar q p s (placeApply r attempt torque angle dwell s) := by
  have h : Beside o jar q p s (displaceFetch r (modLine r (fun l => { l with tag := s.link.lines[r].tag + 1 }) s)) :=
    (beside_modLine _ hr).trans (beside_displaceFetch hr)
  unfold placeApply
  simp only
  split
  · exact h
  · exact h.trans (beside_modLine _ hr)

theorem beside_setClass {c : CapClass} (hc : c ≠ .cappedOk) (hj : o.jar = true → e.jar ≠ jar) :
    Beside o jar q p s (modEntry e.jar (fun f => { f with capClass := some c }) s) :=
  beside_modEntry hj (grows_class c hc) fun _ _ _ => rfl

theorem beside_applyForJar (hj : o.jar = true → e.jar ≠ jar) (hr : o.line = true → e.pocket ≠ p)
    (ho : o.bench = false) : Beside o jar q p s (applyForJar e s) := by
  have h (n a b c : Nat) : Beside o jar q p s (placeApply e.pocket n a b c
      (modEntry e.jar (fun f => { f with attempts := f.attempts + 1 }) s)) :=
    (beside_modEntry (F := fun f => { f with attempts := f.attempts + 1 }) hj (fun _ => {}) fun _ _ _ => rfl).trans
      (beside_placeApply _ _ _ _ hr)
  unfold applyForJar
  simp only
  split
  · exact ((h _ _ _ _).trans (beside_setClass (by decide) hj)).trans (beside_setBinding _ hr ho)
  · exact h _ _ _ _

theorem beside_arriveA (hj : o.jar = true → e.jar ≠ jar) (hr : o.line = true → e.pocket ≠ p) (ho : o.bench = false) :
    Beside o jar q p s (arriveA e s) := by
  unfold arriveA
  split
  · exact .refl s
  · split
    · exact beside_setClass (by decide) hj
    · split
      · exact beside_setClass (by decide) hj
      · exact Beside.trans (beside_setBinding _ hr ho) (beside_applyForJar hj hr ho)

theorem beside_arriveE (hr : o.line = true → e.pocket ≠ p) : Beside o jar q p s (arriveE e s) := by
  unfold arriveE
  simp only
  split
  · exact beside_placeAbort hr
  · exact .refl s

theorem beside_leaveScan (hr : o.line = true → r ≠ p) : Beside o jar q p s (leaveScan r s) :=
  (beside_modLine _ hr).trans (beside_displaceFetch hr)

theorem beside_releaseBinding (j : Word32) (hr : o.line = true → r ≠ p) (ho : o.bench = false) :
    Beside o jar q p s (releaseBinding r j s) :=
  beside_ite (c := s.capping[r].bound == some j) (beside_setBinding _ hr ho) (.refl s)

theorem beside_displaceFetchOf (j : Word32) (hr : o.line = true → r ≠ p) :
    Beside o jar q p s (displaceFetchOf r j s) := by
  unfold displaceFetchOf
  split
  · exact beside_ite (beside_displaceFetch hr) (.refl s)
  · exact .refl s

theorem beside_leaveScanIfMarked (hr : o.line = true → r ≠ p) : Beside o jar q p s (leaveScanIfMarked r s) := by
  unfold leaveScanIfMarked
  split
  · exact beside_leaveScan hr
  · exact beside_leaveScan hr
  · exact .refl s
  · exact .refl s

theorem beside_arriveX (hj : o.jar = true → e.jar ≠ jar) (hr : o.line = true → e.pocket ≠ p) (ho : o.bench = false) :
    Beside o jar q p s (arriveX e s) :=
  (((beside_modEntry hj (grows_settled _ fun f => recipeOf f.bank s) fun _ _ _ => rfl).trans
    (beside_releaseBinding _ hr ho)).trans (beside_displaceFetchOf _ hr)).trans (beside_leaveScanIfMarked hr)

/-! ### The Head Map and the Capture Unit (R67, R68, R129, R154) -/

theorem heads_modHead_other (f : HeadRecord → HeadRecord) (h : r ≠ p) (s : State) :
    (modHead r f s).heads[p] = s.heads[p] := by
  simp only [modHead_heads, Fin.getElem_fin, Vector.getElem_set]
  exact if_neg fun a => h (Fin.ext a)

theorem heads_modHead_same (f : HeadRecord → HeadRecord) (s : State) : (modHead r f s).heads[r] = f s.heads[r] := by
  simp

/-- A change of a Head Record that leaves the service state alone. -/
theorem beside_modHead (f : HeadRecord → HeadRecord) (k : Keeps Scope.turn s (modHead r f s))
    (hf : ∀ h, (f h).service = h.service) (ho : o.heads = false) : Beside o jar q p s (modHead r f s) where
  keeps := k
  heads a := by simp [ho] at a
  service := .inl (get_set_service s.heads r p _ (hf _))

/-- A head marked out for its failures leaves the scan set, unless it holds a jar in the turret (R83). -/
theorem serviceChanged_failures (h : s.heads[r].service = .markedOut .failures) :
    serviceChanged r s = if holdsTurretJar r s then s else leaveScan r s := by
  unfold serviceChanged
  rw [h]

theorem holdsTurretJar_of (he : e ∈ s.track.entries) (hp : e.pocket = r) (hx : e.position < s.track.geometry.x) :
    holdsTurretJar r s = true := by
  simp only [holdsTurretJar, turretEntry, List.find?_isSome]
  exact ⟨e, he, by simp [hp, hx]⟩

/-- Head `r` marked out for its failures, before what follows in its line, in FEW_HEADS and at the gate. -/
def markedForFailures (r : Head) (s : State) : State :=
  latchAlert .headMarked (modHead r (fun h => { h with service := .markedOut .failures }) s)

theorem markOut_eq (r : Head) (s : State) : markOut r .failures s
    = remakeDecision (updateFewHeads (serviceChanged r (markedForFailures r s))) := rfl

theorem markedForFailures_same (r : Head) (s : State) :
    (markedForFailures r s).heads[r] = { s.heads[r] with service := .markedOut .failures } :=
  heads_modHead_same (fun h => { h with service := .markedOut .failures }) s

theorem markedForFailures_other (h : r ≠ p) (s : State) : (markedForFailures r s).heads[p] = s.heads[p] :=
  heads_modHead_other (fun h => { h with service := .markedOut .failures }) h s

theorem beside_markedForFailures (hs : s.heads[r].service = .inService) (ho : o.heads = false) :
    Beside o jar q p s (markedForFailures r s) := by
  refine Beside.trans (t := modHead r (fun h => { h with service := .markedOut .failures }) s) ?_
    (beside_latchAlert _ fun _ => by decide)
  exact {
    keeps := (keeps_setService (o := Scope.turn) r _).drop id id id id id id id (fun h => ⟨h, id⟩) id
    heads := fun a => by simp [ho] at a
    service := by
      by_cases hr : r = p
      · subst hr
        exact .inr ⟨hs, congrArg HeadRecord.service (markedForFailures_same r s)⟩
      · exact .inl (congrArg HeadRecord.service (markedForFailures_other hr s)) }

theorem linesAndEntries_leaveScan (r : Head) (s : State) : LinesAndEntries s (leaveScan r s) :=
  (linesAndEntries_modLine _ _ _).trans (linesAndEntries_displaceFetch _ _)

/-- The line of a marked out head is emptied where no jar of it is below x: there nothing is said of the line. -/
theorem beside_leaveScanMarked (hs : s.heads[r].service = .inService) (ho : o.heads = false)
    (hh : holdsTurretJar r (markedForFailures r s) = false) :
    Beside o jar q r s (leaveScan r (markedForFailures r s)) := by
  have h1 : Beside { o with line := false } jar q r s (markedForFailures r s) := beside_markedForFailures hs ho
  have h2 : Beside { o with line := false } jar q r (markedForFailures r s) (leaveScan r (markedForFailures r s)) :=
    beside_leaveScan fun a => Bool.noConfusion a
  have h := h1.trans h2
  have hframe := linesAndEntries_leaveScan r (markedForFailures r s)
  have hbelow (hp : Placed jar q s) (ha : Alone jar q r s) : s.track.geometry.x ≤ q := by
    by_contra hq
    obtain ⟨e, he, hj⟩ := hp.1
    have := holdsTurretJar_of (s := markedForFailures r s) he (ha.1 e he hj)
      (by rw [hp.2 e he hj]; exact Nat.lt_of_not_le hq)
    rw [hh] at this
    cases this
  have hlabels : (leaveScan r (markedForFailures r s)).track.entries.map Entry.label
      = s.track.entries.map Entry.label := displaceFetch_labels _ _
  exact { h with
    alone := fun _ _ => alone_of_sublist (by rw [hlabels]) h.keeps.geometryTurn
    bound := fun _ _ _ _ => by rw [hframe]; rfl
    line := fun _ _ hp ha _ hsame => by
      have hsame := hsame (hbelow hp ha)
      rw [hframe] at hsame
      have := (congrArg HeadRecord.service (markedForFailures_same r s)).symm.trans (hsame.trans hs)
      cases this
    struck := fun _ _ hp ha _ hq _ => absurd (hbelow hp ha) (Nat.not_le_of_lt hq) }

/-- Head `r` is marked out for its failures (R68, R70, R83). -/
theorem beside_markOut (hs : s.heads[r].service = .inService) (ho : o.heads = false) :
    Beside o jar q p s (markOut r .failures s) := by
  have h1 : Beside o jar q p s (markedForFailures r s) := beside_markedForFailures hs ho
  have h2 : Beside o jar q p s (serviceChanged r (markedForFailures r s)) := by
    rw [serviceChanged_failures (congrArg HeadRecord.service (markedForFailures_same r s))]
    cases hh : holdsTurretJar r (markedForFailures r s) with
    | true => exact h1
    | false =>
      by_cases hr : r = p
      · subst hr
        exact beside_leaveScanMarked hs ho hh
      · exact h1.trans (beside_leaveScan fun _ => hr)
  rw [markOut_eq]
  exact (h2.trans (beside_setHold _ _)).trans beside_remake

theorem beside_autoMarkOut (ho : o.heads = false) : Beside o jar q p s (autoMarkOut r s) := by
  have h : Beside o jar q p s (modHead r (fun h => { h with riseOpen := false }) s) :=
    beside_modHead _ (keeps_modHead _ _ (fun _ => rfl) (fun _ h => h) (fun a => nomatch a)) (fun _ => rfl) ho
  unfold autoMarkOut
  split
  · simp only
    split
    · rename_i hc
      simp only [Bool.and_eq_true, beq_iff_eq] at hc
      refine h.trans (beside_markOut ?_ ho)
      rw [heads_modHead_same]
      exact hc.2
    · exact h
  · exact .refl s

theorem failureEffect_le (c : FinalClass) {n : Nat} (h : n ≤ 255) : failureEffect c n ≤ 255 := by
  cases c <;> simp [failureEffect, satInc_le h, h]

theorem beside_headTakesClass (c : FinalClass) (ho : o.heads = false) : Beside o jar q p s (headTakesClass r c s) := by
  have h : Beside o jar q p s (modHead r (fun h => { h with
      failures := failureEffect c h.failures, riseOpen := h.riseOpen || countsAsFailure c }) s) := by
    exact beside_modHead _ (keeps_modHead _ _ (fun _ => rfl) (fun h hh => ⟨failureEffect_le c hh.1, hh.2⟩)
      (fun a => nomatch a)) (fun _ => rfl) ho
  exact beside_ite (c := countsAsFailure c) (h.trans (beside_autoMarkOut ho)) h

theorem beside_captureSees (c : FinalClass) (ho : o.heads = false) : Beside o jar q p s (captureSees c s) := by
  have h (x : Capture) : Beside o jar q p s { s with capture := x } :=
    { heads := fun a => by simp [ho] at a }
  unfold captureSees freezeCapture
  exact beside_ite (beside_ite ((h _).trans (beside_latchAlert _ fun _ => by decide)) (h _)) (.refl s)

theorem beside_handOn (c : FinalClass) (b : Bool) (ho : o.heads = false) : Beside o jar q p s (handOn r c b s) := by
  have h : Beside o jar q p s (headTakesClass r c s) := beside_headTakesClass c ho
  exact (beside_ite (h.trans (beside_latchAlert _ fun _ => by decide)) h).trans (beside_captureSees c ho)

theorem has_addIf_other {v : JarFlags} {b : Bool} {k j : JarFlag} (h : k ≠ j) : (v.addIf b k).has j = v.has j := by
  unfold JarFlags.addIf
  split
  · exact has_add_other h
  · rfl

/-- The check leaves the flags of the admission alone. -/
theorem verdict_flags (defl : Nat) (e : Entry) {k : JarFlag} (hk : k ≠ .zeroStale) (hk' : k ≠ .coldFill)
    (hk'' : k ≠ .dtClamped) : (verdict defl s e).flags.has k = e.flags.has k := by
  unfold verdict judge
  simp only
  split
  · rw [has_addIf_other hk'.symm, has_addIf_other hk.symm]
  · rw [has_addIf_other hk''.symm, has_addIf_other hk'.symm, has_addIf_other hk.symm]

theorem beside_checkJar (defl : Nat) (hj : o.jar = true → e.jar ≠ jar) (ho : o.heads = false) :
    Beside o jar q p s (checkJar defl e s) := by
  have hflags (f : Entry) (k : JarFlag) (hk : k = .tempAbsent ∨ k = .firstOfRecipe) :
      (verdict defl s f).flags.has k = f.flags.has k := by
    rcases hk with rfl | rfl <;> exact verdict_flags defl f (by decide) (by decide) (by decide)
  cases hc : (verdict defl s e).finalClass with
  | none =>
    have : checkJar defl e s = modEntry e.jar (verdict defl s) s := by
      unfold checkJar
      change (match (verdict defl s e).finalClass with | some c => _ | none => _) = _
      rw [hc]
      rfl
    rw [this]
    exact beside_modEntry hj (grows_verdict defl s) hflags
  | some c =>
    rw [checkJar_eq defl hc]
    exact (beside_modEntry hj (fun f => (grows_verdict defl s f).assigned s.dispTable[classIx c]) hflags).trans
      (beside_handOn c _ ho)

/-! ### Position k, position j and the deadlines (R16, R131, R137, R140) -/

theorem beside_emptyArrival (defl : BitVec 12) (ho : o.check = false) :
    Beside o jar q p s (emptyArrival defl.toNat s) := by
  have k : Keeps Scope.turn s (emptyArrival defl.toNat s) := keeps_emptyArrival _ (defl_le _)
  revert k
  unfold emptyArrival
  simp only
  split
  · exact fun k => { keeps := k, check := fun a => by simp [ho] at a }
  · exact fun k => { keeps := k, check := fun a => by simp [ho] at a }

/-- The act at k, for a jar elsewhere. -/
theorem beside_actAtK (hj : o.jar = true → ∀ e ∈ s.track.entries, e.position = s.track.geometry.k →
      e.jar ≠ jar ∧ e.position ≠ q)
    (hc : o.check = true → entryAt s.track.geometry.k s = none → tracking rs = true → pins.jarChk = true)
    (ho : entryAt s.track.geometry.k s ≠ none → o.heads = false ∧ o.bench = false)
    (ha : ∀ e, entryAt s.track.geometry.k s = some e →
      (o.active = true → e.bank = .retiring) ∧ (o.retiring = true → e.bank = .active)) :
    Beside o jar q p s (actAtK rs pins s) := by
  unfold actAtK
  split
  · rename_i e he
    have hem := entryAt_mem he
    have hep := entryAt_position he
    obtain ⟨hheads, hbench⟩ := ho (by simp [he])
    split
    · exact (beside_depart _ hem (.inl hep) (fun w => (hj w e hem hep).2) hbench (ha e he).1 (ha e he).2).trans
        (beside_raiseCause fun _ => by decide)
    · exact beside_checkJar _ (fun w => (hj w e hem hep).1) hheads
  · rename_i he
    split
    · rename_i ht
      split
      · exact beside_raiseCause fun _ => by decide
      · rename_i hchk
        exact beside_emptyArrival _ (by
          by_contra a
          exact hchk (hc (by simpa using a) he ht))
    · exact .refl s

theorem beside_arriveJ (he : e ∈ s.track.entries) (hp : e.position = s.track.geometry.j)
    (hq : o.jar = true → e.position ≠ q) (ho : o.bench = false) (ha : o.active = true → e.bank = .retiring)
    (hr : o.retiring = true → e.bank = .active) : Beside o jar q p s (arriveJ e s) := by
  have h (g : RejectGate) : Beside o jar q p s { s with reject := g } :=
    { keeps := keeps_reject g rfl, bench := fun a => by simp [ho] at a }
  unfold arriveJ
  split
  · exact Beside.trans (h _) (beside_depart _ he (.inr hp) hq ho ha hr)
  · exact beside_depart _ he (.inr hp) hq ho ha hr
  · exact .refl s

theorem beside_withoutDue (ho : o.bench = false) : Beside o jar q p s (withoutDue s) where
  keeps := keeps_reject _ rfl
  bench a := by simp [ho] at a

theorem beside_confirmDeadlines (hu : o.unconf = false) (ho : o.bench = false) :
    Beside o jar q p s (confirmDeadlines s) := by
  by_cases h : ∃ c ∈ s.reject.confirms, c.deadline = s.track.pitchCount
  · rw [confirmDeadlines_due h]
    exact (beside_withoutDue ho).trans (beside_raiseCause fun a => by simp [hu] at a)
  · rw [confirmDeadlines_none (by simpa using h)]
    exact beside_withoutDue ho

/-! ### The infeed (R13, R14, R41, R42) -/

theorem beside_admissionSwap (hc : o.calm = false) : Beside o jar q p s (admissionSwap s) := by
  unfold admissionSwap
  split
  · rename_i hq
    split
    · rename_i h
      simp only [Bool.and_eq_true] at h
      exact beside_swapAndComplete h.2 (by simp [hq]) fun a => by simp [hc] at a
    · exact .refl s
  · exact .refl s

/-- The state in which a new entry has joined (R13, steps 2 to 5). -/
def joined (irt : Nat) (s : State) : State :=
  { s with track.entries := s.track.entries ++ [newEntry irt s], track.activeCount := s.track.activeCount + 1
           track.nextJar := nextJarAfter s.track.nextJar, recipes.firstMark := false }

theorem admission_eq (irt : Nat) (s : State) : admission irt s
    = countAdmission (faultAdmitted (newEntry irt (admissionSwap s)) (joined irt (admissionSwap s))) := rfl

/-- A jar joins at the infeed, beside those that ride already. -/
theorem beside_joined (irt : Nat) (hready : (∀ e ∈ s.track.entries, 0 < e.position) ∧ s.recipes.active.isSome = true
      ∧ Awake s.run.state) (hc : o.calm = false) (hb : o.bench = false)
    (hj : o.jar = true → s.track.nextJar ≠ jar) (hp : o.line = true → s.track.pocket ≠ p) :
    Beside o jar q p s (joined irt s) where
  keeps := keeps_join irt rfl hready.1 hready.2.1 hready.2.2
  calm a := by simp [hc] at a
  kin e he _ _ := ⟨e, List.mem_append_left _ he, {}⟩
  banks a := by simp [hc] at a
  bench a := by simp [hb] at a
  active a := by simp [hc] at a
  retiring a := by simp [hc] at a
  placed w h := by
    obtain ⟨⟨e, he, hej⟩, hall⟩ := h
    refine ⟨⟨e, List.mem_append_left _ he, hej⟩, fun f hf hfj => ?_⟩
    rcases List.mem_append.1 hf with hf | hf
    · exact hall f hf hfj
    · rw [List.mem_singleton.1 hf] at hfj
      exact absurd hfj (hj w)
  alone w v h := by
    refine ⟨fun f hf hfj => ?_, fun f hf hfp => ?_⟩
    · rcases List.mem_append.1 hf with hf | hf
      · exact h.1 f hf hfj
      · rw [List.mem_singleton.1 hf] at hfj
        exact absurd hfj (hj w)
    · rcases List.mem_append.1 hf with hf | hf
      · exact h.2 f hf hfp
      · rw [List.mem_singleton.1 hf] at hfp
        exact absurd hfp (hp v)
  entry _ _ e he _ := ⟨e, List.mem_append_left _ he, { marked := fun h => absurd h.2 h.1 }⟩

theorem beside_faultAdmitted (hj : o.jar = true → e.jar ≠ jar) (hp : o.line = true → e.pocket ≠ p) :
    Beside o jar q p s (faultAdmitted e s) := by
  unfold faultAdmitted
  refine beside_ite ((beside_modEntry hj (grows_faultMark _) fun f k hk => ?_).trans (beside_placeAbort hp)) (.refl s)
  exact has_add_other (by rcases hk with rfl | rfl <;> decide)

theorem beside_countAdmission (hw : o.awake = false) (hc : o.calm = false) :
    Beside o jar q p s (countAdmission s) := by
  unfold countAdmission
  exact beside_ite ((beside_admitted _ hc).trans (beside_batchEnd hw fun a => by simp [hc] at a)) (beside_admitted _ hc)

theorem beside_admission (irt : Nat) (hready : (∀ e ∈ s.track.entries, 0 < e.position)
      ∧ s.recipes.active.isSome = true ∧ Awake s.run.state) (hw : o.awake = false) (hc : o.calm = false)
    (hb : o.bench = false) (hj : o.jar = true → s.track.nextJar ≠ jar) (hp : o.line = true → s.track.pocket ≠ p) :
    Beside o jar q p s (admission irt s) := by
  have k : Keeps Scope.actsNoJoin s (admissionSwap s) := keeps_admissionSwap
  have hjar : (admissionSwap s).track.nextJar = s.track.nextJar := (k.joins rfl).1
  have hpocket : (admissionSwap s).track.pocket = s.track.pocket := k.pocket rfl
  rw [admission_eq]
  refine (((beside_admissionSwap hc).trans (beside_joined irt ⟨k.positive rfl hready.1, k.active hready.2.1,
    k.awake rfl rfl hready.2.2⟩ hc hb ?_ ?_)).trans (beside_faultAdmitted ?_ ?_)).trans (beside_countAdmission hw hc)
  · rwa [hjar]
  · rwa [hpocket]
  · exact fun w => by rw [show (newEntry irt (admissionSwap s)).jar = _ from hjar]; exact hj w
  · exact fun w => by rw [show (newEntry irt (admissionSwap s)).pocket = _ from hpocket]; exact hp w

theorem beside_actAtInfeed (hready : d = .admitJar → (∀ e ∈ s.track.entries, 0 < e.position)
      ∧ s.recipes.active.isSome = true ∧ Awake s.run.state) (hg : o.gate = false) (hw : o.awake = false)
    (hc : o.calm = false) (hb : o.bench = false) (hj : o.jar = true → s.track.nextJar ≠ jar)
    (hp : o.line = true → s.track.pocket ≠ p) : Beside o jar q p s (actAtInfeed rs d pins s) := by
  have hraise (u : State) : Beside o jar q p u (raiseCause .strayJar u) := beside_raiseCause fun _ => by decide
  unfold actAtInfeed
  split
  · refine beside_ite (beside_admission _ (hready rfl) hw hc hb hj hp) ?_
    exact { gate := fun a => by simp [hg] at a }
  · have h : Beside o jar q p s { s with gate.gapCount := s.gate.gapCount - 1 } :=
      { keeps := { ranges := fun r => ⟨(Nat.sub_le _ _).trans r.1, r.2⟩, decision := fun a => nomatch a }
        gate := fun a => by simp [hg] at a
        awake := fun a => by simp [hw] at a }
    exact beside_ite (h.trans (hraise _)) h
  · exact beside_ite (hraise _) (.refl s)

/-! ### One act of a pitch -/

/-- The position an act serves, if it serves one. -/
def actPlace (g : Geometry) : PitchAct → Option Nat
  | .atA => some g.a
  | .atE => some g.e
  | .atX => some g.x
  | .atK => some g.k
  | .atJ => some g.j
  | .deadlines | .infeed => none

theorem beside_arrivalAt {pos : Nat} {act : Entry → State → State}
    (h : ∀ e ∈ s.track.entries, e.position = pos → Beside o jar q p s (act e s)) :
    Beside o jar q p s (arrivalAt pos act s) := by
  unfold arrivalAt
  split
  · rename_i he
    exact h _ (entryAt_mem he) (entryAt_position he)
  · exact .refl s

/-- One act of a pitch, for a jar at another place than the one it serves. -/
theorem beside_act (hi : InfeedReady d (a :: l) s) (hg : o.line = true → GeometryOk s.track.geometry)
    (hplace : o.jar = true → ∀ e ∈ s.track.entries, actPlace s.track.geometry a = some e.position →
      e.jar ≠ jar ∧ e.position ≠ q)
    (hpocket : o.line = true → ∀ e ∈ s.track.entries, actPlace s.track.geometry a = some e.position →
      e.position ≤ s.track.geometry.x → e.pocket ≠ p)
    (hinfeed : a = .infeed → o.gate = false ∧ o.awake = false ∧ o.calm = false
      ∧ (o.jar = true → s.track.nextJar ≠ jar) ∧ (o.line = true → s.track.pocket ≠ p))
    (hk : a = .atK → o.check = false ∧ o.heads = false) (hd : a = .deadlines → o.unconf = false)
    (hb : o.bench = false)
    (hbank : a = .atK ∨ a = .atJ → ∀ e ∈ s.track.entries, actPlace s.track.geometry a = some e.position →
      (o.active = true → e.bank = .retiring) ∧ (o.retiring = true → e.bank = .active)) :
    Beside o jar q p s (pitchAct rs d pins s a) := by
  have hturret (w : o.line = true) : s.track.geometry.a ≤ s.track.geometry.x
      ∧ s.track.geometry.e ≤ s.track.geometry.x := by
    have := (geometryOk_iff _).1 (hg w)
    omega
  have hfound {pos : Nat} {e : Entry} (hpos : actPlace s.track.geometry a = some pos)
      (hp : e.position = pos) : actPlace s.track.geometry a = some e.position := by rw [hp, hpos]
  cases a with
  | deadlines => exact beside_confirmDeadlines (hd rfl) hb
  | atA =>
    exact beside_arrivalAt fun e he hp => beside_arriveA (fun w => (hplace w e he (hfound rfl hp)).1)
      (fun w => hpocket w e he (hfound rfl hp) (hp ▸ (hturret w).1)) hb
  | atE =>
    exact beside_arrivalAt fun e he hp => beside_arriveE
      (fun w => hpocket w e he (hfound rfl hp) (hp ▸ (hturret w).2))
  | atX =>
    exact beside_arrivalAt fun e he hp => beside_arriveX (fun w => (hplace w e he (hfound rfl hp)).1)
      (fun w => hpocket w e he (hfound rfl hp) (hp ▸ Nat.le_refl _)) hb
  | atK =>
    refine beside_actAtK (fun w e he hp => hplace w e he (hfound rfl hp)) (fun w => ?_) (fun _ => ⟨(hk rfl).2, hb⟩)
      (fun e he => hbank (.inl rfl) e (entryAt_mem he) (hfound rfl (entryAt_position he)))
    rw [(hk rfl).1] at w
    cases w
  | atJ =>
    exact beside_arrivalAt fun e he hp => beside_arriveJ he hp (fun w => (hplace w e he (hfound rfl hp)).2) hb
      (hbank (.inr rfl) e he (hfound rfl hp)).1 (hbank (.inr rfl) e he (hfound rfl hp)).2
  | infeed =>
    obtain ⟨hgate, hawake, hcalm, hjar, hpocket⟩ := hinfeed rfl
    exact beside_actAtInfeed (hi (List.mem_cons_self ..)) hgate hawake hcalm hb hjar hpocket

/-- What follows the acts of a pitch (R39, R58). -/
theorem beside_pitchTail : Beside o jar q p s (remakeDecision (waitTurretEnd s)) :=
  beside_waitTurretEnd.trans beside_remake

/-! ### Acts one after another -/

/-- No departure touches a count that is followed: either none is followed, or no swap is due and every entry at k or
at j is of another bank. -/
def BanksHeld (o : Reach) (s : State) : Prop :=
  o.active = false ∧ o.retiring = false ∨ o.calm = true ∧ NoSwapDue s ∧ ∀ e ∈ s.track.entries,
    e.position = s.track.geometry.k ∨ e.position = s.track.geometry.j →
      (o.active = true → e.bank = .retiring) ∧ (o.retiring = true → e.bank = .active)

theorem BanksHeld.departs (h : BanksHeld o s) (ha : a = .atK ∨ a = .atJ) {e : Entry} (he : e ∈ s.track.entries)
    (hp : actPlace s.track.geometry a = some e.position) :
    (o.active = true → e.bank = .retiring) ∧ (o.retiring = true → e.bank = .active) := by
  rcases h with ⟨h1, h2⟩ | ⟨_, _, h⟩
  · exact ⟨fun a => by simp [h1] at a, fun a => by simp [h2] at a⟩
  · refine h e he ?_
    rcases ha with rfl | rfl
    · exact .inl (Option.some.inj hp).symm
    · exact .inr (Option.some.inj hp).symm

theorem BanksHeld.beside (h : BanksHeld o s) (b : Beside o jar q p s t) : BanksHeld o t := by
  refine h.imp_right fun ⟨hc, hd, hbanks⟩ => ⟨hc, (b.calm hc hd).still, fun f hf hp => ?_⟩
  obtain ⟨e, he, hpos, hbank⟩ := b.banks hc hd f hf
  rw [b.keeps.geometryTurn, hpos] at hp
  rw [hbank]
  exact hbanks e he hp

/-- The acts `l`, with the acts `m` still to come, for a jar that none of them serves. -/
theorem beside_acts {m : List PitchAct} (l : List PitchAct) : ∀ s : State, (l ++ m).Nodup → InfeedReady d (l ++ m) s →
    (o.line = true → GeometryOk s.track.geometry) →
    (o.jar = true → Placed jar q s ∧ ∀ a ∈ l, actPlace s.track.geometry a ≠ some q) →
    (o.line = true → o.jar = true ∧ Alone jar q p s) →
    (PitchAct.infeed ∈ l → o.gate = false ∧ o.awake = false ∧ o.calm = false
      ∧ (o.jar = true → s.track.nextJar ≠ jar) ∧ (o.line = true → s.track.pocket ≠ p)) →
    (PitchAct.atK ∈ l → o.check = false ∧ o.heads = false) → (PitchAct.deadlines ∈ l → o.unconf = false) →
    o.bench = false → BanksHeld o s →
    Beside o jar q p s (takeActs rs d pins l s) ∧ InfeedReady d m (takeActs rs d pins l s) := by
  induction l with
  | nil => exact fun s _ hi _ _ _ _ _ _ _ _ => ⟨.refl s, hi⟩
  | cons a l ih =>
    intro s hn hi hg hjar hline hinfeed hk hd hb hbanks
    have hstation (w : o.jar = true) (e : Entry) (he : e ∈ s.track.entries)
        (hp : actPlace s.track.geometry a = some e.position) : e.position ≠ q := fun hq =>
      (hjar w).2 a (List.mem_cons_self ..) (by rw [hp, hq])
    have h : Beside o jar q p s (pitchAct rs d pins s a) := by
      refine beside_act hi hg (fun w e he hp => ⟨fun hj => ?_, hstation w e he hp⟩) (fun v e he hp hx hep => ?_)
        (fun e => hinfeed (by simp [e])) (fun e => hk (by simp [e])) (fun e => hd (by simp [e])) hb
        (fun hk e he hp => hbanks.departs hk he hp)
      · exact hstation w e he hp ((hjar w).1.2 e he hj)
      · exact hstation (hline v).1 e he hp ((hline v).2.2 e he hep hx)
    have hgeo := h.keeps.geometryTurn
    have hmem : PitchAct.infeed ∈ l → (pitchAct rs d pins s a).track.nextJar = s.track.nextJar
        ∧ (pitchAct rs d pins s a).track.pocket = s.track.pocket := fun hl => by
      have k := keeps_act_noJoin (rs := rs) (d := d) (pins := pins) (s := s)
        (fun e : a = .infeed => (List.nodup_cons.1 hn).1 (e ▸ List.mem_append_left _ hl))
      exact ⟨(k.joins rfl).1, k.pocket rfl⟩
    obtain ⟨h', hi'⟩ := ih _ (List.nodup_cons.1 hn).2 (infeedReady_act hn hi) (by rwa [hgeo])
      (fun w => ⟨h.placed w (hjar w).1, fun b hb => by rw [hgeo]; exact (hjar w).2 b (List.mem_cons_of_mem _ hb)⟩)
      (fun v => ⟨(hline v).1, h.alone (hline v).1 v (hline v).2⟩)
      (fun hl => by
        obtain ⟨h1, h2, h3, h4, h5⟩ := hinfeed (List.mem_cons_of_mem _ hl)
        rw [(hmem hl).1, (hmem hl).2]
        exact ⟨h1, h2, h3, h4, h5⟩)
      (fun hl => hk (List.mem_cons_of_mem _ hl)) (fun hl => hd (List.mem_cons_of_mem _ hl)) hb (hbanks.beside h)
    exact ⟨h.trans h', hi'⟩

/-- The acts of a pitch about one of them. -/
theorem pitchActs_split (order : List PitchAct) (b : PitchAct) :
    ∃ l m, pitchActs order = l ++ b :: m ∧ b ∉ l ∧ b ∉ m ∧ (l ++ b :: m).Nodup := by
  obtain ⟨hn, hall⟩ := pitchActs_each_once order
  obtain ⟨l, m, h⟩ := List.append_of_mem (hall b)
  refine ⟨l, m, h, fun hl => ?_, fun hm => ?_, h ▸ hn⟩
  · rw [h] at hn
    exact (List.disjoint_of_nodup_append hn) hl (List.mem_cons_self ..)
  · rw [h] at hn
    exact (List.nodup_cons.1 (List.nodup_append.1 hn).2.1).1 hm

/-! ### A pitch about one of its acts -/

/-- What the acts of a pitch but `b` leave alone; `j` and `n` say whether a jar, and the line of its head, are
followed. -/
def Reach.about (b : PitchAct) (j n : Bool) : Reach where
  check := b == .atK
  gate := b == .infeed
  awake := b == .infeed
  unconf := b == .deadlines
  heads := b == .atK
  bench := false
  calm := b == .infeed
  active := false
  retiring := false
  jar := j
  line := n

/-- The acts `l` of a pitch, none of which is `b`, for a jar that none of them serves. -/
theorem beside_acts_about {b : PitchAct} {j n : Bool} {m : List PitchAct} (hb : b ∉ l) (hn : (l ++ m).Nodup)
    (hi : InfeedReady d (l ++ m) s) (hg : n = true → GeometryOk s.track.geometry)
    (hjar : j = true → Placed jar q s ∧ (∀ a ∈ l, actPlace s.track.geometry a ≠ some q)
      ∧ (PitchAct.infeed ∈ l → s.track.nextJar ≠ jar))
    (hline : n = true → j = true ∧ Alone jar q p s ∧ (PitchAct.infeed ∈ l → s.track.pocket ≠ p)) :
    Beside (Reach.about b j n) jar q p s (takeActs rs d pins l s) ∧ InfeedReady d m (takeActs rs d pins l s) := by
  have hne {a : PitchAct} (ha : a ∈ l) : (b == a) = false := by
    simp only [beq_eq_false_iff_ne, ne_eq]
    exact fun e => hb (e ▸ ha)
  exact beside_acts l s hn hi hg (fun w => ⟨(hjar w).1, (hjar w).2.1⟩) (fun w => ⟨(hline w).1, (hline w).2.1⟩)
    (fun ha => ⟨hne ha, hne ha, hne ha, fun w => (hjar w).2.2 ha, fun w => (hline w).2.2 ha⟩)
    (fun ha => ⟨hne ha, hne ha⟩) (fun ha => hne ha) rfl (.inl ⟨rfl, rfl⟩)

/-- A pitch as the act `b` with the acts before and after it, seen from a jar that no other act serves. -/
structure PitchAbout (b : PitchAct) (j n : Bool) (jar : Word32) (q : Nat) (p : Head) (pins : PitchPins)
    (order : List PitchAct) (s v : State) (l : List PitchAct) : Prop where
  before : Beside (Reach.about b j n) jar q p (pitchStart pins s) v
  ready : InfeedReady s.gate.decision (b :: l) v
  after : Beside (Reach.about b j n) jar q p (pitchAct s.run.state s.gate.decision pins v b) (pitchEnd pins order s)

theorem pitch_about {b : PitchAct} {j n : Bool} (order : List PitchAct) (hg : GateAndBanks s)
    (hgeo : n = true → GeometryOk s.track.geometry)
    (hjar : j = true → Placed jar q (pitchStart pins s) ∧ (∀ a, a ≠ b → actPlace s.track.geometry a ≠ some q)
      ∧ s.track.nextJar ≠ jar)
    (hline : n = true → j = true ∧ Alone jar q p (pitchStart pins s) ∧ s.track.pocket + 1 ≠ p)
    (hplaced : ∀ v, j = true → Placed jar q v → Placed jar q (pitchAct s.run.state s.gate.decision pins v b))
    (halone : ∀ v, n = true → Alone jar q p v → Alone jar q p (pitchAct s.run.state s.gate.decision pins v b)) :
    ∃ v l, PitchAbout b j n jar q p pins order s v l := by
  obtain ⟨l, m, horder, hl, hm, hn⟩ := pitchActs_split order b
  have hi := infeedReady_pitchStart (pins := pins) hg (l ++ b :: m)
  have hgeo' : n = true → GeometryOk (pitchStart pins s).track.geometry := by simpa using hgeo
  obtain ⟨hv, hiv⟩ := beside_acts_about (rs := s.run.state) (pins := pins) (jar := jar) (q := q) (p := p) (j := j)
    (n := n) hl hn hi hgeo'
    (fun w => ⟨(hjar w).1, fun a ha => by simpa using (hjar w).2.1 a (fun e => hl (e ▸ ha)),
      fun _ => by simpa using (hjar w).2.2⟩)
    (fun w => ⟨(hline w).1, (hline w).2.1, fun _ => by simpa using (hline w).2.2⟩)
  have hn' : (b :: m).Nodup := (List.nodup_append.1 hn).2.1
  have k := keeps_act (rs := s.run.state) (pins := pins) hiv
  have hgeow := (k.pit rfl).geometry.trans hv.keeps.geometryTurn
  have hnone (ha : PitchAct.infeed ∈ m) : NoneJoined (pitchStart pins s)
      (pitchAct s.run.state s.gate.decision pins (takeActs s.run.state s.gate.decision pins l (pitchStart pins s)) b)
      ∧ (pitchAct s.run.state s.gate.decision pins
        (takeActs s.run.state s.gate.decision pins l (pitchStart pins s)) b).track.pocket
        = (pitchStart pins s).track.pocket := by
    have hb : b ≠ .infeed := fun e => hm (e ▸ ha)
    have hla : PitchAct.infeed ∉ l := fun h =>
      (List.disjoint_of_nodup_append hn) h (List.mem_cons_of_mem _ ha)
    have k1 := keeps_actsNoJoin s.run.state s.gate.decision pins l (fun h => absurd h hla) (pitchStart pins s)
    have k2 := keeps_act_noJoin (rs := s.run.state) (d := s.gate.decision) (pins := pins)
      (s := takeActs s.run.state s.gate.decision pins l (pitchStart pins s)) hb
    exact ⟨(k1.trans k2).joins rfl, (k1.trans k2).pocket rfl⟩
  obtain ⟨hz, _⟩ := beside_acts_about (m := []) (rs := s.run.state) (pins := pins) (jar := jar) (q := q) (p := p)
    (j := j) (n := n) hm (by simpa using (List.nodup_cons.1 hn').2) (by simpa using infeedReady_act hn' hiv)
    (by rwa [hgeow])
    (fun w => ⟨hplaced _ w (hv.placed w (hjar w).1), fun a ha => by
        rw [hgeow]; simpa using (hjar w).2.1 a (fun e => hm (e ▸ ha)),
      fun ha => by rw [(hnone ha).1.1]; simpa using (hjar w).2.2⟩)
    (fun w => ⟨(hline w).1, halone _ w (hv.alone (hline w).1 w (hline w).2.1),
      fun ha => by rw [(hnone ha).2]; simpa using (hline w).2.2⟩)
  refine ⟨_, m, hv, hiv, ?_⟩
  unfold pitchEnd
  rw [horder, takeActs_append, takeActs_cons]
  exact hz

end Sys2Proof.Machine
end

