-- ==== Sys2Proof/Proofs/ZeroReference.lean ====
section
/-! PROOFS. The zero reference of the Check Station: the empty-position arrival, the test of R130, and what a forward
pitch does to them (R130, R131). -/

-- One declaration is checked after another: side by side they take more threads than the memory limit allows.
set_option Elab.async false

namespace Sys2Proof.Machine

variable {s t u : State} {rs : RunState} {d : Decision} {pins : PitchPins} {a : PitchAct}

/-! ### The arrival and the test -/

/-- An eighth of the way, truncated, lies between Z and the sample. -/
theorem zeroMove_between (z d : Nat) : 0 ≤ (z : Int) + ((d : Int) - z).tdiv 8
    ∧ (min z d : Int) ≤ z + ((d : Int) - z).tdiv 8 ∧ z + ((d : Int) - z).tdiv 8 ≤ max (z : Int) d := by
  rcases Int.le_total 0 ((d : Int) - z) with h | h
  · rw [Int.tdiv_eq_ediv_of_nonneg h]
    omega
  · rw [show (d : Int) - z = -((z : Int) - d) by omega, Int.neg_tdiv, Int.tdiv_eq_ediv_of_nonneg (by omega)]
    omega

theorem emptyArrival_near {defl : Nat} (h : defl ≤ s.check.z + s.params.zeroWindow)
    (h' : s.check.z ≤ defl + s.params.zeroWindow) : emptyArrival defl s = { s with check := { s.check with
      z := ((s.check.z : Int) + ((defl : Int) - s.check.z).tdiv 8).toNat, sinceZero := 0, staleGiven := false } } := by
  unfold emptyArrival
  simp only
  rw [if_pos (by omega)]

theorem emptyArrival_far {defl : Nat} (h : s.check.z + s.params.zeroWindow < defl
    ∨ defl + s.params.zeroWindow < s.check.z) : emptyArrival defl s = { s with check := { s.check with
      disturbances := satInc max32 s.check.disturbances } } := by
  unfold emptyArrival
  simp only
  rw [if_neg (by omega)]

theorem zeroStaleTest_closed (h : s.check.testOpen = false) : zeroStaleTest s = s := by
  simp [zeroStaleTest, h]

/-- The alert of R130 is due: the zero is stale and this stretch of staleness has not been alerted. -/
def staleDue (s : State) : Prop := s.params.staleLimit < s.check.sinceZero ∧ s.check.staleGiven = false

theorem staleDue_iff : (zeroIsStale s && !s.check.staleGiven) = true ↔ staleDue s := by
  simp [staleDue, zeroIsStale]

theorem zeroStaleTest_quiet (ho : s.check.testOpen = true) (h : ¬staleDue s) :
    zeroStaleTest s = { s with check := { s.check with testOpen := false } } := by
  have hdue : (zeroIsStale s && !s.check.staleGiven) = false := by
    rw [← staleDue_iff] at h
    simpa using h
  simp only [zeroStaleTest, ho, if_true, hdue, Bool.false_eq_true, if_false]

theorem zeroStaleTest_alerts (ho : s.check.testOpen = true) (h : staleDue s) : zeroStaleTest s = latchAlert .zeroStale
    { s with check := { s.check with staleGiven := true, testOpen := false } } := by
  simp only [zeroStaleTest, ho, if_true, staleDue_iff.2 h]

theorem satInc_min {n : Nat} (h : n ≤ 65535) : satInc 65535 n = min 65535 (n + 1) := by
  unfold satInc
  split <;> omega

theorem exec_zeroStale (h : s.power = .running) :
    exec .zeroStale s = .next (if tracking s.run.state then zeroStaleTest s else s) :=
  congrArg Host.Outcome.next (whenRunning_of_running _ h)

/-! ### What a pitch does to the Check Station -/

/-- The rise of a pitch reads and writes the Check Station and the alerts, by the parameters, alone. -/
theorem zeroPitch_congr (hc : t.check = s.check) (hp : t.params = s.params) (ha : t.alerts = s.alerts) :
    (zeroPitch t).check = (zeroPitch s).check ∧ (zeroPitch t).alerts = (zeroPitch s).alerts := by
  unfold zeroPitch zeroStaleTest zeroIsStale
  simp only [hc, hp, if_true]
  split
  · exact ⟨rfl, by simp [ha]⟩
  · exact ⟨rfl, ha⟩

theorem emptyArrival_congr (defl : Nat) (hc : t.check = s.check) (hp : t.params = s.params) :
    (emptyArrival defl t).check = (emptyArrival defl s).check := by
  unfold emptyArrival
  simp only [hc, hp]
  split <;> rfl

/-- The Check Station stands, with what the act at k finds: its parameters and whether an entry has come there. -/
structure CheckStands (s t : State) : Prop where
  check : t.check = s.check
  geometry : t.track.geometry = s.track.geometry
  params : t.params = s.params
  latches : ∀ k, s.alerts.latch[alertIx k] = true → t.alerts.latch[alertIx k] = true
  stay : ∀ e ∈ s.track.entries, e.position = s.track.geometry.k → ∃ f ∈ t.track.entries, f.position = e.position
  origin : ∀ f ∈ t.track.entries, f.position = 0 ∨ ∃ e ∈ s.track.entries, e.position = f.position

theorem CheckStands.refl (s : State) : CheckStands s s :=
  ⟨rfl, rfl, rfl, fun _ h => h, fun e he _ => ⟨e, he, rfl⟩, fun f hf => .inr ⟨f, hf, rfl⟩⟩

theorem CheckStands.trans (h : CheckStands s t) (g : CheckStands t u) : CheckStands s u where
  check := g.check.trans h.check
  geometry := g.geometry.trans h.geometry
  params := g.params.trans h.params
  latches k a := g.latches k (h.latches k a)
  stay e he hp := by
    obtain ⟨f, hf, hfp⟩ := h.stay e he hp
    obtain ⟨f', hf', hfp'⟩ := g.stay f hf (by rw [hfp, hp, h.geometry])
    exact ⟨f', hf', hfp'.trans hfp⟩
  origin f hf := by
    rcases g.origin f hf with h0 | ⟨e, he, hep⟩
    · exact .inl h0
    · rcases h.origin e he with h0 | ⟨c, hc, hcp⟩
      · exact .inl (hep ▸ h0)
      · exact .inr ⟨c, hc, hcp.trans hep⟩

/-- Operations at which none departs at k: what of the entries stays, and that none joins. -/
def Scope.awayFromK : Scope := { Scope.acts with outK := false }
def Scope.noneJoins : Scope := { Scope.actsNoJoin with pit := false }

theorem CheckStands.ofKeeps (hg : GeometryOk s.track.geometry) (k : Keeps Scope.awayFromK s t)
    (k' : Keeps Scope.noneJoins s t) (hc : t.check = s.check) : CheckStands s t where
  check := hc
  geometry := (k.pit rfl).geometry
  params := (k.fixedFields rfl).2.2.2.2.1
  latches := (k.pit rfl).latches
  stay e he hp := by
    have hkj := ((geometryOk_iff _).1 hg).2.2.2.2.1
    obtain ⟨f, hf, hl⟩ := (k.pit rfl).remain e he (fun a => nomatch a) (by omega)
    exact ⟨f, hf, congrArg Label.position hl⟩
  origin f hf := by
    obtain ⟨e, he, hl⟩ := List.mem_map.1 ((k'.joins rfl).2.subset (List.mem_map_of_mem hf))
    exact .inr ⟨e, he, congrArg Label.position hl⟩

/-- The clause of the Check Station alone, for a jar that is not followed. -/
def Reach.checkOnly : Reach where
  check := true
  gate := false
  awake := false
  unconf := false
  heads := false
  bench := false
  calm := false
  active := false
  retiring := false
  jar := false
  line := false

theorem Beside.sameCheck (h : Beside Reach.checkOnly 0 0 0 s t) : t.check = s.check := h.check rfl

theorem checkStands_admission (hg : GeometryOk s.track.geometry) (irt : Nat) : CheckStands s (admission irt s) := by
  have hswap : CheckStands s (admissionSwap s) :=
    .ofKeeps hg keeps_admissionSwap keeps_admissionSwap (beside_admissionSwap rfl).sameCheck
  have hjoin : CheckStands (admissionSwap s) (joined irt (admissionSwap s)) :=
    ⟨rfl, rfl, rfl, fun _ h => h, fun e he _ => ⟨e, List.mem_append_left _ he, rfl⟩, fun f hf => by
      rcases List.mem_append.1 hf with hf | hf
      · exact .inr ⟨f, hf, rfl⟩
      · rw [List.mem_singleton.1 hf]; exact .inl rfl⟩
  have hg' : GeometryOk (joined irt (admissionSwap s)).track.geometry := by
    rw [hjoin.geometry, hswap.geometry]; exact hg
  exact (hswap.trans hjoin).trans (.ofKeeps hg'
    ((keeps_faultAdmitted _).trans (keeps_countAdmission fun _ => rfl))
    ((keeps_faultAdmitted _).trans (keeps_countAdmission fun a => nomatch a))
    (Beside.sameCheck ((beside_faultAdmitted (fun a => Bool.noConfusion a) (fun a => Bool.noConfusion a)).trans
      (beside_countAdmission rfl rfl))))

theorem beside_actCheck (hi : InfeedReady d [a] s) (ha : a ≠ .atK) :
    Beside Reach.checkOnly 0 0 0 s (pitchAct rs d pins s a) :=
  beside_act hi (fun w => Bool.noConfusion w) (fun w => Bool.noConfusion w) (fun w => Bool.noConfusion w)
    (fun _ => ⟨rfl, rfl, rfl, fun w => Bool.noConfusion w, fun w => Bool.noConfusion w⟩) (fun e => absurd e ha)
    (fun _ => rfl) rfl (fun _ _ _ _ => ⟨fun w => Bool.noConfusion w, fun w => Bool.noConfusion w⟩)

/-- No act but the one at k does anything to the Check Station. -/
theorem checkStands_act (hg : GeometryOk s.track.geometry) (ha : a ≠ .atK) :
    CheckStands s (pitchAct rs d pins s a) := by
  by_cases hd : a = .infeed ∧ d = .admitJar
  · obtain ⟨rfl, hd⟩ := hd
    cases hj : pins.jarIn with
    | true => rw [actAtInfeed_admits hd hj]; exact checkStands_admission hg _
    | false =>
      have : pitchAct rs d pins s .infeed
          = { s with gate.emptyPockets := satInc max32 s.gate.emptyPockets } := by
        simp [pitchAct, actAtInfeed, hd, hj]
      rw [this]
      exact { CheckStands.refl s with }
  · have hready : InfeedReady d [a] s := fun e e' => absurd ⟨(List.mem_singleton.1 e).symm, e'⟩ hd
    exact .ofKeeps hg
      (keeps_pitchAct rs d pins a (fun _ _ => rfl) (fun _ => rfl) rfl (fun e => absurd e ha)
        (fun e e' => absurd ⟨e, e'⟩ hd))
      (keeps_pitchAct rs d pins a (fun e e' => absurd ⟨e, e'⟩ hd) (fun _ => rfl) rfl (fun e => absurd e ha)
        (fun e e' => absurd ⟨e, e'⟩ hd))
      (beside_actCheck hready ha).sameCheck

theorem checkStands_acts (l : List PitchAct) (hl : PitchAct.atK ∉ l) :
    ∀ s, GeometryOk s.track.geometry → CheckStands s (takeActs rs d pins l s) := by
  induction l with
  | nil => exact fun s _ => .refl s
  | cons a l ih =>
    intro s hg
    have h : CheckStands s (pitchAct rs d pins s a) := checkStands_act hg fun e => hl (e ▸ List.mem_cons_self ..)
    exact h.trans (ih (fun e => hl (List.mem_cons_of_mem _ e)) _ (h.geometry ▸ hg))

/-- The act at k leaves the Check Station alone, but for an empty-position arrival. -/
theorem actAtK_check (h : tracking rs = false ∨ pins.jarChk = true ∨ entryAt s.track.geometry.k s ≠ none) :
    (actAtK rs pins s).check = s.check := by
  refine Beside.sameCheck (beside_actAtK (fun a => Bool.noConfusion a) (fun _ hn ht => ?_) (fun _ => ⟨rfl, rfl⟩)
    (fun _ _ => ⟨fun w => Bool.noConfusion w, fun w => Bool.noConfusion w⟩))
  rcases h with h | h | h
  · rw [ht] at h; cases h
  · exact h
  · exact absurd hn h

theorem actAtK_empty (ht : tracking rs = true) (hj : pins.jarChk = false) (hn : entryAt s.track.geometry.k s = none) :
    actAtK rs pins s = emptyArrival pins.defl.toNat s := by
  simp [actAtK, ht, hj, hn]

theorem entryAt_none_iff {pos : Nat} : entryAt pos s = none ↔ ∀ e ∈ s.track.entries, e.position ≠ pos := by
  simp [entryAt]

theorem entryAt_isNone_congr (h : CheckStands s t) (hg : GeometryOk s.track.geometry) :
    entryAt t.track.geometry.k t = none ↔ entryAt s.track.geometry.k s = none := by
  rw [entryAt_none_iff, entryAt_none_iff, h.geometry]
  have hxk := ((geometryOk_iff _).1 hg).2.2.2.1.1
  constructor
  · intro hn e he hp
    obtain ⟨f, hf, hfp⟩ := h.stay e he hp
    exact hn f hf (hfp.trans hp)
  · intro hn f hf hp
    rcases h.origin f hf with h0 | ⟨e, he, hep⟩
    · omega
    · exact hn e he (hep.trans hp)

/-- What a pitch makes of the Check Station, from where its acts begin. -/
theorem pitchEnd_check (order : List PitchAct) (hg : GeometryOk s.track.geometry) :
    (tracking s.run.state = false ∨ pins.jarChk = true
        ∨ entryAt s.track.geometry.k (pitchStart pins s) ≠ none →
      (pitchEnd pins order s).check = (pitchStart pins s).check)
    ∧ (tracking s.run.state = true → pins.jarChk = false → entryAt s.track.geometry.k (pitchStart pins s) = none →
      (pitchEnd pins order s).check = (emptyArrival pins.defl.toNat (pitchStart pins s)).check)
    ∧ ∀ k, (pitchStart pins s).alerts.latch[alertIx k] = true → (pitchEnd pins order s).alerts.latch[alertIx k] = true := by
  obtain ⟨l, m, horder, hl, hm, _⟩ := pitchActs_split order .atK
  have hg' : GeometryOk (pitchStart pins s).track.geometry := by simpa using hg
  have hv := checkStands_acts (rs := s.run.state) (d := s.gate.decision) (pins := pins) l hl _ hg'
  generalize hveq : takeActs s.run.state s.gate.decision pins l (pitchStart pins s) = v at hv
  have kK : Keeps Scope.acts v (actAtK s.run.state pins v) := keeps_actAtK (fun _ => rfl) _ _
  have hgv : v.track.geometry = s.track.geometry := by rw [hv.geometry]; simp
  have hz := checkStands_acts (rs := s.run.state) (d := s.gate.decision) (pins := pins) m hm
    (actAtK s.run.state pins v) (by rw [(kK.pit rfl).geometry, hgv]; exact hg)
  have hend : pitchEnd pins order s
      = takeActs s.run.state s.gate.decision pins m (actAtK s.run.state pins v) := by
    unfold pitchEnd
    rw [horder, takeActs_append, takeActs_cons, hveq]
    rfl
  have hnone : entryAt v.track.geometry.k v = none ↔ entryAt s.track.geometry.k (pitchStart pins s) = none := by
    rw [entryAt_isNone_congr hv hg']; simp
  rw [hend]
  refine ⟨fun h => ?_, fun ht hj hn => ?_, fun k h => hz.latches k ((kK.pit rfl).latches k (hv.latches k h))⟩
  · rw [hz.check, actAtK_check (by rwa [ne_eq, hnone]), hv.check]
  · rw [hz.check, actAtK_empty ht hj (hnone.2 hn), emptyArrival_congr _ hv.check hv.params]

theorem pitchStart_resting (h : tracking s.run.state = false) : (pitchStart pins s).check = s.check := by
  have : tracking (samplePitch pins s).run.state = false := h
  simp only [pitchStart, atStations, this, Bool.false_eq_true, if_false]
  rfl

theorem pitchStart_tracking (h : tracking s.run.state = true) :
    (pitchStart pins s).check = (zeroPitch s).check ∧ (pitchStart pins s).alerts = (zeroPitch s).alerts := by
  have : tracking (samplePitch pins s).run.state = true := h
  simp only [pitchStart, atStations, this, if_true]
  exact zeroPitch_congr rfl rfl rfl

theorem entryAt_pitchStart (pos : Nat) :
    entryAt pos (pitchStart pins s) = none ↔ ∀ e ∈ s.track.entries, e.position + 1 ≠ pos := by
  simp [entryAt_none_iff, Entry.moved]

theorem pitchTail_check (s : State) : (remakeDecision (waitTurretEnd s)).check = s.check :=
  Beside.sameCheck beside_pitchTail

end Sys2Proof.Machine

namespace Sys2Proof.Proofs

open Sys2Proof.Machine

/-- Settles O54: the arrival and the test as functions, and a pitch as the rise, the act at k, and nothing else at
the Check Station. -/
theorem zeroFollowsEmptyPositions : Obligations.ZeroFollowsEmptyPositions := by
  refine ⟨fun pins order s hrun hfrozen hgeo => ?_, fun defl s => ?_, fun s hrange => ?_, fun s hrun => ?_⟩
  · intro empty
    obtain ⟨hstand, hempty, hlatch⟩ := pitchEnd_check (pins := pins) order hgeo
    rw [ne_eq, entryAt_pitchStart] at hstand
    rw [entryAt_pitchStart] at hempty
    refine ⟨_, exec_forwardPitch order hrun, ?_⟩
    rw [forwardPitch_moving order hfrozen, pitchTail_check]
    refine ⟨fun ht => ?_, fun ht he => ?_, fun ht he => ?_, fun ht ha => ?_⟩
    · rw [hstand (.inl ht), pitchStart_resting ht]
    · rw [hempty ht he.1 he.2]
      exact emptyArrival_congr _ (pitchStart_tracking ht).1 (by rw [pitchStart_params, zeroPitch_frame])
    · rw [hstand, (pitchStart_tracking ht).1]
      by_cases hj : pins.jarChk = true
      · exact .inr (.inl hj)
      · exact .inr (.inr fun hn => he ⟨by simpa using hj, hn⟩)
    · refine ((keeps_pitchTail (o := Scope.acts)).pit rfl).latches _ (hlatch _ ?_)
      rwa [(pitchStart_tracking ht).2]
  · intro t
    refine ⟨fun h h' => ?_, fun h => ?_⟩
    · obtain ⟨h0, h1, h2⟩ := zeroMove_between s.check.z defl
      have ht : t = _ := emptyArrival_near h h'
      rw [ht]
      exact ⟨rfl, by simp only; omega, by simp only; omega, by simp only; omega⟩
    · have ht : t = _ := emptyArrival_far h
      rw [ht]
      exact ⟨rfl, rfl⟩
  · intro t n alert
    have hn := satInc_min hrange
    refine ⟨fun h => ?_, fun h => ?_⟩
    · exact (zeroStaleTest_quiet rfl (by unfold staleDue; simp only [hn]; exact h)).trans (by simp only [hn]; rfl)
    · have ht : t = _ := zeroStaleTest_alerts rfl (by unfold staleDue; simp only [hn]; exact h)
      rw [ht]
      exact ⟨by simp only [hn]; rfl, rfl⟩
  · intro alert
    rw [exec_zeroStale hrun]
    refine ⟨fun h => ?_, fun ho ht => ⟨fun h => ?_, fun h => ?_⟩⟩
    · rcases h with h | h
      · simp [zeroStaleTest_closed h]
      · simp [h]
    · rw [if_pos ht, zeroStaleTest_quiet ho h]
    · rw [if_pos ht, zeroStaleTest_alerts ho h]
      exact ⟨_, rfl, rfl, rfl⟩

end Sys2Proof.Proofs
end

