-- ==== Sys2Proof/Proofs/Departures.lean ====
section
/-! PROOFS. A departure: its record, its counts, and what follows it at once (R17, R18, R142, R146, R147). -/

-- One declaration is checked after another: side by side they take more threads than the memory limit allows.
set_option Elab.async false

namespace Sys2Proof.Machine

variable {s t u : State} {e : Entry} {disp : Disposition} {r : JarRecord}

/-! ### The hand-over to Records and Traces (R142, R146, R147) -/

/-- A record joins the queue, whose oldest it may discard. -/
theorem appendRecord_queue (r : JarRecord) (s : State) : (appendRecord r s).records.queue
    = (if 512 ≤ s.records.queue.length then s.records.queue.drop 1 else s.records.queue) ++ [r] := by
  unfold appendRecord queueCapacity
  simp only
  split <;> rfl

theorem appendRecord_full (h : 512 ≤ s.records.queue.length) :
    (appendRecord r s).alerts.latch[alertIx .queueOverrun] = true
      ∧ (appendRecord r s).records.overruns = satInc 65535 s.records.overruns := by
  unfold appendRecord queueCapacity
  simp only [h, if_true]
  exact ⟨by simp, rfl⟩

theorem appendRecord_fits (h : ¬512 ≤ s.records.queue.length) :
    (appendRecord r s).alerts = s.alerts ∧ (appendRecord r s).records.overruns = s.records.overruns := by
  unfold appendRecord queueCapacity
  simp only [h, if_false]
  exact ⟨trivial, trivial⟩

theorem appendRecord_frame (r : JarRecord) (s : State) : appendRecord r s
    = { s with records := (appendRecord r s).records, alerts := (appendRecord r s).alerts } := by
  unfold appendRecord
  simp only
  split <;> rfl

/-- The hand-over with and without a record. -/
theorem handToRecords_none (h : recordFor disp e = none) : handToRecords disp e s
    = { s with reject := countDisposition disp s.reject, classCounts := countClass e.finalClass s.classCounts } := by
  simp only [handToRecords, h]

theorem handToRecords_some (h : recordFor disp e = some r) : handToRecords disp e s
    = { appendRecord r s with
        reject := countDisposition disp s.reject, classCounts := countClass e.finalClass s.classCounts } := by
  simp only [handToRecords, h]
  rw [appendRecord_frame]

theorem handToRecords_frame (disp : Disposition) (e : Entry) (s : State) : handToRecords disp e s = { s with
    records := (handToRecords disp e s).records, alerts := (handToRecords disp e s).alerts
    reject := countDisposition disp s.reject, classCounts := countClass e.finalClass s.classCounts } := by
  cases h : recordFor disp e with
  | none => rw [handToRecords_none h]
  | some r => rw [handToRecords_some h, appendRecord_frame]

/-- A departure makes a record when it is early or its policy asks for one (the table of R146). -/
theorem recordFor_departing (disp : Disposition) (e : Entry) :
    (¬((disp = .missing ∨ disp = .purged) ∨ e.policy = some .record ∨ e.policy = some .trace) →
        recordFor disp (departing disp e) = none)
      ∧ (¬(disp = .missing ∨ disp = .purged) → e.policy = some .record →
        recordFor disp (departing disp e) = some (recordOf false disp (departing disp e)))
      ∧ ((disp = .missing ∨ disp = .purged) ∨ e.policy = some .trace →
        recordFor disp (departing disp e) = some (recordOf true disp (departing disp e))) := by
  have hpolicy : (departing disp e).policy = e.policy := rfl
  cases disp with
  | missing | purged => exact ⟨fun h => absurd (.inl (by simp)) h, fun h => absurd (by simp) h, fun _ => rfl⟩
  | passed | rejected =>
    cases hp : e.policy with
    | none => simp [recordFor, hpolicy, hp]
    | some pol => cases pol <;> simp [recordFor, hpolicy, hp]

theorem recordFor_kept (h : (disp = .missing ∨ disp = .purged) ∨ e.policy = some .record ∨ e.policy = some .trace) :
    ∃ r, recordFor disp (departing disp e) = some r := by
  obtain ⟨_, hplain, htraced⟩ := recordFor_departing disp e
  by_cases he : disp = .missing ∨ disp = .purged
  · exact ⟨_, htraced (.inl he)⟩
  · rcases h.resolve_left he with hp | hp
    · exact ⟨_, hplain he hp⟩
    · exact ⟨_, htraced (.inr hp)⟩

theorem satInc_eq (top n : Nat) : satInc top n = if n < top then n + 1 else n := rfl

/-- Of the disposition counters that of the departure rises (R142). -/
theorem countDisposition_eq (disp : Disposition) (g : RejectGate) :
    let up (d : Disposition) (n : Nat) := if disp = d ∧ n < 4294967295 then n + 1 else n
    countDisposition disp g = { g with
      passed := up .passed g.passed, rejected := up .rejected g.rejected
      missing := up .missing g.missing, purged := up .purged g.purged } := by
  cases disp <;> simp [countDisposition, satInc_eq, max32]

theorem classIx_injective : Function.Injective classIx :=
  Function.LeftInverse.injective (g := fun i => [FinalClass.noCap, .headFault, .interrupted, .crossThread, .overTorque,
    .underTorque, .angleOut, .steamLow, .bulge, .unverified, .dud, .lowVacuum, .good][i])
    fun k => by cases k <;> rfl

/-- Of the class counters that of the final class rises, if there is one (R142). -/
theorem countClass_get (fin : Option FinalClass) (v : Vector Nat 13) (c : FinalClass) :
    (countClass fin v)[classIx c]
      = if fin = some c ∧ v[classIx c] < 4294967295 then v[classIx c] + 1 else v[classIx c] := by
  cases fin with
  | none => simp [countClass]
  | some k =>
    simp only [countClass, Fin.getElem_fin, Vector.getElem_set]
    by_cases hk : k = c
    · subst hk
      simp [satInc_eq, max32]
    · rw [if_neg fun h => hk (classIx_injective (Fin.ext h)), if_neg fun h => hk (Option.some.inj h.1)]

/-! ### What follows a departure at once (R30, R51, R58) -/

/-- All clauses, for a jar that is not followed. -/
def Reach.background : Reach where
  check := true
  gate := true
  awake := true
  unconf := true
  heads := true
  bench := true
  calm := true
  active := true
  retiring := true
  jar := false
  line := false

/-- The entry has left the Track, and a swap that RETIRING waited for has followed. -/
def left (e : Entry) (s : State) : State :=
  if e.bank == .retiring && s.track.retiringCount == 1 then retireSwap (removed e s) else removed e s

theorem beside_left (e : Entry) (s : State) : Beside Reach.background 0 0 0 (removed e s) (left e s) :=
  beside_ite beside_retireSwap (.refl _)

theorem depart_afterHand (disp : Disposition) (e : Entry) (s : State) : Beside Reach.background 0 0 0
    (handToRecords disp (departing disp e) (left e s)) (depart disp e s) := by
  rw [depart_eq]
  exact beside_waitTurretEnd.trans beside_drainEnd

/-- Before the hand-over only the list, the banks and the run control have moved. -/
theorem left_stands (e : Entry) (s : State) : (left e s).records = s.records ∧ (left e s).reject = s.reject
    ∧ (left e s).classCounts = s.classCounts
    ∧ (left e s).alerts.latch[alertIx .queueOverrun] = s.alerts.latch[alertIx .queueOverrun]
    ∧ (left e s).track.entries.map Entry.label
      = (s.track.entries.filter (fun f => f.position != e.position)).map Entry.label := by
  have h := (beside_left e s).bench rfl
  have hframe := removed_frame e s
  refine ⟨h.records.trans (by rw [hframe]), h.reject.trans (by rw [hframe]), h.classCounts.trans (by rw [hframe]),
    h.overrun.trans (by rw [hframe]), h.labels.trans (by rw [removed_entries])⟩

/-- Without a swap that follows at once, the run control stands and the banks are as the removal left them. -/
theorem left_calm (h : NoSwapDue s) : (left e s) = removed e s := by
  have hrun : (removed e s).run = s.run := by rw [removed_frame]
  have hstill : retireSwap (removed e s) = removed e s := retireSwap_none fun r hr => by
    rw [hrun] at hr
    exact h.elim (fun a => by simp [a] at hr) fun a => a.2 r hr
  unfold left
  rw [hstill, ite_self]

/-- The banks after a departure which no swap follows at once (R18, R51). -/
theorem depart_banks (disp : Disposition) (e : Entry) (h : NoSwapDue s) :
    (depart disp e s).track.activeCount = (removed e s).track.activeCount
      ∧ (depart disp e s).track.retiringCount = (removed e s).track.retiringCount
      ∧ (depart disp e s).recipes = (removed e s).recipes := by
  have hback := depart_afterHand disp e s
  have hrun : (removed e s).run = s.run := by rw [removed_frame]
  have hhand := handToRecords_frame disp (departing disp e) (removed e s)
  rw [left_calm h] at hback
  have hdue : NoSwapDue (handToRecords disp (departing disp e) (removed e s)) := by
    rw [hhand]
    change NoSwapDue (removed e s)
    rwa [NoSwapDue, hrun]
  obtain ⟨hactive, hstaged, hmark⟩ := (hback.calm rfl hdue).recipes
  obtain ⟨hcount, hretiring⟩ := hback.retiring rfl rfl hdue
  refine ⟨(hback.active rfl rfl hdue).trans (by rw [hhand]), hcount.trans (by rw [hhand]), ?_⟩
  rw [hhand] at hactive hstaged hmark hretiring
  cases hd : (depart disp e s).recipes with
  | mk staged active retiring mark =>
    rw [hd] at hactive hstaged hmark hretiring
    simp only at hactive hstaged hmark hretiring
    rw [hactive, hstaged, hmark, hretiring]

/-- The record, the counters and the list after a departure. -/
theorem depart_hands (disp : Disposition) (e : Entry) (s : State) :
    (depart disp e s).records = (handToRecords disp (departing disp e) (left e s)).records
      ∧ (depart disp e s).alerts.latch[alertIx .queueOverrun]
        = (handToRecords disp (departing disp e) (left e s)).alerts.latch[alertIx .queueOverrun]
      ∧ (depart disp e s).reject = countDisposition disp s.reject
      ∧ (depart disp e s).classCounts = countClass (departing disp e).finalClass s.classCounts
      ∧ (depart disp e s).track.entries.map Entry.label
        = (s.track.entries.filter (fun f => f.position != e.position)).map Entry.label := by
  have hback := (depart_afterHand disp e s).bench rfl
  have hhand := handToRecords_frame disp (departing disp e) (left e s)
  obtain ⟨_, hreject, hclass, _, hlabels⟩ := left_stands e s
  refine ⟨hback.records, hback.overrun, hback.reject.trans ?_, hback.classCounts.trans ?_, hback.labels.trans ?_⟩
  · rw [hhand, hreject]
  · rw [hhand, hclass]
  · rw [hhand]; exact hlabels

theorem depart_noRecord (h : recordFor disp (departing disp e) = none) : (depart disp e s).records = s.records
    ∧ (depart disp e s).alerts.latch[alertIx .queueOverrun] = s.alerts.latch[alertIx .queueOverrun] := by
  obtain ⟨hrecords, hlatch, _⟩ := depart_hands disp e s
  obtain ⟨hstand, _, _, hoverrun, _⟩ := left_stands e s
  rw [hrecords, hlatch, handToRecords_none h]
  exact ⟨hstand, hoverrun⟩

theorem depart_record (h : recordFor disp (departing disp e) = some r) :
    (depart disp e s).records.queue
        = (if 512 ≤ s.records.queue.length then s.records.queue.drop 1 else s.records.queue) ++ [r]
      ∧ (512 ≤ s.records.queue.length → (depart disp e s).alerts.latch[alertIx .queueOverrun] = true
        ∧ (depart disp e s).records.overruns = satInc 65535 s.records.overruns)
      ∧ (¬512 ≤ s.records.queue.length → (depart disp e s).records.overruns = s.records.overruns
        ∧ (depart disp e s).alerts.latch[alertIx .queueOverrun] = s.alerts.latch[alertIx .queueOverrun]) := by
  obtain ⟨hrecords, hlatch, _⟩ := depart_hands disp e s
  obtain ⟨hstand, _, _, hoverrun, _⟩ := left_stands e s
  rw [hrecords, hlatch, handToRecords_some h, ← hstand, ← hoverrun]
  refine ⟨appendRecord_queue r _, fun hfull => appendRecord_full hfull, fun hfits => ?_⟩
  obtain ⟨halerts, hcount⟩ := appendRecord_fits (r := r) hfits
  exact ⟨hcount, by rw [halerts]⟩

/-! ### The final class of a departure (R17) -/

theorem departing_late (h : ¬(disp = .missing ∨ disp = .purged)) :
    (departing disp e).finalClass = e.finalClass := by
  cases disp <;> simp [departing] at h ⊢

theorem departing_early (h : disp = .missing ∨ disp = .purged) :
    (departing disp e).finalClass = e.finalClass.or (e.capClass.bind CapClass.final) := by
  rcases h with rfl | rfl <;> rfl

end Sys2Proof.Machine

namespace Sys2Proof.Proofs

open Sys2Proof.Machine

/-- Settles O11: the hand-over makes the record from the entry as it departs, and what follows a departure at once
touches neither records nor counters. -/
theorem departureRecorded : Obligations.DepartureRecorded := by
  intro disp e s t early kept queue up
  obtain ⟨_, _, hreject, hclass, hlabels⟩ := depart_hands disp e s
  obtain ⟨hnone, hplain, htraced⟩ := recordFor_departing disp e
  refine ⟨(departing disp e).finalClass, ?_, fun he hfin => ⟨fun hcap => ?_, ?_⟩, ⟨fun hk => ?_, fun he hp => ?_,
    fun hk => ?_⟩, fun hk hfull => ?_, fun hk => ?_, ?_, fun c => ?_, ?_, fun hd => ⟨fun hb => ?_, fun hb => ?_⟩⟩
  · rintro (hfin | hearly)
    · by_cases he : early
      · rw [departing_early he]
        exact Option.or_of_isSome (Option.isSome_iff_ne_none.2 hfin)
      · exact departing_late he
    · exact departing_late hearly
  · rw [departing_early he, hfin]
    rcases hcap with h | h <;> simp [h, CapClass.final]
  · rw [departing_early he, hfin]
    intro q hq hcap
    simp only [List.mem_cons, List.not_mem_nil, or_false] at hq
    rcases hq with rfl | rfl | rfl | rfl | rfl | rfl | rfl | rfl <;> simp [hcap, CapClass.final]
  · exact (depart_noRecord (hnone hk)).1
  · exact (depart_record (hplain he hp)).1
  · exact (depart_record (htraced hk)).1
  · obtain ⟨r, hr⟩ := recordFor_kept hk
    exact (depart_record hr).2.1 hfull
  · by_cases hkept : kept
    · obtain ⟨r, hr⟩ := recordFor_kept hkept
      exact (depart_record hr).2.2 fun hfull => hk ⟨hkept, hfull⟩
    · obtain ⟨hrecords, hlatch⟩ := depart_noRecord (hnone hkept)
      exact ⟨congrArg RecordQueue.overruns hrecords, hlatch⟩
  · exact hreject.trans (countDisposition_eq disp s.reject)
  · exact (congrArg (·[classIx c]) hclass).trans (countClass_get _ _ c)
  · have := congrArg (List.map Label.jar) hlabels
    simpa [Function.comp_def, Entry.label] using this
  · obtain ⟨h1, h2, h3⟩ := depart_banks disp e hd
    obtain ⟨r1, r2, r3⟩ := removed_active (s := s) hb
    exact ⟨h1.trans r1, h2.trans r2, h3.trans r3⟩
  · obtain ⟨h1, h2, h3⟩ := depart_banks disp e hd
    obtain ⟨r1, r2, r3⟩ := removed_retiring (s := s) hb
    exact ⟨h2.trans r2, h1.trans r1, h3.trans r3⟩

end Sys2Proof.Proofs
end

