-- ==== Sys2Proof/Proofs/PitchEffects.lean ====
section
/-! PROOFS. What a forward pitch does to the counters, to the list of entries, to the confirm list and to the fault
causes, in any order of its acts (R5, R6, R13 to R16, R30, R33, R41, R42, R140). -/

-- One declaration is checked after another: side by side they take more threads than the memory limit allows.
set_option Elab.async false

namespace Sys2Proof.Machine

variable {s t u v w : State} {rs : RunState} {d : Decision} {pins : PitchPins} {a b : PitchAct}
  {l m : List PitchAct} {e f : Entry} {o : Scope}

/-! ### Acts one after another -/

/-- Acts keep together what each keeps: the confirm list where they are not of the gate, the entry at k where they
are not of k. -/
theorem keeps_takeActs (hadm : o.adm = false) (hdec : o.dec = false)
    (hconf : o.conf = true → PitchAct.deadlines ∉ l ∧ PitchAct.atJ ∉ l)
    (hk : o.outK = true ∨ PitchAct.atK ∉ l) : ∀ s, (l ++ m).Nodup → InfeedReady d (l ++ m) s →
      Keeps o s (takeActs rs d pins l s) ∧ InfeedReady d m (takeActs rs d pins l s) := by
  induction l with
  | nil => exact fun s _ hi => ⟨.refl s, hi⟩
  | cons a l ih =>
    intro s hn hi
    have hoff {b : PitchAct} (h : b ∉ a :: l) : a ≠ b ∧ b ∉ l :=
      ⟨fun e => h (e ▸ List.mem_cons_self ..), fun e => h (List.mem_cons_of_mem _ e)⟩
    have hcase {b c : PitchAct} (hb : b ∉ a :: l) : a = b → c = a → False := fun e _ => (hoff hb).1 e
    have k : Keeps o s (pitchAct rs d pins s a) := by
      refine keeps_pitchAct rs d pins a (fun _ _ => hadm) (fun h => ?_) hdec (fun h _ => ?_)
        (fun ha => hi (by simp [ha]))
      · by_contra hc
        obtain ⟨h1, h2⟩ := hconf (by simpa using hc)
        exact h.elim (hoff h1).1 (hoff h2).1
      · exact hk.resolve_right fun hh => (hoff hh).1 h
    obtain ⟨k', hi'⟩ := ih (fun h => ⟨(hoff (hconf h).1).2, (hoff (hconf h).2).2⟩) (hk.imp_right fun h => (hoff h).2) _
      (List.nodup_cons.1 hn).2 (infeedReady_act hn hi)
    exact ⟨k.trans k', hi'⟩

/-- The acts of a pitch about `b`. -/
theorem pitchEnd_split (pins : PitchPins) (order : List PitchAct) (s : State) (b : PitchAct) :
    ∃ l m, pitchActs order = l ++ b :: m ∧ b ∉ l ∧ b ∉ m ∧ (l ++ b :: m).Nodup
      ∧ pitchEnd pins order s = takeActs s.run.state s.gate.decision pins m (pitchAct s.run.state s.gate.decision pins
        (takeActs s.run.state s.gate.decision pins l (pitchStart pins s)) b) := by
  obtain ⟨l, m, horder, hl, hm, hn⟩ := pitchActs_split order b
  refine ⟨l, m, horder, hl, hm, hn, ?_⟩
  unfold pitchEnd
  rw [horder, takeActs_append, takeActs_cons]

/-- No act but the infeed brings an entry to a position, and the infeed one to position 0 only. -/
theorem act_noneAt {pos : Nat} (h0 : pos ≠ 0) (h : ∀ f ∈ s.track.entries, f.position ≠ pos) :
    ∀ f ∈ (pitchAct rs d pins s a).track.entries, f.position ≠ pos := by
  by_cases ha : a = .infeed ∧ d = .admitJar ∧ pins.jarIn = true
  · obtain ⟨rfl, hd, hj⟩ := ha
    rw [actAtInfeed_admits hd hj]
    intro f hf
    rcases List.mem_append.1 ((admission_joins s).2.subset (List.mem_map_of_mem hf)) with hm | hm
    · obtain ⟨g, hg, hgf⟩ := List.mem_map.1 hm
      rw [← show g.position = f.position from congrArg Label.position hgf]
      exact h g hg
    · rw [show f.position = 0 from congrArg Label.position (List.mem_singleton.1 hm)]
      exact h0.symm
  · exact (act_noJoin ha).noneAt rfl h

theorem acts_noneAt {pos : Nat} (h0 : pos ≠ 0) (l : List PitchAct) : ∀ s,
    (∀ f ∈ s.track.entries, f.position ≠ pos) → ∀ f ∈ (takeActs rs d pins l s).track.entries, f.position ≠ pos := by
  induction l with
  | nil => exact fun _ h => h
  | cons a l ih => exact fun s h => ih _ (act_noneAt h0 h)

theorem pitchStart_noneAt {pos : Nat} (h : ∀ e ∈ s.track.entries, e.position + 1 ≠ pos) :
    ∀ f ∈ (pitchStart pins s).track.entries, f.position ≠ pos := by
  simpa [Entry.moved] using h

/-! ### The counters and what stands (R5, R6) -/

/-- A pitch leaves settings and clocks alone but for its two counters. -/
theorem pitchStart_fixed (pins : PitchPins) (s : State) : (pitchStart pins s).fixed
    = { s.fixed with pocket := s.track.pocket + 1, pitchCount := s.track.pitchCount + 1 } := by
  unfold pitchStart atStations
  simp only
  split
  · exact (keeps_zeroPitch (o := Scope.acts)).settings rfl
  · rfl

theorem pitchStart_latches (pins : PitchPins) (k : AlertKind) (h : s.alerts.latch[alertIx k] = true) :
    (pitchStart pins s).alerts.latch[alertIx k] = true := by
  unfold pitchStart atStations
  simp only
  split
  · exact ((keeps_zeroPitch (o := Scope.acts)).pit rfl).latches k h
  · exact h

/-- A forward pitch, from the state in which its counters have moved. -/
theorem forwardPitch_keeps (pins : PitchPins) (order : List PitchAct) (hg : GateAndBanks s) :
    ∃ u, u.fixed = { s.fixed with pocket := s.track.pocket + 1, pitchCount := s.track.pitchCount + 1 }
      ∧ u.power = s.power ∧ u.pending = s.pending ∧ u.link = s.link
      ∧ (∀ k, s.alerts.latch[alertIx k] = true → u.alerts.latch[alertIx k] = true)
      ∧ Keeps Scope.acts u (forwardPitch pins order s) ∧ DecisionStands (forwardPitch pins order s) := by
  cases hf : frozen s with
  | true =>
    rw [forwardPitch_frozen order hf]
    exact ⟨countPitch (samplePitch pins s), rfl, rfl, rfl, rfl, fun _ h => h,
      (keeps_confirmDeadlines rfl).trans keeps_remake, rfl⟩
  | false =>
    rw [forwardPitch_moving order hf]
    obtain ⟨hn, _⟩ := pitchActs_each_once order
    have k := keeps_acts s.run.state s.gate.decision pins (pitchActs order) hn (pitchStart pins s)
      (fun _ => infeedReady_pitchStart hg [.infeed] (by simp))
    exact ⟨pitchStart pins s, pitchStart_fixed pins s, pitchStart_keeps.power, pitchStart_keeps.pending,
      pitchStart_link, pitchStart_latches pins, k.trans keeps_pitchTail, rfl⟩

theorem SettingsStand.ofFixed (h : t.fixed = { s.fixed with
      pocket := s.track.pocket + 1, pitchCount := s.track.pitchCount + 1 }) (hp : t.power = s.power)
    (hq : t.pending = s.pending) : SettingsStand s t := by
  simp only [State.fixed, Fixed.mk.injEq] at h
  obtain ⟨hport, hparams, hgeo, hdisp, hmask, hz, htrace, hstore, hcommit, htime, hcause, hdefault, _⟩ := h
  exact ⟨hport, hparams, hgeo, hdisp, hmask, hz, htrace, hstore, hcommit, htime, hp, hcause, hdefault, hq⟩

/-! ### The counts of the infeed (R30, R41, R42) -/

/-- The counts of the infeed over an operation, with what an operation after it needs. -/
structure GapsAsleep (s t : State) : Prop where
  gaps : GapsStand s t
  asleep : Asleep s.run.state → Asleep t.run.state

theorem Beside.gapsAsleep {r : Reach} {jar : Word32} {q : Nat} {p : Head} (h : Beside r jar q p s t)
    (hr : r.gate = true) : GapsAsleep s t := ⟨h.gate hr, h.asleep⟩

theorem GapsAsleep.trans (h : GapsAsleep s t) (g : GapsAsleep t u) : GapsAsleep s u :=
  ⟨h.gaps.trans g.gaps g.asleep, fun a => g.asleep (h.asleep a)⟩

/-- The counts of the infeed alone, for a jar that is not followed. -/
def Reach.gateOnly : Reach where
  check := false
  gate := true
  awake := false
  unconf := false
  heads := false
  bench := false
  calm := false
  active := false
  retiring := false
  jar := false
  line := false

theorem admission_gaps (irt : Nat) (h : (∀ e ∈ s.track.entries, 0 < e.position) ∧ s.recipes.active.isSome = true
    ∧ Awake s.run.state) : GapsAsleep s (admission irt s) :=
  Beside.gapsAsleep (r := Reach.gateOnly) (jar := 0) (q := 0) (p := 0)
    (beside_admission irt h rfl rfl rfl (fun a => Bool.noConfusion a) (fun a => Bool.noConfusion a)) rfl

theorem raiseCause_gaps (c : Cause) (s : State) : (raiseCause c s).gate.emptyPockets = s.gate.emptyPockets
    ∧ (raiseCause c s).gate.gapCount = s.gate.gapCount := by
  by_cases h : s.run.state = .fault
  · rw [raiseCause_inFault h]; exact ⟨rfl, rfl⟩
  · rw [raiseCause_outside h, linesAndEntries_enterFault]; exact ⟨rfl, rfl⟩

/-- The act of an admitting pocket that arrives with no jar (R41), of a gap pocket (R42), and of any other. -/
theorem infeed_noJar (hd : d = .admitJar) (hj : pins.jarIn = false) : pitchAct rs d pins s .infeed
    = { s with gate.emptyPockets := satInc max32 s.gate.emptyPockets } := by
  simp [pitchAct, actAtInfeed, hd, hj]

theorem infeed_gap (hd : d = .gap) : (pitchAct rs d pins s .infeed).gate.emptyPockets = s.gate.emptyPockets
    ∧ (pitchAct rs d pins s .infeed).gate.gapCount = s.gate.gapCount - 1
    ∧ (Awake s.run.state → Awake (pitchAct rs d pins s .infeed).run.state) := by
  subst hd
  simp only [pitchAct, actAtInfeed]
  split
  · obtain ⟨h1, h2⟩ := raiseCause_gaps .strayJar { s with gate.gapCount := s.gate.gapCount - 1 }
    exact ⟨h1, h2, fun _ => .inr (.inr (.inr (raiseCause_state _ _)))⟩
  · exact ⟨rfl, rfl, id⟩

theorem infeed_closed (hd : d = .closed) : GapsAsleep s (pitchAct rs d pins s .infeed) := by
  subst hd
  exact Beside.gapsAsleep (r := Reach.gateOnly) (jar := 0) (q := 0) (p := 0) (beside_ite
    (c := tracking rs && pins.jarIn) (beside_raiseCause fun a => Bool.noConfusion a) (.refl s)) rfl

/-- The counts of the infeed over a pitch. -/
theorem forwardPitch_gaps (order : List PitchAct) (hg : GateAndBanks s) (hf : frozen s = false) :
    (forwardPitch pins order s).gate.emptyPockets = (if s.gate.decision = .admitJar ∧ pins.jarIn = false
        then satInc max32 s.gate.emptyPockets else s.gate.emptyPockets)
      ∧ (s.gate.decision = .gap → (forwardPitch pins order s).gate.gapCount = s.gate.gapCount - 1)
      ∧ (s.gate.decision ≠ .gap → (forwardPitch pins order s).gate.gapCount = s.gate.gapCount
        ∨ (forwardPitch pins order s).gate.gapCount = 0 ∧ Asleep (forwardPitch pins order s).run.state) := by
  obtain ⟨v, l, about⟩ := pitch_about (b := .infeed) (j := false) (n := false) (jar := 0) (q := 0) (p := 0)
    (pins := pins) order hg (fun a => Bool.noConfusion a) (fun a => Bool.noConfusion a) (fun a => Bool.noConfusion a)
    (fun _ a => Bool.noConfusion a) (fun _ a => Bool.noConfusion a)
  have after := about.after.trans beside_pitchTail
  rw [← forwardPitch_moving order hf] at after
  have hbefore := about.before.gapsAsleep rfl
  have hafter := after.gapsAsleep rfl
  have hstart : (pitchStart pins s).gate = s.gate := pitchStart_gate
  have whole (h : GapsAsleep v (pitchAct s.run.state s.gate.decision pins v .infeed)) :
      (forwardPitch pins order s).gate.emptyPockets = s.gate.emptyPockets
        ∧ ((forwardPitch pins order s).gate.gapCount = s.gate.gapCount
          ∨ (forwardPitch pins order s).gate.gapCount = 0 ∧ Asleep (forwardPitch pins order s).run.state) := by
    have hall := ((hbefore.trans h).trans hafter).gaps
    rw [← hstart]
    exact ⟨hall.empties, hall.gaps⟩
  cases hd : s.gate.decision with
  | closed =>
    obtain ⟨h1, h2⟩ := whole (hd ▸ infeed_closed rfl)
    exact ⟨by simp [h1], (fun a => nomatch a), fun _ => h2⟩
  | gap =>
    obtain ⟨h1, h2, h3⟩ := infeed_gap (s := v) (rs := s.run.state) (pins := pins) hd
    have hawake := about.before.awake rfl (by rw [pitchStart_run, run_of_gap hg hd]; exact .inl rfl)
    rw [hstart] at hawake
    refine ⟨?_, fun _ => ?_, fun a => absurd rfl a⟩
    · have := hbefore.gaps.empties
      rw [hstart] at this
      simp [hafter.gaps.empties, h1, this]
    · rw [(after.awake rfl (h3 hawake.1)).2, h2, hawake.2]
  | admitJar =>
    cases hj : pins.jarIn with
    | true =>
      obtain ⟨h1, h2⟩ := whole (by
        rw [actAtInfeed_admits hd hj]
        exact admission_gaps _ (about.ready (List.mem_cons_self ..) hd))
      exact ⟨by simp [h1], (fun a => nomatch a), fun _ => h2⟩
    | false =>
      have hw := infeed_noJar (s := v) (rs := s.run.state) hd hj
      rw [hw] at hafter
      have hall := hbefore.gaps
      refine ⟨?_, (fun a => nomatch a), fun _ => ?_⟩
      · rw [hafter.gaps.empties]
        simp [hall.empties]
      · have hzero : v.gate.gapCount = s.gate.gapCount ∨ v.gate.gapCount = 0 ∧ Asleep v.run.state := by
          rw [← hstart]; exact hall.gaps
        rcases hafter.gaps.gaps with h | h
        · exact hzero.imp (h.trans ·) fun a => ⟨h.trans a.1, hafter.asleep a.2⟩
        · exact .inr h

/-- A pitch that lets no jar in leaves the next jar number. -/
theorem forwardPitch_nextJar (order : List PitchAct) (hg : GateAndBanks s) (hf : frozen s = false)
    (h : s.gate.decision ≠ .admitJar ∨ pins.jarIn = false) :
    (forwardPitch pins order s).track.nextJar = s.track.nextJar := by
  have hnone := (pitchEnd_joined (pins := pins) order hg).none fun hA =>
    h.elim (fun a => a hA.1) fun a => Bool.noConfusion (a.symm.trans hA.2.1)
  rw [forwardPitch_moving order hf]
  refine ((keeps_pitchTail (o := Scope.actsNoJoin)).joins rfl).1.trans (hnone.1.trans ?_)
  simp

end Sys2Proof.Machine

namespace Sys2Proof.Proofs

open Sys2Proof.Machine

/-- Settles O3: the acts of a pitch keep the counters and the settings, and of the counts of the infeed all but the
act at the infeed keep both. -/
theorem forwardPitchCounts : Obligations.ForwardPitchCounts := by
  intro pins order s hrun hg
  refine ⟨_, exec_forwardPitch order hrun, ?_⟩
  obtain ⟨u, hfixed, hpower, hpending, hlink, hlatch, k, hdecision⟩ := forwardPitch_keeps pins order hg
  have hfixed' := (k.settings rfl).trans hfixed
  have hscan := (k.pit rfl).scan
  rw [hlink] at hscan
  refine ⟨congrArg Fixed.pitchCount hfixed', congrArg Fixed.pocket hfixed', congrArg Fixed.synced hfixed',
    .ofFixed hfixed' (k.power.trans hpower) (k.pending.trans hpending), hscan,
    fun a h => (k.pit rfl).latches a (hlatch a h), hdecision, fun hf => ?_⟩
  obtain ⟨hempties, hgap, hrest⟩ := forwardPitch_gaps (pins := pins) order hg hf
  exact ⟨hempties, hgap, fun h => (hrest h).imp_right fun a => ⟨a.2, a.1⟩, forwardPitch_nextJar order hg hf⟩

end Sys2Proof.Proofs
end

