-- ==== Sys2Proof/Proofs/PitchOutcomes.lean ====
section
/-! PROOFS. Entries, deadlines and the faults of a forward pitch: which entries stand after it, which confirm entries,
and the causes its acts raise (R13 to R16, R33, R140). -/

-- One declaration is checked after another: side by side they take more threads than the memory limit allows.
set_option Elab.async false

namespace Sys2Proof.Machine

variable {s t u v w : State} {rs : RunState} {d : Decision} {pins : PitchPins} {a b : PitchAct}
  {l m : List PitchAct} {e f : Entry} {o : Scope}

/-! ### The confirm list through the acts (R139, R140) -/

/-- The acts of the Reject Gate come in this order: the deadlines before the arrival at j (R140). -/
theorem gateFirst_deadlines {l m : List PitchAct} : ∀ {xs : List PitchAct}, xs.Nodup →
    gateFirst xs = l ++ .deadlines :: m → PitchAct.atJ ∉ l := by
  induction l with
  | nil => exact fun _ _ => List.not_mem_nil
  | cons a l ih =>
    intro xs hn h
    rw [List.cons_append] at h
    cases xs with
    | nil => simp [gateFirst] at h
    | cons x xs =>
      have hn' := (List.nodup_cons.1 hn).2
      by_cases hx : x = .atJ
      · subst hx
        unfold gateFirst at h
        split at h
        · have hmem : PitchAct.deadlines ∈ PitchAct.atJ :: xs.erase .deadlines := by
            rw [(List.cons.inj h).2]
            simp
          rcases List.mem_cons.1 hmem with h' | h'
          · cases h'
          · exact absurd h' hn'.not_mem_erase
        · rename_i hc
          have hmem : PitchAct.deadlines ∈ xs := by
            rw [(List.cons.inj h).2]
            simp
          simp [hmem] at hc
      · have hrest : gateFirst (x :: xs) = x :: gateFirst xs := by
          cases x with
          | atJ => exact absurd rfl hx
          | deadlines | atA | atE | atX | atK | infeed => rfl
        rw [hrest] at h
        obtain ⟨hxa, h⟩ := List.cons.inj h
        exact fun hm => (List.mem_cons.1 hm).elim (fun e => hx (hxa.trans e.symm)) (ih hn' h)

/-- Acts that leave the confirm list alone: the others than those of the gate. -/
def Scope.confirmsStand : Scope := { Scope.acts with conf := true }

/-- The act at j adds at most its own confirm entry, and none where no entry has come to j (R139). -/
theorem arrivalJ_confirms (s : State) :
    ∃ ex, (arrivalAt s.track.geometry.j arriveJ s).reject.confirms = s.reject.confirms ++ ex
      ∧ ((∀ f ∈ s.track.entries, f.position ≠ s.track.geometry.j) → ex = []) := by
  unfold arrivalAt
  split
  · rename_i e he
    have hat : ¬∀ f ∈ s.track.entries, f.position ≠ s.track.geometry.j := fun h =>
      h e (entryAt_mem he) (entryAt_position he)
    have hdepart (disp : Disposition) (u : State) (hu : u.track = s.track) :
        (depart disp e u).reject.confirms = u.reject.confirms :=
      ((keeps_depart (o := Scope.confirmsStand) disp e (by rw [hu]; exact entryAt_mem he)
        (fun _ => .inr (by rw [hu]; exact entryAt_position he))).confirms rfl).1
    unfold arriveJ
    split
    · exact ⟨_, hdepart _ _ rfl, fun h => absurd h hat⟩
    · exact ⟨[], by rw [hdepart _ _ rfl, List.append_nil], fun h => absurd h hat⟩
    · exact ⟨[], (List.append_nil _).symm, fun _ => rfl⟩
  · exact ⟨[], (List.append_nil _).symm, fun _ => rfl⟩

/-- Acts after the deadlines add confirm entries at most, and none where no entry comes to j. -/
theorem acts_confirms (l : List PitchAct) : ∀ s, l.Nodup → InfeedReady d l s → PitchAct.deadlines ∉ l →
    s.track.geometry.j ≠ 0 → ∃ ex, (takeActs rs d pins l s).reject.confirms = s.reject.confirms ++ ex
      ∧ ((∀ f ∈ s.track.entries, f.position ≠ s.track.geometry.j) → ex = []) := by
  induction l with
  | nil => exact fun s _ _ _ _ => ⟨[], (List.append_nil _).symm, fun _ => rfl⟩
  | cons a l ih =>
    intro s hn hi hl h0
    have hgeo : (pitchAct rs d pins s a).track.geometry = s.track.geometry := ((keeps_act hi).pit rfl).geometry
    obtain ⟨ex, hex, hnone⟩ : ∃ ex, (pitchAct rs d pins s a).reject.confirms = s.reject.confirms ++ ex
        ∧ ((∀ f ∈ s.track.entries, f.position ≠ s.track.geometry.j) → ex = []) := by
      by_cases hj : a = .atJ
      · subst hj
        exact arrivalJ_confirms s
      · have hd : a ≠ .deadlines := fun e => hl (e ▸ List.mem_cons_self ..)
        have k : Keeps Scope.confirmsStand s (pitchAct rs d pins s a) :=
          keeps_pitchAct rs d pins a (fun _ _ => rfl) (fun h => (h.elim hd hj).elim) rfl (fun _ _ => rfl)
            (fun ha => hi (by simp [ha]))
        exact ⟨[], by rw [(k.confirms rfl).1, List.append_nil], fun _ => rfl⟩
    obtain ⟨ex', hex', hnone'⟩ := ih _ (List.nodup_cons.1 hn).2 (infeedReady_act hn hi)
      (fun h => hl (List.mem_cons_of_mem _ h)) (by rwa [hgeo])
    refine ⟨ex ++ ex', by rw [takeActs_cons, hex', hex, List.append_assoc], fun h => ?_⟩
    rw [hnone h, hnone' (by rw [hgeo]; exact act_noneAt h0 h)]
    rfl

/-! ### The deadlines of a pitch (R140) -/

theorem confirmDeadlines_confirms (s : State) : (confirmDeadlines s).reject.confirms
    = s.reject.confirms.filter (fun c => c.deadline != s.track.pitchCount) := by
  by_cases h : ∃ c ∈ s.reject.confirms, c.deadline = s.track.pitchCount
  · rw [confirmDeadlines_due h]
    exact ((keeps_raiseCause (o := Scope.confirmsStand) .rejectUnconfirmed).confirms rfl).1
  · rw [confirmDeadlines_none (by simpa using h)]
    rfl

/-- What a pitch makes of the confirm list and of its cause, from the state its counters have moved to. -/
theorem forwardPitch_deadlines (order : List PitchAct) (hg : GateAndBanks s) (hf : frozen s = false)
    (hgeo : GeometryOk s.track.geometry) :
    (∃ ex, (forwardPitch pins order s).reject.confirms
        = s.reject.confirms.filter (fun c => c.deadline != s.track.pitchCount + 1) ++ ex
      ∧ ((∀ e ∈ s.track.entries, e.position + 1 ≠ s.track.geometry.j) → ex = []))
    ∧ ((∃ c ∈ s.reject.confirms, c.deadline = s.track.pitchCount + 1) → LstopFollows s →
      FaultFor .rejectUnconfirmed (forwardPitch pins order s))
    ∧ ((∀ c ∈ s.reject.confirms, c.deadline ≠ s.track.pitchCount + 1) →
      (forwardPitch pins order s).run.causes[causeIx .rejectUnconfirmed]
        = s.run.causes[causeIx .rejectUnconfirmed]) := by
  have hj0 : s.track.geometry.j ≠ 0 := by have := (geometryOk_iff _).1 hgeo; omega
  obtain ⟨l, m, horder, hl, hm, hn, hend⟩ := pitchEnd_split pins order s .deadlines
  have hlj : PitchAct.atJ ∉ l := gateFirst_deadlines (mem_schedule order defaultActs (by decide)).1 horder
  have hi := infeedReady_pitchStart (pins := pins) hg (l ++ .deadlines :: m)
  obtain ⟨kv, hiv⟩ := keeps_takeActs (o := Scope.confirmsStand) (rs := s.run.state) (pins := pins) rfl rfl
    (fun _ => ⟨hl, hlj⟩) (.inl rfl) _ hn hi
  have hbv := (beside_acts_about (rs := s.run.state) (pins := pins) (jar := 0) (q := 0) (p := 0) (j := false)
    (n := false) hl hn hi (fun a => Bool.noConfusion a) (fun a => Bool.noConfusion a)
    (fun a => Bool.noConfusion a)).1.unconf rfl
  rw [pitchStart_run] at hbv
  have hnonev : (∀ e ∈ s.track.entries, e.position + 1 ≠ s.track.geometry.j) →
      ∀ f ∈ (takeActs s.run.state s.gate.decision pins l (pitchStart pins s)).track.entries,
        f.position ≠ s.track.geometry.j := fun h => acts_noneAt hj0 l _ (pitchStart_noneAt h)
  generalize takeActs s.run.state s.gate.decision pins l (pitchStart pins s) = v at kv hiv hend hbv hnonev
  have hconf : v.reject.confirms = s.reject.confirms := (kv.confirms rfl).1.trans (by simp)
  have hcount : v.track.pitchCount = s.track.pitchCount + 1 := (kv.confirms rfl).2.1.trans (by simp)
  have hn' : (PitchAct.deadlines :: m).Nodup := (List.nodup_append.1 hn).2.1
  have hact : pitchAct s.run.state s.gate.decision pins v .deadlines = confirmDeadlines v := rfl
  have kw := keeps_act (rs := s.run.state) (pins := pins) hiv
  have hiw := infeedReady_act (rs := s.run.state) (pins := pins) hn' hiv
  rw [hact] at hend kw hiw
  have hgeow : (confirmDeadlines v).track.geometry = s.track.geometry :=
    (kw.pit rfl).geometry.trans ((kv.pit rfl).geometry.trans (by simp))
  have hnm := (List.nodup_cons.1 hn').2
  obtain ⟨km, _⟩ := keeps_takeActs (o := Scope.acts) (m := []) (l := m) (rs := s.run.state) (pins := pins) rfl rfl
    (fun a => Bool.noConfusion a) (.inl rfl) _ (by simpa using hnm) (by simpa using hiw)
  have hbm := (beside_acts_about (m := []) (rs := s.run.state) (pins := pins) (jar := 0) (q := 0) (p := 0)
    (j := false) (n := false) hm (by simpa using hnm) (by simpa using hiw) (fun a => Bool.noConfusion a)
    (fun a => Bool.noConfusion a) (fun a => Bool.noConfusion a)).1.unconf rfl
  rw [forwardPitch_moving order hf, hend]
  refine ⟨?_, fun hdue hlstop => ?_, fun hnone => ?_⟩
  · obtain ⟨ex, hex, hempty⟩ := acts_confirms (rs := s.run.state) (d := s.gate.decision) (pins := pins) m
      (confirmDeadlines v) hnm hiw hm (by rwa [hgeow])
    refine ⟨ex, ?_, fun h => hempty ?_⟩
    · rw [((keeps_pitchTail (o := Scope.confirmsStand)).confirms rfl).1, hex, confirmDeadlines_confirms, hconf, hcount]
    · rw [hgeow]
      exact (keeps_confirmDeadlines (o := Scope.noneJoins) rfl).noneAt rfl (hnonev h)
  · refine (km.trans (keeps_pitchTail (o := Scope.acts))).faultFor rfl rfl ?_
    rw [confirmDeadlines_due (by rwa [hconf, hcount])]
    refine raiseCause_faultFor ?_
    exact kv.lstop (by rw [LstopFollows, pitchStart_run]; exact hlstop)
  · rw [Beside.unconf (o := Reach.about .deadlines false false) (jar := 0) (q := 0) (p := 0) beside_pitchTail rfl, hbm,
      confirmDeadlines_none (by rwa [hconf, hcount])]
    exact hbv

/-! ### Entries after a pitch (R13, R15) -/

theorem movedOn_of_label (h : f.label = e.moved.label) : MovedOn e f := by
  simp only [Entry.label, Label.mk.injEq] at h
  obtain ⟨hjar, hpocket, hpos, hrecipe, hbatch, hpitch, htime, hfill⟩ := h
  exact ⟨hpos, hjar, hpocket, hrecipe, hbatch, hpitch, htime, hfill⟩

/-- An entry that comes to neither k nor j stays (R15). -/
theorem forwardPitch_remain (order : List PitchAct) (hg : GateAndBanks s) (hf : frozen s = false)
    (he : e ∈ s.track.entries) (hk : e.position + 1 ≠ s.track.geometry.k) (hj : e.position + 1 ≠ s.track.geometry.j) :
    ∃ f ∈ (forwardPitch pins order s).track.entries, MovedOn e f := by
  obtain ⟨hn, _⟩ := pitchActs_each_once order
  have k := (keeps_acts s.run.state s.gate.decision pins (pitchActs order) hn (pitchStart pins s)
    (fun _ => infeedReady_pitchStart hg [.infeed] (by simp))).trans keeps_pitchTail
  rw [forwardPitch_moving order hf]
  obtain ⟨f, hf, hl⟩ := (k.pit rfl).remain e.moved (by simpa using ⟨e, he, rfl⟩) (fun _ => by rwa [pitchStart_track])
    (by rwa [pitchStart_track])
  exact ⟨f, hf, movedOn_of_label hl⟩

/-- Every entry after a pitch has moved on, or has been admitted by it (R13). -/
theorem forwardPitch_origin (order : List PitchAct) (hg : GateAndBanks s) (hf : frozen s = false)
    (hm : f ∈ (forwardPitch pins order s).track.entries) : (∃ e ∈ s.track.entries, MovedOn e f)
      ∨ f.position = 0 ∧ f.jar = s.track.nextJar ∧ s.gate.decision = .admitJar ∧ pins.jarIn = true := by
  rw [forwardPitch_moving order hf] at hm
  have hlabel := ((keeps_pitchTail (o := Scope.actsNoJoin)).joins rfl).2.subset (List.mem_map_of_mem hm)
  have hjoin := pitchEnd_joined (pins := pins) order hg
  have hmoved (h : f.label ∈ (pitchStart pins s).track.entries.map Entry.label) : ∃ e ∈ s.track.entries, MovedOn e f := by
    simp only [pitchStart_track, List.map_map, List.mem_map, Function.comp_apply] at h
    obtain ⟨e, he, hl⟩ := h
    exact ⟨e, he, movedOn_of_label hl.symm⟩
  by_cases hA : Admits s.gate.decision pins []
  · obtain ⟨_, x, ⟨hjar, _, hpos, _⟩, hsub⟩ := hjoin.one hA
    rcases List.mem_append.1 (hsub.subset hlabel) with h | h
    · exact .inl (hmoved h)
    · rw [← List.mem_singleton.1 h] at hjar hpos
      exact .inr ⟨hpos, hjar.trans (by simp), hA.1, hA.2.1⟩
  · exact .inl (hmoved ((hjoin.none hA).2.subset hlabel))

/-! ### The faults of a pitch (R14, R16) -/

/-- A pitch about the act `b`, with what the acts before and after it keep. -/
structure PitchCut (b : PitchAct) (pins : PitchPins) (order : List PitchAct) (s v : State) : Prop where
  before : Keeps { Scope.acts with outK := b != .atK } (pitchStart pins s) v
  after : Keeps Scope.acts (pitchAct s.run.state s.gate.decision pins v b) (forwardPitch pins order s)
  noneBefore : ∀ pos, pos ≠ 0 → (∀ f ∈ (pitchStart pins s).track.entries, f.position ≠ pos) →
    ∀ f ∈ v.track.entries, f.position ≠ pos
  noneAfter : ∀ pos, pos ≠ 0 →
    (∀ f ∈ (pitchAct s.run.state s.gate.decision pins v b).track.entries, f.position ≠ pos) →
    ∀ f ∈ (forwardPitch pins order s).track.entries, f.position ≠ pos

theorem pitch_cut (b : PitchAct) (order : List PitchAct) (hg : GateAndBanks s) (hf : frozen s = false) :
    ∃ v, PitchCut b pins order s v := by
  obtain ⟨l, m, _, hl, hm, hn, hend⟩ := pitchEnd_split pins order s b
  obtain ⟨kv, hiv⟩ := keeps_takeActs (o := { Scope.acts with outK := b != .atK }) (rs := s.run.state) (pins := pins)
    (m := b :: m) (l := l) rfl rfl (fun a => Bool.noConfusion a) (by
      by_cases h : b = .atK
      · exact .inr (h ▸ hl)
      · exact .inl (by simpa using h)) _ hn (infeedReady_pitchStart (pins := pins) hg _)
  have hn' : (b :: m).Nodup := (List.nodup_append.1 hn).2.1
  obtain ⟨km, _⟩ := keeps_takeActs (o := Scope.acts) (m := []) (l := m) (rs := s.run.state) (pins := pins) rfl rfl
    (fun a => Bool.noConfusion a) (.inl rfl) _ (by simpa using (List.nodup_cons.1 hn').2)
    (by simpa using infeedReady_act (rs := s.run.state) (pins := pins) hn' hiv)
  have htail := forwardPitch_moving (pins := pins) order hf
  rw [hend] at htail
  refine ⟨_, kv, ?_, fun pos h0 => acts_noneAt h0 l _, fun pos h0 h => ?_⟩
  · rw [htail]; exact km.trans keeps_pitchTail
  · rw [htail]
    exact (keeps_pitchTail (o := Scope.actsNoJoin)).noneAt rfl (acts_noneAt h0 m _ h)

theorem PitchCut.geometry (h : PitchCut b pins order s v) : v.track.geometry = s.track.geometry :=
  (h.before.pit rfl).geometry.trans (by simp)

theorem PitchCut.lstop {order : List PitchAct} (h : PitchCut b pins order s v) (hl : LstopFollows s) : LstopFollows v :=
  h.before.lstop (by rw [LstopFollows, pitchStart_run]; exact hl)

theorem PitchCut.faultFor {order : List PitchAct} {c : Cause} (h : PitchCut b pins order s v)
    (hf : FaultFor c (pitchAct s.run.state s.gate.decision pins v b)) : FaultFor c (forwardPitch pins order s) :=
  h.after.faultFor rfl rfl hf

/-- A jar for a pocket closed to admission (R14). -/
theorem infeed_stray (hd : d ≠ .admitJar) (ht : tracking rs = true) (hj : pins.jarIn = true) :
    ∃ u, pitchAct rs d pins s .infeed = raiseCause .strayJar u ∧ (LstopFollows s → LstopFollows u) := by
  cases d with
  | admitJar => exact absurd rfl hd
  | gap =>
    exact ⟨{ s with gate.gapCount := s.gate.gapCount - 1 }, by
      simp only [pitchAct, actAtInfeed, ht, hj, Bool.and_self, if_true], id⟩
  | closed => exact ⟨_, by simp only [pitchAct, actAtInfeed, ht, hj, Bool.and_self, if_true], id⟩

/-- A jar at JAR_CHK with no entry at k (R16). -/
theorem atK_stray (hn : entryAt s.track.geometry.k s = none) (ht : tracking rs = true) (hj : pins.jarChk = true) :
    pitchAct rs d pins s .atK = raiseCause .strayJar s := by
  simp only [pitchAct, actAtK, hn, ht, hj, if_true]

/-- An entry at k with no jar at JAR_CHK (R16). -/
theorem atK_missing (hs : entryAt s.track.geometry.k s = some e) (ht : tracking rs = true) (hj : pins.jarChk = false) :
    pitchAct rs d pins s .atK = raiseCause .jarMissing (depart .missing e s) := by
  simp only [pitchAct, actAtK, hs, ht, hj, Bool.not_false, Bool.and_self, if_true]

end Sys2Proof.Machine

namespace Sys2Proof.Proofs

open Sys2Proof.Machine

/-- Settles O5: the entries by the acts of the pitch, and the deadlines by the acts before and after them. -/
theorem entriesAdvanceByOne : Obligations.EntriesAdvanceByOne := by
  intro pins order s hrun hf hg hgeo due
  obtain ⟨⟨ex, hex, hnone⟩, hdue, hquiet⟩ := forwardPitch_deadlines (pins := pins) order hg hf hgeo
  refine ⟨_, exec_forwardPitch order hrun, fun e he hk hj => forwardPitch_remain order hg hf he hk hj,
    fun c hc hd => ?_, fun h => ?_, hdue, hquiet, fun f hm => forwardPitch_origin order hg hf hm⟩
  · rw [hex]
    exact List.mem_append_left _ (List.mem_filter.2 ⟨hc, bne_iff_ne.2 hd⟩)
  · rw [hex, hnone h, List.append_nil]

/-- Settles O8: the act at the infeed, or that at k, raises the cause, and the acts after it leave FAULT standing. -/
theorem strayJarFaults : Obligations.StrayJarFaults := by
  intro pins order s hrun hf hg hlstop ht hstray hgeo
  refine ⟨_, exec_forwardPitch order hrun, ?_, fun h => forwardPitch_nextJar order hg hf (.inl h)⟩
  rcases hstray with ⟨hd, hj⟩ | ⟨hj, hnone⟩
  · obtain ⟨v, cut⟩ := pitch_cut (pins := pins) .infeed order hg hf
    obtain ⟨u, hu, hlu⟩ := infeed_stray (s := v) hd ht hj
    exact cut.faultFor (hu ▸ raiseCause_faultFor (hlu (cut.lstop hlstop)))
  · obtain ⟨v, cut⟩ := pitch_cut (pins := pins) .atK order hg hf
    have hk0 : s.track.geometry.k ≠ 0 := by have := (geometryOk_iff _).1 hgeo; omega
    have hat : entryAt v.track.geometry.k v = none := by
      rw [cut.geometry]
      exact entryAt_none_iff.2 (cut.noneBefore _ hk0 (pitchStart_noneAt hnone))
    exact cut.faultFor (atK_stray (d := s.gate.decision) hat ht hj ▸ raiseCause_faultFor (cut.lstop hlstop))

/-- Settles O9: the entry is still at k when its act comes, which takes it off the Track and raises the cause. -/
theorem missingJarDeparts : Obligations.MissingJarDeparts := by
  intro pins order s e hrun hf hg hlstop hgeo ht he hp hj
  have hgo := (geometryOk_iff _).1 hgeo
  obtain ⟨v, cut⟩ := pitch_cut (pins := pins) .atK order hg hf
  obtain ⟨f, hfm, hfl⟩ := (cut.before.pit rfl).remain e.moved (by simpa using ⟨e, he, rfl⟩) (fun a => Bool.noConfusion a)
    (by rw [pitchStart_track]; change e.position + 1 ≠ s.track.geometry.j; omega)
  have hfp : f.position = v.track.geometry.k := by
    rw [cut.geometry, ← hp]
    exact congrArg Label.position hfl
  obtain ⟨g, hg'⟩ : ∃ g, entryAt v.track.geometry.k v = some g := by
    refine Option.ne_none_iff_exists'.1 fun hn => ?_
    exact entryAt_none hn f hfm hfp
  have hact := atK_missing (d := s.gate.decision) hg' ht hj
  refine ⟨_, exec_forwardPitch order hrun, cut.faultFor ?_, cut.noneAfter _ (by omega) ?_⟩
  · rw [hact]
    have k : Keeps Scope.acts v (depart .missing g v) :=
      keeps_depart _ _ (entryAt_mem hg') (fun _ => .inl ⟨rfl, entryAt_position hg'⟩)
    exact raiseCause_faultFor (k.lstop (cut.lstop hlstop))
  · rw [hact, ← cut.geometry, ← entryAt_position hg']
    exact (keeps_raiseCause (o := Scope.actsNoJoin) .jarMissing).noneAt rfl (depart_position .missing g v)

end Sys2Proof.Proofs
end

