-- ==== Sys2Proof/Proofs/Check.lean ====
section
/-! PROOFS. The check of a jar: what it writes into the entry, and what it hands to the Head Map, the Alert Latch and
the Capture Unit (R67, R68, R120, R124 to R129, R154). -/

-- One declaration is checked after another: side by side they take more threads than the memory limit allows.
set_option Elab.async false

namespace Sys2Proof.Machine

variable {s t u v w : State} {pins : PitchPins} {e f : Entry} {p r : Head} {c : FinalClass} {k j : JarFlag}

/-! ### The verdict (R121 to R128) -/

theorem has_addIf (v : JarFlags) (b : Bool) (k j : JarFlag) : (v.addIf b k).has j = (v.has j || b && decide (k = j)) := by
  unfold JarFlags.addIf
  by_cases h : k = j
  · subst h
    cases b <;> simp [has_add_same]
  · cases b <;> simp [h, has_add_other h]

/-- The zero is stale, and the filling too cold, as the check finds them (R118, R126). -/
def coldJar (s : State) (e : Entry) : Bool := coldFill e.fillTemp (recipeOf e.bank s).tMin

theorem coldJar_iff : coldJar s e = true ↔ ∃ t, e.fillTemp = some t ∧ t < (recipeOf e.bank s).tMin := by
  unfold coldJar coldFill
  cases e.fillTemp <;> simp

/-- The required deflection of a jar sealed at `t` (R123 to R125). -/
def dReqOf (s : State) (e : Entry) (sealed : Word32) : Nat :=
  let r := recipeOf e.bank s
  requiredDeflection r.dFull (tempFactor e.fillTemp r.tAmb r.tRef)
    (coolingFactor (min (s.timeBase - sealed).toNat 65535) r.tau)

theorem verdict_d (defl : Nat) (s : State) (e : Entry) :
    (verdict defl s e).d = some (deflection defl s.check.z (recipeOf e.bank s).gain) := by
  unfold verdict judge
  simp only
  split <;> rfl

theorem verdict_unsealed (defl : Nat) (h : e.sealTime = none) : (verdict defl s e).dReq = some 0
    ∧ (verdict defl s e).dt = e.dt ∧ (verdict defl s e).flags.has .dtClamped = e.flags.has .dtClamped
    ∧ (verdict defl s e).finalClass = e.capClass.bind CapClass.final := by
  unfold verdict judge
  simp only [h]
  exact ⟨trivial, trivial, by simp [has_addIf], trivial⟩

theorem verdict_sealed (defl : Nat) {sealed : Word32} (h : e.sealTime = some sealed) :
    (verdict defl s e).dReq = some (dReqOf s e sealed)
      ∧ (verdict defl s e).dt = some (min (s.timeBase - sealed).toNat 65535)
      ∧ (verdict defl s e).flags.has .dtClamped
        = (e.flags.has .dtClamped || decide (65535 < (s.timeBase - sealed).toNat))
      ∧ (verdict defl s e).finalClass = e.capClass.map (fun c => (CapClass.final c).getD
          (vacuumClass (deflection defl s.check.z (recipeOf e.bank s).gain) (recipeOf e.bank s).bulgeLimit
            (zeroIsStale s || coldJar s e) (dudThreshold (dReqOf s e sealed) (recipeOf e.bank s).dudFraction)
            (dReqOf s e sealed))) := by
  unfold verdict judge
  simp only [h]
  exact ⟨rfl, rfl, (has_addIf _ _ _ _).trans (by simp [has_addIf]; rfl), rfl⟩

theorem verdict_marks (defl : Nat) (s : State) (e : Entry) :
    (verdict defl s e).flags.has .zeroStale = (e.flags.has .zeroStale || zeroIsStale s)
      ∧ (verdict defl s e).flags.has .coldFill = (e.flags.has .coldFill || coldJar s e) := by
  unfold verdict judge coldJar
  simp only
  split <;> exact ⟨by simp [has_addIf], by simp [has_addIf]⟩

/-- The class of Table 8-3, row by row. -/
theorem vacuumClass_rows (d : Int) (bulge : Nat) (uncertain : Bool) (dDud dReq : Nat) :
    (d < -(bulge : Int) → vacuumClass d bulge uncertain dDud dReq = .bulge)
      ∧ (-(bulge : Int) ≤ d → uncertain = true → vacuumClass d bulge uncertain dDud dReq = .unverified)
      ∧ (-(bulge : Int) ≤ d → uncertain = false → (d < dDud → vacuumClass d bulge uncertain dDud dReq = .dud)
        ∧ (dDud ≤ d → d < dReq → vacuumClass d bulge uncertain dDud dReq = .lowVacuum)
        ∧ ((dDud : Int) ≤ d → (dReq : Int) ≤ d → vacuumClass d bulge uncertain dDud dReq = .good)) := by
  unfold vacuumClass
  refine ⟨fun h => if_pos h, fun h hu => ?_, fun h hu => ⟨fun h1 => ?_, fun h1 h2 => ?_, fun h1 h2 => ?_⟩⟩
  · rw [if_neg (by omega), if_pos hu]
  · rw [if_neg (by omega), if_neg (by simp [hu]), if_pos h1]
  · rw [if_neg (by omega), if_neg (by simp [hu]), if_neg (by omega), if_pos h2]
  · rw [if_neg (by omega), if_neg (by simp [hu]), if_neg (by omega), if_neg (by omega)]

/-! ### The hand-over (R67, R68, R129, R154) -/

/-- Whether the class of a jar marks its head out (R68, Table 4-4). -/
def marksOut (p : Head) (c : FinalClass) (limit : Nat) (hs : Vector HeadRecord 18) : Bool :=
  countsAsFailure c && limit != 0 && decide (limit ≤ satInc 255 hs[p].failures) && hs[p].service == .inService

theorem marksOut_iff (limit : Nat) (hs : Vector HeadRecord 18) : marksOut p c limit hs = true ↔
    countsAsFailure c = true ∧ limit ≠ 0 ∧ limit ≤ satInc 255 hs[p].failures ∧ hs[p].service = .inService := by
  unfold marksOut
  simp only [Bool.and_eq_true, bne_iff_ne, decide_eq_true_eq, beq_iff_eq, and_assoc]

/-- The record of a head after it has taken a class, before a mark-out. -/
def tallied (c : FinalClass) (h : HeadRecord) : HeadRecord :=
  { h with failures := failureEffect c h.failures, riseOpen := if countsAsFailure c then false else h.riseOpen }

theorem failureEffect_counts (h : countsAsFailure c = true) (n : Nat) : failureEffect c n = satInc 255 n := by
  cases c <;> simp [countsAsFailure] at h <;> rfl

theorem headTakesClass_eq (p : Head) (c : FinalClass) (s : State) : headTakesClass p c s
    = if marksOut p c s.params.failLimit s.heads then markOut p .failures (modHead p (tallied c) s)
      else modHead p (tallied c) s := by
  unfold headTakesClass
  simp only
  cases hc : countsAsFailure c with
  | false =>
    have : tallied c = fun h => { h with failures := failureEffect c h.failures, riseOpen := h.riseOpen || false } := by
      funext h
      simp [tallied, hc]
    simp [marksOut, hc, this]
  | true =>
    have hrise : (modHead p (fun h => { h with failures := failureEffect c h.failures, riseOpen := h.riseOpen || true })
        s).heads[p].riseOpen = true := by rw [heads_modHead_same]; simp
    have htally : (fun h : HeadRecord => { { h with
        failures := failureEffect c h.failures, riseOpen := h.riseOpen || true } with riseOpen := false }) = tallied c := by
      funext h
      simp [tallied, hc]
    simp only [if_true]
    unfold autoMarkOut
    rw [if_pos hrise]
    simp only [modHead_modHead, htally, heads_modHead_same]
    simp only [marksOut, hc, Bool.true_and, failureEffect_counts hc]
    rfl

theorem latch_latchAlert (k j : AlertKind) (s : State) :
    (latchAlert k s).alerts.latch[alertIx j] = (s.alerts.latch[alertIx j] || decide (k = j)) := by
  rw [latchAlert_alerts]
  by_cases h : k = j
  · subst h
    simp
  · simp only [h, decide_false, Bool.or_false]
    exact latch_other _ h

theorem setHold_latch (r : HoldReason) (b : Bool) {k : AlertKind} (hk : k ≠ .holdEntered) :
    (setHold r b s).alerts.latch[alertIx k] = s.alerts.latch[alertIx k] := by
  unfold setHold enterHold
  simp only
  split
  · rw [latch_latchAlert]
    simp [hk.symm]
  · split <;> rfl

theorem curvesLost_leaveScan (r : Head) (s : State) : CurvesLost s (leaveScan r s) :=
  curvesLost_displaceFetch r (modLine r _ s)

/-- A mark-out for failures, seen from the check (R68): the service state, its alert, and a curve that may be lost. -/
theorem markOut_effects (r : Head) (s : State) :
    (markOut r .failures s).heads = s.heads.set r { s.heads[r] with service := .markedOut .failures }
      ∧ (markOut r .failures s).capture = s.capture
      ∧ (∀ k, k ≠ .holdEntered → (markOut r .failures s).alerts.latch[alertIx k]
        = (s.alerts.latch[alertIx k] || decide (AlertKind.headMarked = k)))
      ∧ CurvesLost s (markOut r .failures s) := by
  have hchange : LinesAndEntries (markedForFailures r s) (serviceChanged r (markedForFailures r s))
      ∧ CurvesLost s (serviceChanged r (markedForFailures r s)) := by
    rw [serviceChanged_failures (congrArg HeadRecord.service (markedForFailures_same r s))]
    split
    · exact ⟨.refl _, .refl s⟩
    · exact ⟨linesAndEntries_leaveScan _ _, curvesLost_leaveScan r (markedForFailures r s)⟩
  obtain ⟨hframe, hlost⟩ := hchange
  rw [markOut_eq]
  unfold updateFewHeads
  generalize serviceChanged r (markedForFailures r s) = u at *
  have hset := setHold_frame .fewHeads (decide (inServiceCount u.heads < u.params.minHeads)) u
  refine ⟨?_, ?_, fun k hk => ?_, ?_⟩
  · rw [remakeDecision_heads, hset, hframe]; rfl
  · rw [remakeDecision_capture, hset, hframe]; rfl
  · rw [remakeDecision_alerts, setHold_latch _ _ hk, hframe]
    exact latch_latchAlert .headMarked k s
  · unfold CurvesLost
    rw [remakeDecision_track, hset]
    exact hlost

/-- The capture unit is triggered by the class (R154). -/
def triggers (c : FinalClass) (x : Capture) : Bool := x.state == .armed && x.trigger == (classIx c).val + 1

theorem captureSees_eq (c : FinalClass) (s : State) : captureSees c s = if triggers c s.capture then
    if s.capture.post == 0 then freezeCapture s
    else { s with capture.state := .triggered, capture.remaining := s.capture.post }
  else s := rfl

/-- The alerts that the hand-over of a class latches, beside one of an entry to HOLD. -/
def handAlert (p : Head) (c : FinalClass) (b : Bool) (s : State) : AlertKind → Bool
  | .headMarked => marksOut p c s.params.failLimit s.heads
  | .classAlert => b
  | .captureFrozen => triggers c s.capture && s.capture.post == 0
  | _ => false

/-- What the hand-over of the class `c` of a jar of head `p` does to the Head Map, the Capture Unit and the alerts
(R67, R68, R129, R154). -/
structure HandedOn (p : Head) (c : FinalClass) (b : Bool) (s t : State) : Prop where
  heads : t.heads = s.heads.set p (if marksOut p c s.params.failLimit s.heads
    then { tallied c s.heads[p] with service := .markedOut .failures } else tallied c s.heads[p])
  capture : t.capture = if triggers c s.capture then
      if s.capture.post == 0 then { s.capture with state := .frozen }
      else { s.capture with state := .triggered, remaining := s.capture.post }
    else s.capture
  latches : ∀ k, k ≠ .holdEntered →
    t.alerts.latch[alertIx k] = (s.alerts.latch[alertIx k] || handAlert p c b s k)

theorem headTakesClass_effects (p : Head) (c : FinalClass) (s : State) :
    (headTakesClass p c s).heads = s.heads.set p (if marksOut p c s.params.failLimit s.heads
        then { tallied c s.heads[p] with service := .markedOut .failures } else tallied c s.heads[p])
      ∧ (headTakesClass p c s).capture = s.capture
      ∧ (∀ k, k ≠ .holdEntered → (headTakesClass p c s).alerts.latch[alertIx k] = (s.alerts.latch[alertIx k]
        || marksOut p c s.params.failLimit s.heads && decide (AlertKind.headMarked = k)))
      ∧ CurvesLost s (headTakesClass p c s) := by
  rw [headTakesClass_eq]
  cases marksOut p c s.params.failLimit s.heads with
  | false => exact ⟨rfl, rfl, fun k _ => (Bool.or_false _).symm, .refl s⟩
  | true =>
    obtain ⟨h1, h2, h3, h4⟩ := markOut_effects p (modHead p (tallied c) s)
    refine ⟨h1.trans ?_, h2, h3, h4⟩
    rw [heads_modHead_same, modHead_heads, Vector.set_set]
    rfl

theorem handedOn (p : Head) (c : FinalClass) (b : Bool) (s : State) :
    HandedOn p c b s (handOn p c b s) ∧ CurvesLost s (handOn p c b s) := by
  obtain ⟨h1, h2, h3, h4⟩ := headTakesClass_effects p c s
  unfold handOn
  generalize headTakesClass p c s = u at *
  have hu : ∃ w, w = (if b then latchAlert .classAlert u else u) ∧ w.heads = u.heads ∧ w.capture = s.capture
      ∧ w.track = u.track ∧ ∀ k, w.alerts.latch[alertIx k]
        = (u.alerts.latch[alertIx k] || b && decide (AlertKind.classAlert = k)) := by
    refine ⟨_, rfl, ?_⟩
    cases b with
    | false => exact ⟨rfl, h2, rfl, fun k => (Bool.or_false _).symm⟩
    | true => exact ⟨rfl, h2, rfl, fun k => latch_latchAlert _ k u⟩
  obtain ⟨w, hw, hheads, hcap, htrack, hlatch⟩ := hu
  rw [← hw]
  have hlost : CurvesLost s w := by unfold CurvesLost; rw [htrack]; exact h4
  rw [captureSees_eq, hcap]
  have hor (k : AlertKind) (hk : k ≠ .holdEntered) : w.alerts.latch[alertIx k] = (s.alerts.latch[alertIx k]
      || (marksOut p c s.params.failLimit s.heads && decide (AlertKind.headMarked = k)
        || b && decide (AlertKind.classAlert = k))) := by rw [hlatch, h3 k hk, Bool.or_assoc]
  by_cases ht : triggers c s.capture = true
  · rw [if_pos ht]
    by_cases hpost : (s.capture.post == 0) = true
    · rw [if_pos hpost]
      refine ⟨⟨hheads.trans h1, by rw [if_pos ht, if_pos hpost, ← hcap]; rfl, fun k hk => ?_⟩, hlost⟩
      refine (latch_latchAlert .captureFrozen k { w with capture.state := .frozen }).trans ?_
      change (w.alerts.latch[alertIx k] || _) = _
      rw [hor k hk]
      cases k <;> simp [handAlert, ht, hpost] at hk ⊢
    · rw [if_neg hpost]
      refine ⟨⟨hheads.trans h1, by rw [if_pos ht, if_neg hpost], fun k hk => ?_⟩, hlost⟩
      refine (hor k hk).trans ?_
      cases k <;> simp [handAlert, hpost] at hk ⊢
  · rw [if_neg (by exact ht)]
    refine ⟨⟨hheads.trans h1, by rw [if_neg ht]; exact hcap, fun k hk => ?_⟩, hlost⟩
    refine (hor k hk).trans ?_
    cases k <;> simp [handAlert, ht] at hk ⊢

/-- The check of a jar with a class to be: its hand-over, and its entry. -/
theorem checkJar_done (defl : Nat) (he : e ∈ s.track.entries) (hc : (verdict defl s e).finalClass = some c) :
    HandedOn e.pocket c s.dispTable[classIx c].alert s (checkJar defl e s)
      ∧ ∃ f ∈ (checkJar defl e s).track.entries, MayLose ((verdict defl s e).assigned s.dispTable[classIx c]) f := by
  rw [checkJar_eq defl hc]
  have hm := mem_modEntry (j := e.jar) (F := fun g => (verdict defl s g).assigned s.dispTable[classIx c]) he
  rw [if_pos (beq_self_eq_true _)] at hm
  obtain ⟨h, hlost⟩ := handedOn e.pocket c s.dispTable[classIx c].alert
    (modEntry e.jar (fun g => (verdict defl s g).assigned s.dispTable[classIx c]) s)
  exact ⟨⟨h.heads, h.capture, h.latches⟩, hlost _ hm⟩

theorem final_of_ne {cc : CapClass} (h : cc ≠ .cappedOk) : ∃ c, cc.final = some c := by
  cases cc <;> simp [CapClass.final] at h ⊢

/-- The class of a timed jar is that of its capping class, and of CAPPED_OK the vacuum class (R127, R128). -/
theorem verdict_class (defl : Nat) (s : State) {cc : CapClass} (hcc : e.capClass = some cc)
    (ht : cc = .cappedOk → e.sealTime ≠ none) : ∃ c, (verdict defl s e).finalClass = some c
      ∧ (cc ≠ .cappedOk → cc.final = some c)
      ∧ ∀ sealed, e.sealTime = some sealed → cc = .cappedOk →
        c = vacuumClass (deflection defl s.check.z (recipeOf e.bank s).gain) (recipeOf e.bank s).bulgeLimit
            (zeroIsStale s || coldJar s e) (dudThreshold (dReqOf s e sealed) (recipeOf e.bank s).dudFraction)
            (dReqOf s e sealed) := by
  cases hs : e.sealTime with
  | none =>
    have hne : cc ≠ .cappedOk := fun h => ht h hs
    obtain ⟨c, hc⟩ := final_of_ne hne
    exact ⟨c, by rw [(verdict_unsealed defl hs).2.2.2, hcc]; exact hc, fun _ => hc, fun _ a => nomatch a⟩
  | some sealed =>
    have hv := (verdict_sealed (s := s) defl hs).2.2.2
    rw [hcc, Option.map_some] at hv
    refine ⟨_, hv, fun hne => ?_, fun x hx hok => ?_⟩
    · obtain ⟨c, hc⟩ := final_of_ne hne
      rw [hc]
      rfl
    · cases hx
      subst hok
      rfl

/-- The three groups of Table 4-4. -/
theorem tallied_rows (c : FinalClass) (h : HeadRecord) :
    (c = .good ∨ c = .lowVacuum → countsAsFailure c = false ∧ tallied c h = { h with failures := 0 })
      ∧ (c = .noCap ∨ c = .headFault ∨ c = .interrupted ∨ c = .bulge ∨ c = .unverified →
        countsAsFailure c = false ∧ tallied c h = h)
      ∧ (c = .dud ∨ c = .crossThread ∨ c = .overTorque ∨ c = .underTorque ∨ c = .angleOut ∨ c = .steamLow →
        countsAsFailure c = true
          ∧ tallied c h = { h with failures := satInc 255 h.failures, riseOpen := false }) := by
  cases c <;> simp [countsAsFailure, tallied, failureEffect]

/-- What the hand-over leaves in the Head Record of the jar's head (R67, R68, Table 4-4). -/
theorem HandedOn.tally {b : Bool} (h : HandedOn p c b s t) :
    (c = .good ∨ c = .lowVacuum → t.heads = s.heads.set p { s.heads[p] with failures := 0 })
      ∧ (c = .noCap ∨ c = .headFault ∨ c = .interrupted ∨ c = .bulge ∨ c = .unverified → t.heads = s.heads)
      ∧ (c = .dud ∨ c = .crossThread ∨ c = .overTorque ∨ c = .underTorque ∨ c = .angleOut ∨ c = .steamLow →
        t.heads[p].failures = satInc 255 s.heads[p].failures ∧ t.heads = s.heads.set p t.heads[p]
          ∧ t.heads[p].noReplies = s.heads[p].noReplies ∧ t.heads[p].stats = s.heads[p].stats
          ∧ (s.params.failLimit = 0 ∨ t.heads[p].failures < s.params.failLimit ∨ s.heads[p].service ≠ .inService →
            t.heads[p].service = s.heads[p].service
              ∧ t.alerts.latch[alertIx .headMarked] = s.alerts.latch[alertIx .headMarked])
          ∧ (s.params.failLimit ≠ 0 → s.params.failLimit ≤ t.heads[p].failures → s.heads[p].service = .inService →
            t.heads[p].service = .markedOut .failures ∧ t.alerts.latch[alertIx .headMarked] = true)) := by
  obtain ⟨hgood, hother, hfail⟩ := tallied_rows c s.heads[p]
  have hheads := h.heads
  have hlatch := h.latches .headMarked (by decide)
  refine ⟨fun hc => ?_, fun hc => ?_, fun hc => ?_⟩
  · rw [hheads, (hgood hc).2]
    simp [marksOut, (hgood hc).1]
  · rw [hheads, (hother hc).2]
    simp [marksOut, (hother hc).1]
  · obtain ⟨hcount, htally⟩ := hfail hc
    rw [htally] at hheads
    have hat : t.heads[p] = if marksOut p c s.params.failLimit s.heads
        then { s.heads[p] with failures := satInc 255 s.heads[p].failures, riseOpen := false,
                               service := .markedOut .failures }
        else { s.heads[p] with failures := satInc 255 s.heads[p].failures, riseOpen := false } := by
      rw [hheads]
      simp
    have hf : t.heads[p].failures = satInc 255 s.heads[p].failures := by rw [hat]; split <;> rfl
    refine ⟨hf, ?_, by rw [hat]; split <;> rfl, by rw [hat]; split <;> rfl, fun hno => ?_, fun h1 h2 h3 => ?_⟩
    · rw [hat]
      exact hheads
    · have hm : marksOut p c s.params.failLimit s.heads = false := by
        rw [← Bool.not_eq_true, marksOut_iff, ← hf]
        rintro ⟨_, h1, h2, h3⟩
        exact hno.elim h1 fun a => a.elim (Nat.not_lt_of_le h2) fun b => b h3
      rw [hat, hlatch]
      simp [handAlert, hm]
    · have hm : marksOut p c s.params.failLimit s.heads = true :=
        (marksOut_iff _ _).2 ⟨hcount, h1, hf ▸ h2, h3⟩
      rw [hat, hlatch]
      simp [handAlert, hm]

/-! ### A jar as the act of its station finds it -/

theorem nextJar_ne (hd : JarsDistinct s) (he : e ∈ s.track.entries) : s.track.nextJar ≠ e.jar := fun h => by
  have := (hd.2.2 e he).2.1
  simp [jarAge, h] at this

theorem eq_of_jar_eq (hd : JarsDistinct s) (he : e ∈ s.track.entries) (hf : f ∈ s.track.entries) (h : f.jar = e.jar) :
    f = e := by
  have : Std.Symm (fun e f : Entry => e.jar ≠ f.jar) := ⟨fun _ _ h => h.symm⟩
  by_contra hne
  exact (jarsDistinct_pairwise hd).forall hf he hne h

theorem placed_pitchStart (hd : JarsDistinct s) (he : e ∈ s.track.entries) :
    Placed e.jar (e.position + 1) (pitchStart pins s) := by
  rw [Placed, pitchStart_track]
  refine ⟨⟨_, List.mem_map_of_mem he, rfl⟩, fun f hf hj => ?_⟩
  obtain ⟨g, hg, rfl⟩ := List.mem_map.1 hf
  rw [eq_of_jar_eq hd he hg hj]
  rfl

/-- No two acts serve one position (Table 1-9). -/
theorem actPlace_other {g : Geometry} (hg : GeometryOk g) {a b : PitchAct} (h : a ≠ b) (hb : actPlace g b = some q) :
    actPlace g a ≠ some q := by
  have := (geometryOk_iff g).1 hg
  intro ha
  cases a <;> cases b <;> simp [actPlace] at ha hb h <;> omega

/-- A jar that comes to the station of the act `b` is there when the act is taken. -/
theorem pitch_at {b : PitchAct} (n : Bool) (order : List PitchAct) (hg : GateAndBanks s)
    (hgeo : GeometryOk s.track.geometry) (hpos : PositionsFall s) (hcounts : CountsMatch s) (hd : JarsDistinct s)
    (he : e ∈ s.track.entries) (hb : actPlace s.track.geometry b = some (e.position + 1))
    (hline : n = true → Alone e.jar (e.position + 1) e.pocket (pitchStart pins s) ∧ s.track.pocket + 1 ≠ e.pocket)
    (hstand : ∀ v, (pitchAct s.run.state s.gate.decision pins v b).track.entries.map Entry.label
        = v.track.entries.map Entry.label
      ∧ (pitchAct s.run.state s.gate.decision pins v b).track.geometry = v.track.geometry) :
    ∃ v l f, PitchAbout b true n e.jar (e.position + 1) e.pocket pins order s v l ∧ f ∈ v.track.entries
      ∧ Aside (pitchStart pins s) v e.moved f ∧ entryAt (e.position + 1) v = some f
      ∧ v.track.geometry = s.track.geometry := by
  have hplaced := placed_pitchStart (pins := pins) hd he
  obtain ⟨v, l, h⟩ := pitch_about (pins := pins) (b := b) (j := true) (n := n) (jar := e.jar) (q := e.position + 1)
    (p := e.pocket) order hg (fun _ => hgeo)
    (fun _ => ⟨hplaced, fun a ha => actPlace_other hgeo ha hb, nextJar_ne hd he⟩)
    (fun hn => ⟨rfl, hline hn⟩) (fun v _ => placed_of_labels (hstand v).1)
    (fun v _ => alone_of_sublist (by rw [(hstand v).1]) (hstand v).2)
  obtain ⟨f, hf, hef⟩ := h.before.entry rfl hplaced e.moved (by simpa using ⟨e, he, rfl⟩) rfl
  have hvpos := (h.before.keeps.track ((pitchStart_keeps.track) ⟨hpos, hcounts⟩)).1
  refine ⟨v, l, f, h, hf, hef, ?_, h.before.keeps.geometryTurn.trans (by simp)⟩
  rw [← show f.position = e.position + 1 from hef.position]
  exact entryAt_eq hvpos hf

/-- An advance with other pin levels differs in them only. -/
theorem pitchStart_inputs (pins : PitchPins) (s : State) :
    pitchStart pins s = { atStations s with inputs := (samplePitch pins s).inputs } := by
  have hzero (t : State) (i : Inputs) : zeroPitch { t with inputs := i } = { zeroPitch t with inputs := i } := by
    unfold zeroPitch zeroStaleTest
    simp only [if_true]
    split
    · rename_i h
      rw [if_pos (by exact h)]
      rfl
    · rename_i h
      rw [if_neg (by exact h)]
  unfold pitchStart atStations
  change (if tracking s.run.state then zeroPitch { advance (countPitch s) with inputs := _ } else _) = _
  split
  · exact hzero _ _
  · rfl

theorem eq_of_core (hcore : f.core = e.core) : f = { e with bank := f.bank, capClass := f.capClass, flags := f.flags } := by
  cases e
  cases f
  simp only [Entry.core, Entry.mk.injEq] at hcore ⊢
  simpa using hcore

/-- An entry that an operation had no work at keeps all but its bank, capping class and flags. -/
theorem Aside.eq (h : Aside s t e f) : f = { e with bank := f.bank, capClass := f.capClass, flags := f.flags } :=
  eq_of_core h.core

/-! ### The check taken by a pitch (R15, R16, R120) -/

/-- The check has found the same of two entries. -/
structure JudgedAlike (e f : Entry) : Prop where
  d : f.d = e.d
  dReq : f.dReq = e.dReq
  dt : f.dt = e.dt
  finalClass : f.finalClass = e.finalClass
  flags : ∀ k, k = .zeroStale ∨ k = .coldFill ∨ k = .dtClamped → f.flags.has k = e.flags.has k

/-- The check finds the same of a jar that other stations of the pitch have been beside. -/
theorem verdict_alike (defl : Nat) (h : Aside s v e f) (hcap : f.capClass = e.capClass)
    (hrec : recipeOf f.bank v = recipeOf e.bank u) (htime : v.timeBase = u.timeBase) (hcheck : v.check = u.check)
    (hparams : v.params = u.params) : JudgedAlike (verdict defl u e) (verdict defl v f) := by
  have hflag (k : JarFlag) (hk : k = .zeroStale ∨ k = .coldFill ∨ k = .dtClamped) : f.flags.has k = e.flags.has k :=
    h.flags k (by rcases hk with rfl | rfl | rfl <;> decide) (by rcases hk with rfl | rfl | rfl <;> decide)
  have hseal : f.sealTime = e.sealTime := by rw [h.eq]
  have hfill : f.fillTemp = e.fillTemp := by rw [h.eq]
  have hdt : f.dt = e.dt := by rw [h.eq]
  unfold verdict judge zeroIsStale
  simp only [hseal, hfill, hcap, hrec, htime, hcheck, hparams]
  split
  · exact ⟨rfl, rfl, hdt, rfl, fun k hk => by simp only [has_addIf, hflag k hk]⟩
  · exact ⟨rfl, rfl, rfl, rfl, fun k hk => by simp only [has_addIf, hflag k hk]⟩

theorem checkJar_labels (defl : Nat) (e : Entry) (s : State) :
    (checkJar defl e s).track.entries.map Entry.label = s.track.entries.map Entry.label :=
  ((beside_checkJar (o := ⟨false, false, false, false, false, true, false, false, false, false, false⟩) (jar := 0)
    (q := 0) (p := 0) (s := s) (e := e) defl (fun a => Bool.noConfusion a) rfl).bench rfl).labels

/-- Where no jar is missing, the act at k removes no entry. -/
theorem actAtK_labels {rs : RunState} (h : tracking rs = true → pins.jarChk = true) (s : State) :
    (actAtK rs pins s).track.entries.map Entry.label = s.track.entries.map Entry.label := by
  unfold actAtK
  split
  · rw [if_neg (by simpa using h)]
    exact checkJar_labels _ _ s
  · split
    · rename_i ht
      rw [if_pos (h ht)]
      exact raiseCause_labels _ s
    · rfl

/-- Where no jar is missing, the act at k checks the jar there. -/
theorem actAtK_checks {rs : RunState} (h : tracking rs = true → pins.jarChk = true)
    (hs : entryAt s.track.geometry.k s = some e) : actAtK rs pins s = checkJar pins.defl.toNat e s := by
  unfold actAtK
  simp only [hs]
  rw [if_neg (by simpa using h)]

theorem HandedOn.congr {b : Bool} {s' t' : State} (h : HandedOn p c b s t) (h' : HandedOn p c b s' t')
    (hheads : s'.heads = s.heads) (hcap : s'.capture = s.capture) (hlimit : s'.params = s.params)
    (hlatch : ∀ k, s.alerts.latch[alertIx k] = true → s'.alerts.latch[alertIx k] = true) :
    t'.heads = t.heads ∧ t'.capture = t.capture ∧ ∀ k, k ≠ .holdEntered →
      t.alerts.latch[alertIx k] = true → t'.alerts.latch[alertIx k] = true := by
  refine ⟨by rw [h.heads, h'.heads, hheads, hlimit], by rw [h.capture, h'.capture, hcap], fun k hk => ?_⟩
  have hand : handAlert p c b s' k = handAlert p c b s k := by
    unfold handAlert
    rw [hheads, hcap, hlimit]
  rw [h.latches k hk, h'.latches k hk, hand]
  simp only [Bool.or_eq_true]
  exact fun a => a.imp_left (hlatch k)

/-- A forward pitch checks the jar that comes to k. -/
theorem forwardPitch_checks {cc : CapClass} (order : List PitchAct) (hg : GateAndBanks s) (hfr : frozen s = false)
    (hgeo : GeometryOk s.track.geometry) (hpos : PositionsFall s) (hcounts : CountsMatch s) (hd : JarsDistinct s)
    (he : e ∈ s.track.entries) (hk : e.position + 1 = s.track.geometry.k) (hcc : e.capClass = some cc)
    (ht : cc = .cappedOk → e.sealTime ≠ none) (hchk : pins.jarChk = true ∨ s.run.state = .fault) :
    CheckAlike e.jar (checkJar pins.defl.toNat e.moved (atStations s)) (forwardPitch pins order s) := by
  have hjar : tracking s.run.state = true → pins.jarChk = true := fun a =>
    hchk.resolve_right fun b => by rw [b] at a; cases a
  obtain ⟨v, l, f, hat, hf, haside, hentry, hvgeo⟩ := pitch_at (pins := pins) (b := .atK) false order hg hgeo hpos
    hcounts hd he (by simp [actPlace, hk]) (fun a => Bool.noConfusion a)
    (fun v => ⟨actAtK_labels hjar v, (keeps_actAtK (o := Scope.turn) (fun _ => rfl) _ _).geometryTurn⟩)
  have hstart := pitchStart_inputs pins s
  obtain ⟨_, _, htime, _, hparams, hdisp⟩ := hat.before.keeps.fixedFields rfl
  obtain ⟨hheads, hcap⟩ := hat.before.heads rfl
  have hcheck := hat.before.check rfl
  have hrec := haside.recipe (pitchStart_keeps.track ⟨hpos, hcounts⟩)
  rw [hstart] at htime hparams hdisp hheads hcap hcheck hrec
  have hclass : f.capClass = e.capClass := haside.capClass fun _ _ => by simp [Entry.moved, hcc]
  have halike := verdict_alike pins.defl.toNat haside hclass hrec htime hcheck hparams
  have hmem : e.moved ∈ (atStations s).track.entries := by
    have : (pitchStart pins s).track = (atStations s).track := by rw [hstart]
    rw [← this, pitchStart_track]
    exact List.mem_map_of_mem he
  obtain ⟨c, hc, _⟩ := verdict_class pins.defl.toNat (atStations s) (e := e.moved) hcc ht
  obtain ⟨hand, g, hg', hgk⟩ := checkJar_done pins.defl.toNat hmem hc
  obtain ⟨handV, x, hx, hxk⟩ := checkJar_done (s := v) pins.defl.toNat hf (halike.finalClass.trans hc)
  rw [← actAtK_checks hjar (by rw [hvgeo, ← hk]; exact hentry)] at handV hx
  rw [hdisp, show f.pocket = e.moved.pocket from congrArg Label.pocket haside.label] at handV
  rw [hdisp] at hxk
  obtain ⟨hheads', hcap', hlatch'⟩ := hand.congr handV hheads hcap hparams fun k a =>
    (hat.before.keeps.pit rfl).latches k (by rw [hstart]; exact a)
  have hafter := hat.after.trans (beside_pitchTail)
  rw [forwardPitch_moving order hfr]
  obtain ⟨z, hz, hxz⟩ := hafter.entry rfl (placed_of_labels (actAtK_labels hjar v) (hat.before.placed rfl
    (placed_pitchStart hd he))) x hx (by
      rw [hxk.core]
      exact (congrArg Label.jar ((grows_verdict _ v f).label.trans haside.label)))
  refine ⟨(hafter.heads rfl).1.trans hheads', (hafter.heads rfl).2.trans hcap', fun k hk a =>
    (hafter.keeps.pit rfl).latches k (hlatch' k hk a), z, hz, g, hg', ?_⟩
  obtain ⟨h1, h2, h3, h4, h5⟩ := halike
  rw [hxz.eq, hxk.core, hgk.core]
  refine ⟨congrArg Label.jar ((grows_verdict _ v f).label.trans haside.label), congrArg Label.jar
    (grows_verdict _ _ e.moved).label, congrArg Label.position (((grows_verdict _ v f).label.trans haside.label).trans
      (grows_verdict _ _ e.moved).label.symm), h1, h2, h3, h4, rfl, rfl, rfl, fun k hk => ?_⟩
  have hl : k ≠ .traceLost := by rcases hk with rfl | rfl | rfl <;> decide
  have ha : k ≠ .afterFault := by rcases hk with rfl | rfl | rfl <;> decide
  change z.flags.has k = g.flags.has k
  rw [hxz.flags k ha hl, hxk.flags k hl, hgk.flags k hl]
  exact h5 k hk

end Sys2Proof.Machine

namespace Sys2Proof.Proofs

open Sys2Proof.Machine

/-- Settles O53: the verdict and the hand-over clause by clause, and the jar at k as the act there finds it. -/
theorem checkJudgesJar : Obligations.CheckJudgesJar := by
  refine ⟨?_, ?_⟩
  · intro pins order e cc s hrun hfr hg hgeo hpos hcounts hd he hk hcc ht hchk
    exact ⟨_, exec_forwardPitch order hrun, forwardPitch_checks order hg hfr hgeo hpos hcounts hd he hk hcc ht hchk⟩
  · intro defl e cc s he hcc ht r d stale cold t
    obtain ⟨c, hc, hnot, hvac⟩ := verdict_class defl s hcc ht
    obtain ⟨hand, f, hf, hkept⟩ := checkJar_done defl he hc
    have hlabel := hkept.label.trans (grows_verdict defl s e).label
    have hstale : zeroIsStale s = true ↔ stale := decide_eq_true_iff
    have hcold : coldJar s e = true ↔ cold := coldJar_iff
    obtain ⟨hz, hk⟩ := verdict_marks defl s e
    have hflag (k : JarFlag) (hk : k ≠ .traceLost) : f.flags.has k = (verdict defl s e).flags.has k := hkept.flags k hk
    obtain ⟨h1, h2, h3⟩ := hand.tally
    refine ⟨f, hf, c, congrArg Label.jar hlabel, congrArg Label.position hlabel, ?_, ?_, hnot, fun hs => ?_,
      fun sealed hs => ?_, ?_, ?_, ?_, ?_, ?_, fun ha => ?_, fun harm htrig => ?_, fun hno => ?_, h1, h2, h3⟩
    · rw [hkept.core]; exact verdict_d defl s e
    · rw [hkept.core]; exact hc
    · obtain ⟨u1, u2, u3, _⟩ := verdict_unsealed (s := s) defl hs
      exact ⟨by rw [hkept.core]; exact u1, by rw [hkept.core]; exact u2, (hflag _ (by decide)).trans u3⟩
    · obtain ⟨u1, u2, u3, _⟩ := verdict_sealed (s := s) defl hs
      refine ⟨by rw [hkept.core]; exact u2, by rw [hkept.core]; exact u1, ?_, fun hok => ?_⟩
      · rw [hflag _ (by decide), u3]
        simp
      · obtain ⟨v1, v2, v3⟩ := vacuumClass_rows d r.bulgeLimit (zeroIsStale s || coldJar s e)
          (dudThreshold (dReqOf s e sealed) r.dudFraction) (dReqOf s e sealed)
        rw [hvac sealed hs hok]
        refine ⟨v1, fun hd hu => v2 hd ?_, fun hd hs hcl => v3 hd ?_⟩
        · simpa [hstale, hcold] using hu
        · simp [← Bool.not_eq_true, hstale, hcold, hs, hcl]
    · rw [hflag _ (by decide), hz, Bool.or_eq_true, hstale]
    · rw [hflag _ (by decide), hk, Bool.or_eq_true, hcold]
    · rw [hkept.core]; rfl
    · rw [hkept.core]; rfl
    · rw [hkept.core]; rfl
    · rw [hand.latches _ (by decide), handAlert, ha, Bool.or_true]
    · have htr : triggers c s.capture = true := by simp [triggers, harm, htrig]
      have hcap := hand.capture
      rw [if_pos htr] at hcap
      refine ⟨fun hp => ?_, fun hp => ⟨?_, ?_⟩⟩
      · rwa [if_neg (by simp; omega)] at hcap
      · rwa [if_pos (by simp [hp])] at hcap
      · rw [hand.latches _ (by decide)]
        simp [handAlert, htr, hp]
    · refine hand.capture.trans (if_neg ?_)
      simpa [triggers, imp_iff_not_or] using hno

end Sys2Proof.Proofs
end

