-- ==== Sys2Proof/Proofs/TurretStations.lean ====
section
/-! PROOFS. The stations of the turret as functions: what the arrivals at a, e and x do to the jar, to the binding of
its head and to the line of that head (R83, R93, R94, R102, R104, R105). -/

-- One declaration is checked after another: side by side they take more threads than the memory limit allows.
set_option Elab.async false

namespace Sys2Proof.Machine

variable {s t u v : State} {e f : Entry} {p r : Head}

/-- The entry a change of its jar makes. -/
theorem mem_modEntry_same {F : Entry → Entry} (he : e ∈ s.track.entries) :
    F e ∈ (modEntry e.jar F s).track.entries := by
  have := mem_modEntry (j := e.jar) (F := F) he
  rwa [if_pos (beq_self_eq_true _)] at this

/-! ### The APPLY of a jar (R86, R94) -/

theorem linesAndEntries_placeApply (n a b c : Nat) : LinesAndEntries s (placeApply p n a b c s) := by
  have h : LinesAndEntries s (displaceFetch p (modLine p (fun l => { l with tag := s.link.lines[p].tag + 1 }) s)) :=
    (linesAndEntries_modLine _ _ _).trans (linesAndEntries_displaceFetch _ _)
  unfold placeApply
  simp only
  split
  · exact h
  · exact h.trans (linesAndEntries_modLine _ _ _)

/-- The tag rises, an open fetch is displaced, and the APPLY is in the slot unless an ABORT holds it. -/
theorem placeApply_line (n a b c : Nat) (s : State) :
    (s.link.lines[p].slot = .abort → (placeApply p n a b c s).link.lines[p]
        = { s.link.lines[p] with tag := s.link.lines[p].tag + 1, fetch := none })
      ∧ (s.link.lines[p].slot ≠ .abort → (placeApply p n a b c s).link.lines[p]
        = { s.link.lines[p] with tag := s.link.lines[p].tag + 1, fetch := none
                                 slot := .apply ⟨s.link.lines[p].tag + 1, n, a, b, c⟩ }) := by
  unfold placeApply slotHoldsAbort
  simp only
  refine ⟨fun h => ?_, fun h => ?_⟩
  · rw [if_pos (by simpa using h), lines_displaceFetch_same, lines_modLine_same]
  · rw [if_neg (by simpa using h), lines_modLine_same, lines_displaceFetch_same, lines_modLine_same]

theorem curvesLost_placeApply (n a b c : Nat) (s : State) : CurvesLost s (placeApply p n a b c s) := by
  have h := curvesLost_displaceFetch p (modLine p (fun l => { l with tag := s.link.lines[p].tag + 1 }) s)
  unfold placeApply
  simp only
  split
  · exact h
  · exact h

theorem bindings_set (x : Vector Binding 18) (r : Head) (b : Binding) : (x.set r b)[r] = b := by simp

/-- The APPLY of a jar whose slot holds no ABORT. -/
theorem applyForJar_free (h : s.link.lines[e.pocket].slot ≠ .abort) :
    (applyForJar e s).capping = s.capping
      ∧ (applyForJar e s).link.lines[e.pocket] = { s.link.lines[e.pocket] with
        tag := s.link.lines[e.pocket].tag + 1, fetch := none
        slot := .apply ⟨s.link.lines[e.pocket].tag + 1, e.attempts + 1, (recipeOf e.bank s).torqueSet,
          (recipeOf e.bank s).angleMax, (recipeOf e.bank s).steamDwell⟩ }
      ∧ (e ∈ s.track.entries → ∃ f ∈ (applyForJar e s).track.entries,
        MayLose { e with attempts := e.attempts + 1 } f) := by
  unfold applyForJar slotHoldsAbort
  simp only
  rw [if_neg (by simpa using h)]
  refine ⟨by rw [linesAndEntries_placeApply]; rfl, (placeApply_line _ _ _ _ _).2 h, fun he => ?_⟩
  refine curvesLost_placeApply _ _ _ _ _ _ ?_
  exact mem_modEntry_same (F := fun f => { f with attempts := f.attempts + 1 }) he

/-- The APPLY of a jar refused by an ABORT in the slot. -/
theorem applyForJar_refused (h : s.link.lines[e.pocket].slot = .abort) :
    (applyForJar e s).capping = s.capping.set e.pocket freeBinding
      ∧ (applyForJar e s).link.lines[e.pocket] = { s.link.lines[e.pocket] with
        tag := s.link.lines[e.pocket].tag + 1, fetch := none }
      ∧ (e ∈ s.track.entries → ∃ f ∈ (applyForJar e s).track.entries,
        f.jar = e.jar ∧ f.position = e.position ∧ f.capClass = some .headFault) := by
  unfold applyForJar slotHoldsAbort
  simp only
  rw [if_pos (by simpa using h)]
  refine ⟨by rw [setBinding_capping, modEntry_capping, linesAndEntries_placeApply]; rfl,
    (placeApply_line _ _ _ _ _).1 h, fun he => ?_⟩
  have hm := mem_modEntry_same (F := fun f => { f with attempts := f.attempts + 1 }) he
  obtain ⟨f, hf, hk⟩ := curvesLost_placeApply (p := e.pocket) (e.attempts + 1) (recipeOf e.bank s).torqueSet
    (recipeOf e.bank s).angleMax (recipeOf e.bank s).steamDwell _ _ hm
  have hlabel := hk.label
  refine ⟨_, mem_modEntry hf, ?_⟩
  rw [if_pos (by rw [beq_iff_eq]; exact congrArg Label.jar hlabel)]
  exact ⟨congrArg Label.jar hlabel, congrArg Label.position hlabel, rfl⟩

/-! ### Arrival at a (R93) -/

theorem arriveA_classed (h : e.capClass ≠ none) : arriveA e s = s := by
  unfold arriveA
  rw [if_pos (by simpa [Option.isSome_iff_ne_none] using h)]

theorem arriveA_fault (h : e.capClass = none) (hf : s.run.state = .fault) :
    arriveA e s = modEntry e.jar (fun f => { f with capClass := some .interrupted }) s := by
  unfold arriveA
  rw [if_neg (by simp [h]), if_pos (by simp [hf])]

theorem arriveA_unlinked (h : e.capClass = none) (hf : s.run.state ≠ .fault)
    (hl : s.heads[e.pocket].service = .markedOut .link) :
    arriveA e s = modEntry e.jar (fun f => { f with capClass := some .headFault }) s := by
  unfold arriveA
  rw [if_neg (by simp [h]), if_neg (by simpa using hf), if_pos (by rw [hl]; rfl)]

theorem arriveA_apply (h : e.capClass = none) (hf : s.run.state ≠ .fault)
    (hl : s.heads[e.pocket].service ≠ .markedOut .link) :
    arriveA e s = applyForJar e (setBinding e.pocket ⟨some e.jar, .applied, none⟩ s) := by
  unfold arriveA
  rw [if_neg (by simp [h]), if_neg (by simpa using hf), if_neg (by rw [beq_iff_eq]; exact hl)]

/-- What stands after the arrival at a of a jar that is given its APPLY (R94). -/
theorem arriveA_applied (he : e ∈ s.track.entries) (hc : e.capClass = none) (hf : s.run.state ≠ .fault)
    (hl : s.heads[e.pocket].service ≠ .markedOut .link) :
    (arriveA e s).link.lines[e.pocket].tag = s.link.lines[e.pocket].tag + 1
      ∧ (arriveA e s).link.lines[e.pocket].fetch = none
      ∧ (s.link.lines[e.pocket].slot ≠ .abort → (arriveA e s).capping[e.pocket] = ⟨some e.jar, .applied, none⟩
        ∧ (arriveA e s).link.lines[e.pocket].slot = .apply ⟨s.link.lines[e.pocket].tag + 1, e.attempts + 1,
          (recipeOf e.bank s).torqueSet, (recipeOf e.bank s).angleMax, (recipeOf e.bank s).steamDwell⟩
        ∧ ∃ f ∈ (arriveA e s).track.entries, f.jar = e.jar ∧ f.position = e.position
          ∧ f.attempts = e.attempts + 1 ∧ f.capClass = none)
      ∧ (s.link.lines[e.pocket].slot = .abort → (arriveA e s).capping[e.pocket] = ⟨none, .none, none⟩
        ∧ (arriveA e s).link.lines[e.pocket].slot = .abort
        ∧ ∃ f ∈ (arriveA e s).track.entries, f.jar = e.jar ∧ f.position = e.position
          ∧ f.capClass = some .headFault) := by
  rw [arriveA_apply hc hf hl]
  by_cases hslot : s.link.lines[e.pocket].slot = .abort
  · obtain ⟨h1, h2, h3⟩ := applyForJar_refused (s := setBinding e.pocket ⟨some e.jar, .applied, none⟩ s) hslot
    exact ⟨by rw [h2]; rfl, by rw [h2], fun h => absurd hslot h,
      fun _ => ⟨by rw [h1]; exact bindings_set _ _ _, by rw [h2]; exact hslot, h3 he⟩⟩
  · obtain ⟨h1, h2, h3⟩ := applyForJar_free (s := setBinding e.pocket ⟨some e.jar, .applied, none⟩ s) hslot
    obtain ⟨f, hf, hk⟩ := h3 he
    exact ⟨by rw [h2]; rfl, by rw [h2], fun _ => ⟨by rw [h1]; exact bindings_set _ _ _, by rw [h2]; rfl, f, hf,
      congrArg Label.jar hk.label, congrArg Label.position hk.label, by rw [hk.core], by rw [hk.core]; exact hc⟩,
      fun h => absurd h hslot⟩

/-! ### Arrival at e (R102) -/

theorem placeAbort_line (r : Head) (s : State) : (placeAbort r s).link.lines[r] = { s.link.lines[r] with
    slot := .abort, fetch := if s.link.lines[r].slot = .curve then none else s.link.lines[r].fetch } := by
  unfold placeAbort
  split
  · rename_i h
    rw [if_neg (by rw [h]; exact fun a => nomatch a), ← h]
  · rename_i h
    rw [if_pos h, lines_displaceFetch_same, lines_modLine_same]
  · rename_i h
    rw [if_neg (by rw [h]; exact fun a => nomatch a), lines_modLine_same]
  · rename_i h
    rw [if_neg (by rw [h]; exact fun a => nomatch a), lines_modLine_same]

theorem arriveE_eq (e : Entry) (s : State) : arriveE e s
    = if s.capping[e.pocket].bound = some e.jar ∧ s.capping[e.pocket].stage = .applied ∧ e.capClass = none
      then placeAbort e.pocket s else s := by
  unfold arriveE
  simp only [Bool.and_eq_true, beq_iff_eq, Option.isNone_iff_eq_none, and_assoc]

/-! ### Arrival at x (R83, R104, R105) -/

/-- An open curve fetch of the jar. -/
def fetches (jar : Word32) (l : HeadLine) : Bool := l.fetch.any (fun y => y.jar == jar)

theorem fetches_iff (jar : Word32) (l : HeadLine) : fetches jar l = true ↔ ∃ y, l.fetch = some y ∧ y.jar = jar := by
  unfold fetches
  cases l.fetch <;> simp

theorem displaceFetchOf_eq (p : Head) (jar : Word32) (s : State) :
    displaceFetchOf p jar s = if fetches jar s.link.lines[p] then displaceFetch p s else s := by
  unfold displaceFetchOf fetches
  cases s.link.lines[p].fetch <;> rfl

/-- A head that leaves the scan set when its jar has reached x (R83). -/
def leavesScan (h : Service) : Bool := h == .markedOut .host || h == .markedOut .failures

theorem leaveScanIfMarked_eq (p : Head) (s : State) :
    leaveScanIfMarked p s = if leavesScan s.heads[p].service then leaveScan p s else s := by
  unfold leaveScanIfMarked leavesScan
  split
  · rename_i h; rw [h]; rfl
  · rename_i h; rw [h]; rfl
  · rename_i h; rw [h]; rfl
  · rename_i h; rw [h]; rfl

theorem linesAndEntries_displaceFetchOf (p : Head) (jar : Word32) (s : State) :
    LinesAndEntries s (displaceFetchOf p jar s) := by
  rw [displaceFetchOf_eq]
  split
  · exact linesAndEntries_displaceFetch p s
  · exact .refl s

theorem linesAndEntries_leaveScanIfMarked (p : Head) (s : State) : LinesAndEntries s (leaveScanIfMarked p s) := by
  rw [leaveScanIfMarked_eq]
  split
  · exact linesAndEntries_leaveScan p s
  · exact .refl s

theorem lines_leaveScan_same (p : Head) (s : State) : (leaveScan p s).link.lines[p]
    = { s.link.lines[p] with slot := .empty, fetch := none, unconfirmed := none } := by
  unfold leaveScan
  rw [lines_displaceFetch_same, lines_modLine_same]

theorem lines_leaveScan_other (h : r ≠ p) (s : State) : (leaveScan r s).link.lines[p] = s.link.lines[p] := by
  unfold leaveScan
  rw [lines_displaceFetch_other h, lines_modLine_other _ h]

/-- What the release of a head leaves of its binding (R105). -/
def releasedBinding (jar : Word32) (tag : Byte) (b : Binding) : Binding :=
  if b.bound = some jar then ⟨none, .none, if b.stage = .applied then some tag else none⟩ else b

theorem releaseBinding_capping (p : Head) (jar : Word32) (s : State) : (releaseBinding p jar s).capping
    = s.capping.set p (releasedBinding jar s.link.lines[p].tag s.capping[p]) := by
  unfold releaseBinding releasedBinding
  simp only [beq_iff_eq]
  split
  · rfl
  · simp

theorem releaseBinding_frame (p : Head) (jar : Word32) (s : State) :
    releaseBinding p jar s = { s with capping := (releaseBinding p jar s).capping } := by
  unfold releaseBinding
  simp only
  split <;> rfl

/-- What is left of the line of a head when its jar is discharged (R83, R90, R105). -/
def dischargedLine (jar : Word32) (h : Service) (l : HeadLine) : HeadLine :=
  if leavesScan h then { l with slot := .empty, fetch := none, unconfirmed := none }
  else if fetches jar l then { l with fetch := none } else l

/-- The head is discharged: its binding is released, a fetch of the jar closed, and a marked out head unscanned. -/
def dischargeHead (p : Head) (jar : Word32) (s : State) : State :=
  leaveScanIfMarked p (displaceFetchOf p jar (releaseBinding p jar s))

/-- The capping class of the jar is settled (R104). -/
def settled (e : Entry) (s : State) : State :=
  modEntry e.jar (fun f => { f with capClass := some (settledClass (hasFinal e s) (recipeOf f.bank s) f) }) s

theorem arriveX_eq (e : Entry) (s : State) : arriveX e s = dischargeHead e.pocket e.jar (settled e s) := rfl

theorem dischargeHead_frame (p : Head) (jar : Word32) (s : State) : dischargeHead p jar s = { s with
    capping := s.capping.set p (releasedBinding jar s.link.lines[p].tag s.capping[p])
    track.entries := (dischargeHead p jar s).track.entries, link.lines := (dischargeHead p jar s).link.lines } := by
  have h : LinesAndEntries (releaseBinding p jar s) (dischargeHead p jar s) :=
    (linesAndEntries_displaceFetchOf _ _ _).trans (linesAndEntries_leaveScanIfMarked _ _)
  rw [releaseBinding_frame, releaseBinding_capping] at h
  exact h

theorem dischargeHead_line (p : Head) (jar : Word32) (s : State) : (dischargeHead p jar s).link.lines[p]
    = dischargedLine jar s.heads[p].service s.link.lines[p] := by
  have hf := linesAndEntries_displaceFetchOf p jar (releaseBinding p jar s)
  have hheads : (displaceFetchOf p jar (releaseBinding p jar s)).heads = s.heads := by
    rw [hf, releaseBinding_frame]
  have hlink : (releaseBinding p jar s).link = s.link := by rw [releaseBinding_frame]
  have hline : (displaceFetchOf p jar (releaseBinding p jar s)).link.lines[p]
      = if fetches jar s.link.lines[p] then { s.link.lines[p] with fetch := none } else s.link.lines[p] := by
    rw [displaceFetchOf_eq, hlink]
    split
    · rw [lines_displaceFetch_same, hlink]
    · exact congrArg (fun x : HeadLink => x.lines[p]) hlink
  unfold dischargeHead dischargedLine
  rw [leaveScanIfMarked_eq, hheads]
  split
  · rw [lines_leaveScan_same, hline]
    split <;> rfl
  · exact hline

theorem dischargeHead_others (h : r ≠ p) (jar : Word32) (s : State) :
    (dischargeHead r jar s).link.lines[p] = s.link.lines[p] := by
  have hlink : (releaseBinding r jar s).link = s.link := by rw [releaseBinding_frame]
  have hline : (displaceFetchOf r jar (releaseBinding r jar s)).link.lines[p] = s.link.lines[p] := by
    rw [displaceFetchOf_eq]
    split
    · rw [lines_displaceFetch_other h, hlink]
    · exact congrArg (fun x : HeadLink => x.lines[p]) hlink
  unfold dischargeHead
  rw [leaveScanIfMarked_eq]
  split
  · rw [lines_leaveScan_other h, hline]
  · exact hline

/-- A displaced fetch leaves TRACE_LOST at its jar (R90). -/
theorem displaceFetch_marks (he : e ∈ s.track.entries) (h : fetches e.jar s.link.lines[p] = true) :
    { e with flags := e.flags.add .traceLost } ∈ (displaceFetch p s).track.entries := by
  obtain ⟨y, hy, hj⟩ := (fetches_iff _ _).1 h
  unfold displaceFetch
  rw [hy]
  have := mem_modEntry (j := y.jar) (s := modLine p (fun l => { l with fetch := none }) s)
    (F := fun f => { f with flags := f.flags.add .traceLost }) he
  rwa [if_pos (by simp [hj])] at this

theorem curvesLost_leaveScanIfMarked (p : Head) (s : State) : CurvesLost s (leaveScanIfMarked p s) := by
  rw [leaveScanIfMarked_eq]
  split
  · exact curvesLost_leaveScan p s
  · exact .refl s

theorem dischargeHead_entry (he : e ∈ s.track.entries) : ∃ f ∈ (dischargeHead p e.jar s).track.entries, MayLose e f
    ∧ (fetches e.jar s.link.lines[p] = true → f.flags.has .traceLost = true) := by
  have hframe := releaseBinding_frame p e.jar s
  have hlink : (releaseBinding p e.jar s).link = s.link := by rw [hframe]
  have hm : e ∈ (releaseBinding p e.jar s).track.entries := by rwa [releaseBinding_track]
  unfold dischargeHead
  rw [displaceFetchOf_eq, hlink]
  cases hb : fetches e.jar s.link.lines[p] with
  | false =>
    obtain ⟨f, hf, hef⟩ := curvesLost_leaveScanIfMarked p _ _ hm
    exact ⟨f, hf, hef, fun a => Bool.noConfusion a⟩
  | true =>
    obtain ⟨f, hf, hef⟩ := curvesLost_leaveScanIfMarked p _ _
      (displaceFetch_marks (s := releaseBinding p e.jar s) hm (by rwa [hlink]))
    exact ⟨f, hf, MayLose.trans { flags := fun k hk => has_add_other hk.symm, grown := fun k a => has_add_grown a } hef,
      fun _ => hef.grown _ (has_add_same _ _)⟩

theorem arriveX_capping (e : Entry) (s : State) : (arriveX e s).capping = s.capping.set e.pocket
    (releasedBinding e.jar s.link.lines[e.pocket].tag s.capping[e.pocket]) := by
  rw [arriveX_eq, dischargeHead_frame]
  rfl

theorem arriveX_line (e : Entry) (s : State) : (arriveX e s).link.lines[e.pocket]
    = dischargedLine e.jar s.heads[e.pocket].service s.link.lines[e.pocket] :=
  dischargeHead_line e.pocket e.jar (settled e s)

theorem arriveX_entry (he : e ∈ s.track.entries) : ∃ f ∈ (arriveX e s).track.entries,
    MayLose { e with capClass := some (settledClass (hasFinal e s) (recipeOf e.bank s) e) } f
      ∧ (fetches e.jar s.link.lines[e.pocket] = true → f.flags.has .traceLost = true) :=
  dischargeHead_entry (s := settled e s) (p := e.pocket) (e := { e with
    capClass := some (settledClass (hasFinal e s) (recipeOf e.bank s) e) }) (mem_modEntry_same he)

theorem leavesScan_iff (h : Service) : leavesScan h = true ↔ h = .markedOut .host ∨ h = .markedOut .failures := by
  simp [leavesScan]

/-! ### The class at discharge (Table 6-2) -/

theorem settledClass_kept {k : CapClass} (h : e.capClass = some k) (final : Bool) (q : Recipe) :
    settledClass final q e = k := by
  unfold settledClass
  rw [h]

theorem settledClass_unfinished (h : e.capClass = none) (q : Recipe) : settledClass false q e = .headFault := by
  unfold settledClass
  rw [h]
  rfl

theorem settledClass_outcome (h : e.capClass = none) (q : Recipe) {o : CycleOutcome} (ho : e.lastOutcome = some o) :
    (o = .noCap → settledClass true q e = .noCap) ∧ (o = .aborted → settledClass true q e = .interrupted)
      ∧ (o = .crossThread → settledClass true q e = .crossThread)
      ∧ (o = .overAngle → settledClass true q e = .underTorque)
      ∧ (o = .seated → settledClass true q e = seatedClass q (e.peakTorque.getD 0) (e.seatAngle.getD 0) e.steam) := by
  unfold settledClass
  rw [h, ho]
  refine ⟨?_, ?_, ?_, ?_, ?_⟩ <;> (rintro rfl; rfl)

/-! ### A station seen in two states -/

variable {jar : Word32} {q : Nat} {pins : PitchPins} {b : PitchAct}

/-- The jar `jar` on the head `p` stands in `u` as `e` and in `v` as `f`, and a station finds the same of both. -/
structure Seen (jar : Word32) (p : Head) (u v : State) (e f : Entry) : Prop where
  left : e ∈ u.track.entries
  right : f ∈ v.track.entries
  jar : e.jar = jar
  core : f.core = e.core
  capClass : f.capClass = e.capClass
  lost : e.flags.has .traceLost = true → f.flags.has .traceLost = true
  binding : v.capping[p] = u.capping[p]
  line : v.link.lines[p] = u.link.lines[p]

/-- A station finds the same of the jar `jar` and its head `p` in `u` and in `v`. -/
def Alike (jar : Word32) (p : Head) (u v : State) : Prop := ∃ e f, Seen jar p u v e f

theorem Seen.sameJar (h : Seen jar p u v e f) : f.jar = jar :=
  (show f.core.jar = jar by rw [h.core]; exact h.jar)

theorem Seen.modEntry (h : Seen jar p u v e f) {F G : Entry → Entry} (hj : (F e).jar = jar)
    (hcore : (G f).core = (F e).core) (hclass : (G f).capClass = (F e).capClass)
    (hlost : (F e).flags.has .traceLost = true → (G f).flags.has .traceLost = true) : Seen jar p (modEntry jar F u) (modEntry jar G v) (F e) (G f) where
  left := by have := mem_modEntry_same (F := F) h.left; rwa [h.jar] at this
  right := by have := mem_modEntry_same (F := G) h.right; rwa [h.sameJar] at this
  jar := hj
  core := hcore
  capClass := hclass
  lost := hlost
  binding := h.binding
  line := h.line

theorem Alike.setClass (h : Alike jar p u v) (c : CapClass) :
    Alike jar p (modEntry jar (fun f => { f with capClass := some c }) u)
      (modEntry jar (fun f => { f with capClass := some c }) v) :=
  have ⟨_, _, h⟩ := h
  ⟨_, _, h.modEntry (F := fun f => { f with capClass := some c }) (G := fun f => { f with capClass := some c })
    h.jar h.core rfl h.lost⟩

theorem Alike.raiseAttempts (h : Alike jar p u v) :
    Alike jar p (modEntry jar (fun f => { f with attempts := f.attempts + 1 }) u)
      (modEntry jar (fun f => { f with attempts := f.attempts + 1 }) v) :=
  have ⟨e, f, h⟩ := h
  ⟨_, _, h.modEntry (F := fun f => { f with attempts := f.attempts + 1 })
    (G := fun f => { f with attempts := f.attempts + 1 }) h.jar
    (show { f.core with attempts := f.core.attempts + 1 } = { e.core with attempts := e.core.attempts + 1 } by
      rw [h.core]) h.capClass h.lost⟩

theorem Alike.setBinding (h : Alike jar p u v) (x : Binding) : Alike jar p (setBinding p x u) (setBinding p x v) :=
  have ⟨e, f, h⟩ := h
  ⟨e, f, { h with binding := (bindings_set _ _ _).trans (bindings_set _ _ _).symm, left := h.left, right := h.right, line := h.line }⟩

theorem Alike.modLine (h : Alike jar p u v) (F : HeadLine → HeadLine) : Alike jar p (modLine p F u) (modLine p F v) :=
  have ⟨e, f, h⟩ := h
  ⟨e, f, { h with line := by rw [lines_modLine_same, lines_modLine_same, h.line], left := h.left, right := h.right, binding := h.binding }⟩

theorem Alike.line (h : Alike jar p u v) : v.link.lines[p] = u.link.lines[p] :=
  have ⟨_, _, h⟩ := h
  h.line

theorem Alike.addLost (h : Alike jar p u v) (y : Word32) :
    Alike jar p (addFlag y .traceLost u) (addFlag y .traceLost v) := by
  obtain ⟨e, f, h⟩ := h
  by_cases hy : jar = y
  · subst hy
    exact ⟨_, _, h.modEntry (F := fun f => { f with flags := f.flags.add .traceLost })
      (G := fun f => { f with flags := f.flags.add .traceLost }) h.jar h.core h.capClass fun _ => has_add_same _ _⟩
  · have hkeep {g : Entry} {w : State} (hg : g ∈ w.track.entries) (hj : g.jar = jar) :
        g ∈ (addFlag y .traceLost w).track.entries := by
      have := mem_modEntry (j := y) (F := fun f => { f with flags := f.flags.add .traceLost }) hg
      rwa [if_neg (by rw [hj, beq_iff_eq]; exact hy)] at this
    exact ⟨e, f, hkeep h.left h.jar, hkeep h.right h.sameJar, h.jar, h.core, h.capClass, h.lost, h.binding, h.line⟩

theorem Alike.displaceFetch (h : Alike jar p u v) : Alike jar p (displaceFetch p u) (displaceFetch p v) := by
  unfold Machine.displaceFetch
  rw [h.line]
  cases hf : u.link.lines[p].fetch with
  | none => simpa only [hf] using h
  | some y => simpa only [hf] using (h.modLine _).addLost y.jar

theorem Alike.placeApply (h : Alike jar p u v) (n a b c : Nat) :
    Alike jar p (placeApply p n a b c u) (placeApply p n a b c v) := by
  have hm := (h.modLine (fun l => { l with tag := u.link.lines[p].tag + 1 })).displaceFetch
  unfold Machine.placeApply slotHoldsAbort
  simp only [h.line]
  split
  · exact hm
  · exact hm.modLine _

theorem Alike.placeAbort (h : Alike jar p u v) : Alike jar p (placeAbort p u) (placeAbort p v) := by
  unfold Machine.placeAbort
  rw [h.line]
  cases hs : u.link.lines[p].slot with
  | abort => simpa only [hs] using h
  | curve => simpa only [hs] using (h.modLine _).displaceFetch
  | empty => simpa only [hs] using h.modLine _
  | apply c => simpa only [hs] using h.modLine _

theorem Alike.leaveScan (h : Alike jar p u v) : Alike jar p (leaveScan p u) (leaveScan p v) :=
  (h.modLine _).displaceFetch

theorem Alike.binding (h : Alike jar p u v) : v.capping[p] = u.capping[p] :=
  have ⟨_, _, h⟩ := h
  h.binding

theorem Alike.releaseBinding (h : Alike jar p u v) : Alike jar p (releaseBinding p jar u) (releaseBinding p jar v) := by
  unfold Machine.releaseBinding
  simp only [h.line, h.binding]
  split
  · exact h.setBinding _
  · exact h

theorem Alike.displaceFetchOf (h : Alike jar p u v) :
    Alike jar p (displaceFetchOf p jar u) (displaceFetchOf p jar v) := by
  rw [displaceFetchOf_eq, displaceFetchOf_eq, h.line]
  split
  · exact h.displaceFetch
  · exact h

theorem Alike.leaveScanIfMarked (h : Alike jar p u v) (hs : v.heads[p].service = u.heads[p].service) :
    Alike jar p (leaveScanIfMarked p u) (leaveScanIfMarked p v) := by
  rw [leaveScanIfMarked_eq, leaveScanIfMarked_eq, hs]
  split
  · exact h.leaveScan
  · exact h

theorem Seen.pocket (h : Seen jar p u v e f) : f.pocket = e.pocket :=
  show f.core.pocket = e.core.pocket by rw [h.core]

theorem Seen.attempts (h : Seen jar p u v e f) : f.attempts = e.attempts :=
  show f.core.attempts = e.core.attempts by rw [h.core]

theorem applyForJar_at (hp : e.pocket = p) (hj : e.jar = jar) (s : State) : applyForJar e s =
    let t := placeApply p (e.attempts + 1) (recipeOf e.bank s).torqueSet (recipeOf e.bank s).angleMax
      (recipeOf e.bank s).steamDwell (modEntry jar (fun f => { f with attempts := f.attempts + 1 }) s)
    if s.link.lines[p].slot == .abort then
      setBinding p freeBinding (modEntry jar (fun f => { f with capClass := some .headFault }) t)
    else t := by
  subst hp hj
  rfl

theorem arriveE_at (hp : e.pocket = p) (hj : e.jar = jar) (s : State) : arriveE e s
    = if s.capping[p].bound = some jar ∧ s.capping[p].stage = .applied ∧ e.capClass = none
      then placeAbort p s else s := by
  subst hp hj
  exact arriveE_eq e s

theorem hasFinal_at (hp : e.pocket = p) (hj : e.jar = jar) (s : State) :
    hasFinal e s = (s.capping[p].bound == some jar && s.capping[p].stage == .result) := by
  subst hp hj
  rfl

theorem Seen.applyForJar (h : Seen jar p u v e f) (hp : e.pocket = p) (hrec : recipeOf f.bank v = recipeOf e.bank u) :
    Alike jar p (applyForJar e u) (applyForJar f v) := by
  have ha := (Alike.raiseAttempts ⟨e, f, h⟩).placeApply (e.attempts + 1) (recipeOf e.bank u).torqueSet
    (recipeOf e.bank u).angleMax (recipeOf e.bank u).steamDwell
  rw [applyForJar_at hp h.jar, applyForJar_at (h.pocket.trans hp) h.sameJar, h.line, hrec, h.attempts]
  simp only
  split
  · exact (ha.setClass _).setBinding _
  · exact ha

theorem heads_at (h : r = p) (s : State) : s.heads[r] = s.heads[p] := by rw [h]

/-- The arrival at a is the same for a jar that other stations have been beside. -/
theorem Seen.arriveA (h : Seen jar p u v e f) (hp : e.pocket = p) (hrec : recipeOf f.bank v = recipeOf e.bank u)
    (hfault : v.run.state = .fault ↔ u.run.state = .fault)
    (hlink : v.heads[p].service = .markedOut .link ↔ u.heads[p].service = .markedOut .link) :
    Alike jar p (arriveA e u) (arriveA f v) := by
  have hfp : f.pocket = p := h.pocket.trans hp
  have hclass (c : CapClass) := Alike.setClass ⟨e, f, h⟩ c
  by_cases hc : e.capClass = none
  · have hc' := h.capClass.trans hc
    by_cases hf : u.run.state = .fault
    · rw [arriveA_fault hc hf, arriveA_fault hc' (hfault.2 hf), h.jar, h.sameJar]
      exact hclass _
    · have hf' := fun a => hf (hfault.1 a)
      by_cases hl : u.heads[p].service = .markedOut .link
      · rw [arriveA_unlinked hc hf (heads_at hp u ▸ hl), arriveA_unlinked hc' hf' (heads_at hfp v ▸ hlink.2 hl), h.jar, h.sameJar]
        exact hclass _
      · rw [arriveA_apply hc hf (heads_at hp u ▸ hl), arriveA_apply hc' hf' (heads_at hfp v ▸ fun a => hl (hlink.1 a)), hp, hfp, h.jar,
          h.sameJar]
        have hs : Seen jar p (setBinding p ⟨some jar, .applied, none⟩ u) (setBinding p ⟨some jar, .applied, none⟩ v) e f :=
          ⟨h.left, h.right, h.jar, h.core, h.capClass, h.lost, (bindings_set _ _ _).trans (bindings_set _ _ _).symm,
            h.line⟩
        exact hs.applyForJar hp hrec
  · rw [arriveA_classed hc, arriveA_classed (by rwa [h.capClass])]
    exact ⟨e, f, h⟩

theorem Seen.arriveE (h : Seen jar p u v e f) (hp : e.pocket = p) : Alike jar p (arriveE e u) (arriveE f v) := by
  rw [arriveE_at hp h.jar, arriveE_at (h.pocket.trans hp) h.sameJar, h.binding, h.capClass]
  split
  · exact Alike.placeAbort ⟨e, f, h⟩
  · exact ⟨e, f, h⟩

theorem Seen.arriveX (h : Seen jar p u v e f) (hp : e.pocket = p) (hrec : recipeOf f.bank v = recipeOf e.bank u)
    (hs : v.heads[p].service = u.heads[p].service) : Alike jar p (arriveX e u) (arriveX f v) := by
  have hfinal : hasFinal f v = hasFinal e u := by
    rw [hasFinal_at hp h.jar, hasFinal_at (h.pocket.trans hp) h.sameJar, h.binding]
  have hset : settledClass (hasFinal f v) (recipeOf f.bank v) f = settledClass (hasFinal e u) (recipeOf e.bank u) e := by
    rw [hfinal, hrec]
    unfold settledClass
    rw [h.capClass, eq_of_core h.core]
  have hm : Alike jar p (settled e u) (settled f v) := by
    unfold settled
    rw [h.jar, h.sameJar]
    exact ⟨_, _, h.modEntry (F := fun g => { g with capClass := some (settledClass (hasFinal e u) (recipeOf g.bank u) g) })
      (G := fun g => { g with capClass := some (settledClass (hasFinal f v) (recipeOf g.bank v) g) }) h.jar h.core
      (by rw [hset]) h.lost⟩
  rw [arriveX_eq, arriveX_eq, h.pocket, hp, h.jar, h.sameJar]
  have hr := hm.releaseBinding.displaceFetchOf
  refine hr.leaveScanIfMarked ?_
  rw [linesAndEntries_displaceFetchOf, linesAndEntries_displaceFetchOf p jar (releaseBinding p jar (settled e u)),
    releaseBinding_frame, releaseBinding_frame p jar (settled e u)]
  exact hs

/-! ### The stations in a forward pitch (R15) -/

/-- The act `b` of a pitch is an arrival at the position `pos`, which does `act` and touches no label. -/
structure Station (b : PitchAct) (pos : Geometry → Nat) (act : Entry → State → State) : Prop where
  place : ∀ g, actPlace g b = some (pos g) := by exact fun _ => rfl
  serves : ∀ rs d pins v, pitchAct rs d pins v b = arrivalAt (pos v.track.geometry) act v := by exact fun _ _ _ _ => rfl
  keeps : ∀ f v, Keeps Scope.turn v (act f v)
  heads : ∀ f v, (act f v).heads = v.heads
  labels : ∀ f v, (act f v).track.entries.map Entry.label = v.track.entries.map Entry.label

theorem setClass_labels (jar : Word32) (c : Entry → CapClass) (s : State) :
    (modEntry jar (fun f => { f with capClass := some (c f) }) s).track.entries.map Entry.label
      = s.track.entries.map Entry.label :=
  modEntry_labels (F := fun f => { f with capClass := some (c f) }) (fun _ => rfl) s

theorem applyForJar_stands (e : Entry) (s : State) : (applyForJar e s).heads = s.heads
    ∧ (applyForJar e s).track.entries.map Entry.label = s.track.entries.map Entry.label := by
  have h (n a b c : Nat) (u : State) : (placeApply e.pocket n a b c u).heads = u.heads
      ∧ (placeApply e.pocket n a b c u).track.entries.map Entry.label = u.track.entries.map Entry.label := by
    refine ⟨by rw [linesAndEntries_placeApply], ?_⟩
    unfold placeApply
    simp only
    split
    · exact displaceFetch_labels _ _
    · exact displaceFetch_labels _ _
  obtain ⟨h1, h2⟩ := h (e.attempts + 1) (recipeOf e.bank s).torqueSet (recipeOf e.bank s).angleMax
    (recipeOf e.bank s).steamDwell (modEntry e.jar (fun f => { f with attempts := f.attempts + 1 }) s)
  have h3 := h2.trans (modEntry_labels (j := e.jar) (F := fun f => { f with attempts := f.attempts + 1 })
    (fun _ => rfl) s)
  unfold applyForJar
  simp only
  split
  · exact ⟨h1, (setClass_labels e.jar (fun _ => .headFault) _).trans h3⟩
  · exact ⟨h1, h3⟩

theorem arriveA_stands (e : Entry) (s : State) : (arriveA e s).heads = s.heads
    ∧ (arriveA e s).track.entries.map Entry.label = s.track.entries.map Entry.label := by
  unfold arriveA
  split
  · exact ⟨rfl, rfl⟩
  · split
    · exact ⟨rfl, setClass_labels e.jar (fun _ => .interrupted) s⟩
    · split
      · exact ⟨rfl, setClass_labels e.jar (fun _ => .headFault) s⟩
      · exact applyForJar_stands e (setBinding e.pocket ⟨some e.jar, .applied, none⟩ s)

theorem arriveE_stands (e : Entry) (s : State) : (arriveE e s).heads = s.heads
    ∧ (arriveE e s).track.entries.map Entry.label = s.track.entries.map Entry.label := by
  rw [arriveE_eq]
  split
  · exact ⟨by rw [linesAndEntries_placeAbort], placeAbort_labels _ _⟩
  · exact ⟨rfl, rfl⟩

theorem arriveX_stands (e : Entry) (s : State) : (arriveX e s).heads = s.heads
    ∧ (arriveX e s).track.entries.map Entry.label = s.track.entries.map Entry.label := by
  rw [arriveX_eq]
  refine ⟨by rw [dischargeHead_frame]; rfl, ?_⟩
  unfold dischargeHead
  rw [leaveScanIfMarked_labels, displaceFetchOf_labels, releaseBinding_track]
  exact setClass_labels e.jar (fun f => settledClass (hasFinal e s) (recipeOf f.bank s) f) s

theorem stationA : Station .atA Geometry.a arriveA where
  keeps f _ := keeps_arriveA f
  heads f v := (arriveA_stands f v).1
  labels f v := (arriveA_stands f v).2

theorem stationE : Station .atE Geometry.e arriveE where
  keeps f _ := keeps_arriveE f
  heads f v := (arriveE_stands f v).1
  labels f v := (arriveE_stands f v).2

theorem stationX : Station .atX Geometry.x arriveX where
  keeps f _ := keeps_arriveX f
  heads f v := (arriveX_stands f v).1
  labels f v := (arriveX_stands f v).2

theorem Station.stands {pos : Geometry → Nat} {act : Entry → State → State} (st : Station b pos act) (rs : RunState)
    (d : Decision) (v : State) : (pitchAct rs d pins v b).track.entries.map Entry.label = v.track.entries.map Entry.label
      ∧ (pitchAct rs d pins v b).track.geometry = v.track.geometry := by
  rw [st.serves]
  unfold arrivalAt
  split
  · exact ⟨st.labels _ v, (st.keeps _ v).geometryTurn⟩
  · exact ⟨rfl, rfl⟩

/-- Below x the jar rides alone on its head (R6, R9). -/
theorem alone_pitchStart (hd : JarsDistinct s) (hpk : PocketsFollow s) (hfr : frozen s = false)
    (hgeo : GeometryOk s.track.geometry) (he : e ∈ s.track.entries) (hx : e.position + 1 ≤ s.track.geometry.x) :
    Alone e.jar (e.position + 1) e.pocket (pitchStart pins s) ∧ s.track.pocket + 1 ≠ e.pocket := by
  have hg := (geometryOk_iff _).1 hgeo
  obtain ⟨x, hride, hinfeed⟩ := hpk
  have hsum := hride e he
  have hback {f : Entry} (hf : f ∈ (pitchStart pins s).track.entries) : ∃ g ∈ s.track.entries, g.moved = f := by
    rw [pitchStart_track] at hf
    exact List.mem_map.1 hf
  refine ⟨⟨fun f hf hj => ?_, fun f hf hp hle => ?_⟩, fun h => ?_⟩
  · obtain ⟨g, hg, rfl⟩ := hback hf
    rw [eq_of_jar_eq hd he hg hj]
    rfl
  · obtain ⟨g, hgm, rfl⟩ := hback hf
    rw [pitchStart_track] at hle
    have hride' := (hride g hgm).trans hsum.symm
    rw [show g.pocket = e.pocket from hp] at hride'
    have heq := congrArg Fin.val (add_left_cancel hride')
    have hlt : g.position + 1 ≤ s.track.geometry.x := hle
    simp only [Fin.ofNat] at heq
    change g.position + 1 = _
    omega
  · rw [hinfeed hfr, ← h] at hsum
    have hzero : (1 : Head) + Fin.ofNat 18 e.position = 0 := by
      rw [add_assoc] at hsum
      exact add_eq_left.1 hsum
    have := congrArg Fin.val hzero
    simp [Fin.val_add, Fin.ofNat] at this
    omega

/-- What a station of the turret does in a forward pitch is what it does to the jar as the arrivals find it. -/
theorem forwardPitch_station {pos : Geometry → Nat} {act : Entry → State → State} (st : Station b pos act)
    (order : List PitchAct) (hg : GateAndBanks s) (hfr : frozen s = false) (hgeo : GeometryOk s.track.geometry)
    (hpos : PositionsFall s) (hcounts : CountsMatch s) (hd : JarsDistinct s) (hpk : PocketsFollow s)
    (he : e ∈ s.track.entries) (hq : e.position + 1 = pos s.track.geometry)
    (hx : e.position + 1 ≤ s.track.geometry.x)
    (halike : ∀ v f, Seen e.jar e.pocket (atStations s) v e.moved f →
      recipeOf f.bank v = recipeOf e.moved.bank (atStations s) →
      (e.position + 1 < s.track.geometry.x → (v.run.state = .fault ↔ (atStations s).run.state = .fault)) →
      (v.heads[e.pocket].service = .markedOut .link ↔ (atStations s).heads[e.pocket].service = .markedOut .link) →
      (s.track.geometry.x ≤ e.position + 1 →
        v.heads[e.pocket].service = (atStations s).heads[e.pocket].service) →
      Alike e.jar e.pocket (act e.moved (atStations s)) (act f v))
    (hcond : e.position + 1 < s.track.geometry.x
        ∧ ((forwardPitch pins order s).run.state = .fault → s.run.state = .fault)
      ∨ s.track.geometry.x ≤ e.position + 1
        ∧ (forwardPitch pins order s).heads[e.pocket].service = s.heads[e.pocket].service) :
    StationAlike e.jar e.pocket (act e.moved (atStations s)) (forwardPitch pins order s) := by
  have hline := alone_pitchStart (pins := pins) hd hpk hfr hgeo he hx
  obtain ⟨v, l, f, hat, hf, haside, hentry, hvgeo⟩ := pitch_at (pins := pins) (b := b) true order hg hgeo hpos
    hcounts hd he ((st.place _).trans (by rw [hq])) (fun _ => hline) (fun v => st.stands _ _ v)
  have hstart := pitchStart_inputs pins s
  have hplaced := placed_pitchStart (pins := pins) hd he
  have hact : pitchAct s.run.state s.gate.decision pins v b = act f v := by
    rw [st.serves, hvgeo, ← hq]
    unfold arrivalAt
    rw [hentry]
  have hafter := hat.after.trans beside_pitchTail
  rw [← forwardPitch_moving order hfr, hact] at hafter
  have hw : Keeps Scope.turn v (act f v) := st.keeps f v
  have hstartx : (pitchStart pins s).track.geometry.x = s.track.geometry.x := by rw [pitchStart_track]
  have hwx : (act f v).track.geometry.x = s.track.geometry.x := by rw [hw.geometryTurn, hvgeo]
  have hquiet (a : e.position + 1 < s.track.geometry.x) (hv : (act f v).run.state = .fault
      ∨ (forwardPitch pins order s).run.state = .fault) : s.run.state = .fault := by
    rcases hcond with h | h
    · exact h.2 (hv.elim (hafter.keeps.fault rfl) id)
    · omega
  have hsame (a : s.track.geometry.x ≤ e.position + 1) :
      v.heads[e.pocket].service = s.heads[e.pocket].service
        ∧ (forwardPitch pins order s).heads[e.pocket].service = (act f v).heads[e.pocket].service := by
    have h1 := hat.before.service
    have h2 := hafter.service
    rw [pitchStart_heads] at h1
    rw [st.heads] at h2 ⊢
    exact service_between h1 h2 (hcond.elim (fun h => absurd h.1 (by omega)) fun h => h.2)
  have hbefore : Entered (pitchStart pins s) v → s.track.geometry.x ≤ e.position + 1 := fun h => by
    by_contra a
    exact h.1 (by rw [pitchStart_run]; exact hquiet (by omega) (.inl (hw.fault rfl h.2)))
  have hlater : Entered (act f v) (forwardPitch pins order s) → s.track.geometry.x ≤ e.position + 1 := fun h => by
    by_contra a
    have hs := hquiet (by omega) (.inr h.2)
    exact h.1 (hw.fault rfl (hat.before.keeps.fault rfl (by rwa [pitchStart_run])))
  have hmem : e.moved ∈ (atStations s).track.entries := by
    have : (pitchStart pins s).track = (atStations s).track := by rw [hstart]
    rw [← this, pitchStart_track]
    exact List.mem_map_of_mem he
  have hseen : Seen e.jar e.pocket (atStations s) v e.moved f := by
    refine ⟨hmem, hf, rfl, haside.core, haside.capClass fun a b => ?_, haside.grown _, ?_, ?_⟩
    · have := hbefore a
      rw [hstartx] at b
      exact absurd b (by simp only [Entry.moved]; omega)
    · rw [hat.before.bound rfl rfl hplaced hline.1, hstart]
    · rw [hat.before.line rfl rfl hplaced hline.1 (fun a => hstartx ▸ hbefore a)
        (fun a => by rw [pitchStart_heads]; exact (hsame (hstartx ▸ a)).1), hstart]
  have hrec := haside.recipe (pitchStart_keeps.track ⟨hpos, hcounts⟩)
  rw [hstart] at hrec
  have hfault (a : e.position + 1 < s.track.geometry.x) :
      v.run.state = .fault ↔ (atStations s).run.state = .fault := by
    have hrun : (atStations s).run = s.run := by
      have h := pitchStart_run (pins := pins) (s := s)
      rwa [hstart] at h
    rw [hrun]
    exact ⟨fun h => hquiet a (.inl (hw.fault rfl h)), fun h => hat.before.keeps.fault rfl (by rwa [pitchStart_run])⟩
  have hheads : (atStations s).heads = s.heads := by
    have h := pitchStart_heads (pins := pins) (s := s)
    rwa [hstart] at h
  have hlink : v.heads[e.pocket].service = .markedOut .link
      ↔ (atStations s).heads[e.pocket].service = .markedOut .link := by
    have h := hat.before.service
    rw [pitchStart_heads] at h
    rw [hheads]
    rcases h with h | ⟨h, h'⟩
    · rw [h]
    · rw [h, h']
      exact ⟨(fun a => nomatch a), fun a => nomatch a⟩
  obtain ⟨g, k, hgk⟩ := halike v f hseen hrec hfault hlink fun a => by rw [hheads]; exact (hsame a).1
  have hplacedW : Placed e.jar (e.position + 1) (act f v) :=
    placed_of_labels (st.labels f v) (hat.before.placed rfl hplaced)
  have haloneW : Alone e.jar (e.position + 1) e.pocket (act f v) :=
    alone_of_sublist (by rw [st.labels]) hw.geometryTurn (hat.before.alone rfl rfl hline.1)
  obtain ⟨z, hz, hkz⟩ := hafter.entry rfl hplacedW k hgk.right hgk.sameJar
  have hcap : z.capClass = k.capClass := hkz.capClass fun a b => by
    rw [hwx, hplacedW.2 k hgk.right hgk.sameJar] at b
    exact absurd b (Nat.not_lt_of_le (hlater a))
  have hzg : z.core = g.core := hkz.core.trans hgk.core
  refine ⟨(hafter.bound rfl rfl hplacedW haloneW).trans hgk.binding,
    (hafter.line rfl rfl hplacedW haloneW (fun a => hwx ▸ hlater a) fun a => (hsame (hwx ▸ a)).2).trans hgk.line,
    z, hz, g, hgk.left, hkz.sameJar.trans hgk.sameJar, hgk.jar, ?_, ?_, hcap.trans hgk.capClass,
    fun a => hkz.grown _ (hgk.lost a)⟩
  · rw [eq_of_core hzg]
  · rw [eq_of_core hzg]

end Sys2Proof.Machine

namespace Sys2Proof.Proofs

open Sys2Proof.Machine

/-- Settles O50: each station as a function, and in a pitch as the jar finds it between the other acts. -/
theorem turretStationsAct : Obligations.TurretStationsAct := by
  refine ⟨?_, ?_⟩
  · intro pins order e s hrun hfr hg hgeo hpos hcounts hd hpk he u e'
    have hgo := (geometryOk_iff _).1 hgeo
    refine ⟨_, exec_forwardPitch order hrun, fun hf => ⟨fun ha => ?_, fun hx => ?_⟩, fun hs hx => ?_⟩
    · exact forwardPitch_station stationA order hg hfr hgeo hpos hcounts hd hpk he ha (by omega)
        (fun v f h hrec hflt hlink _ => h.arriveA rfl hrec (hflt (by omega)) hlink) (.inl ⟨by omega, hf⟩)
    · exact forwardPitch_station stationE order hg hfr hgeo hpos hcounts hd hpk he hx (by omega)
        (fun v f h _ _ _ _ => h.arriveE rfl) (.inl ⟨by omega, hf⟩)
    · exact forwardPitch_station stationX order hg hfr hgeo hpos hcounts hd hpk he hx (by omega)
        (fun v f h hrec _ _ hsame => h.arriveX rfl hrec (hsame (by omega))) (.inr ⟨by omega, hs⟩)
  · intro e s he p l r
    refine ⟨arriveA_classed, fun hc => ⟨fun hf => ?_, fun hf hl => ?_, arriveA_applied he hc⟩, fun hb hs hc => ?_,
      fun h => ?_, fun hb => ?_, fun hb => ?_, fun q hq => dischargeHead_others (Ne.symm hq) e.jar (settled e s),
      ⟨fun hout => ?_, fun hout hlost => ?_, fun hout hlost => ?_⟩, ?_⟩
    · rw [arriveA_fault hc hf]
      exact ⟨rfl, mem_modEntry_same he⟩
    · rw [arriveA_unlinked hc hf hl]
      exact ⟨rfl, mem_modEntry_same he⟩
    · rw [arriveE_eq, if_pos ⟨hb, hs, hc⟩, placeAbort_line]
      exact ⟨rfl, rfl, fun h => if_pos h, by rw [linesAndEntries_placeAbort]⟩
    · rw [arriveE_eq, if_neg h]
    · rw [arriveX_capping, releasedBinding, if_pos hb]
    · rw [arriveX_capping, releasedBinding, if_neg hb]
      exact Vector.set_getElem_self _
    · rw [arriveX_line, dischargedLine, if_pos ((leavesScan_iff _).2 hout)]
    · rw [arriveX_line, dischargedLine, if_neg (fun a => hout ((leavesScan_iff _).1 a)),
        if_pos ((fetches_iff _ _).2 hlost)]
    · rw [arriveX_line, dischargedLine, if_neg (fun a => hout ((leavesScan_iff _).1 a)),
        if_neg (fun a => hlost ((fetches_iff _ _).1 a))]
    · obtain ⟨f, hf, hk, hlost⟩ := arriveX_entry he
      refine ⟨f, hf, _, congrArg Label.jar hk.label, congrArg Label.position hk.label, by rw [hk.core],
        fun k hk => settledClass_kept hk _ _, fun y hy hj => hlost ((fetches_iff _ _).2 ⟨y, hy, hj⟩),
        fun hc => ⟨fun h => ?_, fun o hb hs ho => ?_⟩⟩
      · have : hasFinal e s = false := by
          rw [← Bool.not_eq_true, hasFinal, Bool.and_eq_true, beq_iff_eq, beq_iff_eq]
          exact fun a => h.elim (fun b => b a.1) fun b => b a.2
        rw [this]
        exact settledClass_unfinished hc _
      · have : hasFinal e s = true := by
          rw [hasFinal, Bool.and_eq_true, beq_iff_eq, beq_iff_eq]
          exact ⟨hb, hs⟩
        rw [this]
        obtain ⟨h1, h2, h3, h4, h5⟩ := settledClass_outcome hc r ho
        refine ⟨h1, h2, h3, h4, fun q n hseat hq hn => (h5 hseat).trans ?_⟩
        simp [seatedClass, hq, hn, and_comm]

end Sys2Proof.Proofs
end

