-- ==== Sys2Proof/Proofs/Purge.lean ====
section
/-! PROOFS. The purge of a frozen Track: every entry departs PURGED, oldest first, and its head is discharged
(R17, R21, R37, R83, R107). -/

-- One declaration is checked after another: side by side they take more threads than the memory limit allows.
set_option Elab.async false

namespace Sys2Proof.Machine

variable {s t u : State} {e f : Entry} {es : List Entry} {p : Head}

/-! ### The discharge of a head, entry by entry (R83, R90, R107) -/

/-- What the loss of the fetch in the line `l` makes of an entry. -/
def Entry.losing (l : HeadLine) (e : Entry) : Entry := { e with flags := e.flags.addIf (fetches e.jar l) .traceLost }

theorem fetches_closed {l : HeadLine} (h : l.fetch = none) (jar : Word32) : fetches jar l = false := by
  simp [fetches, h]

theorem losing_closed {l : HeadLine} (h : l.fetch = none) (e : Entry) : e.losing l = e := by
  unfold Entry.losing
  rw [fetches_closed h]
  rfl

theorem displaceFetch_entries (p : Head) (s : State) :
    (displaceFetch p s).track.entries = s.track.entries.map (Entry.losing s.link.lines[p]) := by
  unfold displaceFetch
  split
  · rename_i h
    conv_lhs => rw [← List.map_id s.track.entries]
    exact List.map_congr_left fun e _ => (losing_closed h e).symm
  · rename_i y h
    refine List.map_congr_left fun e _ => ?_
    unfold Entry.losing
    by_cases hj : e.jar = y.jar
    · have : fetches e.jar s.link.lines[p] = true := (fetches_iff _ _).2 ⟨y, h, hj.symm⟩
      rw [if_pos (by simp [hj]), this]
      rfl
    · have : fetches e.jar s.link.lines[p] = false := by
        rw [← Bool.not_eq_true, fetches_iff]
        rintro ⟨z, hz, hzj⟩
        rw [h, Option.some.injEq] at hz
        exact hj (by rw [hz, hzj])
      rw [if_neg (by simp [hj]), this]
      rfl

/-- The discharge of a head closes the fetch of its line. -/
def closesFetch (jar : Word32) (h : Service) (l : HeadLine) : Bool := leavesScan h || fetches jar l

theorem dischargeHead_entries (p : Head) (jar : Word32) (s : State) : (dischargeHead p jar s).track.entries
    = if closesFetch jar s.heads[p].service s.link.lines[p] then s.track.entries.map (Entry.losing s.link.lines[p])
      else s.track.entries := by
  have hlink : (releaseBinding p jar s).link = s.link := by rw [releaseBinding_frame]
  have hheads : (displaceFetchOf p jar (releaseBinding p jar s)).heads = s.heads := by
    rw [linesAndEntries_displaceFetchOf, releaseBinding_frame]
  have hleave (u : State) : (leaveScan p u).track.entries = u.track.entries.map (Entry.losing u.link.lines[p]) := by
    unfold leaveScan
    rw [displaceFetch_entries, lines_modLine_same]
    rfl
  have hline : (releaseBinding p jar s).link.lines[p] = s.link.lines[p] :=
    congrArg (fun x : HeadLink => x.lines[p]) hlink
  have htrack : (releaseBinding p jar s).track = s.track := releaseBinding_track p jar s
  unfold dischargeHead closesFetch
  rw [leaveScanIfMarked_eq, hheads, displaceFetchOf_eq, hlink]
  cases fetches jar s.link.lines[p] with
  | true =>
    have hdrop : (displaceFetch p (releaseBinding p jar s)).track.entries
        = s.track.entries.map (Entry.losing s.link.lines[p]) := by rw [displaceFetch_entries, hline, htrack]
    rw [Bool.or_true]
    simp only [if_true]
    split
    · rw [hleave, hdrop, List.map_map]
      exact List.map_congr_left fun e _ => losing_closed (by rw [lines_displaceFetch_same]) _
    · exact hdrop
  | false =>
    simp only [Bool.or_false, Bool.false_eq_true, if_false]
    split
    · rw [hleave, hline, htrack]
    · rw [htrack]

/-! ### One head through a purge (R83, R107) -/

/-- What the departure of the entry `e` in a purge leaves of the binding and the line of head `p`. -/
def purgedBy (x : Nat) (h : Service) (p : Head) (e : Entry) (b : Binding × HeadLine) : Binding × HeadLine :=
  if e.position < x ∧ e.pocket = p then (releasedBinding e.jar b.2.tag b.1, dischargedLine e.jar h b.2) else b

theorem purgeTurret_eq (e : Entry) (s : State) : purgeTurret e s
    = if e.position < s.track.geometry.x then dischargeHead e.pocket e.jar s else s := rfl

theorem purgeTurret_frame (e : Entry) (s : State) : purgeTurret e s = { s with
    capping := (purgeTurret e s).capping, track.entries := (purgeTurret e s).track.entries
    link.lines := (purgeTurret e s).link.lines } := by
  rw [purgeTurret_eq]
  split
  · rw [dischargeHead_frame]
  · rfl

theorem bindings_set_other {r : Head} (x : Vector Binding 18) (b : Binding) (h : r ≠ p) : (x.set r b)[p] = x[p] := by
  simp only [Fin.getElem_fin, Vector.getElem_set]
  exact if_neg fun a => h (Fin.ext a)

theorem purgeTurret_head (p : Head) (e : Entry) (s : State) :
    ((purgeTurret e s).capping[p], (purgeTurret e s).link.lines[p])
      = purgedBy s.track.geometry.x s.heads[p].service p e (s.capping[p], s.link.lines[p]) := by
  rw [purgeTurret_eq]
  unfold purgedBy
  by_cases hx : e.position < s.track.geometry.x
  · rw [if_pos hx]
    by_cases hp : e.pocket = p
    · subst hp
      rw [if_pos ⟨hx, rfl⟩, dischargeHead_line, dischargeHead_frame]
      simp
    · rw [if_neg fun a => hp a.2, dischargeHead_others hp, dischargeHead_frame]
      exact congrArg (·, s.link.lines[p]) (bindings_set_other _ _ hp)
  · rw [if_neg hx, if_neg fun a => hx a.1]

/-- The entry `e` rides below x on head `p`. -/
def ridesOn (x : Nat) (p : Head) (e : Entry) : Bool := decide (e.position < x) && e.pocket == p

theorem ridesOn_iff {x : Nat} : ridesOn x p e = true ↔ e.position < x ∧ e.pocket = p := by
  simp [ridesOn]

theorem purgedBy_rides {x : Nat} (h : Service) (b : Binding × HeadLine) (hr : ridesOn x p e = true) :
    purgedBy x h p e b = (releasedBinding e.jar b.2.tag b.1, dischargedLine e.jar h b.2) :=
  if_pos (ridesOn_iff.1 hr)

theorem purgedBy_passes {x : Nat} (h : Service) (b : Binding × HeadLine) (hr : ridesOn x p e = false) :
    purgedBy x h p e b = b :=
  if_neg fun a => by simp [ridesOn_iff.2 a] at hr

theorem dischargedLine_tag (jar : Word32) (h : Service) (l : HeadLine) : (dischargedLine jar h l).tag = l.tag := by
  unfold dischargedLine
  split
  · rfl
  · split <;> rfl

theorem dischargedLine_fetch (jar : Word32) (h : Service) (l : HeadLine) :
    (dischargedLine jar h l).fetch = if closesFetch jar h l then none else l.fetch := by
  unfold dischargedLine closesFetch
  cases leavesScan h <;> cases fetches jar l <;> rfl

/-- The binding of a head after the departures of a purge: it is released if one of the jars is bound to it. -/
theorem purged_binding (x : Nat) (h : Service) (p : Head) (es : List Entry) : ∀ b : Binding × HeadLine,
    (es.foldl (fun b e => purgedBy x h p e b) b).1 = if es.any (fun e => ridesOn x p e && b.1.bound == some e.jar) then
      ⟨none, .none, if b.1.stage = .applied then some b.2.tag else none⟩ else b.1 := by
  induction es with
  | nil => exact fun _ => rfl
  | cons e es ih =>
    intro b
    rw [List.foldl_cons, ih, List.any_cons]
    cases hr : ridesOn x p e with
    | false => rw [purgedBy_passes h b hr]; rfl
    | true =>
      rw [purgedBy_rides h b hr]
      by_cases hb : b.1.bound = some e.jar
      · simp [releasedBinding, hb]
      · simp [releasedBinding, hb, dischargedLine_tag]

/-- The line of a head after the departures of a purge. -/
theorem purged_line (x : Nat) (h : Service) (p : Head) (es : List Entry) : ∀ b : Binding × HeadLine,
    (es.foldl (fun b e => purgedBy x h p e b) b).2 = if leavesScan h && es.any (ridesOn x p) then
        { b.2 with slot := .empty, fetch := none, unconfirmed := none }
      else if es.any (fun e => ridesOn x p e && fetches e.jar b.2) then { b.2 with fetch := none } else b.2 := by
  induction es with
  | nil => intro b; simp
  | cons e es ih =>
    intro b
    rw [List.foldl_cons, ih, List.any_cons, List.any_cons]
    cases hr : ridesOn x p e with
    | false => rw [purgedBy_passes h b hr]; rfl
    | true =>
      rw [purgedBy_rides h b hr]
      cases hl : leavesScan h with
      | true => simp [dischargedLine, hl, fetches_closed]
      | false =>
        cases hf : fetches e.jar b.2 with
        | true => simp [dischargedLine, hl, hf, fetches_closed]
        | false => simp [dischargedLine, hl, hf]

/-- What the departure of the entry `e` in a purge makes of an entry. -/
def Entry.besidePurge (e : Entry) (s : State) (f : Entry) : Entry :=
  if e.position < s.track.geometry.x ∧ closesFetch e.jar s.heads[e.pocket].service s.link.lines[e.pocket] then
    f.losing s.link.lines[e.pocket]
  else f

theorem purgeTurret_entries (e : Entry) (s : State) :
    (purgeTurret e s).track.entries = s.track.entries.map (e.besidePurge s) := by
  have hid : s.track.entries = s.track.entries.map (fun f => f) := (List.map_id _).symm
  rw [purgeTurret_eq]
  unfold Entry.besidePurge
  by_cases hx : e.position < s.track.geometry.x
  · rw [if_pos hx, dischargeHead_entries]
    generalize closesFetch e.jar s.heads[e.pocket].service s.link.lines[e.pocket] = c
    cases c with
    | true => simp only [hx, and_self, if_true]
    | false => simp [hx]
  · simp only [hx, false_and, if_false]
    exact hid

theorem besidePurge_label (e f : Entry) (s : State) : (e.besidePurge s f).label = f.label := by
  unfold Entry.besidePurge
  split <;> rfl

theorem besidePurge_position (e f : Entry) (s : State) : (e.besidePurge s f).position = f.position :=
  congrArg Label.position (besidePurge_label e f s)

theorem purgedBy_beside (x : Nat) (h : Service) (p : Head) (e f : Entry) (s : State) (b : Binding × HeadLine) :
    purgedBy x h p (e.besidePurge s f) b = purgedBy x h p f b := by
  have hl := besidePurge_label e f s
  unfold purgedBy
  rw [show (e.besidePurge s f).position = f.position from congrArg Label.position hl,
    show (e.besidePurge s f).pocket = f.pocket from congrArg Label.pocket hl,
    show (e.besidePurge s f).jar = f.jar from congrArg Label.jar hl]

/-! ### The departure of the oldest entry -/

/-- In FAULT with no request pending nothing follows a departure at once. -/
theorem depart_inFault (disp : Disposition) (f : Entry) (hf : s.run.state = .fault) (hq : s.run.request = none) :
    depart disp f s = handToRecords disp (departing disp f) (removed f s) := by
  have hrun : (handToRecords disp (departing disp f) (removed f s)).run = s.run := by
    rw [handToRecords_frame, removed_frame]
  rw [depart_eq]
  change drainEnd (waitTurretEnd (handToRecords disp (departing disp f) (left f s))) = _
  rw [left_calm (.inl hq)]
  unfold waitTurretEnd
  rw [if_neg (by simp [hrun, hf])]
  unfold drainEnd
  rw [if_neg (by simp [hrun, hf])]

/-- The oldest entry as it departs, and the entries it leaves. -/
theorem purgeOldest_eq (he : s.track.entries = e :: es) (hf : s.run.state = .fault) (hq : s.run.request = none) :
    purgeOldest s = handToRecords .purged (departing .purged (e.besidePurge s e))
      (removed (e.besidePurge s e) (purgeTurret e s)) := by
  have hentries := purgeTurret_entries e s
  rw [he, List.map_cons] at hentries
  have hpos : (e.besidePurge s e).position = e.position := congrArg Label.position (besidePurge_label e e s)
  have hfound : entryAt e.position (purgeTurret e s) = some (e.besidePurge s e) := by
    simp [entryAt, hentries, hpos]
  have hrun : (purgeTurret e s).run = s.run := by rw [purgeTurret_frame]
  unfold purgeOldest
  rw [he]
  simp only [hfound]
  exact depart_inFault _ _ (by rw [hrun, hf]) (by rw [hrun, hq])

/-- What the departure of the oldest entry `e` leaves, before the entries `es` that follow it. -/
structure PurgedOne (e : Entry) (es : List Entry) (s t : State) : Prop where
  run : t.run = s.run
  heads : t.heads = s.heads
  track : t.track = { s.track with entries := es.map (e.besidePurge s)
                                   activeCount := t.track.activeCount, retiringCount := t.track.retiringCount }
  recipes : t.recipes = { s.recipes with retiring := t.recipes.retiring }
  turret : ∀ p : Head, (t.capping[p], t.link.lines[p])
    = purgedBy s.track.geometry.x s.heads[p].service p e (s.capping[p], s.link.lines[p])
  queue : s.records.queue.length < 512 →
    t.records.queue = s.records.queue ++ [recordOf true .purged (departing .purged (e.besidePurge s e))]

theorem purgeOldest_one (he : s.track.entries = e :: es) (hf : s.run.state = .fault) (hq : s.run.request = none)
    (hpos : PositionsFall s) : PurgedOne e es s (purgeOldest s) := by
  have hlabel (f : Entry) : (e.besidePurge s f).position = f.position :=
    congrArg Label.position (besidePurge_label e f s)
  have hturret := purgeTurret_frame e s
  have hentries := purgeTurret_entries e s
  have hhead := fun p => purgeTurret_head p e s
  rw [he, List.map_cons] at hentries
  rw [purgeOldest_eq he hf hq]
  generalize purgeTurret e s = u at *
  have hhand := handToRecords_frame .purged (departing .purged (e.besidePurge s e)) (removed (e.besidePurge s e) u)
  have hremoved := removed_frame (e.besidePurge s e) u
  have htrack := removed_entries (e.besidePurge s e) u
  have hleft : u.track.entries.filter (fun f => f.position != (e.besidePurge s e).position)
      = es.map (e.besidePurge s) := by
    rw [hentries, List.filter_cons_of_neg (by simp), List.filter_eq_self]
    intro f hfm
    obtain ⟨g, hg, rfl⟩ := List.mem_map.1 hfm
    rw [PositionsFall, he, List.pairwise_cons] at hpos
    have := hpos.1 g hg
    simp only [hlabel, bne_iff_ne, ne_eq]
    omega
  have hrecipes : (removed (e.besidePurge s e) u).recipes
      = { u.recipes with retiring := (removed (e.besidePurge s e) u).recipes.retiring } := by
    rcases removed_recipes (e.besidePurge s e) u with h | h
    · rw [h]
    · rw [h.2.2]
  have hutrack : u.track = { s.track with entries := u.track.entries } := by rw [hturret]
  have hurecipes : u.recipes = s.recipes := by rw [hturret]
  have huqueue : u.records = s.records := by rw [hturret]
  have hqueue := appendRecord_queue (recordOf true .purged (departing .purged (e.besidePurge s e)))
    (removed (e.besidePurge s e) u)
  rw [show (appendRecord (recordOf true .purged (departing .purged (e.besidePurge s e)))
      (removed (e.besidePurge s e) u)).records = (handToRecords .purged (departing .purged (e.besidePurge s e))
        (removed (e.besidePurge s e) u)).records by rw [handToRecords_some rfl],
    show (removed (e.besidePurge s e) u).records = s.records by rw [hremoved, huqueue]] at hqueue
  generalize handToRecords .purged (departing .purged (e.besidePurge s e)) (removed (e.besidePurge s e) u) = t at *
  have httrack : t.track = (removed (e.besidePurge s e) u).track := by rw [hhand]
  refine ⟨?_, ?_, ?_, ?_, fun p => ?_, fun hlen => ?_⟩
  · rw [hhand, hremoved, hturret]
  · rw [hhand, hremoved, hturret]
  · rw [httrack, htrack, hleft, hutrack]
  · rw [hhand]
    change (removed (e.besidePurge s e) u).recipes = _
    rw [hrecipes, hurecipes]
  · rw [← hhead p, hhand, hremoved]
  · rw [hqueue, if_neg (by omega)]

/-! ### The purge -/

/-- The record `r` is that of the entry `e`, which departs PURGED (R17, R21, R107). -/
structure Recorded (s : State) (e : Entry) (r : JarRecord) : Prop where
  jar : r.jar = e.jar
  disposition : r.disposition = .purged
  head : r.head = e.pocket
  finalClass : r.finalClass = e.finalClass.or (e.capClass.bind CapClass.final)
  trace : r.trace = e.trace
  lost : e.flags.has .traceLost = true → r.flags.has .traceLost = true
  closed : ∀ p : Head, ridesOn s.track.geometry.x p e = true → fetches e.jar s.link.lines[p] = true →
    r.flags.has .traceLost = true
  cause : r.flags.has .traceLost = true → e.flags.has .traceLost = true
    ∨ ∃ p : Head, fetches e.jar s.link.lines[p] = true

theorem besidePurge_lost (e : Entry) (s : State) (f : Entry) : (e.besidePurge s f).flags.has .traceLost
    = (f.flags.has .traceLost || decide (e.position < s.track.geometry.x)
      && closesFetch e.jar s.heads[e.pocket].service s.link.lines[e.pocket] && fetches f.jar s.link.lines[e.pocket]) := by
  unfold Entry.besidePurge Entry.losing
  by_cases hx : e.position < s.track.geometry.x
  · cases closesFetch e.jar s.heads[e.pocket].service s.link.lines[e.pocket] <;> simp [hx, has_addIf]
  · simp [hx]

theorem recorded_oldest (e : Entry) (s : State) :
    Recorded s e (recordOf true .purged (departing .purged (e.besidePurge s e))) := by
  have hkept : e.besidePurge s e = { e with flags := (e.besidePurge s e).flags } := by
    unfold Entry.besidePurge
    split <;> rfl
  have hlost := besidePurge_lost e s e
  generalize e.besidePurge s e = f at *
  refine ⟨by rw [hkept]; rfl, rfl, by rw [hkept]; rfl, by rw [hkept]; rfl, by rw [hkept]; rfl, fun h => ?_,
    fun p hr h => ?_, fun h => ?_⟩
  · change f.flags.has .traceLost = true
    rw [hlost, h, Bool.true_or]
  · change f.flags.has .traceLost = true
    obtain ⟨hx, hp⟩ := ridesOn_iff.1 hr
    subst hp
    rw [hlost, closesFetch, h]
    simp [hx]
  · change f.flags.has .traceLost = true at h
    rw [hlost, Bool.or_eq_true, Bool.and_eq_true] at h
    exact h.imp_right fun a => ⟨e.pocket, a.2⟩

/-- The line of a head after the departure of the oldest entry: a fetch that is gone has left its mark. -/
theorem PurgedOne.fetch (h : PurgedOne e es s t) (p : Head) (f : Entry) :
    (fetches f.jar t.link.lines[p] = true → fetches f.jar s.link.lines[p] = true)
      ∧ (fetches f.jar s.link.lines[p] = true → fetches f.jar t.link.lines[p] = true
        ∨ (e.besidePurge s f).flags.has .traceLost = true) := by
  have hline := congrArg Prod.snd (h.turret p)
  simp only at hline
  rw [hline]
  cases hr : ridesOn s.track.geometry.x p e with
  | false => rw [purgedBy_passes _ _ hr]; exact ⟨id, .inl⟩
  | true =>
    rw [purgedBy_rides _ _ hr]
    obtain ⟨hx, hp⟩ := ridesOn_iff.1 hr
    subst hp
    unfold fetches
    simp only [dischargedLine_fetch]
    have hlost := besidePurge_lost e s f
    cases hc : closesFetch e.jar s.heads[e.pocket].service s.link.lines[e.pocket] with
    | false => exact ⟨id, .inl⟩
    | true =>
      refine ⟨fun a => by simp at a, fun a => .inr ?_⟩
      rw [hlost, hc, show fetches f.jar s.link.lines[e.pocket] = true from a]
      simp [hx]

theorem PurgedOne.recorded (h : PurgedOne e es s t) {f : Entry} {r : JarRecord}
    (hr : Recorded t (e.besidePurge s f) r) : Recorded s f r := by
  have hkept : e.besidePurge s f = { f with flags := (e.besidePurge s f).flags } := by
    unfold Entry.besidePurge
    split <;> rfl
  have hlost := besidePurge_lost e s f
  have hfetch := fun p => h.fetch p f
  have hgeo : t.track.geometry = s.track.geometry := by rw [h.track]
  obtain ⟨h1, h2, h3, h4, h5, h6, h7, h8⟩ := hr
  rw [hgeo] at h7
  generalize e.besidePurge s f = g at *
  have hj : g.jar = f.jar := by rw [hkept]
  have hrides (p : Head) : ridesOn s.track.geometry.x p g = ridesOn s.track.geometry.x p f := by rw [hkept]; rfl
  rw [hj] at h8
  refine ⟨h1.trans hj, h2, h3.trans (by rw [hkept]), h4.trans (by rw [hkept]), h5.trans (by rw [hkept]), fun a => h6 ?_,
    fun p hp hf => ?_, fun a => ?_⟩
  · rw [hlost, a]
    rfl
  · exact ((hfetch p).2 hf).elim (fun b => h7 p ((hrides p).trans hp) (hj ▸ b)) h6
  · rcases h8 a with b | ⟨p, b⟩
    · rw [hlost, Bool.or_eq_true, Bool.and_eq_true] at b
      exact b.imp_right fun c => ⟨e.pocket, c.2⟩
    · exact .inr ⟨p, (hfetch p).1 b⟩

/-- What the purge of a Track leaves. -/
structure PurgedAll (s t : State) : Prop where
  run : t.run = s.run
  track : t.track = { s.track with entries := [], activeCount := t.track.activeCount
                                   retiringCount := t.track.retiringCount }
  recipes : t.recipes = { s.recipes with retiring := t.recipes.retiring }
  turret : ∀ p : Head, (t.capping[p], t.link.lines[p]) = s.track.entries.foldl
    (fun b e => purgedBy s.track.geometry.x s.heads[p].service p e b) (s.capping[p], s.link.lines[p])
  queue : s.records.queue.length + s.track.entries.length ≤ 512 →
    ∃ rs, t.records.queue = s.records.queue ++ rs ∧ List.Forall₂ (Recorded s) s.track.entries rs

theorem purge_all (n : Nat) : ∀ s : State, s.run.state = .fault → s.run.request = none → PositionsFall s →
    s.track.entries.length ≤ n → PurgedAll s (purge n s) := by
  induction n with
  | zero =>
    intro s _ _ _ hn
    have he := List.length_eq_zero_iff.1 (Nat.le_zero.1 hn)
    exact ⟨rfl, by rw [← he]; rfl, rfl, fun p => by rw [he]; rfl, fun _ => ⟨[], by simp [purge], by rw [he]; exact .nil⟩⟩
  | succ n ih =>
    intro s hf hq hpos hn
    cases he : s.track.entries with
    | nil =>
      have : purgeOldest s = s := by simp [purgeOldest, he]
      rw [purge, this]
      exact ih s hf hq hpos (by simp [he])
    | cons e es =>
      have h := purgeOldest_one he hf hq hpos
      have hentries : (purgeOldest s).track.entries = es.map (e.besidePurge s) := by rw [h.track]
      have hgeo : (purgeOldest s).track.geometry = s.track.geometry := by rw [h.track]
      rw [PositionsFall, he, List.pairwise_cons] at hpos
      have hfall : PositionsFall (purgeOldest s) := by
        rw [PositionsFall, hentries, List.pairwise_map]
        refine hpos.2.imp fun {f g} hlt => ?_
        rwa [besidePurge_position, besidePurge_position]
      have a := ih (purgeOldest s) (by rw [h.run, hf]) (by rw [h.run, hq]) hfall (by
        rw [he, List.length_cons] at hn
        rw [hentries, List.length_map]
        omega)
      rw [purge]
      refine ⟨a.run.trans h.run, a.track.trans (by rw [h.track]), a.recipes.trans (by rw [h.recipes]), fun p => ?_,
        fun hlen => ?_⟩
      · rw [a.turret p, hentries, List.foldl_map, hgeo, h.heads, h.turret p, he, List.foldl_cons]
        simp only [purgedBy_beside]
      · rw [he, List.length_cons] at hlen
        have hqueue := h.queue (by omega)
        obtain ⟨rs, hrs, hall⟩ := a.queue (by
          rw [hqueue, hentries, List.length_append, List.length_map, List.length_singleton]
          omega)
        rw [hentries, List.forall₂_map_left_iff] at hall
        refine ⟨_ :: rs, by rw [hrs, hqueue, List.append_assoc]; rfl, ?_⟩
        rw [he]
        exact .cons (recorded_oldest e s) (hall.imp fun _ _ hr => h.recorded hr)

/-- The purge head by head (R83, R107). -/
theorem PurgedAll.head (h : PurgedAll s t) (p : Head) :
    let x := s.track.geometry.x
    let bound := ∃ e ∈ s.track.entries, e.position < x ∧ e.pocket = p ∧ s.capping[p].bound = some e.jar
    let lost := ∃ e ∈ s.track.entries, e.position < x ∧ e.pocket = p
      ∧ ∃ f, s.link.lines[p].fetch = some f ∧ f.jar = e.jar
    let out := (s.heads[p].service = .markedOut .host ∨ s.heads[p].service = .markedOut .failures)
      ∧ ∃ e ∈ s.track.entries, e.position < x ∧ e.pocket = p
    (bound → t.capping[p]
        = ⟨none, .none, if s.capping[p].stage = .applied then some s.link.lines[p].tag else none⟩)
      ∧ (¬bound → t.capping[p] = s.capping[p])
      ∧ (out → t.link.lines[p] = { s.link.lines[p] with slot := .empty, fetch := none, unconfirmed := none })
      ∧ (¬out → lost → t.link.lines[p] = { s.link.lines[p] with fetch := none })
      ∧ (¬out → ¬lost → t.link.lines[p] = s.link.lines[p]) := by
  intro x bound lost out
  have hbound : s.track.entries.any (fun e => ridesOn x p e && s.capping[p].bound == some e.jar) = true ↔ bound := by
    simp only [List.any_eq_true, Bool.and_eq_true, ridesOn_iff, beq_iff_eq, and_assoc, bound]
  have hlost : s.track.entries.any (fun e => ridesOn x p e && fetches e.jar s.link.lines[p]) = true ↔ lost := by
    simp only [List.any_eq_true, Bool.and_eq_true, ridesOn_iff, fetches_iff, and_assoc, lost]
  have hout : (leavesScan s.heads[p].service && s.track.entries.any (ridesOn x p)) = true ↔ out := by
    simp only [List.any_eq_true, Bool.and_eq_true, ridesOn_iff, leavesScan_iff, out]
  have hbinding := (congrArg Prod.fst (h.turret p)).trans (purged_binding _ _ _ _ _)
  have hline := (congrArg Prod.snd (h.turret p)).trans (purged_line _ _ _ _ _)
  simp only at hbinding hline
  refine ⟨fun a => ?_, fun a => ?_, fun a => ?_, fun a b => ?_, fun a b => ?_⟩
  · rw [hbinding, if_pos (hbound.2 a)]
  · rw [hbinding, if_neg (fun c => a (hbound.1 c))]
  · rw [hline, if_pos (hout.2 a)]
  · rw [hline, if_neg (fun c => a (hout.1 c)), if_pos (hlost.2 b)]
  · rw [hline, if_neg (fun c => a (hout.1 c)), if_neg (fun c => b (hlost.1 c))]

/-! ### CLEAR FAULT of a frozen Track (R21, R37) -/

/-- The end of DRAIN with no entry on the Track (R30). -/
theorem enterDrain_empty (h : s.track.entries = []) : enterDrain s = enterIdle (setRunState .drain s) := by
  unfold enterDrain drainEnd
  rw [if_pos (by simp [setRunState, remakeDecision, h])]

/-- A frozen Track is purged and the fault ends in IDLE. -/
theorem leaveFault_frozen (hfr : frozen s = true) (hf : s.run.state = .fault) (hq : s.run.request = none)
    (hpos : PositionsFall s) (hcounts : CountsMatch s) (hb : BanksMatch s) : ∃ t, PurgedAll s t
      ∧ t.track = { s.track with entries := [], activeCount := 0, retiringCount := 0 }
      ∧ t.recipes = { s.recipes with retiring := none }
      ∧ leaveFault s = enterIdle (setRunState .drain { t with run.causes := noMembers 7 }) := by
  have h := purge_all s.track.entries.length s hf hq hpos (Nat.le_refl _)
  have k : Keeps (Scope.plain (.clearFault [] default)) s (purge s.track.entries.length s) := keeps_purge rfl _ s
  have hentries : (purge s.track.entries.length s).track.entries = [] := by rw [h.track]
  obtain ⟨hactive, hretiring⟩ := (k.track ⟨hpos, hcounts⟩).2
  have hbanks := (k.banks hb).1
  rw [hentries] at hactive hretiring
  refine ⟨_, h, ?_, ?_, ?_⟩
  · rw [h.track, hactive, hretiring]
    rfl
  · rw [h.recipes]
    rw [hretiring] at hbanks
    have : (purge s.track.entries.length s).recipes.retiring = none := by
      simpa using hbanks
    rw [this]
  · unfold leaveFault
    rw [hfr]
    exact enterDrain_empty hentries

end Sys2Proof.Machine

namespace Sys2Proof.Proofs

open Sys2Proof.Machine

/-- Settles O37: the purge entry by entry, with its records, and head by head. -/
theorem frozenTrackPurged : Obligations.FrozenTrackPurged := by
  intro lp s hready hpos hcounts hb g below fetchOf hf hq hflt hfr
  have htrack : (sampleLift lp g).track = s.track := by
    change (goodFrame s).track = s.track
    rw [goodFrame_frame]
  have hrecipes : (sampleLift lp g).recipes = s.recipes := by
    change (goodFrame s).recipes = s.recipes
    rw [goodFrame_frame]
  have hbanks : BanksMatch (sampleLift lp g) := by
    refine ⟨?_, ?_, fun h => ?_⟩
    · rw [hrecipes, htrack]; exact hb.1
    · rw [hrecipes, htrack]; exact hb.2.1
    · rw [show (sampleLift lp g).run.state = .fault from hf] at h
      simp at h
  obtain ⟨t, hall, htt, htr, hleave⟩ := leaveFault_frozen (s := sampleLift lp g) hfr hf hq
    (by rwa [PositionsFall, htrack]) (by rwa [CountsMatch, htrack]) hbanks
  have hblock : clearFaultBlock lp g = .plain .done (leaveFault (sampleLift lp g)) := by
    unfold clearFaultBlock
    simp only
    rw [if_neg (by simp [hf]), if_neg (by simp [sampleLift, hflt])]
  rw [hleave] at hblock
  refine ⟨_, next_ready hready rfl rfl hblock, rfl, rfl, rfl, htt, htr, fun hlen => ?_, fun p => ?_⟩
  · obtain ⟨rs, hrs, hrecords⟩ := hall.queue hlen
    refine ⟨rs, hrs, hrecords.imp fun e r h => ⟨h.jar, h.disposition, h.head, h.finalClass, h.trace, fun a => ?_,
      fun a => ?_⟩⟩
    · rcases a with a | ⟨a, b⟩
      · exact h.lost a
      · exact h.closed e.pocket (ridesOn_iff.2 ⟨a, rfl⟩) ((fetches_iff _ _).2 b)
    · refine (h.cause a).imp_right fun ⟨p, b⟩ => ?_
      obtain ⟨y, hy⟩ := (fetches_iff _ _).1 b
      exact ⟨p, y, hy⟩
  · obtain ⟨h1, h2, h3, h4, h5⟩ := hall.head p
    refine ⟨h1, h2, h3, fun a b => h4 a ?_, fun a b => h5 a fun c => b ?_⟩
    · obtain ⟨e, he, hx, rfl, hy⟩ := b
      exact ⟨e, he, hx, rfl, hy⟩
    · obtain ⟨e, he, hx, rfl, hy⟩ := c
      exact ⟨e, he, hx, rfl, hy⟩

end Sys2Proof.Proofs
end

