-- ==== Sys2Proof/Proofs/Admission.lean ====
section
/-! PROOFS. The admission of a jar: the entry it makes, the batch and the banks after its pitch, and the marks of a
FAULT entered on that pitch (R11, R13, R18, R34, R54, R57). -/

-- One declaration is checked after another: side by side they take more threads than the memory limit allows.
set_option Elab.async false

namespace Sys2Proof.Machine

variable {o : Reach} {s t u v w : State} {e f : Entry} {p : Head} {jar : Word32} {rs : RunState} {d : Decision}
  {pins : PitchPins} {l m : List PitchAct} {irt : Nat} {order : List PitchAct}

/-! ### The acts before and after the infeed -/

/-- The run control, the recipes and the counts of the banks, in a pitch in which no swap follows. -/
def Reach.calmly (awake active retiring : Bool) : Reach where
  check := false
  gate := false
  awake := awake
  unconf := false
  heads := false
  bench := false
  calm := true
  active := active
  retiring := retiring
  jar := false
  line := false

/-- The jar admitted, and with `n` the line of its head, in whatever else a pitch does. -/
def Reach.admitted (j n : Bool) : Reach where
  check := false
  gate := false
  awake := false
  unconf := false
  heads := false
  bench := false
  calm := false
  active := false
  retiring := false
  jar := j
  line := n

/-- A pitch that admits, as the acts before the infeed, the admission and the acts after it. -/
structure AdmitsAt (pins : PitchPins) (order : List PitchAct) (s v : State) (l m : List PitchAct) : Prop where
  acts : pitchActs order = l ++ .infeed :: m
  noneBefore : PitchAct.infeed ∉ l
  noneAfter : PitchAct.infeed ∉ m
  nodup : (l ++ PitchAct.infeed :: m).Nodup
  before : v = takeActs s.run.state s.gate.decision pins l (pitchStart pins s)
  after : forwardPitch pins order s = remakeDecision (waitTurretEnd (takeActs s.run.state s.gate.decision pins m
    (admission pins.irt.toNat v)))
  ready : (∀ e ∈ v.track.entries, 0 < e.position) ∧ v.recipes.active.isSome = true ∧ Awake v.run.state

theorem forwardPitch_admits (order : List PitchAct) (hg : GateAndBanks s) (hfr : frozen s = false)
    (hd : s.gate.decision = .admitJar) (hj : pins.jarIn = true) : ∃ v l m, AdmitsAt pins order s v l m := by
  obtain ⟨l, m, horder, hl, hm, hn, hend⟩ := pitchEnd_split pins order s .infeed
  have hi := infeedReady_pitchStart (pins := pins) hg (l ++ .infeed :: m)
  obtain ⟨_, hiv⟩ := keeps_takeActs (o := { Scope.acts with outK := true }) (rs := s.run.state) (pins := pins)
    (m := .infeed :: m) (l := l) rfl rfl (fun a => Bool.noConfusion a) (.inl rfl) _ hn hi
  refine ⟨_, l, m, horder, hl, hm, hn, rfl, ?_, hiv (List.mem_cons_self ..) hd⟩
  rw [forwardPitch_moving order hfr, hend, actAtInfeed_admits hd hj]

theorem AdmitsAt.beside_before (h : AdmitsAt pins order s v l m) (hg : GateAndBanks s) (hj : o.jar = false)
    (hline : o.line = false) (hk : o.check = false ∧ o.heads = false) (hu : o.unconf = false) (hb : o.bench = false)
    (hbanks : BanksHeld o (pitchStart pins s)) : Beside o 0 0 0 (pitchStart pins s) v := by
  rw [h.before]
  exact (beside_acts (m := .infeed :: m) l _ h.nodup (infeedReady_pitchStart hg _) (fun a => by simp [hline] at a)
    (fun a => by simp [hj] at a) (fun a => by simp [hline] at a) (fun a => absurd a h.noneBefore) (fun _ => hk)
    (fun _ => hu) hb hbanks).1

/-- What comes after the admission, seen from beside or from the jar admitted. -/
theorem AdmitsAt.beside_after (h : AdmitsAt pins order s v l m)
    (hgeo : GeometryOk (admission pins.irt.toNat v).track.geometry)
    (hj : o.jar = true → Placed jar 0 (admission pins.irt.toNat v))
    (hline : o.line = true → o.jar = true ∧ Alone jar 0 p (admission pins.irt.toNat v))
    (hk : o.check = false ∧ o.heads = false) (hu : o.unconf = false) (hb : o.bench = false)
    (hbanks : BanksHeld o (admission pins.irt.toNat v)) :
    Beside o jar 0 p (admission pins.irt.toNat v) (forwardPitch pins order s) := by
  have hg := (geometryOk_iff _).1 hgeo
  have hn := (List.nodup_cons.1 (List.nodup_append.1 h.nodup).2.1).2
  rw [h.after]
  refine Beside.trans (beside_acts (m := []) m _ (by simpa using hn)
    (fun a => absurd a (by simpa using h.noneAfter)) (fun _ => hgeo) (fun a => ⟨hj a, fun b _ => ?_⟩) hline
    (fun a => absurd a h.noneAfter) (fun _ => hk) (fun _ => hu) hb hbanks).1 beside_pitchTail
  cases b <;> simp [actPlace] <;> omega

/-! ### The steps of an admission (R13, R29, R34) -/

/-- The entry that an admission makes. -/
def admittedEntry (irt : Nat) (s : State) : Entry := newEntry irt (admissionSwap s)

/-- The state in which the entry has joined, with the marks of a FAULT that stands (R34). -/
def markedJoin (irt : Nat) (s : State) : State :=
  faultAdmitted (admittedEntry irt s) (joined irt (admissionSwap s))

/-- The admitted count has risen (R13 step 6). -/
def counted (s : State) : State := { s with run.admitted := satInc max32 s.run.admitted }

/-- The admission ends the batch (R29). -/
def batchOver (r : RunControl) : Bool := r.batchSize != 0 && decide (r.batchSize ≤ satInc max32 r.admitted)

theorem countAdmission_eq (s : State) :
    countAdmission s = if batchOver s.run then batchEnd (counted s) else counted s := rfl

theorem linesAndEntries_faultAdmitted (e : Entry) (s : State) : LinesAndEntries s (faultAdmitted e s) := by
  unfold faultAdmitted
  split
  · exact (linesAndEntries_modEntry _ _ _).trans (linesAndEntries_placeAbort _ _)
  · exact .refl s

theorem markedJoin_frame (irt : Nat) (s : State) : LinesAndEntries (joined irt (admissionSwap s)) (markedJoin irt s) :=
  linesAndEntries_faultAdmitted _ _

/-- The run control and the batch go on over an admission: with no request pending, or with none at AT_RETIRE and no
end of the batch. -/
def GoesOn (s : State) : Prop := s.run.request = none ∨ NoSwapDue s ∧ batchOver s.run = false

theorem GoesOn.still (h : GoesOn s) : NoSwapDue s := h.elim .inl fun a => a.1

theorem beside_countedOn {q : Nat} (hc : o.calm = true → GoesOn s) (ha : o.awake = true → batchOver s.run = false) :
    Beside o jar q p (counted s) (countAdmission s) := by
  rw [countAdmission_eq]
  cases hb : batchOver s.run with
  | false => exact .refl _
  | true =>
    refine beside_batchEnd ?_ fun a => (hc a).elim id fun b => by simp [hb] at b
    by_contra a
    have := ha (by simpa using a)
    simp [hb] at this

theorem mem_joined (irt : Nat) (s : State) : newEntry irt s ∈ (joined irt s).track.entries :=
  List.mem_append_right _ (List.mem_singleton.2 rfl)

theorem AdmitsAt.beside_before_bare (h : AdmitsAt pins order s v l m) (hg : GateAndBanks s) :
    Beside (Reach.admitted false false) 0 0 0 (pitchStart pins s) v :=
  h.beside_before hg rfl rfl ⟨rfl, rfl⟩ rfl rfl (.inl ⟨rfl, rfl⟩)

theorem AdmitsAt.geometry (h : AdmitsAt pins order s v l m) (hg : GateAndBanks s) :
    v.track.geometry = s.track.geometry
      ∧ (admission pins.irt.toNat v).track.geometry = s.track.geometry := by
  have hv := (h.beside_before_bare hg).keeps.geometryTurn
  rw [pitchStart_track] at hv
  have ha : Beside (Reach.admitted false false) 0 0 0 v (admission pins.irt.toNat v) :=
    beside_admission _ h.ready rfl rfl rfl (fun a => Bool.noConfusion a) (fun a => Bool.noConfusion a)
  exact ⟨hv, ha.keeps.geometryTurn.trans hv⟩

theorem AdmitsAt.swapGeometry (h : AdmitsAt pins order s v l m) (hg : GateAndBanks s) :
    (admissionSwap v).track.geometry = s.track.geometry :=
  (keeps_admissionSwap (o := Scope.turn)).geometryTurn.trans (h.geometry hg).1

/-- The end of the pitch, from the state in which the admission has been counted. -/
theorem AdmitsAt.beside_counted (h : AdmitsAt pins order s v l m) (hg : GateAndBanks s)
    (hgeo : GeometryOk s.track.geometry) (hj : o.jar = true → Placed jar 0 (markedJoin pins.irt.toNat v))
    (hline : o.line = true → o.jar = true ∧ Alone jar 0 p (markedJoin pins.irt.toNat v))
    (hk : o.check = false ∧ o.heads = false) (hu : o.unconf = false) (hb : o.bench = false)
    (hc : o.calm = true → GoesOn (markedJoin pins.irt.toNat v))
    (ha : o.awake = true → batchOver (markedJoin pins.irt.toNat v).run = false)
    (hbanks : BanksHeld o (counted (markedJoin pins.irt.toNat v))) :
    Beside o jar 0 p (counted (markedJoin pins.irt.toNat v)) (forwardPitch pins order s) := by
  have h1 : Beside o jar 0 p (counted (markedJoin pins.irt.toNat v)) (admission pins.irt.toNat v) :=
    beside_countedOn hc ha
  refine h1.trans (h.beside_after (by rwa [(h.geometry hg).2]) (fun a => h1.placed a (hj a))
    (fun a => ⟨(hline a).1, h1.alone (hline a).1 a (hline a).2⟩) hk hu hb (hbanks.beside h1))

/-! ### The batch and the banks after an admission -/

theorem markedJoin_run (irt : Nat) (s : State) : (markedJoin irt s).run = (admissionSwap s).run := by
  rw [markedJoin_frame]
  rfl

theorem noSwapDue_run (h : t.run = s.run) : NoSwapDue t ↔ NoSwapDue s := by
  unfold NoSwapDue
  rw [h]

theorem goesOn_run (h : t.run = s.run) : GoesOn t ↔ GoesOn s := by
  unfold GoesOn
  rw [noSwapDue_run h, h]

theorem noSwapDue_counted : NoSwapDue (counted s) ↔ NoSwapDue s := Iff.rfl

/-- The entry that joins stands at neither k nor j. -/
theorem BanksHeld.atJoin (h : BanksHeld o s) (hgeo : GeometryOk s.track.geometry) (irt : Nat) :
    BanksHeld o (joined irt s) := by
  have hg := (geometryOk_iff _).1 hgeo
  refine h.imp_right fun ⟨hc, hd, hb⟩ => ⟨hc, hd, fun f hf hp => ?_⟩
  rcases List.mem_append.1 hf with hf | hf
  · exact hb f hf hp
  · rw [List.mem_singleton.1 hf] at hp
    change 0 = s.track.geometry.k ∨ 0 = s.track.geometry.j at hp
    omega

theorem beside_markedJoin {q : Nat} (hj : o.jar = false) (hline : o.line = false) :
    Beside o jar q p (joined irt (admissionSwap s)) (markedJoin irt s) :=
  beside_faultAdmitted (fun a => by simp [hj] at a) (fun a => by simp [hline] at a)

/-- The counts of the banks are held from the join on. -/
theorem BanksHeld.atCount (h : BanksHeld o (joined irt (admissionSwap s))) (hj : o.jar = false)
    (hline : o.line = false) : BanksHeld o (counted (markedJoin irt s)) :=
  (h.beside (jar := 0) (q := 0) (p := 0) (beside_markedJoin hj hline)).imp_right fun ⟨hc, hd, hb⟩ => ⟨hc, hd, hb⟩

/-- The entry admitted stands at the end of the pitch, with its bank where the batch goes on. -/
theorem AdmitsAt.kin (h : AdmitsAt pins order s v l m) (hg : GateAndBanks s) (hgeo : GeometryOk s.track.geometry)
    (c : Bool) (hc : c = true → GoesOn (admissionSwap v)) : ∃ f ∈ (forwardPitch pins order s).track.entries,
      Kin c (joined pins.irt.toNat (admissionSwap v)) (admittedEntry pins.irt.toNat v) f := by
  have hgo := (geometryOk_iff _).1 hgeo
  have hrun := markedJoin_run pins.irt.toNat v
  have hga := h.swapGeometry hg
  have h1 : Beside { Reach.admitted false false with calm := c } 0 0 0 (joined pins.irt.toNat (admissionSwap v))
      (markedJoin pins.irt.toNat v) := beside_markedJoin rfl rfl
  have h2 : Beside { Reach.admitted false false with calm := c } 0 0 0 (counted (markedJoin pins.irt.toNat v))
      (forwardPitch pins order s) :=
    h.beside_counted hg hgeo (fun a => Bool.noConfusion a) (fun a => Bool.noConfusion a) ⟨rfl, rfl⟩ rfl rfl
      (fun a => (goesOn_run hrun).2 (hc a)) (fun a => Bool.noConfusion a) (.inl ⟨rfl, rfl⟩)
  have hpos : ∀ {f : Entry}, f.label = (admittedEntry pins.irt.toNat v).label → f.position = 0 :=
    fun hl => congrArg Label.position hl
  obtain ⟨f, hf, hef⟩ := h1.kin _ (mem_joined _ _)
    (by change 0 ≠ (admissionSwap v).track.geometry.k; rw [hga]; omega)
    (by change 0 ≠ (admissionSwap v).track.geometry.j; rw [hga]; omega)
  have hgm : (counted (markedJoin pins.irt.toNat v)).track.geometry = s.track.geometry :=
    h1.keeps.geometryTurn.trans hga
  obtain ⟨g, hg', hfg⟩ := h2.kin f hf (by rw [hpos hef.label, hgm]; omega) (by rw [hpos hef.label, hgm]; omega)
  refine ⟨g, hg', hef.trans hfg fun a b => ?_⟩
  exact noSwapDue_counted.2 ((noSwapDue_run hrun).2 b)

/-- The run control, the recipes and the banks at the end of the pitch, where the batch goes on. -/
theorem AdmitsAt.calm (h : AdmitsAt pins order s v l m) (hg : GateAndBanks s) (hgeo : GeometryOk s.track.geometry)
    (aw ac re : Bool) (hc : GoesOn (admissionSwap v)) (ha : aw = true → batchOver (admissionSwap v).run = false)
    (hbanks : BanksHeld (Reach.calmly aw ac re) (joined pins.irt.toNat (admissionSwap v))) :
    Beside (Reach.calmly aw ac re) 0 0 0 (counted (markedJoin pins.irt.toNat v)) (forwardPitch pins order s) :=
  have hrun := markedJoin_run pins.irt.toNat v
  h.beside_counted hg hgeo (fun a => Bool.noConfusion a) (fun a => Bool.noConfusion a) ⟨rfl, rfl⟩ rfl rfl
    (fun _ => (goesOn_run hrun).2 hc) (fun a => by rw [hrun]; exact ha a) (hbanks.atCount rfl rfl)

/-! ### The labels of the Track in an admitting pitch (R9, R11) -/

/-- Up to the join no entry has joined the Track. -/
theorem AdmitsAt.noneJoined (h : AdmitsAt pins order s v l m) : NoneJoined (pitchStart pins s) (admissionSwap v)
    ∧ (admissionSwap v).track.pocket = s.track.pocket + 1 := by
  have k : Keeps Scope.actsNoJoin (pitchStart pins s) v := by
    rw [h.before]
    exact keeps_actsNoJoin _ _ _ _ (fun a => absurd a h.noneBefore) _
  have k' := k.trans (keeps_admissionSwap (s := v))
  exact ⟨k'.joins rfl, (k'.pocket rfl).trans (by simp)⟩

theorem AdmitsAt.nextJar (h : AdmitsAt pins order s v l m) : (admissionSwap v).track.nextJar = s.track.nextJar :=
  h.noneJoined.1.1.trans (by simp)

/-- The labels of the Track at the join. -/
theorem AdmitsAt.joined_origin (h : AdmitsAt pins order s v l m)
    (hf : f ∈ (joined pins.irt.toNat (admissionSwap v)).track.entries) :
    (∃ e ∈ s.track.entries, f.label = e.moved.label) ∨ f = admittedEntry pins.irt.toNat v := by
  rcases List.mem_append.1 hf with hf | hf
  · have := h.noneJoined.1.2.subset (List.mem_map_of_mem hf)
    simp only [pitchStart_track, List.map_map, List.mem_map, Function.comp_apply] at this
    obtain ⟨e, he, hl⟩ := this
    exact .inl ⟨e, he, hl.symm⟩
  · exact .inr (List.mem_singleton.1 hf)

theorem AdmitsAt.placed (h : AdmitsAt pins order s v l m) (hd : JarsDistinct s) :
    Placed s.track.nextJar 0 (joined pins.irt.toNat (admissionSwap v)) := by
  refine ⟨⟨_, mem_joined _ _, h.nextJar⟩, fun f hf hj => ?_⟩
  rcases h.joined_origin hf with ⟨e, he, hl⟩ | rfl
  · exact absurd (hj.symm.trans (show f.jar = e.jar from congrArg Label.jar hl)) (nextJar_ne hd he)
  · rfl

/-- The jar admitted rides alone on its head (R6, R9). -/
theorem AdmitsAt.alone (h : AdmitsAt pins order s v l m) (hg : GateAndBanks s) (hgeo : GeometryOk s.track.geometry)
    (hd : JarsDistinct s) (hpk : PocketsFollow s) (hfr : frozen s = false) :
    Alone s.track.nextJar 0 (s.track.pocket + 1) (joined pins.irt.toNat (admissionSwap v)) := by
  have hgo := (geometryOk_iff _).1 hgeo
  obtain ⟨x, hride, hinfeed⟩ := hpk
  refine ⟨fun f hf hj => ?_, fun f hf hp hle => ?_⟩
  · rcases h.joined_origin hf with ⟨e, he, hl⟩ | rfl
    · exact absurd (hj.symm.trans (show f.jar = e.jar from congrArg Label.jar hl)) (nextJar_ne hd he)
    · exact h.noneJoined.2
  · rcases h.joined_origin hf with ⟨e, he, hl⟩ | rfl
    · have hpos : f.position = e.position + 1 := congrArg Label.position hl
      have hsum := hride e he
      rw [hinfeed hfr, show e.pocket = f.pocket from (congrArg Label.pocket hl).symm, hp, add_assoc] at hsum
      have := congrArg Fin.val (add_eq_left.1 hsum)
      change f.position ≤ (admissionSwap v).track.geometry.x at hle
      rw [h.swapGeometry hg] at hle
      simp [Fin.val_add, Fin.ofNat] at this
      omega
    · rfl

theorem forwardPitch_oneJoined (order : List PitchAct) (hg : GateAndBanks s) (hfr : frozen s = false)
    (hd : s.gate.decision = .admitJar) (hj : pins.jarIn = true) :
    OneJoined pins (pitchStart pins s) (forwardPitch pins order s) := by
  rw [forwardPitch_moving order hfr]
  exact ((pitchEnd_joined (pins := pins) order hg).one ⟨hd, hj, List.not_mem_nil⟩).keeps
    (keeps_pitchTail (o := Scope.actsNoJoin)) rfl

theorem forwardPitch_admitted_next (order : List PitchAct) (hg : GateAndBanks s) (hfr : frozen s = false)
    (hd : s.gate.decision = .admitJar) (hj : pins.jarIn = true) : (forwardPitch pins order s).track.nextJar
      = if s.track.nextJar = 0xFFFFFFFF#32 then 1 else s.track.nextJar + 1 := by
  have h := (forwardPitch_oneJoined (pins := pins) order hg hfr hd hj).1
  rw [pitchStart_track] at h
  exact h

theorem eq_of_countP_le_one {c : Entry → Bool} {es : List Entry} (h : es.countP c ≤ 1) (he : e ∈ es) (hf : f ∈ es)
    (hce : c e = true) (hcf : c f = true) : f = e := by
  have he' := List.mem_filter.2 ⟨he, hce⟩
  have hf' := List.mem_filter.2 ⟨hf, hcf⟩
  rw [List.countP_eq_length_filter] at h
  cases hl : es.filter c with
  | nil => simp [hl] at he'
  | cons a as =>
    have : as = [] := List.length_eq_zero_iff.1 (by rw [hl, List.length_cons] at h; omega)
    rw [hl, this, List.mem_singleton] at he' hf'
    rw [he', hf']

/-- Only the entry admitted holds its jar number at the end of the pitch. -/
theorem forwardPitch_admitted_unique (order : List PitchAct) (hg : GateAndBanks s) (hfr : frozen s = false)
    (hd : s.gate.decision = .admitJar) (hj : pins.jarIn = true) (hjars : JarsDistinct s)
    (hf : f ∈ (forwardPitch pins order s).track.entries) (he : e ∈ (forwardPitch pins order s).track.entries)
    (hfj : f.jar = s.track.nextJar) (hej : e.jar = s.track.nextJar) : f = e := by
  obtain ⟨_, x, _, hsub⟩ := forwardPitch_oneJoined (pins := pins) order hg hfr hd hj
  generalize (forwardPitch pins order s).track.entries = es at *
  have hcount := hsub.countP_le (p := fun x : Label => x.jar == s.track.nextJar)
  have hnone : ((pitchStart pins s).track.entries.map Entry.label).countP (fun x => x.jar == s.track.nextJar) = 0 := by
    simp only [pitchStart_track, List.map_map, List.countP_eq_zero, List.mem_map, Function.comp_apply,
      forall_exists_index, and_imp, forall_apply_eq_imp_iff₂, beq_iff_eq]
    exact fun g hg hgj => nextJar_ne hjars hg hgj.symm
  rw [List.countP_append, hnone, List.countP_map] at hcount
  have hone := List.countP_le_length (p := fun x : Label => x.jar == s.track.nextJar) (l := [x])
  rw [List.length_singleton] at hone
  exact eq_of_countP_le_one (c := fun e => e.jar == s.track.nextJar) (hcount.trans (by omega)) he hf (by simp [hej])
    (by simp [hfj])

/-! ### A FAULT on the pitch of the admission (R34) -/

/-- The writes of R34 to an entry that joins in FAULT. -/
theorem faultAdmitted_marks (hf : s.run.state = .fault) (he : e ∈ s.track.entries) (hp : e.pocket = p) :
    (∃ f ∈ (faultAdmitted e s).track.entries, MayLose (faultMark s.track.geometry.x e) f)
      ∧ (faultAdmitted e s).link.lines[p].slot = .abort := by
  subst hp
  unfold faultAdmitted
  rw [if_pos (by simp [hf])]
  exact ⟨curvesLost_placeAbort _ _ _ (mem_modEntry_same (F := faultMark s.track.geometry.x) he), slot_placeAbort _ _⟩

theorem faultAdmitted_outside (e : Entry) (hf : s.run.state ≠ .fault) : faultAdmitted e s = s := by
  unfold faultAdmitted
  rw [if_neg (by simpa using hf)]

theorem faultAdmitted_labels (e : Entry) (s : State) :
    (faultAdmitted e s).track.entries.map Entry.label = s.track.entries.map Entry.label := by
  unfold faultAdmitted
  split
  · rw [placeAbort_labels]
    exact modEntry_labels (F := faultMark s.track.geometry.x) (fun _ => rfl) s
  · rfl

theorem markedJoin_labels (irt : Nat) (s : State) : (markedJoin irt s).track.entries.map Entry.label
    = (joined irt (admissionSwap s)).track.entries.map Entry.label := faultAdmitted_labels _ _

/-- The end of the pitch, seen from the jar admitted. -/
theorem AdmitsAt.beside_jar (h : AdmitsAt pins order s v l m) (hg : GateAndBanks s) (hgeo : GeometryOk s.track.geometry)
    (hd : JarsDistinct s) (n : Bool)
    (hn : n = true → Alone s.track.nextJar 0 p (joined pins.irt.toNat (admissionSwap v))) :
    Placed s.track.nextJar 0 (markedJoin pins.irt.toNat v)
      ∧ Beside (Reach.admitted true n) s.track.nextJar 0 p (counted (markedJoin pins.irt.toNat v))
        (forwardPitch pins order s) := by
  have hplaced : Placed s.track.nextJar 0 (markedJoin pins.irt.toNat v) :=
    placed_of_labels (markedJoin_labels _ _) (h.placed hd)
  refine ⟨hplaced, h.beside_counted hg hgeo (fun _ => hplaced) (fun a => ⟨rfl, ?_⟩) ⟨rfl, rfl⟩ rfl rfl
    (fun a => Bool.noConfusion a) (fun a => Bool.noConfusion a) (.inl ⟨rfl, rfl⟩)⟩
  exact alone_of_sublist (by rw [markedJoin_labels]) (by rw [markedJoin_frame]) (hn a)

/-- A jar admitted on the pitch that enters FAULT is marked, and its head stopped (R34). -/
theorem AdmitsAt.struck (h : AdmitsAt pins order s v l m) (hg : GateAndBanks s) (hgeo : GeometryOk s.track.geometry)
    (hfr : frozen s = false) (hd : JarsDistinct s) (hf : (forwardPitch pins order s).run.state = .fault) :
    (∃ f ∈ (forwardPitch pins order s).track.entries, f.jar = s.track.nextJar
        ∧ f.flags.has .afterFault = true ∧ f.capClass = some .interrupted)
      ∧ (PocketsFollow s → (forwardPitch pins order s).link.lines[s.track.pocket + 1].slot = .abort) := by
  have hgo := (geometryOk_iff _).1 hgeo
  have hpocket : (admittedEntry pins.irt.toNat v).pocket = s.track.pocket + 1 := h.noneJoined.2
  have hx : (markedJoin pins.irt.toNat v).track.geometry.x = s.track.geometry.x := by
    rw [markedJoin_frame]
    exact congrArg Geometry.x (h.swapGeometry hg)
  have hmem := mem_joined pins.irt.toNat (admissionSwap v)
  have hnext : (admittedEntry pins.irt.toNat v).jar = s.track.nextJar := h.nextJar
  obtain ⟨hplaced, hjar⟩ := h.beside_jar (p := 0) hg hgeo hd false (fun a => Bool.noConfusion a)
  have hline (hpk : PocketsFollow s) := h.beside_jar hg hgeo hd true fun _ => h.alone hg hgeo hd hpk hfr
  have halone (hpk : PocketsFollow s) : Alone s.track.nextJar 0 (s.track.pocket + 1) (markedJoin pins.irt.toNat v) :=
    alone_of_sublist (by rw [markedJoin_labels]) (by rw [markedJoin_frame])
      (h.alone hg hgeo hd hpk hfr)
  by_cases hs : (joined pins.irt.toNat (admissionSwap v)).run.state = .fault
  · obtain ⟨⟨g, hgm, hgk⟩, hslot⟩ := faultAdmitted_marks hs hmem hpocket
    change g ∈ (markedJoin pins.irt.toNat v).track.entries at hgm
    have hstate : (counted (markedJoin pins.irt.toNat v)).run.state = .fault :=
      (congrArg RunControl.state (markedJoin_run pins.irt.toNat v)).trans hs
    have hgj : g.jar = s.track.nextJar := (congrArg Label.jar hgk.label).trans hnext
    have hclass : g.capClass = some .interrupted := by
      rw [hgk.core]
      refine if_pos ?_
      rw [Bool.and_eq_true, decide_eq_true_eq]
      refine ⟨?_, rfl⟩
      change 0 < (admissionSwap v).track.geometry.x
      rw [h.swapGeometry hg]
      omega
    obtain ⟨f, hfm, hgf⟩ := hjar.entry rfl hplaced g hgm hgj
    refine ⟨⟨f, hfm, hgf.sameJar.trans hgj, hgf.grown _ (hgk.grown _ (has_add_same _ _)),
      (hgf.capClass fun a => absurd hstate a.1).trans hclass⟩, fun hpk => ?_⟩
    rw [(hline hpk).2.line rfl rfl (hline hpk).1 (halone hpk) (fun a => absurd hstate a.1) (fun a => ?_)]
    · exact hslot
    · have : (markedJoin pins.irt.toNat v).track.geometry.x ≤ 0 := a
      omega
  · have hout : markedJoin pins.irt.toNat v = joined pins.irt.toNat (admissionSwap v) :=
      faultAdmitted_outside _ hs
    have hentered : Entered (counted (markedJoin pins.irt.toNat v)) (forwardPitch pins order s) := by
      refine ⟨?_, hf⟩
      rw [hout]
      exact hs
    obtain ⟨f, hfm, hgf⟩ := hjar.entry rfl hplaced (admittedEntry pins.irt.toNat v) (by rw [hout]; exact hmem) hnext
    obtain ⟨hmark, hclass⟩ := hgf.marked hentered
    refine ⟨⟨f, hfm, hgf.sameJar.trans hnext, hmark, hclass ?_ rfl⟩, fun hpk => ?_⟩
    · change 0 < (markedJoin pins.irt.toNat v).track.geometry.x
      omega
    · refine (hline hpk).2.struck rfl rfl (hline hpk).1 (halone hpk) hentered ?_
        ⟨admittedEntry pins.irt.toNat v, by rw [hout]; exact hmem, hnext, rfl⟩
      change 0 < (markedJoin pins.irt.toNat v).track.geometry.x
      omega

/-! ### The entry of an admission (R12, R13) -/

theorem AdmitsAt.label (h : AdmitsAt pins order s v l m) :
    (admittedEntry pins.irt.toNat v).label = ⟨s.track.nextJar, s.track.pocket + 1, 0,
      (recipeOf .active (admissionSwap v)).id, (admissionSwap v).run.batchNumber, s.track.pitchCount + 1, s.timeBase,
      fillTempOf pins.irt.toNat⟩ := by
  have k : Keeps Scope.actsNoJoin (pitchStart pins s) (admissionSwap v) := by
    rw [h.before]
    exact (keeps_actsNoJoin _ _ _ _ (fun a => absurd a h.noneBefore) _).trans keeps_admissionSwap
  obtain ⟨_, hcount, htime, _⟩ := k.fixedFields rfl
  unfold admittedEntry
  rw [newEntry_label, h.nextJar, h.noneJoined.2, hcount, htime]
  simp

theorem admittedEntry_flags (irt : Nat) (s : State) :
    (admittedEntry irt s).flags.has .tempAbsent = (fillTempOf irt).isNone
      ∧ (admittedEntry irt s).flags.has .firstOfRecipe = (admissionSwap s).recipes.firstMark := by
  have hnone (k : JarFlag) : JarFlags.has (noMembers 11) k = false := by simp [JarFlags.has, noMembers]
  unfold admittedEntry newEntry
  simp only [has_addIf, hnone]
  exact ⟨by simp, by simp⟩

theorem lines_at {r : Head} (h : r = p) (s : State) : s.link.lines[r] = s.link.lines[p] := by rw [h]

theorem recipeOf_active {q : Recipe} (h : s.recipes.active = some q) : recipeOf .active s = q := by
  simp [recipeOf, h]

/-- Without a swap at the admission the entry is of the batch and the recipe that stand. -/
theorem admissionSwap_none (h : ∀ r, s.run.request = some r → r.stage = .atAdmission → swapAllowed s = false) :
    admissionSwap s = s := by
  unfold admissionSwap
  split
  · rename_i r hr
    by_cases hst : r.stage = .atAdmission
    · rw [if_neg (by simp [h r hr hst])]
    · rw [if_neg (by simp [hst])]
  · rfl

/-- Where no entry comes to k or j, no departure touches a count. -/
theorem banksHeld_none (aw ac re : Bool) (hs : NoSwapDue s)
    (h : ∀ e ∈ s.track.entries, e.position + 1 ≠ s.track.geometry.k ∧ e.position + 1 ≠ s.track.geometry.j) :
    BanksHeld (Reach.calmly aw ac re) (pitchStart pins s) := by
  refine .inr ⟨rfl, (noSwapDue_run pitchStart_run).2 hs, fun f hf hp => ?_⟩
  rw [pitchStart_track] at hf hp
  obtain ⟨e, he, rfl⟩ := List.mem_map.1 hf
  exact absurd hp (by simpa [Entry.moved] using h e he)

theorem banksHeld_free (aw : Bool) (s : State) : BanksHeld (Reach.calmly aw false false) s := .inl ⟨rfl, rfl⟩

/-- The acts before the infeed, in a pitch in which no swap is due. -/
theorem AdmitsAt.calm_before (h : AdmitsAt pins order s v l m) (hg : GateAndBanks s) (hs : NoSwapDue s) :
    Calm (pitchStart pins s) v :=
  (h.beside_before hg (o := Reach.calmly false false false) rfl rfl ⟨rfl, rfl⟩ rfl rfl (banksHeld_free _ _)).calm rfl
    ((noSwapDue_run pitchStart_run).2 hs)

/-- With the infeed taken first nothing comes before it. -/
theorem AdmitsAt.first (h : AdmitsAt pins (.infeed :: order) s v l m) : v = pitchStart pins s := by
  have hacts : ∃ m', pitchActs (.infeed :: order) = .infeed :: m' := ⟨_, rfl⟩
  obtain ⟨m', hm'⟩ := hacts
  have hsplit := h.acts
  rw [hm'] at hsplit
  have hl : l = [] := by
    cases l with
    | nil => rfl
    | cons a l =>
      have : a = .infeed := (List.cons.inj hsplit).1.symm
      exact absurd (this ▸ List.mem_cons_self ..) h.noneBefore
  rw [h.before, hl]
  rfl

/-- What stands when the admission has been counted. -/
theorem counted_stands (irt : Nat) (s : State) :
    (counted (markedJoin irt s)).run
        = { (admissionSwap s).run with admitted := satInc max32 (admissionSwap s).run.admitted }
      ∧ (counted (markedJoin irt s)).recipes = { (admissionSwap s).recipes with firstMark := false }
      ∧ (counted (markedJoin irt s)).track.activeCount = (admissionSwap s).track.activeCount + 1
      ∧ (counted (markedJoin irt s)).track.retiringCount = (admissionSwap s).track.retiringCount
      ∧ (counted (markedJoin irt s)).alerts = (admissionSwap s).alerts := by
  unfold counted
  rw [markedJoin_frame]
  exact ⟨rfl, rfl, rfl, rfl, rfl⟩

/-- With no request pending the batch and the recipes at the admission are those the pitch found. -/
theorem AdmitsAt.unrequested (h : AdmitsAt pins order s v l m) (hg : GateAndBanks s) (hq : s.run.request = none) :
    admissionSwap v = v ∧ GoesOn v ∧ v.run.batchNumber = s.run.batchNumber ∧ v.run.admitted = s.run.admitted
      ∧ v.recipes.active = s.recipes.active ∧ v.recipes.firstMark = s.recipes.firstMark := by
  obtain ⟨_, ⟨hactive, _, hmark⟩, ⟨hnumber, _, hadmitted⟩, hreq⟩ := h.calm_before hg (.inl hq)
  simp only [pitchStart_run, pitchStart_recipes] at hactive hmark hnumber hadmitted hreq
  have hnone : v.run.request = none := hreq.elim (fun a => a.trans hq) fun a => a.1
  exact ⟨admissionSwap_none fun r hr => by simp [hnone] at hr, .inl hnone, hnumber, hadmitted, hactive, hmark⟩

/-- The admitted count and the mark after an admission, and the counts of the banks where no entry departs (R18). -/
theorem AdmitsAt.unrequested_counts (h : AdmitsAt pins order s v l m) (hg : GateAndBanks s)
    (hgeo : GeometryOk s.track.geometry) (hq : s.run.request = none) :
    (forwardPitch pins order s).run.admitted = satInc max32 s.run.admitted
      ∧ (forwardPitch pins order s).recipes.firstMark = false
      ∧ ((∀ e ∈ s.track.entries, e.position + 1 ≠ s.track.geometry.k ∧ e.position + 1 ≠ s.track.geometry.j) →
        (forwardPitch pins order s).track.activeCount = s.track.activeCount + 1
          ∧ (forwardPitch pins order s).track.retiringCount = s.track.retiringCount) := by
  obtain ⟨hswap, hgoes, _, hadmitted, _, _⟩ := h.unrequested hg hq
  obtain ⟨hrun, hrecipes, hactive, hretiring, _⟩ := counted_stands pins.irt.toNat v
  rw [hswap] at hrun hrecipes hactive hretiring
  have hstill : NoSwapDue (counted (markedJoin pins.irt.toNat v)) := by
    refine (noSwapDue_run (s := v) (t := markedJoin pins.irt.toNat v) ?_).2 hgoes.still
    rw [markedJoin_run, hswap]
  have hcalm := (h.calm hg hgeo false false false (by rwa [hswap]) (fun a => Bool.noConfusion a)
    (banksHeld_free _ _)).calm rfl hstill
  refine ⟨hcalm.batch.2.2.trans ?_, hcalm.recipes.2.2.trans (by rw [hrecipes]), fun hnone => ?_⟩
  · rw [hrun, hadmitted]
  · have hv := h.beside_before hg (o := Reach.calmly false true true) rfl rfl ⟨rfl, rfl⟩ rfl rfl
      (banksHeld_none _ _ _ (.inl hq) hnone)
    have hstart : NoSwapDue (pitchStart pins s) := (noSwapDue_run pitchStart_run).2 (.inl hq)
    have hheld : BanksHeld (Reach.calmly false true true) (joined pins.irt.toNat (admissionSwap v)) := by
      rw [hswap]
      exact ((banksHeld_none _ _ _ (.inl hq) hnone).beside hv).atJoin (by rwa [(h.geometry hg).1]) _
    have ht := h.calm hg hgeo false true true (by rwa [hswap]) (fun a => Bool.noConfusion a) hheld
    have h1 := hv.active rfl rfl hstart
    have h2 := (hv.retiring rfl rfl hstart).1
    rw [pitchStart_track] at h1 h2
    exact ⟨(ht.active rfl rfl hstill).trans (by rw [hactive, h1]),
      (ht.retiring rfl rfl hstill).1.trans (by rw [hretiring, h2])⟩

/-- An admission at which RETIRING still holds a record: no swap is made, and the batch stands (R54). -/
theorem AdmitsAt.retiring_stands (h : AdmitsAt pins order s v l m) (hg : GateAndBanks s)
    (hd : s.gate.decision = .admitJar) {r : Changeover} (hq : s.run.request = some r) (hst : r.stage = .atAdmission)
    (hret : s.recipes.retiring.isSome = true) (hcase : (∃ o, order = .infeed :: o)
      ∨ ∀ e ∈ s.track.entries, e.position + 1 ≠ s.track.geometry.k ∧ e.position + 1 ≠ s.track.geometry.j) :
    NoSwapDue s ∧ admissionSwap v = v := by
  have hstate := run_of_admitJar hg hd
  have hs : NoSwapDue s := .inr ⟨by rw [hstate]; decide, fun r' hr' => by
    rw [hq, Option.some.injEq] at hr'
    rw [← hr', hst]
    decide⟩
  have hretiring : v.recipes.retiring = s.recipes.retiring := by
    rcases hcase with ⟨o, rfl⟩ | hnone
    · rw [h.first, pitchStart_recipes]
    · have hv := h.beside_before hg (o := Reach.calmly false false true) rfl rfl ⟨rfl, rfl⟩ rfl rfl
        (banksHeld_none _ _ _ hs hnone)
      exact (hv.retiring rfl rfl ((noSwapDue_run pitchStart_run).2 hs)).2.trans (by rw [pitchStart_recipes])
  obtain ⟨x, hx⟩ := Option.isSome_iff_exists.1 hret
  exact ⟨hs, admissionSwap_none fun _ _ _ => by simp [swapAllowed, hretiring, hx]⟩

/-- Such an admission leaves batch, recipes and request, where it does not end the batch. -/
theorem AdmitsAt.batch_stands (h : AdmitsAt pins order s v l m) (hg : GateAndBanks s)
    (hgeo : GeometryOk s.track.geometry) (hs : NoSwapDue s) (hswap : admissionSwap v = v)
    (hon : s.run.batchSize = 0 ∨ s.run.admitted + 1 < s.run.batchSize) :
    GoesOn v ∧ (forwardPitch pins order s).recipes.active = s.recipes.active
      ∧ (forwardPitch pins order s).recipes.staged = s.recipes.staged
      ∧ (forwardPitch pins order s).run.batchNumber = s.run.batchNumber
      ∧ (forwardPitch pins order s).run.admitted = satInc max32 s.run.admitted
      ∧ ((forwardPitch pins order s).run.state ≠ .fault → (forwardPitch pins order s).run.request = s.run.request) := by
  obtain ⟨hv, ⟨hactive, hstaged, _⟩, ⟨hnumber, hsize, hadmitted⟩, hreq⟩ := h.calm_before hg hs
  simp only [pitchStart_run, pitchStart_recipes] at hactive hstaged hnumber hsize hadmitted hreq
  have hover : batchOver v.run = false := by
    rw [batchOver, hsize, hadmitted, satInc]
    rcases hon with h0 | h1
    · simp [h0]
    · have : ¬s.run.batchSize ≤ if s.run.admitted < max32 then s.run.admitted + 1 else s.run.admitted := by
        split <;> omega
      simp [this]
  have hgoes : GoesOn v := .inr ⟨hv, hover⟩
  obtain ⟨hrun, hrecipes, _⟩ := counted_stands pins.irt.toNat v
  rw [hswap] at hrun hrecipes
  have ht := h.calm hg hgeo true false false (by rwa [hswap]) (fun _ => by rwa [hswap]) (banksHeld_free _ _)
  have hstill : NoSwapDue (counted (markedJoin pins.irt.toNat v)) := by
    refine (noSwapDue_run (s := v) (t := markedJoin pins.irt.toNat v) ?_).2 hv
    rw [markedJoin_run, hswap]
  obtain ⟨_, ⟨tactive, tstaged, _⟩, ⟨tnumber, _, tadmitted⟩, treq⟩ := ht.calm rfl hstill
  have hawake := (ht.awake rfl (by rw [hrun]; exact h.ready.2.2)).1
  refine ⟨hgoes, tactive.trans (by rw [hrecipes, hactive]), tstaged.trans (by rw [hrecipes, hstaged]),
    tnumber.trans (by rw [hrun, hnumber]), tadmitted.trans (by rw [hrun, hadmitted]), fun hf => ?_⟩
  have hnotAsleep : ∀ {x : RunState}, Awake x → x ≠ .fault → ¬Asleep x := by
    intro x ha hx hb
    cases x <;> simp [Awake, Asleep] at ha hb hx
  have hvf : v.run.state ≠ .fault := fun a => hf (ht.keeps.fault rfl (by rw [hrun]; exact a))
  rcases treq with a | a
  · rw [a, hrun]
    exact hreq.resolve_right fun b => hnotAsleep h.ready.2.2 hvf b.2
  · exact absurd a.2 (hnotAsleep hawake hf)

/-- The swap that a request at AT_ADMISSION makes first at an admission, outside CHANGE (R54, R57). -/
theorem admissionSwap_makes {r : Changeover} {q : Recipe} (hq : s.run.request = some r) (hst : r.stage = .atAdmission)
    (hstaged : s.recipes.staged = some q) (hret : s.recipes.retiring = none) (h0 : s.track.retiringCount = 0)
    (hs : s.run.state ≠ .change) : admissionSwap s
      = remakeDecision (latchAlert .changeoverDone { doSwap s with run := s.run.completed r }) := by
  unfold admissionSwap
  rw [hq]
  simp only
  rw [if_pos (by simp [hst, swapAllowed_of hstaged hret h0]), swapAndComplete_outside hs]

/-- After the swap ACTIVE holds no jar (R19). -/
theorem doSwap_banks (hc : CountsMatch s) (h0 : s.track.retiringCount = 0) :
    (doSwap s).track.activeCount = 0 ∧ ∀ e ∈ (doSwap s).track.entries, e.bank = .retiring := by
  rcases Nat.eq_zero_or_pos s.track.activeCount with h | h
  · have hlen := countP_banks s.track.entries
    obtain ⟨hactive, hretiring⟩ := hc
    have hnil : s.track.entries = [] := List.length_eq_zero_iff.1 (by omega)
    rw [(doSwap_unloaded h).1, hnil]
    exact ⟨h, fun e he => nomatch he⟩
  · rw [(doSwap_loaded h).2]
    refine ⟨rfl, fun e he => ?_⟩
    obtain ⟨g, _, rfl⟩ := List.mem_map.1 he
    rfl

/-- The batch, the banks and the alert after an admission that made the swap first (R54, R57). -/
theorem AdmitsAt.swap_made (h : AdmitsAt pins order s v l m) (hg : GateAndBanks s) (hgeo : GeometryOk s.track.geometry)
    {r : Changeover} {q : Recipe} (hstaged : v.recipes.staged = some q) (hc : CountsMatch v)
    (h0 : v.track.retiringCount = 0) (hswap : admissionSwap v
      = remakeDecision (latchAlert .changeoverDone { doSwap v with run := v.run.completed r })) :
    GoesOn (admissionSwap v)
      ∧ (forwardPitch pins order s).recipes.active = some q ∧ (forwardPitch pins order s).recipes.staged = none
      ∧ (forwardPitch pins order s).recipes.firstMark = false ∧ (forwardPitch pins order s).run.request = none
      ∧ (forwardPitch pins order s).run.batchNumber = r.nextNumber
      ∧ (forwardPitch pins order s).run.batchSize = r.nextSize ∧ (forwardPitch pins order s).run.admitted = 1
      ∧ (forwardPitch pins order s).track.activeCount = 1
      ∧ (forwardPitch pins order s).alerts.latch[alertIx .changeoverDone] = true := by
  obtain ⟨hzero, hbanks⟩ := doSwap_banks hc h0
  have hrequest : (admissionSwap v).run.request = none := by rw [hswap]; rfl
  obtain ⟨hrun, hrecipes, hactive, _, halerts⟩ := counted_stands pins.irt.toNat v
  have hheld : BanksHeld (Reach.calmly false true false) (joined pins.irt.toNat (admissionSwap v)) := by
    have : BanksHeld (Reach.calmly false true false) (admissionSwap v) := by
      refine .inr ⟨rfl, .inl hrequest, fun e he _ => ⟨fun _ => ?_, fun a => Bool.noConfusion a⟩⟩
      rw [hswap] at he
      exact hbanks e he
    exact this.atJoin (by rwa [h.swapGeometry hg]) _
  have hgoes : GoesOn (admissionSwap v) := .inl hrequest
  have ht := h.calm hg hgeo false true false hgoes (fun a => Bool.noConfusion a) hheld
  have hstill : NoSwapDue (counted (markedJoin pins.irt.toNat v)) := .inl (by rw [hrun]; exact hrequest)
  obtain ⟨_, ⟨t1, t2, t3⟩, ⟨t4, t5, t6⟩, treq⟩ := ht.calm rfl hstill
  rw [hrecipes] at t1 t2 t3
  rw [hrun] at t4 t5 t6 treq
  rw [hswap] at t1 t2 t4 t5 t6
  refine ⟨hgoes, t1.trans ?_, t2, t3, treq.elim (fun a => a.trans hrequest) fun a => a.1, t4, t5, t6,
    (ht.active rfl rfl hstill).trans ?_, (ht.keeps.pit rfl).latches _ ?_⟩
  · rw [← hstaged]
    rfl
  · rw [hactive, hswap]
    exact congrArg (· + 1) hzero
  · rw [halerts, hswap, remakeDecision_alerts, latch_latchAlert]
    simp

theorem fillTempOf_eq (irt : Nat) :
    fillTempOf irt = if 16 ≤ irt ∧ irt ≤ 4078 then some (irt * 75 / 256) else none := by
  simp [fillTempOf]

end Sys2Proof.Machine

namespace Sys2Proof.Proofs

open Sys2Proof.Machine

/-- Settles O7: the pitch cut at its infeed, with the entry followed from the join to the end. -/
theorem admissionMakesEntry : Obligations.AdmissionMakesEntry := by
  intro pins order s hrun hfr hg hgeo hd hj fill
  refine ⟨?_, ?_, ?_⟩
  · obtain ⟨v, l, m, h⟩ := forwardPitch_admits order hg hfr hd hj
    obtain ⟨f, hf, hk⟩ := h.kin hg hgeo s.run.request.isNone fun a => by
      obtain ⟨hswap, hgoes, _⟩ := h.unrequested hg (by simpa using a)
      rwa [hswap]
    have hlabel := hk.label.trans h.label
    obtain ⟨habsent, hfirst⟩ := admittedEntry_flags pins.irt.toNat v
    have hfill : f.fillTemp = fill := (congrArg Label.fillTemp hlabel).trans (fillTempOf_eq _)
    refine ⟨_, exec_forwardPitch order hrun, forwardPitch_admitted_next order hg hfr hd hj,
      h.unrequested_counts hg hgeo, f, hf, congrArg Label.position hlabel, congrArg Label.jar hlabel,
      congrArg Label.pocket hlabel, congrArg Label.admissionPitch hlabel, congrArg Label.admissionTime hlabel, hfill, ?_,
      fun hq => ?_, fun hjars hfault => ?_⟩
    · rw [hk.flags _ (.inl rfl), habsent, Option.isNone_iff_eq_none, fillTempOf_eq]
    · obtain ⟨hswap, hgoes, hnumber, _, hactive, hmark⟩ := h.unrequested hg hq
      rw [hswap] at hlabel hfirst
      refine ⟨(congrArg Label.batch hlabel).trans hnumber, ?_, ?_, fun q hq => ?_⟩
      · refine hk.bank (by simp [hq]) ?_
        rw [hswap]
        exact hgoes.still
      · rw [hk.flags _ (.inr rfl), hfirst, hmark]
      · rw [show f.recipeId = _ from congrArg Label.recipeId hlabel, recipeOf_active (hactive.trans hq)]
    · obtain ⟨⟨g, hgm, hgj, hmark, hclass⟩, hslot⟩ := h.struck hg hgeo hfr hjars hfault
      have hfg : f = g := forwardPitch_admitted_unique order hg hfr hd hj hjars hf hgm (congrArg Label.jar hlabel) hgj
      refine ⟨hfg ▸ hmark, hfg ▸ hclass, fun hpk => ?_⟩
      rw [lines_at (show f.pocket = s.track.pocket + 1 from congrArg Label.pocket hlabel)]
      exact hslot hpk
  · intro r hq hst hret hcase
    obtain ⟨v, l, m, h⟩ := forwardPitch_admits order hg hfr hd hj
    obtain ⟨hs, hswap⟩ := h.retiring_stands hg hd hq hst hret hcase
    obtain ⟨hv, ⟨hactive, _, hmark⟩, ⟨hnumber, _, _⟩, _⟩ := h.calm_before hg hs
    simp only [pitchStart_run, pitchStart_recipes] at hactive hmark hnumber
    obtain ⟨f, hf, hk⟩ := h.kin hg hgeo (decide (s.run.batchSize = 0 ∨ s.run.admitted + 1 < s.run.batchSize))
      fun a => by
        rw [hswap]
        exact (h.batch_stands hg hgeo hs hswap (by simpa using a)).1
    have hlabel := hk.label.trans h.label
    have hfirst := (admittedEntry_flags pins.irt.toNat v).2
    rw [hswap] at hlabel hfirst
    refine ⟨_, exec_forwardPitch order hrun, f, hf, congrArg Label.position hlabel, congrArg Label.jar hlabel,
      (congrArg Label.batch hlabel).trans hnumber, ?_, fun q hq => ?_, fun hon => ⟨?_, ?_⟩⟩
    · rw [hk.flags _ (.inr rfl), hfirst, hmark]
    · rw [show f.recipeId = _ from congrArg Label.recipeId hlabel, recipeOf_active (hactive.trans hq)]
    · refine hk.bank (by simpa using hon) ?_
      rw [hswap]
      exact hv
    · obtain ⟨_, h1, h2, h3, h4, h5⟩ := h.batch_stands hg hgeo hs hswap hon
      exact ⟨h1, h2, h3, h4, fun a => (h5 a).trans hq⟩
  · intro r q hc hq hst hstaged hret h0
    obtain ⟨v, l, m, h⟩ := forwardPitch_admits (.infeed :: order) hg hfr hd hj
    have hv := h.first
    have hvrun : v.run = s.run := by rw [hv, pitchStart_run]
    have hvrecipes : v.recipes = s.recipes := by rw [hv, pitchStart_recipes]
    have hvstaged : v.recipes.staged = some q := by rw [hvrecipes, hstaged]
    have hv0 : v.track.retiringCount = 0 := by rw [hv, pitchStart_track]; exact h0
    have hvc : CountsMatch v := by
      rw [hv, CountsMatch, pitchStart_track]
      simpa [CountsMatch, List.countP_map, Function.comp_def, Entry.moved] using hc
    have hswap := admissionSwap_makes (r := r) (q := q) (s := v) (by rw [hvrun, hq]) hst hvstaged
      (by rw [hvrecipes, hret]) hv0 (by rw [hvrun, run_of_admitJar hg hd]; decide)
    obtain ⟨hgoes, h1, h2, h3, h4, h5, h6, h7, h8, h9⟩ := h.swap_made hg hgeo hvstaged hvc hv0 hswap
    obtain ⟨f, hf, hk⟩ := h.kin hg hgeo true fun _ => hgoes
    have hlabel := hk.label.trans h.label
    have hfirst := (admittedEntry_flags pins.irt.toNat v).2
    have hactive : (admissionSwap v).recipes.active = some q := by rw [hswap, ← hvstaged]; rfl
    refine ⟨_, exec_forwardPitch (.infeed :: order) hrun, h1, h2, h3, h4, h5, h6, h7, h8, h9, f, hf,
      congrArg Label.position hlabel, congrArg Label.jar hlabel, (congrArg Label.batch hlabel).trans ?_, ?_,
      hk.bank rfl hgoes.still, ?_⟩
    · rw [hswap]
      rfl
    · rw [show f.recipeId = _ from congrArg Label.recipeId hlabel, recipeOf_active hactive]
    · rw [hk.flags _ (.inr rfl), hfirst, hswap]
      rfl

end Sys2Proof.Proofs
end

