-- ==== Sys2Proof/Proofs/Resets.lean ====
section
/-! PROOFS. What a reset and a start-up leave (R165 to R168): the settings of one image, and every block at its value
after reset. -/

-- One declaration is checked after another: side by side they take more threads than the memory limit allows.
set_option Elab.async false

namespace Sys2Proof.Machine

variable {s t : State} {c : Instr} {i : Image} {pins : StartupPins}

/-! ### The state a reset leaves -/

/-- From `s` the part has been reset to `t` with the settings of the image `i`: the factory image or that of the
store. The store holds what it held, or the image a commit was writing. -/
structure LoadedFrom (i : Image) (s t : State) : Prop where
  source : i = factoryImage ∨ i = s.store.image
  store : t.store.image = s.store.image ∨ ∃ j ∈ s.commit, t.store.image = j.image
  commit : t.commit = none
  params : t.params = i.params
  dispTable : t.dispTable = i.dispTable
  heads : t.heads = i.service.map resetHead
  check : t.check = { State.reset.check with z := i.z0, z0 := i.z0 }
  run : t.run = { State.reset.run with hold := t.run.hold }
  few : FewHeadsMatches t
  gate : t.gate = State.reset.gate
  track : t.track = { State.reset.track with geometry := i.geometry }
  recipes : t.recipes = State.reset.recipes
  records : t.records = State.reset.records
  slots : t.traces.slots = []
  alert : AlertFollows t

/-- What holds of the factory image, of the store and of an image being written holds of the settings taken. -/
theorem LoadedFrom.image {P : Image → Prop} (h : LoadedFrom i s t) (hf : P factoryImage)
    (hc : ∀ j ∈ s.commit, P j.image) (hs : P s.store.image) : P i ∧ P t.store.image := by
  refine ⟨?_, ?_⟩
  · rcases h.source with h | h <;> rw [h]
    · exact hf
    · exact hs
  · rcases h.store with h | ⟨j, hj, h⟩ <;> rw [h]
    · exact hs
    · exact hc j hj

theorem LoadedFrom.noCommit (h : LoadedFrom i s t) {P : StoredImage → Prop} : ∀ j ∈ t.commit, P j := by
  rw [h.commit]
  exact fun _ hj => nomatch hj

theorem LoadedFrom.head (h : LoadedFrom i s t) (p : Head) : t.heads[p] = resetHead i.service[p] := by
  rw [h.heads]
  simp

theorem enterReset_loaded (cause : ResetCause) (s : State) : LoadedFrom factoryImage s (enterReset cause s) where
  source := .inl rfl
  store := by
    rw [enterReset_store]
    cases hc : s.commit with
    | none => exact .inl rfl
    | some j => exact .inr ⟨j, rfl, rfl⟩
  commit := rfl
  params := rfl
  dispTable := rfl
  heads := by simp [enterReset, State.reset, factoryImage]
  check := rfl
  run := rfl
  few := rfl
  gate := rfl
  track := rfl
  recipes := rfl
  records := rfl
  slots := rfl
  alert := rfl

/-- Start-up before its last steps, with the image it takes and what the check of the store gave: the blocks at their
values after reset, the settings of the image, and the hold-reason set of R31. -/
def startedBlocks (pins : StartupPins) (good : Bool) (i : Image) (s : State) : State :=
  formHolds pins.capLow (loadImage i { startBlocks pins s with storeDefaulted := !good })

/-- What start-up does to the alerts: ALERT is driven, and a defaulted store is alerted. -/
def storeAlerted (good : Bool) (u : State) : State :=
  if good then driveAlert u else latchAlert .settingsDefaulted u

/-- Start-up with the image it takes and what the check of the store gave. -/
def startWith (pins : StartupPins) (good : Bool) (i : Image) (s : State) : State :=
  restartTimer (storeAlerted good (startedBlocks pins good i s))

theorem startUp_eq (pins : StartupPins) (s : State) :
    startUp pins s = startWith pins (crcMatches s.store) (startImage s.store) s := rfl

theorem storeAlerted_frame (good : Bool) (u : State) :
    storeAlerted good u = { u with alerts := (storeAlerted good u).alerts } := by
  cases good <;> rfl

theorem storeAlerted_follows (good : Bool) (u : State) : AlertFollows (storeAlerted good u) := by
  cases good <;> rfl

theorem storeAlerted_mask (good : Bool) (u : State) : (storeAlerted good u).alerts.mask = u.alerts.mask := by
  cases good <;> rfl

section

variable (pins : StartupPins) (good : Bool) (i : Image) (s : State)

/-- The last steps of start-up touch the port and the alerts alone. -/
theorem startWith_frame : startWith pins good i s = { startedBlocks pins good i s with
    port := (startWith pins good i s).port
    alerts := (storeAlerted good (startedBlocks pins good i s)).alerts } := by
  rw [startWith, restartTimer_frame]
  generalize restartTimer _ = v
  rw [storeAlerted_frame]

theorem startWith_alert : AlertFollows (startWith pins good i s) := by
  rw [startWith_frame]
  exact storeAlerted_follows good _

/-- The hold-reason set formed at start-up (R31). -/
theorem startWith_hold : (startWith pins good i s).run.hold[holdIx .host] = false
    ∧ (startWith pins good i s).run.hold[holdIx .linkSilent] = false
    ∧ (startWith pins good i s).run.hold[holdIx .capLow] = pins.capLow ∧ FewHeadsMatches (startWith pins good i s) := by
  rw [startWith_frame]
  refine ⟨rfl, rfl, rfl, ?_⟩
  exact Vector.getElem_set_self _

theorem startWith_loaded (hi : i = factoryImage ∨ i = s.store.image) : LoadedFrom i s (startWith pins good i s) where
  source := hi
  store := .inl (by rw [startWith_frame]; rfl)
  commit := by rw [startWith_frame]; rfl
  params := by rw [startWith_frame]; rfl
  dispTable := by rw [startWith_frame]; rfl
  heads := by rw [startWith_frame]; rfl
  check := by rw [startWith_frame]; rfl
  run := by rw [startWith_frame]; rfl
  few := (startWith_hold pins good i s).2.2.2
  gate := by rw [startWith_frame]; rfl
  track := by rw [startWith_frame]; rfl
  recipes := by rw [startWith_frame]; rfl
  records := by rw [startWith_frame]; rfl
  slots := by rw [startWith_frame]; rfl
  alert := startWith_alert pins good i s

end

theorem startImage_source (t : StoredImage) : startImage t = factoryImage ∨ startImage t = t.image := by
  unfold startImage
  split
  · exact .inr rfl
  · exact .inl rfl

theorem startUp_loaded (pins : StartupPins) (s : State) : LoadedFrom (startImage s.store) s (startUp pins s) :=
  startWith_loaded pins _ _ s (startImage_source s.store)

/-- A reset command resets the part, and a start-up where none is due changes nothing. -/
theorem exec_reset_loads (hc : resets c = true) (he : exec c s = .next t) : t = s ∨ ∃ i, LoadedFrom i s t := by
  cases c <;> simp [resets] at hc
  case powerOn => cases he; exact .inr ⟨_, enterReset_loaded _ s⟩
  case resetInput => cases he; exact .inr ⟨_, enterReset_loaded _ s⟩
  case startup pins =>
    cases he
    split
    · exact .inr ⟨_, startUp_loaded pins s⟩
    · exact .inl rfl

/-! ### The conditions a reset meets -/

theorem LoadedFrom.lstopFollows (h : LoadedFrom i s t) : LstopFollows t := by
  rw [LstopFollows, h.run]; rfl

theorem LoadedFrom.gateOutFollows (h : LoadedFrom i s t) : GateOutFollows t := by
  rw [GateOutFollows, h.gate]; rfl

theorem LoadedFrom.state (h : LoadedFrom i s t) : t.run.state = .idle := by rw [h.run]; rfl

/-- In IDLE with the pocket counter as it is, no pocket admits (R38), and the banks are empty. -/
theorem LoadedFrom.gateAndBanks (h : LoadedFrom i s t) : GateAndBanks t := by
  refine ⟨?_, ?_, ?_, ?_⟩
  · rw [DecisionStands, h.gate]
    simp [decideGate, h.state, State.reset]
  · rw [h.recipes, h.track]; simp [State.reset]
  · rw [h.track]; simp [State.reset]
  · rw [h.state]; simp

theorem LoadedFrom.phaseInChange (h : LoadedFrom i s t) : PhaseInChange t := by
  rw [PhaseInChange, h.run]; simp [State.reset]

theorem LoadedFrom.holdMatches (h : LoadedFrom i s t) : HoldMatches t := by
  rw [HoldMatches, h.state]; simp

theorem LoadedFrom.testsClosed (h : LoadedFrom i s t) : TestsClosed t :=
  ⟨fun p => by rw [h.head]; exact ⟨rfl, rfl⟩, by rw [h.check]; rfl⟩

theorem factoryDispTable_fixed : FixedRejects factoryDispTable := by
  intro c hc
  cases c <;> simp [fixedReject] at hc <;> rfl

theorem factoryParams_ok : ParamsOk factoryParams := by
  simp [ParamsOk, factoryParams]

theorem LoadedFrom.fixedClasses (h : LoadedFrom i s t) (hs : FixedClassesReject s) : FixedClassesReject t := by
  obtain ⟨hi, hstore⟩ := h.image (P := fun j => FixedRejects j.dispTable) factoryDispTable_fixed hs.2.1 hs.2.2
  exact ⟨by rwa [h.dispTable], h.noCommit, hstore⟩

theorem LoadedFrom.paramsOk (h : LoadedFrom i s t) (hs : AllParamsOk s) : AllParamsOk t := by
  obtain ⟨hi, hstore⟩ := h.image (P := fun j => ParamsOk j.params) factoryParams_ok hs.2.1 hs.2.2
  exact ⟨by rwa [h.params], h.noCommit, hstore⟩

theorem LoadedFrom.countsInRange (h : LoadedFrom i s t) (hs : CountsInRange s) : CountsInRange t := by
  obtain ⟨_, _, _, _, _, _, hcommit, hstored⟩ := hs
  obtain ⟨hi, hstore⟩ := h.image (P := fun j => j.z0 ≤ 4095) (by decide) hcommit hstored
  refine ⟨by rw [h.gate]; decide, by rw [h.check]; exact Nat.zero_le _, by rw [h.records]; exact Nat.zero_le _,
    fun p => ?_, by rwa [h.check], by rwa [h.check], h.noCommit, hstore⟩
  rw [h.head]
  exact ⟨Nat.zero_le _, Nat.zero_le _⟩

theorem LoadedFrom.queueBounded (h : LoadedFrom i s t) : QueueBounded t := by
  rw [QueueBounded, h.records]; exact Nat.zero_le _

theorem LoadedFrom.ringCanonical (h : LoadedFrom i s t) : RingCanonical t := by
  rw [RingCanonical, h.slots]; rfl

/-! ### The settings and the alerts of a start-up (R163, R165, R168) -/

theorem crcMatches_iff (t : StoredImage) : crcMatches t = true ↔ t.crc = imageCrc t.image := by
  simp [crcMatches]

/-- A head after start-up has the service state of the image. -/
theorem service_map_resetHead (v : Vector Service 18) : (v.map resetHead).map (·.service) = v := by
  ext n hn
  simp [resetHead]

section

variable (pins : StartupPins) (good : Bool) (i : Image) (s : State)

theorem startWith_liveImage : liveImage (startWith pins good i s) = i := by
  rw [startWith_frame]
  simp only [liveImage, storeAlerted_mask, startedBlocks, formHolds, loadImage, service_map_resetHead]

/-- SETTINGS_DEFAULTED is latched where the store is defaulted, and no other kind (R168). -/
theorem startWith_latch (k : AlertKind) :
    (startWith pins good i s).alerts.latch[alertIx k] = (!good && k == .settingsDefaulted) := by
  rw [startWith_frame]
  cases good <;> cases k <;> rfl

theorem startWith_port : ∃ timer, (startWith pins good i s).port
    = { State.reset.port with baudHigh := pins.baudHigh, timer := timer } := by
  rw [startWith, restartTimer]
  have hport : (storeAlerted good (startedBlocks pins good i s)).port
      = { State.reset.port with baudHigh := pins.baudHigh } := by
    rw [storeAlerted_frame]; rfl
  split
  · exact ⟨_, by rw [hport]⟩
  · exact ⟨_, by rw [hport]⟩

/-- The link timer is started last, under the loaded timeout (R162). -/
theorem startWith_timer : (i.params.linkTimeout = 0 → (startWith pins good i s).port.timer.state = .stopped)
    ∧ (i.params.linkTimeout ≠ 0 →
      (startWith pins good i s).port.timer = ⟨.running, BitVec.ofNat 32 i.params.linkTimeout⟩) := by
  have htime : (storeAlerted good (startedBlocks pins good i s)).timeBase = 0 := by
    rw [storeAlerted_frame]; rfl
  have hparams : i.params = (storeAlerted good (startedBlocks pins good i s)).params := by
    rw [storeAlerted_frame]; rfl
  rw [hparams]
  refine ⟨restartTimer_stopped, fun h => ?_⟩
  rw [startWith, restartTimer_running h, htime]
  simp

end

end Sys2Proof.Machine

namespace Sys2Proof.Proofs

open Sys2Proof.Machine

/-- Settles O16: the loaded image gives the settings, and after the blocks start-up touches port and alerts alone. -/
theorem startupLoadsSettings : Obligations.StartupLoadsSettings := by
  intro pins s hreset good
  have hcrc : crcMatches s.store = true ↔ good := crcMatches_iff s.store
  have hsource := startImage_source s.store
  have himage : startImage s.store = if crcMatches s.store then s.store.image else factoryImage := rfl
  rw [exec_startup_of_inReset pins hreset, startUp_eq]
  generalize startImage s.store = i at hsource himage
  generalize crcMatches s.store = b at hcrc himage
  have h := startWith_loaded pins b i s hsource
  obtain ⟨hhost, hsilent, hcap, hfew⟩ := startWith_hold pins b i s
  obtain ⟨timer, hport⟩ := startWith_port pins b i s
  obtain ⟨hstopped, hrunning⟩ := startWith_timer pins b i s
  have hframe := startWith_frame pins b i s
  have hdefaulted : (startWith pins b i s).storeDefaulted = !b := by rw [hframe]; rfl
  refine ⟨_, rfl, by rw [hframe]; rfl, fun hgood => ?_, fun hbad => ?_, by rw [hframe]; rfl, by rw [hframe]; rfl,
    h.alert, by rw [h.check], by rw [h.check]; rfl, by rw [h.check]; rfl,
    by rw [h.check]; rfl, by rw [hport], by rw [hport]; rfl, by rw [hport]; rfl, by rw [hport]; rfl,
    by rwa [h.params], by rwa [h.params], h.run, hhost, hsilent, hcap, hfew, h.gate, ?_, h.recipes, by rw [hframe]; rfl,
    by rw [hframe]; rfl, by rw [hframe]; rfl, by rw [hframe]; rfl, h.records, by rw [hframe]; rfl, by rw [hframe]; rfl,
    by rw [hframe]; rfl, by rw [hframe]; rfl, by rw [hframe]; rfl, h.testsClosed, fun p => ?_⟩
  · obtain rfl := hcrc.2 hgood
    exact ⟨(startWith_liveImage ..).trans himage, hdefaulted, startWith_latch pins true i s⟩
  · obtain rfl : b = false := Bool.eq_false_iff.2 fun a => hbad (hcrc.1 a)
    exact ⟨(startWith_liveImage ..).trans himage, hdefaulted, startWith_latch pins false i s⟩
  · rw [h.track]
  · rw [h.head]; rfl

end Sys2Proof.Proofs
end

