-- ==== Sys2Proof/Proofs/StepInvariants.lean ====
section
/-! PROOFS. What every step keeps of run control, outputs and settings (R24, R28, R35, R37, R38, R40, R42, R47, R63, R65,
R75, R118, R135, R145, R149, R161, R163): a plain command by its `Keeps`, a turn of the turret by that of its acts, a
reset by the image it loads. -/

-- One declaration is checked after another: side by side they take more threads than the memory limit allows.
set_option Elab.async false

namespace Sys2Proof.Machine

variable {s t u : State} {c : Instr} {pins : PitchPins} {code : Byte} {fits : Bool} {block : State → Answer}

/-! ### Every command but a reset -/

/-- What every command but a reset keeps: FAULT unless it is CLEAR FAULT, FEW_HEADS, the standing decision, and that no
comparison is left open. -/
def Scope.command (c : Instr) : Scope := ⟨!clearsFault c, true, true, false, false, false, false, false, false, true⟩

/-- The same before the standing decision is remade. -/
def Scope.unmade (c : Instr) : Scope := { Scope.command c with dec := false }

/-- The counters of a turn of the turret move. -/
theorem keeps_countersMoved (p : Head) (b : Bool) (n : Word32) :
    Keeps (Scope.unmade c) s { s with track.pocket := p, track.synced := b, track.pitchCount := n } where
  decision a := Bool.noConfusion a
  confirms a := Bool.noConfusion a
  settings a := Bool.noConfusion a
  pocket a := Bool.noConfusion a

/-- A forward pitch up to its last act, the standing decision. -/
theorem forwardPitch_remade (pins : PitchPins) (order : List PitchAct) (hg : GateAndBanks s) :
    ∃ u, forwardPitch pins order s = remakeDecision u ∧ Keeps (Scope.unmade c) s u := by
  cases hf : frozen s with
  | true =>
    have hcount : Keeps (Scope.unmade c) s (countPitch (samplePitch pins s)) :=
      (keeps_inputs _).trans (keeps_countersMoved _ _ _)
    exact ⟨_, forwardPitch_frozen order hf, hcount.trans (keeps_confirmDeadlines rfl)⟩
  | false =>
    obtain ⟨hn, _⟩ := pitchActs_each_once order
    have hstart : Keeps (Scope.unmade c) s (pitchStart pins s) := pitchStart_keeps.drop (fun _ => rfl) (fun _ => rfl) id
      id id id id (fun a => Bool.noConfusion a) id
    have hacts : Keeps (Scope.unmade c) (pitchStart pins s) (pitchEnd pins order s) :=
      (keeps_acts s.run.state s.gate.decision pins (pitchActs order) hn (pitchStart pins s)
        (fun _ => infeedReady_pitchStart hg [.infeed] (by simp))).drop (fun _ => rfl) (fun _ => rfl) id id id
        (fun a => Bool.noConfusion a) (fun a => Bool.noConfusion a) (fun a => Bool.noConfusion a) id
    exact ⟨_, forwardPitch_moving order hf, (hstart.trans hacts).trans keeps_waitTurretEnd⟩

theorem keeps_forwardPitch (order : List PitchAct) (hg : GateAndBanks s) :
    Keeps (Scope.command c) s (forwardPitch pins order s) := by
  obtain ⟨u, hu, k⟩ := forwardPitch_remade (c := c) pins order hg
  rw [hu]
  exact k.thenRemake

theorem keeps_reversePitch : Keeps (Scope.command c) s (reversePitch s) := by
  have k : Keeps (Scope.command c) s (remakeDecision { s with track.pocket := s.track.pocket - 1 }) :=
    (keeps_countersMoved (c := c) _ s.track.synced s.track.pitchCount).thenRemake
  unfold reversePitch
  exact keeps_ite k (k.trans (keeps_raiseCause _))

theorem keeps_indexPulse : Keeps (Scope.command c) s (indexPulse s) := by
  have k : Keeps (Scope.command c) s (remakeDecision { s with track.synced := true, track.pocket := 0 }) :=
    (keeps_countersMoved (c := c) 0 true s.track.pitchCount).thenRemake
  by_cases h0 : s.track.pocket = 0
  · rw [indexPulse_atOne h0]
    exact { settings := fun a => Bool.noConfusion a }
  · by_cases hi : s.run.state = .idle
    · rw [indexPulse_idle h0 hi]
      exact k
    · rw [indexPulse_slips h0 hi]
      exact k.trans (keeps_raiseCause _)

/-- Every command but a reset keeps what `Scope.command` claims. -/
theorem exec_keeps (hr : resets c = false) (hg : GateAndBanks s) (he : exec c s = .next t) :
    Keeps (Scope.command c) s t := by
  cases hp : plainCommand c with
  | true =>
    obtain ⟨t', he', k⟩ := exec_plain_keeps (s := s) hp
    cases he.symm.trans he'
    exact k.drop id id id (fun a => Bool.noConfusion a) id (fun a => Bool.noConfusion a) id
      (fun a => Bool.noConfusion a) id
  | false =>
    cases c <;> simp [plainCommand, resets] at hp hr
    case forwardPitch pins order => cases he; exact keeps_whenRunning _ (keeps_forwardPitch order hg)
    case reversePitch => cases he; exact keeps_whenRunning _ keeps_reversePitch
    case indexPulse => cases he; exact keeps_whenRunning _ keeps_indexPulse

/-! ### Every step -/

/-- A step runs a command on the state with the rest of the queue, by what the command keeps or what a reset loads. -/
theorem step_keeps (hg : GateAndBanks s) (h : step s = .next t) : ∃ q, (∃ c, Keeps (Scope.command c) { s with pending := q } t)
    ∨ ∃ i, LoadedFrom i { s with pending := q } t := by
  rcases step_cases h with rfl | ⟨c, rest, _, he⟩
  · exact ⟨_, .inl ⟨.drainEnd, .refl t⟩⟩
  · refine ⟨rest, ?_⟩
    cases hr : resets c with
    | false => exact .inl ⟨c, exec_keeps hr (s := { s with pending := rest }) hg he⟩
    | true =>
      rcases exec_reset_loads hr he with rfl | h
      · exact .inl ⟨c, .refl _⟩
      · exact .inr h

/-! ### The state after reset (R165, R168) -/

theorem reset_loaded : LoadedFrom factoryImage State.reset State.reset where
  source := .inl rfl
  store := .inl rfl
  commit := rfl
  params := rfl
  dispTable := rfl
  heads := by simp [State.reset, factoryImage]
  check := rfl
  run := rfl
  few := rfl
  gate := rfl
  track := rfl
  recipes := rfl
  records := rfl
  slots := rfl
  alert := rfl

theorem reset_countsInRange : CountsInRange State.reset :=
  ⟨by decide, by decide, by decide, fun p => by rw [reset_loaded.head]; exact ⟨Nat.zero_le _, Nat.zero_le _⟩, by decide,
    by decide, (reset_loaded.noCommit (P := fun j => j.image.z0 ≤ 4095)), by decide⟩

theorem reset_confirmsSpread : ConfirmsSpread State.reset :=
  ⟨fun _ hc => absurd hc List.not_mem_nil, fun _ _ _ => Nat.zero_le _⟩

/-! ### FAULT and CLEAR FAULT (R37) -/

/-- How a request is served (R156, R157). -/
theorem serve_eq (code : Byte) (fits : Bool) (block : State → Answer) (s : State) : serve code fits block s =
    let g := goodFrame s
    if s.power == .running then
      if sending s then s
      else if g.port.reply.isSome then g
      else if fits then
        sendReply g.params.unitAddress code (block g).result (block g).payload (block g).state
      else sendReply g.params.unitAddress code .badLength [] g
    else s := rfl

/-- What a request can leave: the state as it was, its good frame with or without a reply, or the change of its block
on that frame, with its reply, where none was waiting (R156, R157). -/
theorem serve_cases (code : Byte) (fits : Bool) (block : State → Answer) (s : State) :
    serve code fits block s = s ∨ serve code fits block s = goodFrame s
      ∨ (∃ addr r q, serve code fits block s = sendReply addr code r q (goodFrame s))
      ∨ s.port.reply = none ∧ fits = true
        ∧ ∃ addr r q, serve code fits block s = sendReply addr code r q (block (goodFrame s)).state := by
  rw [serve_eq]
  simp only [goodFrame_reply]
  split
  · split
    · exact .inl rfl
    · split
      · exact .inr (.inl rfl)
      · rename_i hnone
        split
        · rename_i hfits
          exact .inr (.inr (.inr ⟨by simpa using hnone, hfits, _, _, _, rfl⟩))
        · exact .inr (.inr (.inl ⟨_, _, _, rfl⟩))
  · exact .inl rfl

theorem goodFrame_fault (h : s.run.state = .fault) : (goodFrame s).run.state = .fault :=
  (keeps_goodFrame (o := Scope.command .drainEnd) rfl).fault rfl h

/-- With LIFT_FLT asserted CLEAR FAULT leaves FAULT standing. -/
theorem clearFaultBlock_held {lp : LiftPins} (hf : s.run.state = .fault) (hlp : lp.liftFlt = true) :
    clearFaultBlock lp s = .plain .busy (sampleLift lp s) := by
  simp [clearFaultBlock, hf, sampleLift, hlp]

/-- FAULT left by CLEAR FAULT: the request was served, with LIFT_FLT released. -/
theorem clearFault_leaves {p : List Byte} {lp : LiftPins} (hf : s.run.state = .fault)
    (ht : (serve 0x37 p.isEmpty (clearFaultBlock lp) s).run.state ≠ .fault) :
    p = [] ∧ lp.liftFlt = false ∧ s.port.reply = none := by
  rcases serve_cases 0x37 p.isEmpty (clearFaultBlock lp) s with h | h | ⟨_, _, _, h⟩ | ⟨hnone, hp, _, _, _, h⟩ <;>
    rw [h] at ht
  · exact absurd hf ht
  · exact absurd (goodFrame_fault hf) ht
  · exact absurd (goodFrame_fault hf) ht
  · refine ⟨List.isEmpty_iff.1 hp, Bool.eq_false_iff.2 fun hlp => ht ?_, hnone⟩
    rw [clearFaultBlock_held (goodFrame_fault hf) hlp]
    exact goodFrame_fault hf

/-! ### A pocket that admits no jar (R38, R70) -/

/-- A head that is not IN_SERVICE at the coming pocket leaves the gate closed. -/
theorem not_admitJar_of_markedOut (hg : GateAndBanks s) (h : s.heads[s.track.pocket + 1].service ≠ .inService) :
    s.gate.decision ≠ .admitJar := by
  have hclosed : decideGate s = .closed := by
    unfold decideGate
    exact if_neg (by simpa using fun _ _ => h)
  rw [hg.1, hclosed]
  exact fun a => nomatch a

/-- On a frozen Track no entry joins and none is lost by a pitch (R20). -/
theorem forwardPitch_frozen_joins (order : List PitchAct) (h : frozen s = true) :
    (forwardPitch pins order s).track.nextJar = s.track.nextJar
      ∧ ((forwardPitch pins order s).track.entries.map Entry.label).Sublist (s.track.entries.map Entry.label) := by
  rw [forwardPitch_frozen order h]
  exact (((keeps_confirmDeadlines (o := Scope.actsNoJoin) (s := countPitch (samplePitch pins s)) rfl).trans
    keeps_remake).joins rfl)

end Sys2Proof.Machine

namespace Sys2Proof.Proofs

open Sys2Proof.Machine

/-- Settles O20: commands keep each condition by `Keeps`, and a reset brings the part to IDLE with empty banks. -/
theorem runControlKept : Obligations.RunControlKept := by
  intro s t hg hstep
  obtain ⟨hdecision, hbanks⟩ := hg
  obtain ⟨q, ⟨c, k⟩ | ⟨i, h⟩⟩ := step_keeps ⟨hdecision, hbanks⟩ hstep
  · exact ⟨⟨k.decision rfl hdecision, k.banks hbanks⟩, k.phase, k.hold, k.fewHeads rfl⟩
  · exact ⟨h.gateAndBanks, fun _ => h.phaseInChange, fun _ => h.holdMatches, fun _ => h.few⟩

/-- Settles O24: commands keep each bound by `Keeps`, and a reset loads settings that meet them. -/
theorem fixedClassesAndBoundsKept : Obligations.FixedClassesAndBoundsKept := by
  intro s t hg hstep
  obtain ⟨q, ⟨c, k⟩ | ⟨i, h⟩⟩ := step_keeps hg hstep
  · exact ⟨k.fixed, k.queue, k.ring, k.ranges, k.params, k.closed rfl⟩
  · exact ⟨h.fixedClasses, fun _ => h.queueBounded, fun _ => h.ringCanonical, h.countsInRange, h.paramsOk,
      fun _ => h.testsClosed⟩

/-- Settles O19: each output is driven where what it follows is changed. -/
theorem outputsFollowState : Obligations.OutputsFollowState := by
  intro s t hg hlstop hgate halert hstep
  obtain ⟨q, ⟨c, k⟩ | ⟨i, h⟩⟩ := step_keeps hg hstep
  · exact ⟨k.lstop hlstop, k.gateOut hgate, k.alert halert⟩
  · exact ⟨h.lstopFollows, h.gateOutFollows, h.alert⟩

/-- Settles O25: every command but CLEAR FAULT and a reset keeps FAULT, and CLEAR FAULT leaves it by its block alone. -/
theorem faultLeftOnlyByClearFault : Obligations.FaultLeftOnlyByClearFault := by
  intro c rest s t hg hpending hfault hstep hleft
  have he : exec c { s with pending := rest } = .next t := by rwa [step, hpending] at hstep
  cases hr : resets c with
  | true => exact .inl rfl
  | false =>
    cases hc : clearsFault c with
    | false =>
      have k := exec_keeps hr (s := { s with pending := rest }) hg he
      exact absurd (k.fault (by simp [Scope.command, hc]) hfault) hleft
    | true =>
      cases c <;> simp [clearsFault] at hc
      case clearFault p lp =>
        cases he
        obtain ⟨rfl, hlp, hnone⟩ := clearFault_leaves (s := { s with pending := rest }) hfault hleft
        exact .inr ⟨lp, rfl, hlp, hnone⟩

/-- Settles O18: the state after reset is loaded with the factory image, and its Track is empty. -/
theorem resetStateMeetsInvariants : Obligations.ResetStateMeetsInvariants := by
  have h := reset_loaded
  have hsound : TrackSound State.reset := .ofEmpty rfl rfl rfl ⟨factoryGeometry_ok, h.noCommit, factoryGeometry_ok⟩
  exact ⟨h.lstopFollows, h.gateOutFollows, h.alert, h.phaseInChange, h.holdMatches, h.few, h.gateAndBanks,
    hsound.positions, hsound.counts, hsound.geometries, hsound.stations, jarsDistinct_ofEmpty rfl (by decide),
    ⟨factoryDispTable_fixed, h.noCommit, factoryDispTable_fixed⟩, h.queueBounded, h.ringCanonical, reset_countsInRange,
    ⟨factoryParams_ok, h.noCommit, factoryParams_ok⟩, reset_confirmsSpread, h.testsClosed, fun _ => rfl,
    pocketsFollow_ofEmpty rfl⟩

/-- Settles O6: the head closes the gate, and behind a closed gate no entry joins. -/
theorem markedOutPocketStaysEmpty : Obligations.MarkedOutPocketStaysEmpty := by
  intro pins order s hrun hg hhead
  have hd := not_admitJar_of_markedOut hg hhead
  refine ⟨_, exec_forwardPitch order hrun, ?_⟩
  cases hf : frozen s with
  | true =>
    obtain ⟨hnext, hsub⟩ := forwardPitch_frozen_joins (pins := pins) order hf
    refine ⟨hnext, fun f hm => ?_⟩
    obtain ⟨e, he, hl⟩ := List.mem_map.1 (hsub.subset (List.mem_map_of_mem hm))
    exact ⟨e, he, .inr ⟨rfl, (congrArg Label.jar hl).symm⟩⟩
  | false =>
    refine ⟨forwardPitch_nextJar order hg hf (.inl hd), fun f hm => ?_⟩
    rcases forwardPitch_origin order hg hf hm with ⟨e, he, hmoved⟩ | ⟨_, _, hadmit, _⟩
    · exact ⟨e, he, .inl hmoved⟩
    · exact absurd hadmit hd

end Sys2Proof.Proofs
end

