-- ==== Sys2Proof/Proofs/FaultEntry.lean ====
section
/-! PROOFS. What the entry to FAULT makes of each entry of the Track, in the order of the list (R33 to R35). -/

-- One declaration is checked after another: side by side they take more threads than the memory limit allows.
set_option Elab.async false

namespace Sys2Proof.Machine

variable {s t u : State} {c : Cause}

/-- From `s` to `t` the entries are the same one by one, but for curves lost. -/
def InOrder (s t : State) : Prop := List.Forall₂ MayLose s.track.entries t.track.entries

theorem forall₂_mayLose_trans {l m n : List Entry} (h : List.Forall₂ MayLose l m) :
    List.Forall₂ MayLose m n → List.Forall₂ MayLose l n := by
  induction h generalizing n with
  | nil => exact id
  | cons hef _ ih =>
    intro g
    cases g with
    | cons hfg g => exact .cons (hef.trans hfg) (ih g)

theorem InOrder.refl (s : State) : InOrder s s := List.forall₂_same.2 fun _ _ => {}

theorem InOrder.trans (h : InOrder s t) (g : InOrder t u) : InOrder s u := forall₂_mayLose_trans h g

theorem inOrder_displaceFetch (p : Head) (s : State) : InOrder s (displaceFetch p s) := by
  unfold displaceFetch
  split
  · exact .refl s
  · refine List.forall₂_map_right_iff.2 (List.forall₂_same.2 fun e _ => ?_)
    split
    · exact { flags := fun k h => has_add_other h.symm, grown := fun _ h => has_add_grown h }
    · exact {}

theorem inOrder_placeAbort (p : Head) (s : State) : InOrder s (placeAbort p s) := by
  unfold placeAbort
  split
  · exact .refl s
  · exact inOrder_displaceFetch p (modLine p (fun l => { l with slot := .abort }) s)
  · exact .refl s
  · exact .refl s

theorem inOrder_placeAborts (es : List Entry) : ∀ s, InOrder s (es.foldl (fun u e => placeAbort e.pocket u) s) := by
  induction es with
  | nil => exact .refl
  | cons e es ih => exact fun s => (inOrder_placeAbort e.pocket s).trans (ih _)

/-- Each entry is marked as R34 says, and no other than its curve is lost. -/
theorem enterFault_entries (s : State) :
    List.Forall₂ MayLose (s.track.entries.map (faultMark s.track.geometry.x)) (enterFault s).track.entries :=
  inOrder_placeAborts (stoppedEntries s) (faultMarked s)

/-- A field of the entries that no lost curve changes is that of the marked entries. -/
theorem enterFault_map {α : Type} (g : Entry → α) (hg : ∀ e f, MayLose e f → g f = g e) (s : State) :
    (enterFault s).track.entries.map g = (s.track.entries.map (faultMark s.track.geometry.x)).map g := by
  have h : List.Forall₂ (· = ·) _ _ := List.forall₂_map_right_iff.2 (List.forall₂_map_left_iff.2
    ((enterFault_entries s).imp fun e f h => (hg e f h).symm))
  rw [List.forall₂_eq_eq_eq] at h
  exact h.symm

/-- A flag that all entries have is not lost with a curve. -/
theorem has_of_forall₂_mayLose {k : JarFlag} {l m : List Entry} (h : List.Forall₂ MayLose l m)
    (hl : ∀ e ∈ l, e.flags.has k = true) : ∀ f ∈ m, f.flags.has k = true := by
  induction h with
  | nil => exact hl
  | cons hef _ ih =>
    rw [List.forall_mem_cons] at hl ⊢
    exact ⟨hef.grown k hl.1, ih hl.2⟩

theorem enterFault_afterFault : ∀ e ∈ (enterFault s).track.entries, e.flags.has .afterFault = true := by
  refine has_of_forall₂_mayLose (enterFault_entries s) fun f hf => ?_
  obtain ⟨e, _, rfl⟩ := List.mem_map.1 hf
  exact has_add_same _ _

theorem faultMark_capClass (x : Nat) (e : Entry) : (faultMark x e).capClass
    = if e.position < x ∧ e.capClass = none then some .interrupted else e.capClass := by
  simp [faultMark]

/-- Beside entries and lines, the entry to FAULT moves the run control and closes the gate. -/
theorem enterFault_frame (s : State) : enterFault s = { s with
    run := { s.run with state := .fault, lstop := true, phase := .none, request := none, batchEnded := true }
    gate := { s.gate with decision := .closed, gateOut := false }
    track.entries := (enterFault s).track.entries, link.lines := (enterFault s).link.lines } := by
  have h := linesAndEntries_enterFault s
  rw [LinesAndEntries] at h
  exact h.trans rfl

theorem enterFault_stops {e : Entry} (he : e ∈ s.track.entries) (hx : e.position < s.track.geometry.x)
    (hc : e.capClass = none) : (enterFault s).link.lines[e.pocket].slot = .abort := by
  rw [enterFault_eq]
  exact (lines_placeAborts (stoppedEntries s) (faultMarked s)).1
    (.inl (List.mem_map_of_mem (mem_stoppedEntries.2 ⟨he, hx, hc⟩)))

end Sys2Proof.Machine

namespace Sys2Proof.Proofs

open Sys2Proof.Machine

/-- Settles O38: outside FAULT the cause is followed by the entry to FAULT, inside it nothing follows. -/
theorem faultEntryMarksEntries : Obligations.FaultEntryMarksEntries := by
  intro c s
  refine ⟨fun h => ?_, fun h => ?_⟩
  · have hframe := enterFault_frame (withCause c s)
    rw [raiseCause_outside h]
    refine ⟨by rw [hframe]; rfl, by rw [hframe]; rfl, by rw [hframe]; rfl, by rw [hframe]; rfl, by rw [hframe]; rfl, ?_,
      enterFault_afterFault, fun e he hx hc => enterFault_stops (s := withCause c s) he hx hc⟩
    rw [enterFault_map _ fun e f hlost => by rw [hlost.core], List.map_map]
    exact List.map_congr_left fun e _ => by
      rw [Function.comp_apply, faultMark_capClass]; rfl
  · rw [raiseCause_inFault h]
    exact ⟨rfl, rfl⟩

end Sys2Proof.Proofs
end

