-- ==== Sys2Proof/Proofs/RunMessages.lean ====
section
/-! PROOFS. The moves of the run state and the messages and inputs that make them: CAP_LOW, HOLD, RESUME, INSERT GAPS,
STOP RUN and CLEAR FAULT (R27, R28, R30 to R32, R37, R42, R158). -/

-- One declaration is checked after another: side by side they take more threads than the memory limit allows.
set_option Elab.async false

namespace Sys2Proof.Machine

variable {s t : State} {code : Byte} {block : State → Answer} {r : HoldReason} {b : Bool} {lp : LiftPins}

/-! ### Sets of hold reasons (R31) -/

theorem isEmptySet_iff {n : Nat} {v : Vector Bool n} : isEmptySet v = true ↔ ∀ i : Fin n, v[i] = false := by
  simp [isEmptySet, Fin.forall_iff, Vector.all_toList]

theorem isEmptySet_set_true {n : Nat} (v : Vector Bool n) (i : Fin n) : isEmptySet (v.set i true) = false := by
  rw [Bool.eq_false_iff]
  intro h
  have := isEmptySet_iff.1 h i
  simp at this

theorem isEmptySet_set_false {n : Nat} {v : Vector Bool n} (i : Fin n) (h : isEmptySet v = true) :
    isEmptySet (v.set i false) = true := by
  refine isEmptySet_iff.2 fun j => ?_
  have := isEmptySet_iff.1 h j
  simp only [Fin.getElem_fin, Vector.getElem_set] at *
  split
  · rfl
  · exact this

/-! ### Moves of the run state (R24, R28, R30, R35, R38) -/

/-- The entry to DRAIN, which goes on to IDLE with the Track empty (R30). -/
theorem enterDrain_eq (s : State) : enterDrain s =
    let ends := s.track.entries.isEmpty
    { s with
      run := { s.run with state := if ends then .idle else .drain, lstop := false, phase := .none
                          request := if ends then none else s.run.request }
      gate := { s.gate with decision := .closed, gateOut := false, gapCount := if ends then 0 else s.gate.gapCount } } := by
  cases h : s.track.entries.isEmpty with
  | true =>
    rw [enterDrain_empty (List.isEmpty_iff.1 h)]
    rfl
  | false =>
    unfold enterDrain drainEnd
    rw [if_neg (by simp [setRunState_track, h])]
    rfl

theorem enterIdle_eq (s : State) : enterIdle s = { s with
    run := { s.run with state := .idle, lstop := false, phase := .none, request := none }
    gate := { s.gate with decision := .closed, gateOut := false, gapCount := 0 } } := rfl

/-! ### The hold-reason set (R28, R31) -/

/-- The state with a hold reason set or cleared, before R28. -/
def withHold (r : HoldReason) (b : Bool) (s : State) : State := { s with run.hold := s.run.hold.set (holdIx r) b }

theorem setHold_entersHold (hs : s.run.state = .run) (h : isEmptySet s.run.hold = true)
    (hn : isEmptySet (withHold r b s).run.hold = false) : setHold r b s = enterHold (withHold r b s) := by
  unfold withHold at *
  simp [setHold, hs, h, hn]

theorem setHold_entersRun (hs : s.run.state = .hold) (h : isEmptySet s.run.hold = false)
    (hn : isEmptySet (withHold r b s).run.hold = true) : setHold r b s = setRunState .run (withHold r b s) := by
  unfold withHold at *
  simp [setHold, hs, h, hn]

theorem setHold_stays (hr : s.run.state = .run → isEmptySet (withHold r b s).run.hold = true)
    (hh : s.run.state = .hold → isEmptySet (withHold r b s).run.hold = false) : setHold r b s = withHold r b s := by
  unfold setHold
  simp only
  rw [if_neg, if_neg]
  · rfl
  · simp only [Bool.and_eq_true, beq_iff_eq]
    exact fun a => Bool.noConfusion ((hh a.1.1).symm.trans a.2)
  · simp only [Bool.and_eq_true, beq_iff_eq, Bool.not_eq_true']
    exact fun a => Bool.noConfusion ((hr a.1.1).symm.trans a.2)

/-- A hold reason is set or cleared, and RUN and HOLD follow. -/
theorem setHold_taken (r : HoldReason) (b : Bool) (h : HoldMatches s) : HoldTaken r b s (setHold r b s) := by
  obtain ⟨hrun, hhold⟩ := h
  have stays (hr : s.run.state = .run → b = false)
      (hh : s.run.state = .hold → isEmptySet (withHold r b s).run.hold = false) : HoldTaken r b s (setHold r b s) := by
    rw [setHold_stays (fun a => by rw [hr a]; exact isEmptySet_set_false _ (hrun a)) hh]
    exact ⟨rfl, rfl, rfl, fun a hb => Bool.noConfusion ((hr a).symm.trans hb),
      fun a he => Bool.noConfusion ((hh a).symm.trans he), fun _ _ => rfl⟩
  by_cases hs : s.run.state = .run
  · cases b with
    | true =>
      rw [setHold_entersHold hs (hrun hs) (isEmptySet_set_true _ _)]
      exact ⟨rfl, rfl, rfl, fun _ _ => ⟨rfl, rfl, rfl, rfl⟩, fun a => by simp [hs] at a, fun a => absurd ⟨hs, rfl⟩ a⟩
    | false => exact stays (fun _ => rfl) (fun a => by simp [hs] at a)
  · by_cases hh : s.run.state = .hold ∧ isEmptySet (withHold r b s).run.hold = true
    · obtain ⟨hstate, he⟩ := hh
      rw [setHold_entersRun hstate (hhold hstate) he]
      exact ⟨rfl, rfl, rfl, fun a => absurd a hs, fun _ _ => ⟨rfl, rfl, rfl⟩, fun _ a => absurd ⟨hstate, he⟩ a⟩
    · exact stays (fun a => absurd a hs) (fun a => Bool.eq_false_iff.2 fun he => hh ⟨a, he⟩)

/-! ### Broadcasts (R158) -/

/-- A broadcast is handed to its block while a reply waits as well, and gets none. -/
theorem serveAt_broadcast (hrun : s.power = .running) (hsend : sending s = false) :
    serveAt .broadcast code [] block s = (block (goodFrame s)).state := by
  unfold serveAt whenReceiving
  rw [whenRunning_of_running _ hrun]
  simp [hsend]

theorem holdMatches_goodFrame (h : HoldMatches s) : HoldMatches (goodFrame s) :=
  (keeps_goodFrame (o := Scope.command .drainEnd) rfl).hold h

/-! ### STOP RUN (R27) -/

theorem stopRunBlock_result (s : State) : (stopRunBlock s).result
    = if s.run.state = .idle ∨ s.run.state = .fault then .wrongState else .done := by
  unfold stopRunBlock
  cases s.run.state <;> rfl

theorem stopRunBlock_payload (s : State) : (stopRunBlock s).payload = [] := by
  unfold stopRunBlock
  cases s.run.state <;> rfl

/-- The run ends: no request, the batch ended, and the Track drains. -/
theorem stopped_drains (h : s.run.state = .run ∨ s.run.state = .hold ∨ s.run.state = .change) :
    RunStopped s (enterDrain { s with run.request := none, run.batchEnded := true }) := by
  have hother : ¬(s.run.state = .idle ∨ s.run.state = .fault ∨ s.run.state = .drain) ∧ s.run.state ≠ .prepare := by
    rcases h with h | h | h <;> simp [h]
  rw [enterDrain_eq]
  exact ⟨rfl, rfl, rfl, fun a => absurd a hother.1, fun a => absurd a hother.2,
    fun _ => ⟨rfl, ite_self _, rfl, rfl, rfl, rfl, rfl, rfl⟩⟩

theorem stopRunBlock_stops (s : State) : RunStopped s (stopRunBlock s).state := by
  have hrefused (h : s.run.state = .idle ∨ s.run.state = .fault ∨ s.run.state = .drain) : RunStopped s s :=
    ⟨rfl, rfl, rfl, fun _ => rfl, fun a => by rcases h with h | h | h <;> simp [h] at a,
      fun a => by rcases h with h | h | h <;> simp [h] at a⟩
  cases h : s.run.state with
  | idle => simpa [stopRunBlock, h, Answer.plain] using hrefused (.inl h)
  | fault => simpa [stopRunBlock, h, Answer.plain] using hrefused (.inr (.inl h))
  | drain => simpa [stopRunBlock, h, Answer.plain] using hrefused (.inr (.inr h))
  | prepare =>
    have hblock : (stopRunBlock s).state = enterIdle s := by simp [stopRunBlock, h, Answer.plain]
    rw [hblock, enterIdle_eq]
    exact ⟨rfl, rfl, rfl, by simp [h], fun _ => ⟨rfl, rfl, rfl, rfl, rfl, rfl⟩, by simp [h]⟩
  | run => simpa [stopRunBlock, h, Answer.plain] using stopped_drains (.inl h)
  | hold => simpa [stopRunBlock, h, Answer.plain] using stopped_drains (.inr (.inl h))
  | change => simpa [stopRunBlock, h, Answer.plain] using stopped_drains (.inr (.inr h))

/-! ### CLEAR FAULT (R37) -/

theorem clearFaultBlock_outside (h : s.run.state ≠ .fault) : clearFaultBlock lp s = .plain .wrongState s := by
  simp [clearFaultBlock, h]

theorem clearFaultBlock_taken (h : s.run.state = .fault) (hlp : lp.liftFlt = false) :
    clearFaultBlock lp s = .plain .done (leaveFault (sampleLift lp s)) := by
  simp [clearFaultBlock, h, sampleLift, hlp]

theorem leaveFault_moving (h : frozen s = false) :
    leaveFault s = enterDrain { s with run.causes := noMembers 7 } := by
  simp [leaveFault, h]

end Sys2Proof.Machine

namespace Sys2Proof.Proofs

open Sys2Proof.Machine

/-- Settles O31: the input's level is taken, and its hold reason with it. -/
theorem capLowMovesRun : Obligations.CapLowMovesRun := by
  intro s hrun h
  exact ⟨⟨_, congrArg Host.Outcome.next (whenRunning_of_running _ hrun),
      setHold_taken .capLow true (s := { s with inputs.capLow := true }) h⟩,
    ⟨_, congrArg Host.Outcome.next (whenRunning_of_running _ hrun),
      setHold_taken .capLow false (s := { s with inputs.capLow := false }) h⟩⟩

/-- Settles O32: both messages change the member HOST after their good frame, served or broadcast. -/
theorem holdAndResumeServed : Obligations.HoldAndResumeServed := by
  intro s h
  have hadd := setHold_taken .host true (holdMatches_goodFrame h)
  have hremove := setHold_taken .host false (holdMatches_goodFrame h)
  exact ⟨fun hready => ⟨_, _, next_ready hready rfl rfl rfl, hadd, next_ready hready rfl rfl rfl, hremove⟩,
    fun hrun hsend => ⟨_, _, congrArg Host.Outcome.next (serveAt_broadcast hrun hsend), hadd,
      congrArg Host.Outcome.next (serveAt_broadcast hrun hsend), hremove⟩⟩

/-- Settles O33: the block clamps the count, adds it and remakes the decision. -/
theorem insertGapsServed : Obligations.InsertGapsServed := by
  intro n s hready
  refine ⟨fun h => ?_, fun h => ?_⟩
  · exact next_ready hready rfl rfl (by simp [insertGapsBlock, h, Answer.plain])
  · have hn : (clampTo 1 maxGaps n.toNat = n.toNat) ↔ 1 ≤ n.toNat ∧ n.toNat ≤ 18 := by
      rw [clampTo_eq _ (by decide), maxGaps]; omega
    refine ⟨remakeDecision { goodFrame s with
        gate.gapCount := min maxGaps ((goodFrame s).gate.gapCount + clampTo 1 maxGaps n.toNat) },
      next_ready hready rfl rfl ?_, rfl, rfl, rfl, rfl, rfl⟩
    simp only [insertGapsBlock, field_byte, Answer.plain]
    rw [if_neg (by simpa using h), doneOr_bne]
    simp only [hn]

/-- Settles O35: the table of R27 by run state, after the good frame. -/
theorem stopRunServed : Obligations.StopRunServed := by
  intro s
  have hstops := stopRunBlock_stops (goodFrame s)
  refine ⟨fun hready => ⟨_, ?_, hstops⟩, fun hrun hsend => ⟨_, ?_, hstops⟩⟩
  · rw [← stopRunBlock_result]
    refine next_ready hready rfl rfl ?_
    rw [← stopRunBlock_payload (goodFrame s)]
  · exact congrArg Host.Outcome.next (serveAt_broadcast hrun hsend)

/-- Settles O36: refused outside FAULT and with LIFT_FLT asserted; else the causes go and the Track drains. -/
theorem clearFaultServed : Obligations.ClearFaultServed := by
  intro lp s hready g
  refine ⟨fun h => next_ready hready rfl rfl (clearFaultBlock_outside h),
    fun h hlp => next_ready hready rfl rfl (clearFaultBlock_held h hlp), fun h hlp hfrozen => ?_⟩
  have hleave : clearFaultBlock lp g
      = .plain .done (enterDrain { sampleLift lp g with run.causes := noMembers 7 }) := by
    rw [clearFaultBlock_taken h hlp, leaveFault_moving (s := sampleLift lp g) hfrozen]
  refine ⟨_, next_ready hready rfl rfl hleave, ?_⟩
  rw [enterDrain_eq]
  exact ⟨rfl, rfl, rfl, rfl, rfl, rfl⟩

end Sys2Proof.Proofs
end

