-- ==== Sys2Proof/Proofs/BatchEnd.lean ====
section
/-! PROOFS. The end of DRAIN and the end of a batch, with each kind of changeover request (R29, R30, R54 to R56, R58). -/

-- One declaration is checked after another: side by side they take more threads than the memory limit allows.
set_option Elab.async false

namespace Sys2Proof.Machine

variable {s t : State} {r : Changeover} {q : Recipe} {lp : LiftPins}

/-! ### The end of DRAIN (R30) -/

theorem exec_drainEnd (h : s.power = .running) : exec .drainEnd s = .next (drainEnd s) :=
  congrArg Host.Outcome.next (whenRunning_of_running _ h)

theorem drainEnd_due (h : s.run.state = .drain) (he : s.track.entries = []) : drainEnd s = enterIdle s := by
  simp [drainEnd, h, he]

theorem drainEnd_notDue (h : ¬(s.run.state = .drain ∧ s.track.entries = [])) : drainEnd s = s := by
  simpa [drainEnd] using fun a b => absurd ⟨a, b⟩ h

/-! ### The end of a batch (R29, R56) -/

/-- BATCH_END is due (R29). -/
def batchEndDue (s : State) : Bool :=
  s.run.batchSize != 0 && decide (s.run.batchSize ≤ s.run.admitted) && !s.run.batchEnded

theorem batchEndDue_iff : batchEndDue s = true
    ↔ s.run.batchSize ≠ 0 ∧ s.run.batchSize ≤ s.run.admitted ∧ s.run.batchEnded = false := by
  simp [batchEndDue, and_assoc]

theorem exec_batchEnd (lp : LiftPins) (h : s.power = .running) : exec (.batchEnd lp) s
    = .next (if batchEndDue s then batchEnd (sampleLift lp s) else sampleLift lp s) :=
  congrArg Host.Outcome.next (whenRunning_of_running _ h)

/-- What every end of a batch begins with: the flag is set, and BATCH_DONE is latched. -/
def batchDone (s : State) : State := latchAlert .batchDone (endBatchFlag s)

/-- With its batch ended no pocket admits (R38). -/
theorem decideGate_batchEnded (h : s.run.batchEnded = true) : decideGate s = .closed := by
  simp [decideGate, h]

@[simp] theorem batchDone_decision (s : State) : (batchDone s).gate.decision = .closed :=
  decideGate_batchEnded (s := { s with run.batchEnded := true }) rfl

theorem batchDone_latched (s : State) : (batchDone s).alerts.latch[alertIx .batchDone] = true := by
  simp [batchDone]

/-- The batch has ended, and its request has come to a later stage. -/
def batchDoneAt (st : ChangeoverStage) (r : Changeover) (s : State) : State :=
  { batchDone s with run.request := some { r with stage := st } }

theorem batchEnd_noRequest (h : s.run.request = none) :
    batchEnd s = if runOrHold s then enterDrain (batchDone s) else batchDone s := by
  simp only [batchEnd, latchAlert_run, endBatchFlag_run, h]
  rfl

theorem batchEnd_drained (h : s.run.request = some r) (hs : r.stage = .waiting) (hk : r.kind = .drained) :
    batchEnd s = if runOrHold s then enterChange (batchDoneAt .inChange r s) else batchDoneAt .inChange r s := by
  obtain ⟨_, _, _, _, _⟩ := r
  cases hs
  cases hk
  simp only [batchEnd, latchAlert_run, endBatchFlag_run, h]
  rfl

theorem batchEnd_flying (h : s.run.request = some r) (hs : r.stage = .waiting ∧ r.kind = .flying ∨ r.stage = .atAdmission) :
    batchEnd s = retireSwap (batchDoneAt .atRetire r s) := by
  obtain ⟨_, _, _, _, _⟩ := r
  rcases hs with ⟨hs, hk⟩ | hs
  · cases hs
    cases hk
    simp only [batchEnd, latchAlert_run, endBatchFlag_run, h]
    rfl
  · cases hs
    simp only [batchEnd, latchAlert_run, endBatchFlag_run, h]
    rfl

theorem batchEnd_late (h : s.run.request = some r) (hs : r.stage = .inChange ∨ r.stage = .atRetire) :
    batchEnd s = batchDone s := by
  obtain ⟨_, _, _, _, _⟩ := r
  rcases hs with hs | hs <;> cases hs <;> simp only [batchEnd, latchAlert_run, endBatchFlag_run, h] <;> rfl

/-- BATCH_DONE is latched at every end of a batch. -/
theorem batchEnd_latched (s : State) : (batchEnd s).alerts.latch[alertIx .batchDone] = true := by
  have hdone := batchDone_latched s
  have hswap (u : State) (h : u.alerts = (batchDone s).alerts) :
      (retireSwap u).alerts.latch[alertIx .batchDone] = true :=
    ((keeps_retireSwap (o := Scope.acts)).pit rfl).latches _ (by rwa [h])
  cases hq : s.run.request with
  | none =>
    rw [batchEnd_noRequest hq]
    split
    · rw [enterDrain_eq]; exact hdone
    · exact hdone
  | some r =>
    cases hs : r.stage with
    | inChange => rw [batchEnd_late hq (.inl hs)]; exact hdone
    | atRetire => rw [batchEnd_late hq (.inr hs)]; exact hdone
    | atAdmission => rw [batchEnd_flying hq (.inr hs)]; exact hswap _ rfl
    | waiting =>
      cases hk : r.kind with
      | flying => rw [batchEnd_flying hq (.inl ⟨hs, hk⟩)]; exact hswap _ rfl
      | drained =>
        rw [batchEnd_drained hq hs hk]
        split
        · rename_i hr
          exact ((keeps_enterChange (o := Scope.acts) (s := batchDoneAt .inChange r s) hr).pit rfl).latches _ hdone
        · exact hdone

/-- With an entry below x the phase WAIT_TURRET goes on (R58). -/
theorem enterChange_waits (h : ∃ e ∈ s.track.entries, e.position < s.track.geometry.x) : enterChange s = { s with
    run := { s.run with state := .change, lstop := false, phase := .waitTurret }
    gate := { s.gate with decision := .closed, gateOut := false } } := by
  obtain ⟨e, he, hx⟩ := h
  have hsome : ¬s.track.entries.all (fun e => decide (s.track.geometry.x ≤ e.position)) = true := by
    simp only [List.all_eq_true, decide_eq_true_eq]
    exact fun a => absurd (a e he) (by omega)
  unfold enterChange waitTurretEnd
  rw [if_neg (by simp only [Bool.and_eq_true, setRunState_track]; exact fun a => hsome a.2)]
  rfl

/-- A request at stage AT_RETIRE waits while RETIRING holds a record (R56). -/
theorem retireSwap_waits (h : s.recipes.retiring.isSome = true) : retireSwap s = s := by
  have hnot : swapAllowed s = false := by
    cases hr : s.recipes.retiring with
    | none => simp [hr] at h
    | some q => simp [swapAllowed, hr]
  unfold retireSwap
  split
  · simp [hnot]
  · rfl

/-- At the end of a batch a flying request makes its swap at once where R50 allows it (R56). -/
theorem retireSwap_batchDone (h : s.run.state ≠ .change) (ha : swapAllowed s = true) :
    retireSwap (batchDoneAt .atRetire r s) = remakeDecision (latchAlert .changeoverDone
      { doSwap (batchDoneAt .atRetire r s) with run := (batchDone s).run.completed r }) := by
  have hswap : retireSwap (batchDoneAt .atRetire r s)
      = swapAndComplete { r with stage := .atRetire } (batchDoneAt .atRetire r s) := retireSwap_atRetire rfl rfl ha
  exact hswap.trans (swapAndComplete_outside h)

end Sys2Proof.Machine

namespace Sys2Proof.Proofs

open Sys2Proof.Machine

/-- Settles O39: the end of a batch by its request, each kind by its own equation. -/
theorem drainAndBatchEnd : Obligations.DrainAndBatchEnd := by
  intro s hrun
  refine ⟨fun h he => ?_, fun h => ?_, fun lp h => ?_, fun lp hstate hsize hcount hflag => ?_⟩
  · rw [exec_drainEnd hrun, drainEnd_due h he, enterIdle_eq]
  · rw [exec_drainEnd hrun, drainEnd_notDue h]
  · rw [exec_batchEnd lp hrun, if_neg (fun a => h (batchEndDue_iff.1 a))]
  · have hr : runOrHold (sampleLift lp s) = true := by
      simp [runOrHold, hstate]
    refine ⟨_, (exec_batchEnd lp hrun).trans (congrArg _ (if_pos (batchEndDue_iff.2 ⟨hsize, hcount, hflag⟩))),
      batchEnd_latched _, fun hq => ?_, fun r hq hs => ⟨fun hk hretiring => ?_, fun q hk hretiring h0 hstaged => ?_,
        fun hk hwait hbelow => ?_⟩⟩
    · rw [batchEnd_noRequest (s := sampleLift lp s) hq, if_pos hr, enterDrain_eq]
      exact ⟨rfl, rfl, rfl⟩
    · have hfly : r.stage = .waiting ∧ r.kind = .flying ∨ r.stage = .atAdmission := by
        rcases hs with hs | hs
        · exact hk.imp_left fun a => ⟨hs, a⟩
        · exact .inr hs
      rw [batchEnd_flying (s := sampleLift lp s) hq hfly, retireSwap_waits (by exact hretiring)]
      exact ⟨hstate, rfl, rfl, batchDone_decision _, rfl⟩
    · have hfly : r.stage = .waiting ∧ r.kind = .flying ∨ r.stage = .atAdmission := hs.imp_left fun a => ⟨a, hk⟩
      rw [batchEnd_flying (s := sampleLift lp s) hq hfly, retireSwap_batchDone (by simp [hstate])
        (swapAllowed_of (s := sampleLift lp s) hstaged hretiring h0)]
      exact ⟨hstate, rfl, rfl, rfl, rfl, rfl, (doSwap_active _).trans hstaged, doSwap_staged _, by simp⟩
    · rw [batchEnd_drained (s := sampleLift lp s) hq hwait hk, if_pos hr, enterChange_waits (by exact hbelow)]
      exact ⟨rfl, rfl, rfl, rfl, rfl⟩

end Sys2Proof.Proofs
end

