-- ==== Sys2Proof/Proofs/LiftMoves.lean ====
section
/-! PROOFS. The moves of the lift: homes, seeks, their ends, LIFT_FLT, and what a move hands to the run control (R26, R57,
R59, R111 to R115). -/

-- One declaration is checked after another: side by side they take more threads than the memory limit allows.
set_option Elab.async false

namespace Sys2Proof.Machine

variable {s t : State} {q : Changeover} {r : Recipe} {lp : LiftPins} {who : Requester} {b : Bool}

/-! ### RUN or HOLD (R26, R28) -/

theorem enterRunOrHold_frame (s : State) : enterRunOrHold s = { s with
    run := { s.run with state := if isEmptySet s.run.hold then .run else .hold, lstop := false, phase := .none }
    gate := (enterRunOrHold s).gate, alerts := (enterRunOrHold s).alerts } := by
  unfold enterRunOrHold
  cases isEmptySet s.run.hold <;> rfl

theorem enterRunOrHold_decision (s : State) : DecisionStands (enterRunOrHold s) := by
  rcases enterRunOrHold_cases s with h | h <;> rw [h] <;> rfl

theorem enterRunOrHold_latches {k : AlertKind} (h : s.alerts.latch[alertIx k] = true) :
    (enterRunOrHold s).alerts.latch[alertIx k] = true := by
  rcases enterRunOrHold_cases s with he | he <;> rw [he]
  · exact h
  · exact getElem_set_true s.alerts.latch _ _ h

/-- A drained changeover is completed in CHANGE, and the run goes on (R57, R59). -/
theorem completeChangeover_drained (hk : q.kind = .drained) (h : s.run.state = .change) :
    completeChangeover q s
      = enterRunOrHold (latchAlert .changeoverDone { s with run := s.run.completed q }) := by
  simp [completeChangeover, hk, h, RunControl.completed]

/-- The swap with its completion, in CHANGE. -/
theorem swapAndComplete_inChange (hk : q.kind = .drained) (h : s.run.state = .change) : swapAndComplete q s
    = enterRunOrHold (latchAlert .changeoverDone { doSwap s with run := s.run.completed q }) := by
  unfold swapAndComplete
  rw [completeChangeover_drained hk (by rwa [doSwap_run]), doSwap_run]

/-- The swap with its completion leaves the lift alone. -/
theorem swapAndComplete_lift (q : Changeover) (s : State) : (swapAndComplete q s).lift = s.lift := by
  have hswap : (doSwap s).lift = s.lift := by rw [doSwap_frame]
  unfold swapAndComplete completeChangeover
  simp only
  split
  · rw [enterRunOrHold_frame]; exact hswap
  · exact hswap

/-! ### Seeks (R26, R59, R112, R115) -/

theorem seekEnded_prepare (h : s.run.state = .prepare) : seekEnded s = enterRunOrHold s := by
  simp [seekEnded, h]

theorem seekEnded_swaps (h : s.run.state = .change) (hp : s.run.phase = .lift) (hq : s.run.request = some q)
    (ha : swapAllowed s = true) : seekEnded s = swapAndComplete q { s with run.phase := .swap } := by
  simp only [seekEnded, h, hp, hq, ha, if_true]

theorem seekEnded_stands (h : s.run.state ≠ .prepare) (hc : ¬(s.run.state = .change ∧ s.run.phase = .lift)) :
    seekEnded s = s := by
  unfold seekEnded
  split
  · rename_i hp
    exact absurd hp h
  · rename_i hs
    split
    · rename_i hp _
      exact absurd ⟨hs, hp⟩ hc
    · rfl
  · rfl

theorem seekEnded_lift (s : State) : (seekEnded s).lift = s.lift := by
  unfold seekEnded
  split
  · rw [enterRunOrHold_frame]
  · split
    · split
      · exact swapAndComplete_lift _ _
      · rfl
    · rfl
  · rfl

/-- What the end of a seek hands on: PREPARE ends, and in phase LIFT a drained changeover makes its swap and is
completed. -/
def SeekHandsOn (s t : State) : Prop :=
  (s.run.state = .prepare →
      t.run.state = (if isEmptySet s.run.hold then .run else .hold) ∧ t.recipes = s.recipes)
    ∧ ∀ q r, s.run.state = .change → s.run.phase = .lift → s.recipes.staged = some r →
      s.run.request = some q → q.kind = .drained → s.recipes.retiring = none → s.track.retiringCount = 0 →
      t.recipes.active = some r ∧ t.recipes.staged = none ∧ t.recipes.firstMark = true
        ∧ t.run.phase = .none ∧ t.run.state = (if isEmptySet s.run.hold then .run else .hold)
        ∧ t.run.batchNumber = q.nextNumber ∧ t.run.batchSize = q.nextSize ∧ t.run.admitted = 0
        ∧ t.run.batchEnded = false ∧ t.run.request = none ∧ DecisionStands t
        ∧ t.alerts.latch[alertIx .changeoverDone] = true

theorem seekEnded_handsOn (s : State) : SeekHandsOn s (seekEnded s) := by
  refine ⟨fun h => ?_, fun q r h hp hr hq hk hretiring h0 => ?_⟩
  · rw [seekEnded_prepare h, enterRunOrHold_frame]
    exact ⟨rfl, rfl⟩
  · have hcomplete : seekEnded s = enterRunOrHold (latchAlert .changeoverDone
        { doSwap { s with run.phase := .swap } with run := { s.run with phase := .swap }.completed q }) :=
      (seekEnded_swaps h hp hq (swapAllowed_of hr hretiring h0)).trans (swapAndComplete_inChange hk h)
    rw [hcomplete]
    have hdecision := enterRunOrHold_decision (latchAlert .changeoverDone
      { doSwap { s with run.phase := .swap } with run := { s.run with phase := .swap }.completed q })
    refine ⟨?_, ?_, ?_, ?_, ?_, ?_, ?_, ?_, ?_, ?_, hdecision, enterRunOrHold_latches (by simp)⟩
    all_goals rw [enterRunOrHold_frame]
    · exact (doSwap_active _).trans hr
    all_goals rfl

/-- What a seek hands on does not turn on the lift it leaves. -/
theorem seekEnded_handsOn_lift (l : Lift) : SeekHandsOn s (seekEnded { s with lift := l }) :=
  seekEnded_handsOn { s with lift := l }

/-- The lift as a seek starts from READY, before its first step. -/
def Lift.starting (period settle : Nat) (l : Lift) : Lift :=
  { l with stepCount := 0, period := period, settleTime := settle, settling := false }

/-- A seek with no step to make ends at once (R112). -/
theorem startSeek_there {target period : Nat} (h : s.lift.position = target) : startSeek target period s
    = seekEnded { s with lift := { s.lift.starting period s.params.settleTime with
        state := .ready, target := none, requester := none } } := by
  simp only [startSeek]
  rw [if_pos h.symm]
  rfl

theorem startSeek_away {target period : Nat} (h : s.lift.position ≠ target) : startSeek target period s
    = { s with lift := { s.lift.starting period s.params.settleTime with
        state := .seeking, target := some target, requester := some .run
        dirDown := decide (s.lift.position < target) } } := by
  simp only [startSeek, if_neg h.symm]
  rfl

/-- The recipe to whose height the run control sends the lift: that of ACTIVE in PREPARE, that of STAGED in phase
LIFT. -/
def Wants (s : State) (r : Recipe) : Prop :=
  s.run.state = .prepare ∧ s.recipes.active = some r
    ∨ s.run.state = .change ∧ s.run.phase = .lift ∧ s.recipes.staged = some r

theorem seekForRun_starts (h : Wants s r) : seekForRun s = startSeek r.liftHeight r.stepPeriod s := by
  rcases h with ⟨hs, hr⟩ | ⟨hs, hp, hr⟩
  · simp only [seekForRun, hs, hr]
  · simp only [seekForRun, hs, hp, hr]

theorem seekForRun_stands (h : s.run.state ≠ .prepare) (hc : ¬(s.run.state = .change ∧ s.run.phase = .lift)) :
    seekForRun s = s := by
  unfold seekForRun
  split
  · rename_i hp
    exact absurd hp h
  · rename_i hs
    split
    · rename_i hp _
      exact absurd ⟨hs, hp⟩ hc
    · rfl
  · rfl

/-! ### Homes (R111, R113, R114) -/

/-- The lift as a home starts, before its first reading. -/
def homeStarted (who : Requester) (s : State) : State :=
  { s with lift := { s.lift with state := .homing, known := false, stepCount := 0, target := none
                                 requester := some who, settling := false, period := s.params.homePeriod
                                 settleTime := s.params.settleTime, dirDown := false } }

theorem startHome_fails (h : s.inputs.liftFlt = true) : startHome who s = liftFault (homeStarted who s) := if_pos h

theorem startHome_reads (h : s.inputs.liftFlt = false) :
    startHome who s = homeReading s.inputs.liftHome (homeStarted who s) := if_neg (by simp [h])

theorem homeReading_frame (b : Bool) (s : State) : homeReading b s = { s with lift := (homeReading b s).lift } := by
  cases b <;> rfl

/-- The lift as LIFT_FLT leaves it (R113). -/
def Lift.faulted (l : Lift) : Lift :=
  { l with state := .failed, known := false, target := none, requester := none, settling := false }

theorem liftFault_idle (h : s.run.state = .idle) :
    liftFault s = latchAlert .liftFailed { s with lift := s.lift.faulted } := by
  unfold liftFault
  simp only
  rw [if_pos (by simp [h])]
  rfl

theorem liftFault_raises (h : s.run.state ≠ .idle) :
    liftFault s = raiseCause .liftFault { s with lift := s.lift.faulted } := by
  unfold liftFault
  simp only
  rw [if_neg (by simp [h])]
  rfl

theorem raiseCause_lift (c : Cause) (s : State) : (raiseCause c s).lift = s.lift := by
  by_cases h : s.run.state = .fault
  · rw [raiseCause_inFault h]; rfl
  · rw [raiseCause_outside h, enterFault_frame]; rfl

theorem homeReads_iff : homeReads s = true ↔ s.lift.state = .homing ∧ s.lift.settling = false := by
  simp [homeReads]

theorem exec_homeStep (h : s.power = .running) : exec (.homeStep b) s = .next (homeStep b s) :=
  congrArg Host.Outcome.next (whenRunning_of_running _ h)

theorem homeStep_notReading (h : homeReads s = false) : homeStep b s = { s with inputs.liftHome := b } := by
  simp [homeStep, h]

theorem homeStep_reading (h : homeReads s = true) (hb : b = true ∨ s.lift.stepCount < homeLimit) :
    homeStep b s = homeReading b { s with inputs.liftHome := b } := by
  simp only [homeStep, h, Bool.not_true, Bool.false_eq_true, if_false]
  rw [if_pos (by simpa using hb)]

theorem homeStep_fails (h : homeReads s = true) (hn : homeLimit ≤ s.lift.stepCount) :
    homeStep false s = homeFails { s with inputs.liftHome := false } := by
  simp only [homeStep, h, Bool.not_true, Bool.false_eq_true, if_false]
  rw [if_neg (by simpa using hn)]

theorem exec_homeFailure (h : s.power = .running) : exec .homeFailure s
    = .next (if homeReads s && decide (homeLimit ≤ s.lift.stepCount) then homeFails { s with inputs.liftHome := false }
      else s) :=
  congrArg Host.Outcome.next (whenRunning_of_running _ h)

/-- The lift as a home that failed leaves it (R111). -/
def Lift.homeFailed (l : Lift) : Lift := { l with state := .failed, known := false, requester := none }

theorem homeFails_raises (h : s.run.state = .prepare ∨ s.run.state = .change) :
    homeFails s = raiseCause .homeFail { s with lift := s.lift.homeFailed } := by
  rcases h with h | h <;> simp only [homeFails, h] <;> rfl

theorem homeFails_latches (h : s.run.state ≠ .prepare) (hc : s.run.state ≠ .change) :
    homeFails s = latchAlert .liftFailed { s with lift := s.lift.homeFailed } := by
  unfold homeFails
  simp only
  split
  · rename_i hs
    exact absurd hs h
  · rename_i hs
    exact absurd hs hc
  all_goals rfl

theorem homeLiftBlock_outside (h : s.run.state ≠ .idle) : homeLiftBlock lp s = .plain .wrongState s := by
  simp [homeLiftBlock, h]

theorem homeLiftBlock_moving (h : s.run.state = .idle) (hm : s.lift.state = .homing ∨ s.lift.state = .seeking) :
    homeLiftBlock lp s = .plain .busy s := by
  rcases hm with hm | hm <;> simp [homeLiftBlock, h, hm]

theorem homeLiftBlock_starts (h : s.run.state = .idle) (hm : s.lift.state ≠ .homing) (hk : s.lift.state ≠ .seeking) :
    homeLiftBlock lp s = .plain .done (startHome .host (sampleLift lp s)) := by
  unfold homeLiftBlock
  rw [if_neg (by simp [h])]
  split
  · rename_i hs
    exact absurd hs hm
  · rename_i hs
    exact absurd hs hk
  all_goals rfl

/-! ### The end of the settle wait (R115) -/

/-- SETTLE_END is due. -/
def settleDue (s : State) : Bool := s.lift.settling && elapsed s.lift.settleSince s.lift.settleTime s

theorem settleDue_iff : settleDue s = true
    ↔ s.lift.settling = true ∧ s.lift.settleTime ≤ (s.timeBase - s.lift.settleSince).toNat := by
  simp [settleDue, elapsed]

theorem exec_settleEnd (h : s.power = .running) :
    exec .settleEnd s = .next (if settleDue s then settleEnd s else s) :=
  congrArg Host.Outcome.next (whenRunning_of_running _ h)

/-- The lift as its settle wait leaves it: READY. -/
def settleReady (s : State) : State :=
  { s with lift := { s.lift with state := .ready, target := none, requester := none, settling := false } }

theorem settleEnd_homing (h : s.lift.state = .homing) :
    settleEnd s = homeEnded s.lift.requester (settleReady s) := by
  simp only [settleEnd, h]
  rfl

theorem settleEnd_seeking (h : s.lift.state = .seeking) : settleEnd s = seekEnded (settleReady s) := by
  simp only [settleEnd, h]
  rfl

theorem exec_seekStep (h : s.power = .running) : exec .seekStep s = .next (seekStep s) :=
  congrArg Host.Outcome.next (whenRunning_of_running _ h)

/-- One step of a seek that has not come to its target (R112). -/
theorem seekStep_steps {n : Nat} (ht : s.lift.target = some n) (hs : s.lift.state = .seeking)
    (hw : s.lift.settling = false) : seekStep s =
    let pos := if s.lift.position < n then s.lift.position + 1 else s.lift.position - 1
    { s with lift := { s.lift with position := pos, stepCount := s.lift.stepCount + 1
                                   settling := decide (pos = n)
                                   settleSince := if pos = n then s.timeBase else s.lift.settleSince } } := by
  simp only [seekStep, ht, hs, hw, beq_self_eq_true, Bool.not_false, Bool.and_self, if_true]
  generalize (if s.lift.position < n then s.lift.position + 1 else s.lift.position - 1) = pos
  by_cases h : pos = n
  · simp only [if_pos h, decide_eq_true h]
  · simp only [if_neg h, decide_eq_false h]

end Sys2Proof.Machine

namespace Sys2Proof.Proofs

open Sys2Proof.Machine

variable {s : State} {r : Recipe}

/-! ### LiftMovesServed, part by part -/

/-- HOME LIFT starts a home with LIFT_FLT released: the first reading, and the first step when it finds nothing. -/
theorem homeLift_reads {g : State} (lp : LiftPins) (hflt : lp.liftFlt = false) :
    let t := startHome .host (sampleLift lp g)
    t = { sampleLift lp g with lift := t.lift } ∧ t.lift.state = .homing
      ∧ t.lift.stepCount = (if lp.liftHome then 0 else 1)
      ∧ t.lift.target = none ∧ t.lift.requester = some .host ∧ t.lift.dirDown = false
      ∧ t.lift.known = lp.liftHome ∧ t.lift.settling = lp.liftHome
      ∧ t.lift.position = (if lp.liftHome then 0 else g.lift.position) := by
  intro t
  have ht : t = homeReading lp.liftHome (homeStarted .host (sampleLift lp g)) := startHome_reads hflt
  rw [ht]
  cases lp.liftHome <;> exact ⟨rfl, rfl, rfl, rfl, rfl, rfl, rfl, rfl, rfl⟩

/-- HOME LIFT in IDLE with LIFT_FLT asserted: the home fails before its first step (R113). -/
theorem homeLift_fails {g : State} (lp : LiftPins) (hidle : g.run.state = .idle) (hflt : lp.liftFlt = true) :
    let t := startHome .host (sampleLift lp g)
    t = { sampleLift lp g with lift := t.lift, alerts := t.alerts }
      ∧ t.alerts.latch = g.alerts.latch.set (alertIx .liftFailed) true
      ∧ t.lift.state = .failed ∧ t.lift.known = false ∧ t.lift.target = none
      ∧ t.lift.requester = none ∧ t.lift.settling = false ∧ t.lift.stepCount = 0
      ∧ t.lift.position = g.lift.position := by
  intro t
  have ht : t = latchAlert .liftFailed { homeStarted .host (sampleLift lp g) with
      lift := (homeStarted .host (sampleLift lp g)).lift.faulted } :=
    (startHome_fails hflt).trans (liftFault_idle hidle)
  rw [ht]
  exact ⟨rfl, rfl, rfl, rfl, rfl, rfl, rfl, rfl, rfl⟩

/-- LIFT_FLT fails the lift: in IDLE it is alerted, elsewhere it raises LIFT_FAULT (R113). -/
theorem liftFault_served (hlstop : LstopFollows s) :
    (liftFault s).lift = s.lift.faulted
      ∧ (s.run.state = .idle → (liftFault s).alerts.latch = s.alerts.latch.set (alertIx .liftFailed) true
        ∧ (liftFault s).run = s.run)
      ∧ (s.run.state ≠ .idle → FaultFor .liftFault (liftFault s)) := by
  by_cases h : s.run.state = .idle
  · rw [liftFault_idle h]
    exact ⟨rfl, fun _ => ⟨rfl, rfl⟩, fun hn => absurd h hn⟩
  · rw [liftFault_raises h]
    exact ⟨raiseCause_lift _ _, fun hi => absurd hi h, fun _ => raiseCause_faultFor hlstop⟩

/-- A home that fails: in PREPARE and CHANGE it raises HOME_FAIL, elsewhere it is alerted (R111). -/
theorem homeFails_served (hlstop : LstopFollows s) :
    (homeFails s).lift = s.lift.homeFailed
      ∧ (s.run.state = .prepare ∨ s.run.state = .change → FaultFor .homeFail (homeFails s))
      ∧ (s.run.state ≠ .prepare → s.run.state ≠ .change → (homeFails s).run = s.run
        ∧ (homeFails s).alerts.latch = s.alerts.latch.set (alertIx .liftFailed) true) := by
  by_cases h : s.run.state = .prepare ∨ s.run.state = .change
  · rw [homeFails_raises h]
    exact ⟨raiseCause_lift _ _, fun _ => raiseCause_faultFor hlstop,
      fun hp hc => absurd h (not_or.mpr ⟨hp, hc⟩)⟩
  · obtain ⟨hp, hc⟩ := not_or.mp h
    rw [homeFails_latches hp hc]
    exact ⟨rfl, fun hpc => absurd hpc h, fun _ _ => ⟨rfl, rfl⟩⟩

/-- The seek a home of the run starts, by the recipe wanted (R112, R115). -/
theorem homeEnded_wants (hw : Wants s r) :
    let t := seekForRun (settleReady s)
    (s.lift.position ≠ r.liftHeight → t = { s with lift := t.lift }
        ∧ t.lift.state = .seeking ∧ t.lift.target = some r.liftHeight
        ∧ t.lift.period = r.stepPeriod ∧ t.lift.requester = some .run ∧ t.lift.stepCount = 0)
      ∧ (s.lift.position = r.liftHeight → t.lift = { (settleReady s).lift with
          stepCount := 0, period := r.stepPeriod, settleTime := s.params.settleTime } ∧ SeekHandsOn s t) := by
  intro t
  have ht : t = startSeek r.liftHeight r.stepPeriod (settleReady s) := seekForRun_starts hw
  rw [ht]
  refine ⟨fun h => ?_, fun h => ?_⟩
  · rw [startSeek_away (s := settleReady s) h]
    exact ⟨rfl, rfl, rfl, rfl, rfl, rfl⟩
  · rw [startSeek_there (s := settleReady s) h]
    exact ⟨seekEnded_lift _, seekEnded_handsOn_lift _⟩

/-- The end of the settle wait of a home or a seek, by what asked for it (R112, R115). -/
theorem settleEnd_served :
    (s.lift.state = .homing → s.lift.requester = some .host →
        (settleEnd s).lift = (settleReady s).lift ∧ (settleEnd s).run = s.run
        ∧ (settleEnd s).alerts.latch = s.alerts.latch.set (alertIx .liftDone) true)
      ∧ (∀ r, s.lift.state = .homing → s.lift.requester = some .run → Wants s r →
        (s.lift.position ≠ r.liftHeight → settleEnd s = { s with lift := (settleEnd s).lift }
          ∧ (settleEnd s).lift.state = .seeking ∧ (settleEnd s).lift.target = some r.liftHeight
          ∧ (settleEnd s).lift.period = r.stepPeriod ∧ (settleEnd s).lift.requester = some .run
          ∧ (settleEnd s).lift.stepCount = 0)
        ∧ (s.lift.position = r.liftHeight → (settleEnd s).lift = { (settleReady s).lift with
            stepCount := 0, period := r.stepPeriod, settleTime := s.params.settleTime }
          ∧ SeekHandsOn s (settleEnd s)))
      ∧ (s.lift.state = .homing → s.lift.requester = some .run → s.run.state ≠ .prepare →
        ¬(s.run.state = .change ∧ s.run.phase = .lift) → settleEnd s = settleReady s)
      ∧ (s.lift.state = .seeking → (settleEnd s).lift = (settleReady s).lift ∧ SeekHandsOn s (settleEnd s))
      ∧ (s.lift.state = .seeking → s.run.state ≠ .prepare →
        ¬(s.run.state = .change ∧ s.run.phase = .lift) → settleEnd s = settleReady s) := by
  have hhome : ∀ {who}, s.lift.state = .homing → s.lift.requester = some who →
      settleEnd s = homeEnded (some who) (settleReady s) := fun h hr => hr ▸ settleEnd_homing h
  refine ⟨fun h hr => ?_, fun r h hr hw => ?_, fun h hr hp hc => ?_, fun h => ?_, fun h hp hc => ?_⟩
  · rw [hhome h hr]
    exact ⟨rfl, rfl, rfl⟩
  · rw [hhome h hr]
    exact homeEnded_wants hw
  · exact (hhome h hr).trans (seekForRun_stands hp hc)
  · rw [settleEnd_seeking h]
    exact ⟨seekEnded_lift _, seekEnded_handsOn_lift _⟩
  · exact (settleEnd_seeking h).trans (seekEnded_stands hp hc)

/-- Settles O51: HOME LIFT by its checks, then each lift event by whether it is due and what it ends. -/
theorem liftMovesServed : Obligations.LiftMovesServed := by
  intro s hlstop g reads wants goesOn
  have hreads : homeReads s = true ↔ reads := homeReads_iff
  have hdue : (homeReads s && decide (homeLimit ≤ s.lift.stepCount)) = true
      ↔ reads ∧ 16000 ≤ s.lift.stepCount := by
    rw [Bool.and_eq_true, hreads, decide_eq_true_iff]
    rfl
  refine ⟨fun lp hready => ⟨fun h => ?_, fun h hm => ?_, fun h hh hk hflt => ?_, fun h hh hk hflt => ?_⟩,
    fun hrun => ⟨?_, fun b h => ?_, fun h => ?_, fun h hn => ?_, fun h => ?_, fun h hn => ?_,
      fun n ht hs hw hn => ?_, fun hw he _ => ?_, fun h => ?_⟩⟩
  · exact next_ready hready rfl rfl (homeLiftBlock_outside h)
  · exact next_ready hready rfl rfl (homeLiftBlock_moving h hm)
  · exact ⟨_, next_ready hready rfl rfl (homeLiftBlock_starts h hh hk), homeLift_reads lp hflt⟩
  · exact ⟨_, next_ready hready rfl rfl (homeLiftBlock_starts h hh hk), homeLift_fails lp h hflt⟩
  · exact ⟨_, congrArg Host.Outcome.next (whenRunning_of_running _ hrun), liftFault_served hlstop⟩
  · rw [exec_homeStep hrun, homeStep_notReading (by simpa using mt hreads.mp h)]
  · rw [exec_homeStep hrun, homeStep_reading (hreads.mpr h) (.inl rfl)]
    rfl
  · rw [exec_homeStep hrun, homeStep_reading (hreads.mpr h) (.inr hn)]
    rfl
  · rw [exec_homeFailure hrun, if_neg (mt hdue.mp h)]
  · refine ⟨homeFails { s with inputs.liftHome := false }, ?_, ?_, homeFails_served hlstop⟩
    · rw [exec_homeFailure hrun, if_pos (hdue.mpr ⟨h, hn⟩)]
    · rw [exec_homeStep hrun, homeStep_fails (hreads.mpr h) hn]
  · refine ⟨_, (exec_seekStep hrun).trans (congrArg Host.Outcome.next (seekStep_steps ht hs hw)),
      rfl, rfl, ht, hs, fun hlt => if_pos hlt, fun hgt => ?_, rfl⟩
    simp only [if_neg (Nat.not_lt.mpr hgt.le)]
    omega
  · refine ⟨settleEnd s, ?_, settleEnd_served⟩
    rw [exec_settleEnd hrun, if_pos (settleDue_iff.mpr ⟨hw, he⟩)]
  · rw [exec_settleEnd hrun, if_neg (mt settleDue_iff.mp h)]

end Sys2Proof.Proofs
end

