-- ==== Sys2Proof/Proofs/StartRun.lean ====
section
/-! PROOFS. START RUN: its checks, the batch it begins, and what PREPARE does with the lift (R25, R26). -/

-- One declaration is checked after another: side by side they take more threads than the memory limit allows.
set_option Elab.async false

namespace Sys2Proof.Machine

variable {s : State} {r : Recipe} {p : List Byte} {lp : LiftPins}

/-! ### The checks (R25) -/

/-- The run control can take START RUN: IDLE with an empty Track, and the pocket counter synchronised. -/
def RunMayStart (s : State) : Prop := s.run.state = .idle ∧ s.track.entries = [] ∧ s.track.synced = true

theorem startRunRefusal_state (h : ¬RunMayStart s) : startRunRefusal s = some .wrongState := by
  by_cases hi : s.run.state = .idle
  · by_cases he : s.track.entries = []
    · have hsync : s.track.synced = false := Bool.not_eq_true _ ▸ fun hs => h ⟨hi, he, hs⟩
      simp [startRunRefusal, hi, he, hsync]
    · simp [startRunRefusal, hi, he]
  · simp [startRunRefusal, hi]

/-- With the state right the lift is looked at, then the banks. -/
theorem startRunRefusal_ready (h : RunMayStart s) : startRunRefusal s =
    if s.lift.state == .homing || s.lift.state == .seeking then some .busy
    else if s.recipes.active.isNone && s.recipes.staged.isNone then some .badValue else none := by
  obtain ⟨hidle, hempty, hsync⟩ := h
  simp [startRunRefusal, hidle, hempty, hsync]

theorem startRunRefusal_moves (h : RunMayStart s) (hm : s.lift.state = .homing ∨ s.lift.state = .seeking) :
    startRunRefusal s = some .busy := by
  rw [startRunRefusal_ready h, if_pos (by simpa using hm)]

theorem startRunRefusal_stands (h : RunMayStart s) (hm : ¬(s.lift.state = .homing ∨ s.lift.state = .seeking)) :
    startRunRefusal s = if (s.recipes.active.or s.recipes.staged).isNone then some .badValue else none := by
  rw [startRunRefusal_ready h, if_neg (by simpa using hm), Option.isNone_or]

/-- A lift that neither moves nor is READY has to be homed. -/
theorem unknown_or_failed (hm : ¬(s.lift.state = .homing ∨ s.lift.state = .seeking)) (hl : s.lift.state ≠ .ready) :
    s.lift.state = .unknown ∨ s.lift.state = .failed := by
  cases h : s.lift.state with
  | unknown => exact .inl rfl
  | failed => exact .inr rfl
  | homing => exact absurd (.inl h) hm
  | seeking => exact absurd (.inr h) hm
  | ready => exact absurd h hl

/-! ### The batch (R25) -/

/-- With ACTIVE empty, STAGED becomes ACTIVE (R25). -/
def promoted (s : State) : State := if s.recipes.active.isNone then doSwap s else s

/-- The run control with the batch of the message. -/
def RunControl.newBatch (p : List Byte) (c : RunControl) : RunControl :=
  { c with batchNumber := field p 0 2, batchSize := min (field p 2 4) 1000000, admitted := 0, batchEnded := false }

/-- The batch begun, in PREPARE, before the lift is looked at. -/
def batchBegun (p : List Byte) (lp : LiftPins) (s : State) : State :=
  setRunState .prepare (sampleLift lp (clearRunCounters
    { promoted s with run := (promoted s).run.newBatch p }))

theorem startRunBlock_refuses {c : ResultCode} (h : startRunRefusal s = some c) :
    startRunBlock p lp s = .plain c s := by
  simp [startRunBlock, h]

theorem startRunBlock_begins (h : startRunRefusal s = none) : startRunBlock p lp s
    = .plain (if field p 2 4 ≤ 1000000 then .done else .doneClamped) (liftForRun (batchBegun p lp s)) := by
  have hclamp : clampTo 0 maxBatchSize (field p 2 4) = min (field p 2 4) 1000000 :=
    (clampTo_eq _ (Nat.zero_le _)).trans (Nat.zero_max _)
  have hcode : doneOr (min (field p 2 4) 1000000 != field p 2 4)
      = if field p 2 4 ≤ 1000000 then .done else .doneClamped := by
    simp only [doneOr_bne, min_eq_left_iff]
  simp only [startRunBlock, h, hclamp, hcode]
  rfl

/-- The swap that promotes STAGED moves the banks alone, with no entry that references ACTIVE. -/
theorem promoted_unloaded (hr : s.recipes.active.or s.recipes.staged = some r) (h : s.track.activeCount = 0) :
    promoted s = { s with recipes := if s.recipes.active.isSome then s.recipes else
      { s.recipes with active := some r, staged := none, firstMark := true } } := by
  unfold promoted
  cases ha : s.recipes.active with
  | some a => rfl
  | none =>
    have hs : s.recipes.staged = some r := by simpa [ha] using hr
    simp [doSwap, h, hs]

theorem batchBegun_stands (p : List Byte) (lp : LiftPins) (s : State) :
    (batchBegun p lp s).lift = s.lift ∧ (batchBegun p lp s).run.hold = s.run.hold := by
  obtain ⟨hlift, hrun⟩ : (promoted s).lift = s.lift ∧ (promoted s).run = s.run := by
    unfold promoted
    split
    · rw [doSwap_frame]
      exact ⟨rfl, rfl⟩
    · exact ⟨rfl, rfl⟩
  exact ⟨hlift, congrArg (·.hold) hrun⟩

theorem promoted_active (hr : s.recipes.active.or s.recipes.staged = some r) : (promoted s).recipes.active = some r := by
  unfold promoted
  cases ha : s.recipes.active with
  | some a => simpa [ha] using hr
  | none => simpa [ha] using hr

/-! ### The lift in PREPARE (R26) -/

theorem liftForRun_stands (h : s.run.state = .prepare) (ha : s.recipes.active = some r) (hl : s.lift.state = .ready)
    (hp : s.lift.position = r.liftHeight) : liftForRun s = enterRunOrHold s := by
  simp [liftForRun, hl, atActiveHeight, h, ha, hp]

theorem liftForRun_seeks (h : s.run.state = .prepare) (ha : s.recipes.active = some r) (hl : s.lift.state = .ready)
    (hp : s.lift.position ≠ r.liftHeight) : liftForRun s
    = { s with lift := { s.lift.starting r.stepPeriod s.params.settleTime with
        state := .seeking, target := some r.liftHeight, requester := some .run
        dirDown := decide (s.lift.position < r.liftHeight) } } := by
  have hseek : liftForRun s = seekForRun s := by
    simp [liftForRun, hl, atActiveHeight, h, ha, hp.symm]
  rw [hseek, seekForRun_starts (.inl ⟨h, ha⟩), startSeek_away hp]

theorem liftForRun_homes (hl : s.lift.state = .unknown ∨ s.lift.state = .failed) :
    liftForRun s = startHome .run s := by
  rcases hl with hl | hl <;> simp [liftForRun, hl]

theorem liftForRun_fails (h : s.run.state = .prepare) (hl : s.lift.state = .unknown ∨ s.lift.state = .failed)
    (hflt : s.inputs.liftFlt = true) : liftForRun s
    = raiseCause .liftFault { homeStarted .run s with lift := (homeStarted .run s).lift.faulted } := by
  have hprep : (homeStarted .run s).run.state ≠ .idle := by
    rw [show (homeStarted .run s).run.state = .prepare from h]
    exact RunState.noConfusion
  rw [liftForRun_homes hl, startHome_fails hflt, liftFault_raises hprep]

/-- The state as PREPARE's look at the lift can leave it: lift, run state, decision and alerts alone. -/
def LooksAtLift (s t : State) : Prop :=
  t = { s with run := { s.run with state := t.run.state, lstop := t.run.lstop, phase := t.run.phase }
               gate := { s.gate with decision := t.gate.decision, gateOut := t.gate.gateOut }
               alerts := t.alerts, lift := t.lift }

theorem looksAtLift_enterRunOrHold (s : State) : LooksAtLift s (enterRunOrHold s) := by
  rcases enterRunOrHold_cases s with h | h <;> rw [h] <;> rfl

/-- With LIFT_FLT released PREPARE's look at the lift ends it, starts a seek or starts a home. -/
theorem liftForRun_looks (h : s.run.state = .prepare) (ha : s.recipes.active = some r)
    (hm : ¬(s.lift.state = .homing ∨ s.lift.state = .seeking)) (hflt : s.inputs.liftFlt = false) :
    LooksAtLift s (liftForRun s) := by
  have hhome (hl : s.lift.state = .unknown ∨ s.lift.state = .failed) : LooksAtLift s (liftForRun s) := by
    rw [liftForRun_homes hl, startHome_reads hflt, homeReading_frame]
    rfl
  cases hl : s.lift.state with
  | unknown => exact hhome (.inl hl)
  | failed => exact hhome (.inr hl)
  | homing => exact absurd (.inl hl) hm
  | seeking => exact absurd (.inr hl) hm
  | ready =>
    by_cases hp : s.lift.position = r.liftHeight
    · rw [liftForRun_stands h ha hl hp]
      exact looksAtLift_enterRunOrHold s
    · rw [liftForRun_seeks h ha hl hp]
      rfl

theorem raiseCause_batchNumber (c : Cause) (s : State) : (raiseCause c s).run.batchNumber = s.run.batchNumber := by
  by_cases h : s.run.state = .fault
  · rw [raiseCause_inFault h]; rfl
  · rw [raiseCause_outside h, enterFault_frame]; rfl

end Sys2Proof.Machine

namespace Sys2Proof.Proofs

open Sys2Proof.Machine

variable {g : State} {r : Recipe} {p : List Byte} {lp : LiftPins}

/-- What START RUN leaves whatever PREPARE does with the lift, LIFT_FLT released (R25). -/
theorem startRun_begins (ha : g.recipes.active.or g.recipes.staged = some r) (h0 : g.track.activeCount = 0)
    {t : State} (ht : LooksAtLift (batchBegun p lp g) t) :
    t.run.batchNumber = field p 0 2 ∧ t.run.batchSize = min (field p 2 4) 1000000
      ∧ t.run.admitted = 0 ∧ t.run.batchEnded = false
      ∧ t.classCounts = Vector.replicate 13 0 ∧ t.gate.emptyPockets = 0
      ∧ t.reject = { g.reject with passed := 0, rejected := 0, missing := 0, purged := 0 }
      ∧ t.recipes = (if g.recipes.active.isSome then g.recipes else
          { g.recipes with active := some r, staged := none, firstMark := true })
      ∧ t.track = g.track ∧ t.heads = g.heads ∧ t.run.hold = g.run.hold
      ∧ t.gate.gapCount = g.gate.gapCount := by
  rw [LooksAtLift, batchBegun, promoted_unloaded ha h0] at ht
  rw [ht]
  exact ⟨rfl, rfl, rfl, rfl, rfl, rfl, rfl, rfl, rfl, rfl, rfl, rfl⟩

/-- Settles O34: the checks refuse in their order; an accepted START RUN begins the batch, and each state of the lift
gives PREPARE its own end. -/
theorem startRunServed : Obligations.StartRunServed := by
  intro p lp s hready hlen g ready moves
  have hfits : (p.length == 6) = true := beq_iff_eq.mpr hlen
  have hbegins (hr : ready) (hm : ¬moves) (hbank : (g.recipes.active.or g.recipes.staged).isSome = true) :
      exec (.startRun p lp) s = .next (replied g 0x30
        (if field p 2 4 ≤ 1000000 then .done else .doneClamped) [] (liftForRun (batchBegun p lp g))) := by
    refine next_ready hready hfits rfl (startRunBlock_begins ?_)
    rw [startRunRefusal_stands hr hm, if_neg (by rw [← Option.not_isSome, hbank]; exact Bool.false_ne_true)]
  obtain ⟨hlift, hhold⟩ := batchBegun_stands p lp g
  have hposition : (batchBegun p lp g).lift.position = g.lift.position := congrArg (·.position) hlift
  refine ⟨fun hr => ?_, fun hr hm => ?_, fun hr hm ha hs => ?_, fun hr hm hbank hl hflt => ?_,
    fun r hr hm hbank h0 hflt => ?_⟩
  · exact next_ready hready hfits rfl (startRunBlock_refuses (startRunRefusal_state hr))
  · exact next_ready hready hfits rfl (startRunBlock_refuses (startRunRefusal_moves hr hm))
  · refine next_ready hready hfits rfl (startRunBlock_refuses ?_)
    rw [startRunRefusal_stands hr hm, if_pos (by simp [ha, hs])]
  · have hfails : liftForRun (batchBegun p lp g) = raiseCause .liftFault _ :=
      liftForRun_fails rfl (hlift ▸ unknown_or_failed hm hl) hflt
    refine ⟨_, hbegins hr hm hbank, ?_⟩
    rw [hfails, raiseCause_lift, raiseCause_batchNumber]
    exact ⟨raiseCause_faultFor rfl, rfl, rfl, rfl, rfl, rfl⟩
  · have hactive : (batchBegun p lp g).recipes.active = some r := promoted_active hbank
    refine ⟨_, hbegins hr hm (by rw [hbank]; rfl), ?_⟩
    obtain ⟨h1, h2, h3, h4, h5, h6, h7, h8, h9, h10, h11, h12⟩ := startRun_begins hbank h0
      (liftForRun_looks (s := batchBegun p lp g) rfl hactive (hlift ▸ hm) hflt)
    refine ⟨h1, h2, h3, h4, h5, h6, h7, h8, h9, h10, h11, h12, fun hl hp => ?_, fun hl hp => ?_, fun hl => ?_⟩
    · rw [liftForRun_stands rfl hactive (hlift ▸ hl) (hposition ▸ hp), enterRunOrHold_frame]
      exact ⟨hlift, by rw [hhold]⟩
    · rw [liftForRun_seeks rfl hactive (hlift ▸ hl) (hposition ▸ hp)]
      exact ⟨rfl, rfl, rfl, rfl, rfl, rfl, hposition⟩
    · rw [liftForRun_homes (hlift ▸ hl), startHome_reads hflt,
        show (batchBegun p lp g).inputs.liftHome = lp.liftHome from rfl]
      cases lp.liftHome <;> exact ⟨rfl, rfl, rfl, rfl, rfl, rfl⟩

end Sys2Proof.Proofs
end

