-- ==== Sys2Proof/Proofs/Recipes.lean ====
section
/-! PROOFS. Recipe records: their 46 bytes, the clamp and the relations of STAGE RECIPE, and the banks it and DISCARD
STAGED change (R45 to R49, R172). -/

-- One declaration is checked after another: side by side they take more threads than the memory limit allows.
set_option Elab.async false

namespace Sys2Proof.Machine

variable {s : State} {r : Recipe} {p : List Byte}

/-! ### Fields and bytes (R169) -/

theorem beValue_beBytes (width n : Nat) : beValue (beBytes width n) = n % 256 ^ width := by
  induction width generalizing n with
  | zero => simp [beBytes, beValue, Nat.mod_one]
  | succ k ih =>
    have hpow : 256 ^ (k + 1) = 256 * 256 ^ k := Nat.pow_succ'
    rw [beBytes, beValue_append, ih, BitVec.toNat_ofNat, hpow, Nat.mod_mul]
    omega

theorem beValue_lt (q : List Byte) : beValue q < 256 ^ q.length := by
  induction q using List.reverseRecOn with
  | nil => exact Nat.one_pos
  | append_singleton q b ih =>
    rw [beValue_append, List.length_append, List.length_singleton, Nat.pow_succ]
    have := b.isLt
    omega

theorem field_lt (p : List Byte) (off len : Nat) : field p off len < 256 ^ len :=
  (beValue_lt _).trans_le (Nat.pow_le_pow_right (by decide) (List.length_take_le _ _))

@[simp] theorem length_beBytes (width n : Nat) : (beBytes width n).length = width := by
  induction width generalizing n with
  | zero => rfl
  | succ k ih => rw [beBytes, List.length_append, ih, List.length_singleton]

theorem field_of_append {a b : List Byte} {off len : Nat} (h : a.length ≤ off) :
    field (a ++ b) off len = field b (off - a.length) len := by
  rw [field, List.drop_append, List.drop_eq_nil_of_le h, List.nil_append, field]

theorem field_at_start {a b : List Byte} {len : Nat} (h : a.length = len) : field (a ++ b) 0 len = beValue a := by
  rw [field, List.drop_zero, List.take_left' h]

theorem field_whole {a : List Byte} {len : Nat} (h : a.length = len) : field a 0 len = beValue a := by
  rw [field, List.drop_zero, ← h, List.take_length]

/-- Two slices that follow one another make one. -/
theorem slice_append_slice (p : List Byte) (off n m : Nat) :
    (p.drop off).take n ++ (p.drop (off + n)).take m = (p.drop off).take (n + m) := by
  rw [List.take_add, List.drop_drop]

/-! ### The record (Table 12-5, R45) -/

theorem recipeBytes_recipeOfBytes (h : p.length = 46) : recipeBytes (recipeOfBytes p) = p := by
  have hname : ((p.drop 2).take 12 ++ List.replicate 12 0).take 12 = (p.drop 2).take 12 :=
    List.take_left' (by simp [h])
  unfold recipeBytes recipeOfBytes
  simp only
  repeat rw [beBytes_field (by omega)]
  rw [hname]
  repeat rw [slice_append_slice]
  exact List.take_of_length_le h.le

/-- What the bytes of a record carry in each field. -/
theorem recipeOfBytes_fields (h : r.name.length = 12) : recipeOfBytes (recipeBytes r) =
    { id := beValue (beBytes 2 r.id), name := r.name, liftHeight := beValue (beBytes 2 r.liftHeight)
      stepPeriod := beValue (beBytes 1 r.stepPeriod), torqueSet := beValue (beBytes 2 r.torqueSet)
      torqueLo := beValue (beBytes 2 r.torqueLo), torqueHi := beValue (beBytes 2 r.torqueHi)
      angleLo := beValue (beBytes 2 r.angleLo), angleHi := beValue (beBytes 2 r.angleHi)
      angleMax := beValue (beBytes 2 r.angleMax), steamDwell := beValue (beBytes 2 r.steamDwell)
      attemptsLimit := beValue (beBytes 1 r.attemptsLimit), dFull := beValue (beBytes 2 r.dFull)
      tau := beValue (beBytes 2 r.tau), dudFraction := beValue (beBytes 1 r.dudFraction)
      bulgeLimit := beValue (beBytes 2 r.bulgeLimit), gain := beValue (beBytes 1 r.gain)
      tRef := beValue (beBytes 2 r.tRef), tAmb := beValue (beBytes 2 r.tAmb), tMin := beValue (beBytes 2 r.tMin) } := by
  have hname : (r.name ++ List.replicate 12 0).take 12 = r.name := List.take_left' h
  unfold recipeBytes
  rw [hname]
  simp only [List.append_assoc]
  simp [recipeOfBytes, field_of_append, field_at_start, field_whole, h]

theorem recipeOfBytes_recipeBytes (hr : RecipeInRange r) (h : r.name.length = 12) :
    recipeOfBytes (recipeBytes r) = r := by
  obtain ⟨hid, hheight, ⟨_, hperiod⟩, ⟨_, hset⟩, hlo, hhi, halo, hahi, hamax, hdwell, ⟨_, hattempts⟩, hfull, ⟨_, htau⟩,
    hdud, hbulge, ⟨_, hgain⟩, ⟨_, href⟩, hamb, hmin⟩ := hr
  have two {n : Nat} (top : Nat) (hn : n ≤ top) (ht : top < 65536) : beValue (beBytes 2 n) = n := by
    rw [beValue_beBytes]; omega
  have one {n : Nat} (top : Nat) (hn : n ≤ top) (ht : top < 256) : beValue (beBytes 1 n) = n := by
    rw [beValue_beBytes]; omega
  rw [recipeOfBytes_fields h, two _ hid (by decide), two _ hheight (by decide), one _ hperiod (by decide),
    two _ hset (by decide), two _ hlo (by decide), two _ hhi (by decide), two _ halo (by decide),
    two _ hahi (by decide), two _ hamax (by decide), two _ hdwell (by decide), one _ hattempts (by decide),
    two _ hfull (by decide), two _ htau (by decide), one _ hdud (by decide), two _ hbulge (by decide),
    one _ hgain (by decide), two _ href (by decide), two _ hamb (by decide), two _ hmin (by decide)]

/-! ### The clamp (R46, Table 3-1) -/

theorem clampTo_le (hi n : Nat) : clampTo 0 hi n ≤ hi := (clampTo_range 0 hi n (Nat.zero_le hi)).2

theorem recipeInRange_clampRecipe (r : Recipe) : RecipeInRange (clampRecipe r) := by
  have between {lo hi n : Nat} (h : lo ≤ hi) : lo ≤ clampTo lo hi n ∧ clampTo lo hi n ≤ hi := clampTo_range lo hi n h
  exact ⟨clampTo_le _ _, clampTo_le _ _, between (by decide), between (by decide), clampTo_le _ _, clampTo_le _ _,
    clampTo_le _ _, clampTo_le _ _, clampTo_le _ _, clampTo_le _ _, between (by decide), clampTo_le _ _,
    between (by decide), clampTo_le _ _, clampTo_le _ _, between (by decide), between (by decide), clampTo_le _ _,
    clampTo_le _ _⟩

/-- Records in range are the ones the clamp leaves alone. -/
theorem recipeInRange_iff_clampRecipe (r : Recipe) : RecipeInRange r ↔ clampRecipe r = r := by
  constructor
  · rintro ⟨hid, hheight, hperiod, hset, hlo, hhi, halo, hahi, hamax, hdwell, hattempts, hfull, htau, hdud, hbulge,
      hgain, href, hamb, hmin⟩
    have upTo {n hi : Nat} (h : n ≤ hi) : clampTo 0 hi n = n := clampTo_self ⟨n.zero_le, h⟩
    unfold clampRecipe
    rw [upTo hid, upTo hheight, clampTo_self hperiod, clampTo_self hset, upTo hlo, upTo hhi, upTo halo, upTo hahi,
      upTo hamax, upTo hdwell, clampTo_self hattempts, upTo hfull, clampTo_self htau, upTo hdud, upTo hbulge,
      clampTo_self hgain, clampTo_self href, upTo hamb, upTo hmin]
  · intro h
    rw [← h]
    exact recipeInRange_clampRecipe r

/-! ### The relations (R46, Table 3-2) -/

/-- The relations of Table 3-2 as the list that is tested. -/
def recipeTests (r : Recipe) : List Bool :=
  [r.torqueLo ≤ r.torqueSet, r.torqueSet ≤ r.torqueHi, r.angleLo ≤ r.angleHi, r.angleHi ≤ r.angleMax,
    r.tAmb + 50 ≤ r.tRef]

theorem brokenRelation_eq (r : Recipe) : brokenRelation r = firstBroken 1 (recipeTests r) := rfl

theorem recipeTests_get (r : Recipe) (n : Fin 5) :
    (recipeRelation r n → (recipeTests r)[n.val]? = some true)
      ∧ (¬recipeRelation r n → (recipeTests r)[n.val]? = some false) := by
  fin_cases n <;> simp [recipeTests, recipeRelation]

theorem brokenRelation_first {n : Fin 5} (hm : ∀ m, m < n → recipeRelation r m) (hn : ¬recipeRelation r n) :
    brokenRelation r = some (n.val + 1) := by
  rw [brokenRelation_eq, firstBroken_first _ 1 n.val ((recipeTests_get r n).2 hn), Nat.add_comm]
  intro m hmn
  exact (recipeTests_get r ⟨m, hmn.trans n.isLt⟩).1 (hm _ hmn)

theorem firstBroken_none {l : List Bool} (h : ∀ b ∈ l, b = true) (k : Nat) : firstBroken k l = none := by
  induction l generalizing k with
  | nil => rfl
  | cons b l ih =>
    rw [firstBroken, if_pos (h b List.mem_cons_self)]
    exact ih (fun c hc => h c (List.mem_cons_of_mem b hc)) _

theorem brokenRelation_none (h : ∀ n, recipeRelation r n) : brokenRelation r = none := by
  refine firstBroken_none (l := recipeTests r) (fun b hb => ?_) 1
  obtain ⟨n, hn, rfl⟩ := List.getElem_of_mem hb
  exact Option.some.inj ((List.getElem?_eq_getElem hn).symm.trans ((recipeTests_get r ⟨n, hn⟩).1 (h _)))

/-! ### STAGE RECIPE, DISCARD STAGED and READ RECIPE (R46 to R49) -/

theorem stageRecipeBlock_pending (h : s.run.request ≠ none) : stageRecipeBlock p s = .plain .busy s := by
  simp [stageRecipeBlock, Option.isSome_iff_ne_none.2 h]

theorem stageRecipeBlock_broken {n : Nat} (h : s.run.request = none)
    (hb : brokenRelation (clampRecipe (recipeOfBytes p)) = some n) : stageRecipeBlock p s = .relation n s := by
  simp [stageRecipeBlock, h, hb]

theorem stageRecipeBlock_taken (h : s.run.request = none)
    (hb : brokenRelation (clampRecipe (recipeOfBytes p)) = none) : stageRecipeBlock p s
    = .plain (if clampRecipe (recipeOfBytes p) = recipeOfBytes p then .done else .doneClamped)
      { s with recipes.staged := some (clampRecipe (recipeOfBytes p)) } := by
  simp [stageRecipeBlock, h, hb, doneOr_bne]

theorem discardStagedBlock_pending (h : s.run.request ≠ none) : discardStagedBlock s = .plain .busy s := by
  simp [discardStagedBlock, Option.isSome_iff_ne_none.2 h]

theorem discardStagedBlock_taken (h : s.run.request = none) :
    discardStagedBlock s = .plain .done { s with recipes.staged := none } := by
  simp [discardStagedBlock, h]

theorem bankBytes_eq (code : Nat) (b : Option Recipe) :
    bankBytes code b = BitVec.ofNat 8 code :: (b.map recipeBytes).getD [] := rfl

theorem readRecipeBlock_staged (h : field p 0 1 = 1) :
    readRecipeBlock p s = ⟨s, .done, bankBytes 1 s.recipes.staged⟩ := by
  simp only [readRecipeBlock, h]

theorem readRecipeBlock_active (h : field p 0 1 = 2) :
    readRecipeBlock p s = ⟨s, .done, bankBytes 2 s.recipes.active⟩ := by
  simp only [readRecipeBlock, h]

theorem readRecipeBlock_retiring (h : field p 0 1 = 3) :
    readRecipeBlock p s = ⟨s, .done, bankBytes 3 s.recipes.retiring⟩ := by
  simp only [readRecipeBlock, h]

theorem readRecipeBlock_noBank (h : field p 0 1 = 0 ∨ 3 < field p 0 1) : readRecipeBlock p s = .plain .badValue s := by
  unfold readRecipeBlock
  split
  · omega
  · omega
  · omega
  · rfl

/-! ### A good frame before a request (R156, R162) -/

theorem setHold_request (r : HoldReason) (b : Bool) (s : State) : (setHold r b s).run.request = s.run.request := by
  unfold setHold
  simp only
  split
  · rfl
  · split <;> rfl

/-- A good frame leaves a pending changeover request alone. -/
theorem goodFrame_request (s : State) : (goodFrame s).run.request = s.run.request := by
  unfold goodFrame
  simp only
  split
  · rw [setHold_request, restartTimer_frame]
  · rw [restartTimer_frame]

theorem goodFrame_power (s : State) : (goodFrame s).power = s.power := by rw [goodFrame_frame]

theorem goodFrame_params (s : State) : (goodFrame s).params = s.params := by rw [goodFrame_frame]

theorem goodFrame_recipes (s : State) : (goodFrame s).recipes = s.recipes := by rw [goodFrame_frame]

/-! ### A reply that has left the port (R156, R157) -/

/-- The port after its reply has been sent: no reply, LP_DE released, no frame in progress. -/
def replySent (q : LineReply) (s : State) : State :=
  { s with port := { s.port with reply := none, lpDe := false, lpTxd := replyFrame q, rxBuf := [] } }

theorem ready_replySent (q : LineReply) (h : s.power = .running) : Ready (replySent q s) := ⟨h, rfl⟩

theorem exec_lineReplySent {q : LineReply} (h : s.power = .running) (hq : s.port.reply = some q) :
    exec .lineReplySent s = .next (replySent q s) := by
  refine congrArg Host.Outcome.next ((whenRunning_of_running _ h).trans ?_)
  simp only [hq]
  rfl

/-! ### Commands in a row -/

theorem runCommands_cons {c : Instr} {cs : List Instr} {t : State} (h : exec c s = .next t) :
    runCommands (c :: cs) s = runCommands cs t := by
  simp only [runCommands, h]

end Sys2Proof.Machine

namespace Sys2Proof.Proofs

open Sys2Proof.Machine

/-- Settles O43: the clamp by field, then each message by whether a request is pending and by the relations. -/
theorem recipesStaged : Obligations.RecipesStaged := by
  intro p s hready hlen g at_ raw r
  have hfits : (p.length == 46) = true := beq_iff_eq.2 hlen
  have hid : clampTo 0 65535 (field p 0 2) = field p 0 2 :=
    clampTo_self ⟨Nat.zero_le _, Nat.le_of_lt_succ (field_lt p 0 2)⟩
  have hclamp : clampRecipe raw = r := by
    simp only [raw, r, at_, clampRecipe, recipeOfBytes, hid, clampTo_eq, Nat.reduceLeDiff, Nat.zero_le]
  clear_value r
  subst hclamp
  refine ⟨⟨rfl, recipeInRange_clampRecipe raw, recipeInRange_iff_clampRecipe raw⟩, fun h => ⟨?_, ?_⟩,
    fun h => ⟨fun n hm hn => ?_, fun hall => ?_, ?_⟩⟩
  · exact next_ready hready hfits rfl (stageRecipeBlock_pending h)
  · exact next_ready hready rfl rfl (discardStagedBlock_pending h)
  · exact next_ready hready hfits rfl (stageRecipeBlock_broken h (brokenRelation_first hm hn))
  · exact next_ready hready hfits rfl (stageRecipeBlock_taken h (brokenRelation_none hall))
  · exact next_ready hready rfl rfl (discardStagedBlock_taken h)

/-- A recipe record in range, staged with no request pending, stands in STAGED as it was sent. -/
theorem stageRecipe_inRange {s : State} {p : List Byte} (hready : Ready s) (hlen : p.length = 46)
    (hreq : s.run.request = none) (hrange : RecipeInRange (recipeOfBytes p))
    (hrel : ∀ n, recipeRelation (recipeOfBytes p) n) :
    exec (.stageRecipe p) s = .next (replied (goodFrame s) 0x20 .done []
      { goodFrame s with recipes.staged := some (recipeOfBytes p) }) := by
  have hclamp : clampRecipe (recipeOfBytes p) = recipeOfBytes p := (recipeInRange_iff_clampRecipe _).1 hrange
  refine next_ready hready (beq_iff_eq.2 hlen) rfl ?_
  rw [stageRecipeBlock_taken ((goodFrame_request s).trans hreq) (by rw [hclamp]; exact brokenRelation_none hrel),
    hclamp, if_pos rfl]
  rfl

/-- With its reply out of the port, READ RECIPE carries what STAGED holds (R47, R157). -/
theorem readRecipe_afterReply {u : State} {q : LineReply} (hrun : u.power = .running) (hq : u.port.reply = some q) :
    ∃ t, runCommands [.lineReplySent, .readRecipe [1]] u = .next t
      ∧ t.port.reply = some ⟨u.params.unitAddress, 0x04, .done, bankBytes 1 u.recipes.staged⟩ := by
  have hread : exec (.readRecipe [1]) (replySent q u) = .next (replied (goodFrame (replySent q u)) 0x04 .done
      (bankBytes 1 (goodFrame (replySent q u)).recipes.staged) (goodFrame (replySent q u))) :=
    next_ready (ready_replySent q hrun) rfl rfl (readRecipeBlock_staged rfl)
  refine ⟨_, (runCommands_cons (exec_lineReplySent hrun hq)).trans (runCommands_cons hread), ?_⟩
  rw [goodFrame_recipes]
  exact congrArg (fun a => some (LineReply.mk a _ _ _)) (congrArg (·.unitAddress) (goodFrame_params _))

/-- Settles O44: both directions field by field, and the record through STAGED to the reply of READ RECIPE. -/
theorem recipeRecordRoundTrip : Obligations.RecipeRecordRoundTrip := by
  refine ⟨fun p => recipeBytes_recipeOfBytes, fun r => recipeOfBytes_recipeBytes,
    fun p s hready hlen hreq hrange hrel => ?_⟩
  rw [runCommands_cons (stageRecipe_inRange hready hlen hreq hrange hrel)]
  obtain ⟨t, ht, hreply⟩ := readRecipe_afterReply (u := replied (goodFrame s) 0x20 .done []
    { goodFrame s with recipes.staged := some (recipeOfBytes p) }) ((goodFrame_power s).trans hready.1) rfl
  have hbank : bankBytes 1 (some (recipeOfBytes p)) = 0x01 :: p := by
    rw [bankBytes_eq, Option.map_some, Option.getD_some, recipeBytes_recipeOfBytes hlen]
    rfl
  refine ⟨t, ht, hreply.trans ?_⟩
  rw [← goodFrame_params s, ← hbank]
  rfl

end Sys2Proof.Proofs
end

