-- ==== Sys2Proof/Proofs/Changeovers.lean ====
section
/-! PROOFS. Changeover requests and the phases of a drained changeover: REQUEST CHANGEOVER, CANCEL CHANGEOVER, and the
end of WAIT_TURRET (R50, R53, R55, R58 to R60, R113). -/

-- One declaration is checked after another: side by side they take more threads than the memory limit allows.
set_option Elab.async false

namespace Sys2Proof.Machine

variable {s : State} {r : Changeover} {q a : Recipe} {p : List Byte} {lp : LiftPins}

/-! ### WAIT_TURRET (R55, R58) -/

/-- What ends WAIT_TURRET: no entry stands below x, and RETIRING is empty (R58). -/
def TurretClear (s : State) : Prop :=
  s.recipes.retiring = none ∧ ∀ e ∈ s.track.entries, s.track.geometry.x ≤ e.position

/-- The state in change phase LIFT, before the lift is looked at (R59). -/
def inLiftPhase (s : State) : State := { s with run.phase := .lift }

theorem waitTurretEnd_ends (h : s.run.state = .change) (hp : s.run.phase = .waitTurret) (hc : TurretClear s) :
    waitTurretEnd s = liftForRun (inLiftPhase s) := by
  obtain ⟨hretiring, hturret⟩ := hc
  have hall : s.track.entries.all (fun e => decide (s.track.geometry.x ≤ e.position)) = true := by
    simpa using hturret
  simp [waitTurretEnd, h, hp, hretiring, hall, inLiftPhase]

theorem waitTurretEnd_stands (h : ¬(s.run.state = .change ∧ s.run.phase = .waitTurret ∧ TurretClear s)) :
    waitTurretEnd s = s := by
  unfold waitTurretEnd
  rw [if_neg]
  intro hends
  simp only [Bool.and_eq_true, beq_iff_eq, Option.isNone_iff_eq_none, List.all_eq_true, decide_eq_true_eq] at hends
  obtain ⟨⟨⟨hstate, hphase⟩, hretiring⟩, hturret⟩ := hends
  exact h ⟨hstate, hphase, hretiring, hturret⟩

theorem exec_waitTurretEnd (h : s.power = .running) :
    exec (.waitTurretEnd lp) s = .next (waitTurretEnd (sampleLift lp s)) :=
  congrArg Host.Outcome.next (whenRunning_of_running _ h)

theorem not_turretClear
    (h : s.recipes.retiring ≠ none ∨ ∃ e ∈ s.track.entries, e.position < s.track.geometry.x) : ¬TurretClear s := by
  rintro ⟨hretiring, hturret⟩
  rcases h with h | ⟨e, he, hx⟩
  · exact h hretiring
  · exact absurd (hturret e he) (Nat.not_le.2 hx)

/-- CHANGE is entered in WAIT_TURRET, and stays there with the turret or RETIRING not empty (R55). -/
theorem enterChange_notClear (h : ¬TurretClear s) : enterChange s = { s with
    run := { s.run with state := .change, lstop := false, phase := .waitTurret }
    gate := { s.gate with decision := .closed, gateOut := false } } :=
  waitTurretEnd_stands fun ⟨_, _, hclear⟩ => h hclear

/-! ### The lift in phase LIFT (R59, R113) -/

/-- Raised outside FAULT, the part stands in FAULT for the cause, whatever LSTOP was (R33 to R35). -/
theorem raiseCause_faultFor_outside (c : Cause) (h : s.run.state ≠ .fault) : FaultFor c (raiseCause c s) := by
  refine ⟨raiseCause_state c s, by simp, ?_, by simp⟩
  rw [raiseCause_outside h, enterFault_frame]

theorem raiseCause_dropsRequest (c : Cause) (h : s.run.state ≠ .fault) :
    (raiseCause c s).run.request = none ∧ (raiseCause c s).recipes = s.recipes := by
  rw [raiseCause_outside h, enterFault_frame]
  exact ⟨rfl, rfl⟩

/-- In phase LIFT a READY lift seeks the STAGED height. -/
theorem liftForRun_startsSeek (h : s.run.state = .change) (hp : s.run.phase = .lift) (hq : s.recipes.staged = some q)
    (hl : s.lift.state = .ready) : liftForRun s = startSeek q.liftHeight q.stepPeriod s := by
  have hseek : liftForRun s = seekForRun s := by simp [liftForRun, hl, atActiveHeight, h]
  exact hseek.trans (seekForRun_starts (.inr ⟨h, hp, hq⟩))

/-- With LIFT_FLT asserted the home of phase LIFT fails before its first step, and raises LIFT_FAULT. -/
theorem liftForRun_fails_inChange (h : s.run.state = .change) (hl : s.lift.state = .unknown ∨ s.lift.state = .failed)
    (hflt : s.inputs.liftFlt = true) : liftForRun s
    = raiseCause .liftFault { homeStarted .run s with lift := (homeStarted .run s).lift.faulted } := by
  have hchange : (homeStarted .run s).run.state ≠ .idle := by
    rw [show (homeStarted .run s).run.state = .change from h]
    exact RunState.noConfusion
  rw [liftForRun_homes hl, startHome_fails hflt, liftFault_raises hchange]

/-! ### REQUEST CHANGEOVER (R50, R53) -/

theorem runOrHold_iff : runOrHold s = true ↔ s.run.state = .run ∨ s.run.state = .hold := by simp [runOrHold]

theorem modeOf_none {n : Nat} (h1 : n ≠ 1) (h2 : n ≠ 2) : modeOf n = none := by simp [modeOf, h1, h2]

/-- A mode that passes the checks of R53, batch size `b`. -/
theorem modeOf_accepted {n b : Nat} (h : n = 1 ∨ n = 2 ∧ b ≠ 0) :
    ∃ m, modeOf n = some m ∧ (m = .atBatchEnd → b ≠ 0) := by
  rcases h with rfl | ⟨rfl, hb⟩
  · exact ⟨.now, rfl, fun a => ChangeoverMode.noConfusion a⟩
  · exact ⟨.atBatchEnd, rfl, fun _ => hb⟩

/-- The request of REQUEST CHANGEOVER with STAGED `q` and ACTIVE `a`, with its stage of Table 3-3. -/
def requestOf (p : List Byte) (q a : Recipe) : Changeover :=
  let flying := a.liftHeight = q.liftHeight
  { mode := if field p 0 1 = 1 then .now else .atBatchEnd, kind := if flying then .flying else .drained
    nextNumber := field p 1 2, nextSize := min (field p 3 4) 1000000
    stage := if field p 0 1 = 2 then .waiting else if flying then .atAdmission else .inChange }

theorem requestOf_inChange_iff :
    (requestOf p q a).stage = .inChange ↔ field p 0 1 ≠ 2 ∧ a.liftHeight ≠ q.liftHeight := by
  by_cases hm : field p 0 1 = 2
  · simp [requestOf, hm]
  · by_cases hf : a.liftHeight = q.liftHeight <;> simp [requestOf, hm, hf]

theorem requestOf_eq {m : ChangeoverMode} (hm : modeOf (field p 0 1) = some m) : requestOf p q a =
    { mode := m, kind := changeoverKind q (some a), nextNumber := field p 1 2, nextSize := min (field p 3 4) 1000000
      stage := firstStage m (changeoverKind q (some a)) } := by
  have hkind : changeoverKind q (some a) = if a.liftHeight = q.liftHeight then .flying else .drained := by
    simp [changeoverKind]
  have hmode : field p 0 1 = 1 ∧ m = .now ∨ field p 0 1 = 2 ∧ m = .atBatchEnd := by
    unfold modeOf at hm
    split at hm
    · simp_all
    · split at hm <;> simp_all
  rw [hkind]
  rcases hmode with ⟨h1, rfl⟩ | ⟨h2, rfl⟩
  · by_cases hf : a.liftHeight = q.liftHeight <;> simp [requestOf, firstStage, h1, hf]
  · simp [requestOf, firstStage, h2]

theorem requestChangeoverBlock_outside (h : ¬(s.run.state = .run ∨ s.run.state = .hold)) :
    requestChangeoverBlock p lp s = .plain .wrongState s := by
  unfold requestChangeoverBlock
  rw [if_pos (by simpa using mt runOrHold_iff.1 h)]

/-- In RUN or HOLD a pending request is looked for first. -/
theorem requestChangeoverBlock_pending (h : s.run.state = .run ∨ s.run.state = .hold) (hr : s.run.request ≠ none) :
    requestChangeoverBlock p lp s = .plain .busy s := by
  simp [requestChangeoverBlock, runOrHold_iff.2 h, Option.isSome_iff_ne_none.2 hr]

theorem requestChangeoverBlock_badValue (h : s.run.state = .run ∨ s.run.state = .hold) (hr : s.run.request = none)
    (hv : s.recipes.staged = none ∨ field p 0 1 = 2 ∧ s.run.batchSize = 0 ∨ field p 0 1 ≠ 1 ∧ field p 0 1 ≠ 2) :
    requestChangeoverBlock p lp s = .plain .badValue s := by
  unfold requestChangeoverBlock
  rw [if_neg (by simp [runOrHold_iff.2 h]), if_neg (by simp [hr])]
  rcases hv with hstaged | ⟨hmode, hsize⟩ | ⟨hnow, hend⟩
  · simp only [hstaged]
  · cases hstaged : s.recipes.staged with
    | none => rfl
    | some q => simp [hmode, modeOf, hsize]
  · rw [modeOf_none hnow hend]
    cases s.recipes.staged <;> rfl

/-- A request that passes its checks is pending, and one IN_CHANGE enters CHANGE (R55). -/
theorem requestChangeoverBlock_taken (h : s.run.state = .run ∨ s.run.state = .hold) (hr : s.run.request = none)
    (hs : s.recipes.staged = some q) (ha : s.recipes.active = some a)
    (hm : field p 0 1 = 1 ∨ field p 0 1 = 2 ∧ s.run.batchSize ≠ 0) :
    requestChangeoverBlock p lp s = .plain (if field p 3 4 ≤ 1000000 then .done else .doneClamped)
      (if (requestOf p q a).stage = .inChange
        then enterChange { sampleLift lp s with run.request := some (requestOf p q a) }
        else { s with run.request := some (requestOf p q a) }) := by
  obtain ⟨m, hmode, hsize⟩ := modeOf_accepted hm
  have hclamp : clampTo 0 maxBatchSize (field p 3 4) = min (field p 3 4) 1000000 :=
    (clampTo_eq _ (Nat.zero_le _)).trans (Nat.zero_max _)
  have hcode : doneOr (min (field p 3 4) 1000000 != field p 3 4)
      = if field p 3 4 ≤ 1000000 then .done else .doneClamped := by
    simp only [doneOr_bne, min_eq_left_iff]
  have hbatch : ¬(m == .atBatchEnd && s.run.batchSize == 0) = true := by
    simpa using hsize
  unfold requestChangeoverBlock
  rw [if_neg (by simp [runOrHold_iff.2 h]), if_neg (by simp [hr]), requestOf_eq hmode]
  simp only [hs, ha, hmode, if_neg hbatch, hclamp, hcode, beq_iff_eq]
  rfl

/-! ### CANCEL CHANGEOVER (R60) -/

theorem cancelChangeoverBlock_none (h : s.run.request = none) : cancelChangeoverBlock s = .plain .wrongState s := by
  simp only [cancelChangeoverBlock, h]

theorem cancelChangeoverBlock_inChange (h : s.run.request = some r) (hs : r.stage = .inChange) :
    cancelChangeoverBlock s = .plain .wrongState s := by
  simp only [cancelChangeoverBlock, h, hs]

theorem cancelChangeoverBlock_early (h : s.run.request = some r) (hs : r.stage = .waiting ∨ r.stage = .atAdmission) :
    cancelChangeoverBlock s = .plain .done { s with run.request := none } := by
  rcases hs with hs | hs <;> simp only [cancelChangeoverBlock, h, hs]

theorem cancelChangeoverBlock_atRetire (h : s.run.request = some r) (hs : r.stage = .atRetire)
    (hr : s.run.state = .run ∨ s.run.state = .hold) :
    cancelChangeoverBlock s = .plain .done (enterDrain { s with run.request := none }) := by
  simp only [cancelChangeoverBlock, h, hs, runOrHold_iff.2 hr, if_true]

end Sys2Proof.Machine

namespace Sys2Proof.Proofs

open Sys2Proof.Machine

/-- Phase LIFT with LIFT_FLT asserted: the home fails at once (R113). -/
theorem liftPhase_fails {u : State} (h : u.run.state = .change) (hl : u.lift.state = .unknown ∨ u.lift.state = .failed)
    (hflt : u.inputs.liftFlt = true) :
    let t := liftForRun u
    FaultFor .liftFault t ∧ t.lift.state = .failed ∧ t.lift.known = false ∧ t.lift.stepCount = 0
      ∧ t.lift.requester = none ∧ t.lift.position = u.lift.position ∧ t.run.request = none ∧ t.recipes = u.recipes := by
  intro t
  have hnot : u.run.state ≠ .fault := by simp [h]
  have ht : t = raiseCause .liftFault { homeStarted .run u with lift := (homeStarted .run u).lift.faulted } :=
    liftForRun_fails_inChange h hl hflt
  obtain ⟨hrequest, hrecipes⟩ := raiseCause_dropsRequest .liftFault
    (s := { homeStarted .run u with lift := (homeStarted .run u).lift.faulted }) hnot
  rw [ht, raiseCause_lift]
  exact ⟨raiseCause_faultFor_outside _ hnot, rfl, rfl, rfl, rfl, rfl, hrequest, hrecipes⟩

/-- Settles O40: phase LIFT begins, and each state of the lift gives it its own course. -/
theorem turretWaitEndsInLift : Obligations.TurretWaitEndsInLift := by
  intro lp s hrun g ends
  have hlift (h : ends) : exec (.waitTurretEnd lp) s = .next (liftForRun (inLiftPhase g)) := by
    obtain ⟨hchange, hphase, hclear⟩ := h
    rw [exec_waitTurretEnd hrun, waitTurretEnd_ends (s := sampleLift lp s) hchange hphase hclear]
  refine ⟨fun h => ?_, fun h hflt hl => ⟨_, hlift h, ?_⟩, fun r h hflt hstaged =>
    ⟨_, hlift h, fun hl hp => ?_, fun hl => ?_, fun q hq hk h0 hl hp => ?_⟩⟩
  · rw [exec_waitTurretEnd hrun, waitTurretEnd_stands (s := g) h]
  all_goals obtain ⟨hchange, -, hretiring, -⟩ := h
  · exact liftPhase_fails (u := inLiftPhase g) hchange hl hflt
  · rw [liftForRun_startsSeek (s := inLiftPhase g) hchange rfl hstaged hl, startSeek_away (s := inLiftPhase g) hp]
    exact ⟨rfl, rfl, rfl, rfl, rfl, rfl, rfl, rfl, rfl⟩
  · have hhome : liftForRun (inLiftPhase g) = homeReading lp.liftHome (homeStarted .run (inLiftPhase g)) :=
      (liftForRun_homes (s := inLiftPhase g) hl).trans (startHome_reads hflt)
    rw [hhome]
    cases lp.liftHome <;> exact ⟨rfl, rfl, rfl, rfl, rfl, rfl, rfl, rfl, rfl⟩
  · rw [liftForRun_startsSeek (s := inLiftPhase g) hchange rfl hstaged hl, startSeek_there (s := inLiftPhase g) hp,
      seekEnded_lift]
    obtain ⟨-, hcompletes⟩ := seekEnded_handsOn_lift (s := inLiftPhase g)
      { (inLiftPhase g).lift.starting r.stepPeriod g.params.settleTime with
        state := .ready, target := none, requester := none }
    obtain ⟨hactive, hnone, -, hphase, hstate, hnumber, -, -, -, hrequest, -⟩ :=
      hcompletes q r hchange rfl hstaged hq hk hretiring h0
    exact ⟨hactive, hnone, hrequest, hnumber, rfl, hstate, hphase⟩

/-- Settles O42: the checks refuse in their order; a request that passes them is pending at the stage of Table 3-3, and
CANCEL CHANGEOVER goes by that stage. -/
theorem changeoverRequested : Obligations.ChangeoverRequested := by
  intro p lp s hready hlen g m held refused
  have hfits : (p.length == 7) = true := beq_iff_eq.2 hlen
  refine ⟨fun h => ?_, fun h hr => ?_, fun h hr hv => ?_, fun q a h hr hs ha hm => ?_, fun h => ?_,
    fun r hr => ⟨fun hs => ?_, fun hs => ?_, fun hs h => ?_⟩⟩
  · exact next_ready hready hfits rfl (requestChangeoverBlock_outside h)
  · exact next_ready hready hfits rfl (requestChangeoverBlock_pending h hr)
  · exact next_ready hready hfits rfl (requestChangeoverBlock_badValue h hr hv)
  · refine ⟨_, next_ready hready hfits rfl (requestChangeoverBlock_taken h hr hs ha hm), fun hstays => ?_,
      fun hnow hdrained hfull => ?_⟩
    · exact if_neg (mt requestOf_inChange_iff.1 fun hin => hstays.elim hin.1 hin.2)
    · have hin : (requestOf p q a).stage = .inChange :=
        requestOf_inChange_iff.2 ⟨fun hend => absurd (hnow.symm.trans hend) (by decide), hdrained⟩
      exact (if_pos hin).trans (enterChange_notClear (s := { sampleLift lp g with
        run.request := some (requestOf p q a) }) (not_turretClear hfull))
  · exact next_ready hready rfl rfl (cancelChangeoverBlock_none h)
  · exact next_ready hready rfl rfl (cancelChangeoverBlock_inChange hr hs)
  · exact next_ready hready rfl rfl (cancelChangeoverBlock_early hr hs)
  · refine ⟨_, next_ready hready rfl rfl (cancelChangeoverBlock_atRetire hr hs h), ?_⟩
    rw [enterDrain_eq]
    refine ⟨rfl, ite_self _, rfl, rfl, ?_, rfl⟩
    simp only [ite_self]

end Sys2Proof.Proofs
end

