-- ==== Sys2Proof/Proofs/Queries.lean ====
section
/-! PROOFS. The queries of the line controller: the payload of each as a list of fields, the sets and codes they carry,
and their refusals (R47, R74, R136, R143, R159 to R161, R169, R171). -/

-- One declaration is checked after another: side by side they take more threads than the memory limit allows.
set_option Elab.async false

namespace Sys2Proof.Machine

variable {s : State} {p : List Byte}

/-! ### Sets as bit sets (R169) -/

theorem bitsOfList_lt (l : List Bool) : bitsOfList l < 2 ^ l.length := by
  induction l with
  | nil => exact Nat.one_pos
  | cons b l ih =>
    rw [bitsOfList, List.length_cons, Nat.pow_succ]
    cases b <;> simp <;> omega

theorem testBit_bitsOfList (l : List Bool) (i : Nat) (h : i < l.length) : (bitsOfList l).testBit i = l[i] := by
  induction l generalizing i with
  | nil => exact absurd h (Nat.not_lt_zero i)
  | cons b l ih =>
    cases i with
    | zero => cases b <;> simp [bitsOfList, Nat.testBit_zero]
    | succ i =>
      have hdiv : bitsOfList (b :: l) / 2 = bitsOfList l := by
        rw [bitsOfList]
        split <;> omega
      rw [Nat.testBit_succ, hdiv, ih i (Nat.lt_of_succ_lt_succ h), List.getElem_cons_succ]

theorem setsCarried : SetsCarried := by
  intro n v
  refine ⟨by simpa [setBits] using bitsOfList_lt v.toList, fun i => ?_⟩
  have h := testBit_bitsOfList v.toList i.val (by simp)
  simpa [setBits] using h

theorem codesOfTable : CodesOfTable := by
  refine ⟨rfl, rfl, rfl, rfl, rfl, rfl, ⟨rfl, rfl, rfl⟩, fun r => ⟨?_, ?_, ?_⟩,
    rfl, rfl, rfl, rfl, rfl, rfl, rfl, rfl⟩
  · cases hm : r.mode <;> simp [modeCode, hm]
  · cases hk : r.kind <;> simp [kindCode, hk]
  · cases hs : r.stage <;> simp [stageCode, hs]

/-! ### Payloads as lists of fields (R171) -/

/-- The bytes of fields one after another, each given by its width and its value. -/
def fieldBytes (fs : List (Nat × Nat)) : List Byte := fs.flatMap (fun f => beBytes f.1 f.2)

theorem fieldBytes_nil : fieldBytes [] = [] := rfl

theorem fieldBytes_cons (width n : Nat) (fs : List (Nat × Nat)) :
    fieldBytes ((width, n) :: fs) = beBytes width n ++ fieldBytes fs := rfl

theorem fieldBytes_append (fs gs : List (Nat × Nat)) : fieldBytes (fs ++ gs) = fieldBytes fs ++ fieldBytes gs :=
  List.flatMap_append

theorem carries_beBytes (width n : Nat) : Carries (beBytes width n) [(width, n)] :=
  have hlen := length_beBytes width n
  ⟨hlen.ge, (field_whole hlen).trans (beValue_beBytes width n), List.drop_of_length_le hlen.le⟩

theorem carries_fieldBytes (fs : List (Nat × Nat)) : Carries (fieldBytes fs) fs := by
  induction fs with
  | nil => rfl
  | cons f fs ih => exact carries_append (carries_beBytes f.1 f.2) ih

theorem beBytes_toNat (b : Byte) : beBytes 1 b.toNat = [b] := by simp [beBytes]

theorem queryUnitBytes_fields (s : State) : queryUnitBytes s = fieldBytes [(2, 0x0418),
    (1, Config.hardwareIssue.toNat), (1, 240), (1, bit s.port.baudHigh), (1, s.params.unitAddress)] := by
  simp only [queryUnitBytes, fieldBytes_cons, fieldBytes_nil, beBytes_toNat, List.append_assoc, List.append_nil]

theorem settingsBytes_fields (s : State) : settingsBytes s = fieldBytes
    [(1, s.params.unitAddress), (2, s.params.linkTimeout), (1, s.params.failLimit), (1, s.params.minHeads),
      (2, s.params.zeroWindow), (2, s.params.staleLimit), (2, s.params.replyWindow), (1, s.params.homePeriod),
      (2, s.params.settleTime), (1, s.params.confirmWindow), (1, s.track.geometry.a), (1, s.track.geometry.e),
      (1, s.track.geometry.x), (1, s.track.geometry.k), (1, s.track.geometry.j), (2, setBits s.alerts.mask),
      (2, s.check.z0), (1, bit s.traces.modeAll)] := by
  simp only [settingsBytes, paramsBytes, geometryBytes, fieldBytes_cons, fieldBytes_nil, List.append_assoc,
    List.append_nil]

theorem countsBytes_fields (s : State) : countsBytes s = fieldBytes (s.classCounts.toList.map (fun n => (4, n))
    ++ [(4, s.reject.passed), (4, s.reject.rejected), (4, s.reject.missing), (4, s.reject.purged),
      (1, s.reject.confirms.length)]) := by
  have hclasses : fieldBytes (s.classCounts.toList.map (fun n => (4, n))) = s.classCounts.toList.flatMap (beBytes 4) :=
    List.flatMap_map _ _ _
  simp only [countsBytes, fieldBytes_append, hclasses, fieldBytes_cons, fieldBytes_nil, List.append_assoc,
    List.append_nil]

theorem dispositionBytes_fields (v : Vector DispEntry 13) : dispositionBytes v = fieldBytes (v.toList.flatMap
    (fun e => [(1, e.action.code), (1, e.policy.code), (1, bit e.alert)])) := by
  rw [fieldBytes, List.flatMap_assoc, dispositionBytes]
  refine congrArg (List.flatMap · v.toList) (funext fun e => ?_)
  rw [List.append_assoc]
  rfl

theorem holdsTurretJar_eq (h : Head) (s : State) : holdsTurretJar h s
    = s.track.entries.any (fun e => e.pocket == h && decide (e.position < s.track.geometry.x)) := by
  rw [Bool.eq_iff_iff, holdsTurretJar, turretEntry, List.find?_isSome, List.any_eq_true]

theorem headBytes_fields (h : Head) (s : State) : headBytes h s = fieldBytes
    [(1, serviceCode s.heads[h].service), (1, reasonCode s.heads[h].service), (1, s.heads[h].failures),
      (1, s.heads[h].noReplies), (4, s.heads[h].stats.applySent), (4, s.heads[h].stats.seated),
      (4, s.heads[h].stats.crossThread), (4, s.heads[h].stats.noCap), (4, s.heads[h].stats.overAngle),
      (4, s.heads[h].stats.aborted), (4, s.heads[h].stats.noReply), (4, s.heads[h].stats.stale),
      (1, bit (s.track.entries.any (fun e => e.pocket == h && decide (e.position < s.track.geometry.x)))),
      (1, inServiceCount s.heads)] := by
  simp only [headBytes, statsBytes, holdsTurretJar_eq, fieldBytes_cons, fieldBytes_nil, List.append_assoc,
    List.append_nil]

/-! ### READ STATUS (Table 12-7) -/

/-- The fields of Table 12-7 up to the changeover request. -/
theorem statusRun_fields (s : State) : statusPort s ++ statusRun s = fieldBytes
    [(1, s.resetCause.code), (1, bit s.storeDefaulted), (4, s.timeBase.toNat), (2, setBits s.alerts.latch),
      (2, setBits s.alerts.mask), (1, bit s.commit.isSome), (1, s.run.state.code), (1, s.run.phase.code),
      (1, setBits s.run.hold), (1, setBits s.run.causes), (1, bit s.run.batchEnded), (2, s.run.batchNumber),
      (4, s.run.batchSize), (4, s.run.admitted), (1, s.gate.decision.code), (1, s.gate.gapCount),
      (4, s.gate.emptyPockets), (1, modeCode s.run.request), (1, kindCode s.run.request),
      (1, stageCode s.run.request), (2, (s.run.request.map (·.nextNumber)).getD 0),
      (4, (s.run.request.map (·.nextSize)).getD 0)] := by
  simp only [statusPort, statusRun, fieldBytes_cons, fieldBytes_nil, List.append_assoc, List.append_nil]

/-- The fields of Table 12-7 from the Jar Track on. -/
theorem statusTrack_fields (lp : LiftPins) (s : State) : statusTrack s ++ statusLift lp s ++ statusCheck s = fieldBytes
    [(2, s.track.entries.length), (2, (s.track.entries.head?.map (·.position)).getD 0xFFFF), (1, s.track.pocket.number),
      (1, bit s.track.synced + 2 * bit (frozen s)), (4, s.track.pitchCount.toNat), (4, s.track.nextJar.toNat),
      (2, s.track.activeCount), (2, s.track.retiringCount), (1, s.lift.state.code),
      (1, bit s.lift.known + 2 * bit s.lift.settling + 4 * bit lp.liftFlt + 8 * bit lp.liftHome), (2, s.lift.position),
      (2, s.lift.target.getD 0xFFFF), (2, s.lift.stepCount), (2, s.check.z), (2, s.check.sinceZero),
      (1, bit (decide (s.params.staleLimit < s.check.sinceZero))), (4, s.check.disturbances),
      (2, s.records.queue.length), (2, s.records.overruns), (4, s.traces.writeCount.toNat), (1, s.capture.state.code),
      (1, s.capture.trigger), (1, s.capture.post), (1, s.capture.remaining)] := by
  simp only [statusTrack, statusLift, statusCheck, zeroIsStale, fieldBytes_cons, fieldBytes_nil, List.append_assoc,
    List.append_nil]

/-! ### READ HEAD (R74) -/

theorem headOf_number (h : Head) : headOf h.number = some h := by
  have hlt := h.isLt
  unfold headOf Head.number
  rw [dif_pos (by omega)]
  rfl

theorem headOf_none {n : Nat} (h : n = 0 ∨ 18 < n) : headOf n = none := dif_neg (by omega)

theorem readHeadBlock_served {h : Head} (hp : field p 0 1 = h.number) : readHeadBlock p s = ⟨s, .done, headBytes h s⟩ := by
  simp only [readHeadBlock, hp, headOf_number]

theorem readHeadBlock_refused (hp : field p 0 1 = 0 ∨ 18 < field p 0 1) : readHeadBlock p s = .plain .badValue s := by
  simp only [readHeadBlock, headOf_none hp]

theorem field_headNumber (h : Head) : field [BitVec.ofNat 8 h.number] 0 1 = h.number := by
  have hlt := h.isLt
  rw [field_byte, BitVec.toNat_ofNat, Head.number]
  omega

/-- A byte that is 0 or above `n`, as the payload of one byte gives it. -/
theorem field_byte_outside {b : Byte} {n : Nat} (h : b = 0 ∨ n < b.toNat) :
    field [b] 0 1 = 0 ∨ n < field [b] 0 1 := by
  rw [field_byte]
  exact h.imp_left (congrArg BitVec.toNat)

/-! ### READ RECIPE (R47) -/

/-- READ RECIPE of the bank of each code (R47). -/
theorem readRecipeBlock_bank {b : Byte} {bank : Option Recipe}
    (h : b = 1 ∧ bank = s.recipes.staged ∨ b = 2 ∧ bank = s.recipes.active ∨ b = 3 ∧ bank = s.recipes.retiring) :
    readRecipeBlock [b] s = ⟨s, .done, b :: (bank.map recipeBytes).getD []⟩ := by
  rcases h with ⟨rfl, rfl⟩ | ⟨rfl, rfl⟩ | ⟨rfl, rfl⟩
  · exact readRecipeBlock_staged rfl
  · exact readRecipeBlock_active rfl
  · exact readRecipeBlock_retiring rfl

end Sys2Proof.Machine

namespace Sys2Proof.Proofs

open Sys2Proof.Machine

/-- Settles O59: the payload of each query is the bytes of its fields, and the queries change no state. -/
theorem queriesServed : Obligations.QueriesServed := by
  refine ⟨setsCarried, codesOfTable, fun s hready => ?_⟩
  intro g served inTurret
  have answers {c : Instr} {code : Byte} {fs : List (Nat × Nat)}
      (h : exec c s = .next (replied g code .done (fieldBytes fs) g)) : served c code fs :=
    ⟨fieldBytes fs, carries_fieldBytes fs, h⟩
  refine ⟨answers ?_, answers ?_, answers ?_, answers ?_, fun h => answers ?_, fun b hb => ?_, fun b bank hb => ?_,
    fun b hb => ?_, fun lp => answers ?_⟩
  · rw [← queryUnitBytes_fields]
    exact next_ready hready rfl rfl rfl
  · rw [← settingsBytes_fields]
    exact next_ready hready rfl rfl rfl
  · rw [← countsBytes_fields]
    exact next_ready hready rfl rfl rfl
  · rw [← dispositionBytes_fields]
    exact next_ready hready rfl rfl rfl
  · rw [← headBytes_fields]
    exact next_ready hready rfl rfl (readHeadBlock_served (field_headNumber h))
  · exact next_ready hready rfl rfl (readHeadBlock_refused (field_byte_outside hb))
  · exact next_ready hready rfl rfl (readRecipeBlock_bank hb)
  · exact next_ready hready rfl rfl (readRecipeBlock_noBank (field_byte_outside hb))
  · rw [fieldBytes_append, ← statusRun_fields, ← statusTrack_fields lp]
    refine next_ready hready rfl rfl ?_
    simp only [statusBytes, List.append_assoc]

end Sys2Proof.Proofs
end

