-- ==== Sys2Proof/Proofs/MarkOuts.lean ====
section
/-! PROOFS. What a changed service state of a head brings with it, the mark-outs of the Head Map, and the two
comparisons that make them (R65, R68 to R71, R75, R82, R83). -/

-- One declaration is checked after another: side by side they take more threads than the memory limit allows.
set_option Elab.async false

namespace Sys2Proof.Machine

variable {s t u : State} {p q : Head} {r : MarkReason} {e : Entry}

/-! ### FEW_HEADS and the gate after a change of the heads (R65, R66, R70) -/

/-- FEW_HEADS, the standing decision and GATE_OUT follow the heads. -/
def headsFollowed (s : State) : State := remakeDecision (updateFewHeads s)

theorem headsFollowed_frame (s : State) : headsFollowed s = { s with
    run := (headsFollowed s).run, gate := (headsFollowed s).gate, alerts := (headsFollowed s).alerts } := by
  unfold headsFollowed updateFewHeads
  rw [setHold_frame]
  rfl

@[simp] theorem headsFollowed_heads (s : State) : (headsFollowed s).heads = s.heads := by rw [headsFollowed_frame]
@[simp] theorem headsFollowed_link (s : State) : (headsFollowed s).link = s.link := by rw [headsFollowed_frame]
@[simp] theorem headsFollowed_track (s : State) : (headsFollowed s).track = s.track := by rw [headsFollowed_frame]
@[simp] theorem headsFollowed_capping (s : State) : (headsFollowed s).capping = s.capping := by
  rw [headsFollowed_frame]

theorem headsFollowed_fewHeads (s : State) : FewHeadsMatches (headsFollowed s) := fewHeadsMatches_updateFewHeads s

theorem headsFollowed_decision (s : State) : DecisionStands (headsFollowed s) := rfl

theorem headsFollowed_gateOut (s : State) : GateOutFollows (headsFollowed s) := rfl

theorem headsFollowed_latch {k : AlertKind} (hk : k ≠ .holdEntered) (s : State) :
    (headsFollowed s).alerts.latch[alertIx k] = s.alerts.latch[alertIx k] :=
  setHold_latch _ _ hk

/-! ### A head that leaves the scan set (R82, R83) -/

/-- What the line of a head keeps outside the scan set: its tag and the APPLY-confirmed record. -/
def HeadLine.emptied (l : HeadLine) : HeadLine := { l with slot := .empty, fetch := none, unconfirmed := none }

theorem leaveScan_entries (p : Head) (s : State) :
    (leaveScan p s).track.entries = s.track.entries.map (Entry.losing s.link.lines[p]) := by
  unfold leaveScan
  rw [displaceFetch_entries, lines_modLine_same]
  rfl

/-- A head of the scan set stays in it, and nothing follows. -/
theorem serviceChanged_scanned (h : inScanSet p s = true) : serviceChanged p s = s := by
  unfold inScanSet at h
  unfold serviceChanged
  split
  · rfl
  · rename_i hs
    rw [hs] at h
    cases h
  · rename_i hs
    rw [hs] at h
    exact if_pos h
  · rename_i hs
    rw [hs] at h
    exact if_pos h

theorem serviceChanged_unscanned (h : inScanSet p s = false) (hl : s.heads[p].service ≠ .markedOut .link) :
    serviceChanged p s = leaveScan p s := by
  unfold inScanSet at h
  unfold serviceChanged
  split
  · rename_i hs
    rw [hs] at h
    cases h
  · rename_i hs
    exact absurd hs hl
  · rename_i hs
    rw [hs] at h
    exact if_neg (by simp [show holdsTurretJar p s = false from h])
  · rename_i hs
    rw [hs] at h
    exact if_neg (by simp [show holdsTurretJar p s = false from h])

/-- A head marked out with LINK and no jar in the turret. -/
theorem serviceChanged_link_free (h : s.heads[p].service = .markedOut .link) (he : turretEntry p s = none) :
    serviceChanged p s = leaveScan p s := by
  unfold serviceChanged
  rw [h, he]

/-- A head marked out with LINK loses its jar in the turret to HEAD_FAULT (R71). -/
theorem serviceChanged_link_jar (h : s.heads[p].service = .markedOut .link) (he : turretEntry p s = some e) :
    serviceChanged p s
      = modEntry e.jar (fun f => { f with capClass := f.capClass.or (some .headFault) }) (leaveScan p s) := by
  unfold serviceChanged
  rw [h, he]

/-- What a changed service state does: nothing to a head of the scan set; else the head leaves the set, and only a
mark-out with LINK writes a class besides. -/
theorem serviceChanged_cases (p : Head) (s : State) :
    inScanSet p s = true ∧ serviceChanged p s = s
      ∨ inScanSet p s = false ∧ (serviceChanged p s = leaveScan p s
        ∨ ∃ jar, serviceChanged p s
          = modEntry jar (fun f => { f with capClass := f.capClass.or (some .headFault) }) (leaveScan p s)) := by
  cases h : inScanSet p s with
  | true => exact .inl ⟨rfl, serviceChanged_scanned h⟩
  | false =>
    refine .inr ⟨rfl, ?_⟩
    by_cases hl : s.heads[p].service = .markedOut .link
    · cases he : turretEntry p s with
      | none => exact .inl (serviceChanged_link_free hl he)
      | some e => exact .inr ⟨e.jar, serviceChanged_link_jar hl he⟩
    · exact .inl (serviceChanged_unscanned h hl)

theorem linesAndEntries_serviceChanged (p : Head) (s : State) : LinesAndEntries s (serviceChanged p s) := by
  rcases serviceChanged_cases p s with ⟨_, h⟩ | ⟨_, h | ⟨jar, h⟩⟩
  · rw [h]
    exact .refl s
  · rw [h]
    exact linesAndEntries_leaveScan p s
  · rw [h]
    exact (linesAndEntries_leaveScan p s).trans (linesAndEntries_modEntry _ _ _)

theorem lines_serviceChanged_same (p : Head) (s : State) : (serviceChanged p s).link.lines[p]
    = if inScanSet p s then s.link.lines[p] else s.link.lines[p].emptied := by
  rcases serviceChanged_cases p s with ⟨hin, h⟩ | ⟨hin, h | ⟨jar, h⟩⟩
  · rw [h, hin, if_pos rfl]
  · rw [h, hin, lines_leaveScan_same]
    rfl
  · rw [h, hin, modEntry_link, lines_leaveScan_same]
    rfl

theorem lines_serviceChanged_other (h : p ≠ q) (s : State) : (serviceChanged p s).link.lines[q] = s.link.lines[q] := by
  rcases serviceChanged_cases p s with ⟨_, hs⟩ | ⟨_, hs | ⟨jar, hs⟩⟩
  · rw [hs]
  · rw [hs, lines_leaveScan_other h]
  · rw [hs, modEntry_link, lines_leaveScan_other h]

/-! ### A mark-out by the Head Map (R68 to R71) -/

/-- Head `p` given the reason, with its alert, before what follows in its line, in FEW_HEADS and at the gate. -/
def markedAs (p : Head) (r : MarkReason) (s : State) : State :=
  latchAlert .headMarked (modHead p (fun h => { h with service := .markedOut r }) s)

theorem markOut_steps (p : Head) (r : MarkReason) (s : State) :
    markOut p r s = headsFollowed (serviceChanged p (markedAs p r s)) := rfl

theorem markedAs_service (p : Head) (r : MarkReason) (s : State) :
    (markedAs p r s).heads[p].service = .markedOut r :=
  congrArg HeadRecord.service (heads_modHead_same (fun h => { h with service := .markedOut r }) s)

/-- A head marked out stays in the scan set for its jar in the turret, unless the reason is LINK (R82). -/
theorem inScanSet_markedAs (p : Head) (r : MarkReason) (s : State) :
    inScanSet p (markedAs p r s) = (r != .link && holdsTurretJar p s) := by
  unfold inScanSet
  rw [markedAs_service]
  cases r <;> rfl

theorem markOut_heads (p : Head) (r : MarkReason) (s : State) :
    (markOut p r s).heads = s.heads.set p { s.heads[p] with service := .markedOut r } := by
  rw [markOut_steps, headsFollowed_heads, linesAndEntries_serviceChanged]
  rfl

theorem markOut_head (p : Head) (r : MarkReason) (s : State) :
    (markOut p r s).heads[p] = { s.heads[p] with service := .markedOut r } := by
  rw [markOut_heads]
  simp

theorem markOut_capping (p : Head) (r : MarkReason) (s : State) : (markOut p r s).capping = s.capping := by
  rw [markOut_steps, headsFollowed_capping, linesAndEntries_serviceChanged]
  rfl

theorem markOut_latch (p : Head) (r : MarkReason) (s : State) :
    (markOut p r s).alerts.latch[alertIx .headMarked] = true := by
  rw [markOut_steps, headsFollowed_latch (by decide), linesAndEntries_serviceChanged]
  simp [markedAs]

theorem markOut_line (p : Head) (r : MarkReason) (s : State) : (markOut p r s).link.lines[p]
    = if r != .link && holdsTurretJar p s then s.link.lines[p] else s.link.lines[p].emptied := by
  rw [markOut_steps, headsFollowed_link, lines_serviceChanged_same, inScanSet_markedAs]
  rfl

theorem markOut_line_other (h : p ≠ q) (r : MarkReason) (s : State) :
    (markOut p r s).link.lines[q] = s.link.lines[q] := by
  rw [markOut_steps, headsFollowed_link, lines_serviceChanged_other h]
  rfl

theorem markOut_tag (p q : Head) (r : MarkReason) (s : State) :
    (markOut p r s).link.lines[q].tag = s.link.lines[q].tag := by
  by_cases h : p = q
  · subst h
    rw [markOut_line]
    split <;> rfl
  · rw [markOut_line_other h]

/-- With a jar in the turret, and a reason other than LINK, lines and entries stand (R83). -/
theorem markOut_riding (hr : r ≠ .link) (h : holdsTurretJar p s = true) :
    (markOut p r s).link = s.link ∧ (markOut p r s).track = s.track := by
  have hin : inScanSet p (markedAs p r s) = true := by rw [inScanSet_markedAs, h]; simp [hr]
  rw [markOut_steps, serviceChanged_scanned hin, headsFollowed_link, headsFollowed_track]
  exact ⟨rfl, rfl⟩

/-- The jar in the turret of a head marked out with LINK becomes HEAD_FAULT unless it has a class (R71). -/
theorem markOut_link_jar (he : turretEntry p s = some e) : ∃ f ∈ (markOut p .link s).track.entries,
    f.jar = e.jar ∧ f.position = e.position ∧ f.capClass = e.capClass.or (some .headFault) := by
  have hmem : e ∈ (markedAs p .link s).track.entries := List.mem_of_find?_eq_some he
  obtain ⟨f, hf, hef⟩ := curvesLost_leaveScan p _ _ hmem
  rw [markOut_steps, serviceChanged_link_jar (markedAs_service p .link s) he, headsFollowed_track]
  refine ⟨_, mem_modEntry hf, ?_⟩
  have hjar : f.jar = e.jar := congrArg Label.jar hef.label
  rw [if_pos (by simp [hjar])]
  refine ⟨hjar, congrArg Label.position hef.label, ?_⟩
  rw [hef.core]

/-- A mark-out, after a change of the record of the head that leaves its counts and statistics alone. -/
theorem markOut_markedOutFor {f : HeadRecord → HeadRecord} (r : MarkReason) (hfail : (f s.heads[p]).failures = s.heads[p].failures)
    (hsilent : (f s.heads[p]).noReplies = s.heads[p].noReplies) (hstats : (f s.heads[p]).stats = s.heads[p].stats) :
    MarkedOutFor p r s (markOut p r (modHead p f s)) := by
  have hhead : (markOut p r (modHead p f s)).heads[p] = { f s.heads[p] with service := .markedOut r } := by
    rw [markOut_head, heads_modHead_same]
  refine ⟨?_, by rw [hhead], by rw [hhead]; exact hfail, by rw [hhead]; exact hsilent, by rw [hhead]; exact hstats,
    markOut_latch p r _, headsFollowed_fewHeads _, headsFollowed_decision _, headsFollowed_gateOut _,
    fun q => ⟨markOut_tag p q r _, fun hq => markOut_line_other hq.symm r _⟩, fun hout => ?_, fun e he hr => ?_,
    fun e he hr => ?_⟩
  · rw [hhead, markOut_heads, heads_modHead_same, modHead_heads, Vector.set_set]
  · have hleft : (r != .link && holdsTurretJar p (modHead p f s)) = false := by
      rcases hout with hout | hout
      · simp [hout]
      · simp [holdsTurretJar, show turretEntry p (modHead p f s) = none from hout]
    rw [markOut_line, hleft]
    exact ⟨rfl, rfl, rfl⟩
  · subst hr
    exact markOut_riding (s := modHead p f s) (by decide)
      (by simp [holdsTurretJar, show turretEntry p (modHead p f s) = some e from he])
  · subst hr
    exact markOut_link_jar (s := modHead p f s) he

/-! ### The two comparisons (R68, R69) -/

theorem autoMarkOut_none (h : s.heads[p].riseOpen = false) : autoMarkOut p s = s := by
  unfold autoMarkOut
  rw [h]
  exact if_neg (by decide)

theorem autoMarkOut_below (h : s.heads[p].riseOpen = true) (hd : ¬(s.params.failLimit ≠ 0
    ∧ s.params.failLimit ≤ s.heads[p].failures ∧ s.heads[p].service = .inService)) :
    autoMarkOut p s = modHead p (fun h => { h with riseOpen := false }) s := by
  unfold autoMarkOut
  rw [if_pos h]
  exact if_neg (by simpa [and_assoc] using hd)

theorem autoMarkOut_due (h : s.heads[p].riseOpen = true) (hd : s.params.failLimit ≠ 0
    ∧ s.params.failLimit ≤ s.heads[p].failures ∧ s.heads[p].service = .inService) :
    autoMarkOut p s = markOut p .failures (modHead p (fun h => { h with riseOpen := false }) s) := by
  unfold autoMarkOut
  rw [if_pos h]
  exact if_pos (by simpa [and_assoc] using hd)

theorem linkMarkOut_none (h : s.heads[p].silenceOpen = false) : linkMarkOut p s = s := by
  unfold linkMarkOut
  rw [h]
  exact if_neg (by decide)

theorem linkMarkOut_below (h : s.heads[p].silenceOpen = true)
    (hd : ¬(s.heads[p].noReplies = 3 ∧ s.heads[p].service ≠ .markedOut .link)) :
    linkMarkOut p s = modHead p (fun h => { h with silenceOpen := false }) s := by
  unfold linkMarkOut
  rw [if_pos h]
  exact if_neg (by simpa using hd)

theorem linkMarkOut_due (h : s.heads[p].silenceOpen = true)
    (hd : s.heads[p].noReplies = 3 ∧ s.heads[p].service ≠ .markedOut .link) :
    linkMarkOut p s = markOut p .link (modHead p (fun h => { h with silenceOpen := false }) s) := by
  unfold linkMarkOut
  rw [if_pos h]
  exact if_pos (by simpa using hd)

theorem exec_autoMarkOut (p : Head) (h : s.power = .running) : exec (.autoMarkOut p) s = .next (autoMarkOut p s) :=
  congrArg Host.Outcome.next (whenRunning_of_running _ h)

theorem exec_linkMarkOut (p : Head) (h : s.power = .running) : exec (.linkMarkOut p) s = .next (linkMarkOut p s) :=
  congrArg Host.Outcome.next (whenRunning_of_running _ h)

end Sys2Proof.Machine

namespace Sys2Proof.Proofs

open Sys2Proof.Machine

/-- Settles O46: each row makes its comparison where it stands open, closes it, and marks out by one operation. -/
theorem markOutsTaken : Obligations.MarkOutsTaken := by
  intro p s hrun h due silent
  rw [exec_autoMarkOut p hrun, exec_linkMarkOut p hrun]
  refine ⟨fun hr => by rw [autoMarkOut_none hr], fun hr hd => by rw [autoMarkOut_below hr hd]; rfl, fun hr hd => ?_,
    fun hs => by rw [linkMarkOut_none hs], fun hs hd => by rw [linkMarkOut_below hs hd]; rfl, fun hs hd => ?_⟩
  · refine ⟨_, rfl, ?_⟩
    rw [autoMarkOut_due hr hd, markOut_head, heads_modHead_same]
    exact ⟨markOut_markedOutFor .failures rfl rfl rfl, rfl, rfl⟩
  · refine ⟨_, rfl, ?_⟩
    rw [linkMarkOut_due hs hd, markOut_head, heads_modHead_same]
    exact ⟨markOut_markedOutFor .link rfl rfl rfl, rfl, rfl⟩

end Sys2Proof.Proofs
end

