-- ==== Sys2Proof/Proofs/HeadService.lean ====
section
/-! PROOFS. SET HEAD SERVICE: its list of pairs, the records it leaves, and the heads that leave the scan set by it; and
CLEAR HEAD STATS (R66, R70, R71, R73, R82, R83). -/

-- One declaration is checked after another: side by side they take more threads than the memory limit allows.
set_option Elab.async false

namespace Sys2Proof.Machine

variable {s t u : State} {p h : Head} {hs : Vector HeadRecord 18} {l : List (Head × Bool)} {ps : List Head}

/-! ### The pairs of the list (R66, R171) -/

/-- A pair that R66 takes: a head from 1 to 18 and one of the two state codes. -/
def PairTaken (q : Nat × Nat) : Prop := 1 ≤ q.1 ∧ q.1 ≤ 18 ∧ q.2 ≤ 1

/-- The pair that puts a head IN_SERVICE or marks it out. -/
def servicePair (q : Head × Bool) : Nat × Nat := (q.1.number, if q.2 then 0 else 1)

theorem pairOf_servicePair (q : Head × Bool) : pairOf (servicePair q) = some q := by
  obtain ⟨p, b⟩ := q
  unfold pairOf servicePair
  rw [headOf_number]
  cases b <;> rfl

theorem pairOf_refused {q : Nat × Nat} (hq : ¬PairTaken q) : pairOf q = none := by
  obtain ⟨n, c⟩ := q
  by_cases hn : 1 ≤ n ∧ n ≤ 18
  · obtain ⟨k, rfl⟩ : ∃ k, c = k + 2 := ⟨c - 2, by unfold PairTaken at hq; omega⟩
    unfold pairOf
    cases headOf n <;> rfl
  · unfold pairOf
    rw [headOf_none (by omega)]

/-- A list of which each pair is taken says of each head in turn whether it is put IN_SERVICE. -/
theorem exists_servicePairs {pairs : List (Nat × Nat)} (hp : ∀ q ∈ pairs, PairTaken q) :
    ∃ l : List (Head × Bool), pairs = l.map servicePair := by
  induction pairs with
  | nil => exact ⟨[], rfl⟩
  | cons q pairs ih =>
    rw [List.forall_mem_cons] at hp
    obtain ⟨⟨hlow, hhigh, hcode⟩, hrest⟩ := hp
    obtain ⟨l, rfl⟩ := ih hrest
    refine ⟨(⟨q.1 - 1, by omega⟩, q.2 == 0) :: l, ?_⟩
    rw [List.map_cons, List.cons.injEq]
    refine ⟨Prod.ext ?_ ?_, rfl⟩
    · simp only [servicePair, Head.number]
      omega
    · simp only [servicePair, beq_iff_eq]
      split <;> omega

theorem mapM_servicePairs (l : List (Head × Bool)) : (l.map servicePair).mapM pairOf = some l := by
  induction l with
  | nil => rfl
  | cons q l ih => rw [List.map_cons, List.mapM_cons, pairOf_servicePair, ih]; rfl

theorem mapM_pairOf_refused {pairs : List (Nat × Nat)} (hp : ∃ q ∈ pairs, ¬PairTaken q) :
    pairs.mapM pairOf = none := by
  induction pairs with
  | nil => obtain ⟨q, hq, _⟩ := hp; cases hq
  | cons q pairs ih =>
    rw [List.mapM_cons]
    rw [List.exists_mem_cons_iff] at hp
    rcases hp with hq | hrest
    · rw [pairOf_refused hq]; rfl
    · rw [ih hrest]
      cases pairOf q <;> rfl

theorem number_injective {p q : Head} : p.number = q.number ↔ p = q := by
  unfold Head.number
  rw [Fin.ext_iff]
  omega

theorem servicePair_injective : Function.Injective servicePair := fun a b h => by
  rw [← Option.some.injEq, ← pairOf_servicePair a, h, pairOf_servicePair]

/-- The pairs of one head. -/
theorem filter_servicePairs (h : Head) (l : List (Head × Bool)) :
    (l.map servicePair).filter (fun q => q.1 == h.number) = (l.filter (fun q => q.1 == h)).map servicePair := by
  rw [List.filter_map]
  refine congrArg _ (List.filter_congr fun q _ => ?_)
  rw [Bool.eq_iff_iff, beq_iff_eq, Function.comp_apply, beq_iff_eq]
  exact number_injective

/-! ### The records of the heads (R66) -/

/-- The service state after the pairs of head `h`: that of its last pair. -/
def servicedState (h : Head) (l : List (Head × Bool)) (v : Service) : Service :=
  match (l.filter (fun q => q.1 == h)).getLast? with
  | none => v
  | some (_, true) => .inService
  | some (_, false) => .markedOut .host

/-- The record after the pairs of head `h`: an IN_SERVICE among them sets both counts to 0. -/
def serviced (h : Head) (l : List (Head × Bool)) (r : HeadRecord) : HeadRecord :=
  { r with service := servicedState h l r.service
           failures := if (h, true) ∈ l then 0 else r.failures
           noReplies := if (h, true) ∈ l then 0 else r.noReplies }

theorem applyPair_same (hs : Vector HeadRecord 18) (h : Head) (b : Bool) : (applyPair hs (h, b))[h]
    = if b then { hs[h] with service := .inService, failures := 0, noReplies := 0 }
      else { hs[h] with service := .markedOut .host } := by
  simp [applyPair]

theorem applyPair_other {q : Head × Bool} (hq : q.1 ≠ h) (hs : Vector HeadRecord 18) : (applyPair hs q)[h] = hs[h] := by
  simp only [applyPair, Fin.getElem_fin, Vector.getElem_set]
  exact if_neg fun a => hq (Fin.ext a)

theorem foldl_applyPair_get (l : List (Head × Bool)) (hs : Vector HeadRecord 18) (h : Head) :
    (l.foldl applyPair hs)[h] = serviced h l hs[h] := by
  induction l using List.reverseRecOn with
  | nil => rfl
  | append_singleton l q ih =>
    obtain ⟨p, b⟩ := q
    rw [List.foldl_append, List.foldl_cons, List.foldl_nil]
    by_cases hp : p = h
    · subst hp
      rw [applyPair_same, ih]
      cases b <;> simp [serviced, servicedState]
    · rw [applyPair_other hp, ih]
      simp [serviced, servicedState, hp, Ne.symm hp]

theorem serviced_untouched (hl : l.filter (fun q => q.1 == h) = []) (r : HeadRecord) : serviced h l r = r := by
  have hmem : (h, true) ∉ l := fun hm => List.filter_eq_nil_iff.1 hl _ hm (by simp)
  simp [serviced, servicedState, hl, hmem]

theorem serviced_inService (hl : (l.filter (fun q => q.1 == h)).getLast? = some (h, true)) (r : HeadRecord) :
    serviced h l r = { r with service := .inService, failures := 0, noReplies := 0 } := by
  have hmem : (h, true) ∈ l := List.mem_of_mem_filter (List.mem_of_getLast? hl)
  simp [serviced, servicedState, hl, hmem]

theorem serviced_markedOut (hl : (l.filter (fun q => q.1 == h)).getLast? = some (h, false)) (r : HeadRecord) :
    serviced h l r = { r with service := .markedOut .host
                              failures := if (h, true) ∈ l then 0 else r.failures
                              noReplies := if (h, true) ∈ l then 0 else r.noReplies } := by
  simp [serviced, servicedState, hl]

/-- A list gives a head no other state than IN_SERVICE and MARKED_OUT with HOST. -/
theorem servicedState_cases (h : Head) (l : List (Head × Bool)) (v : Service) :
    servicedState h l v = v ∨ servicedState h l v = .inService ∨ servicedState h l v = .markedOut .host := by
  unfold servicedState
  split
  · exact .inl rfl
  · exact .inr (.inl rfl)
  · exact .inr (.inr rfl)

/-! ### Entries that have at most lost a curve -/

theorem InOrder.map_eq {α : Type} (hst : InOrder s t) {g : Entry → α} (hg : ∀ e f, MayLose e f → g f = g e) :
    t.track.entries.map g = s.track.entries.map g := by
  have hrel : List.Forall₂ (· = ·) (s.track.entries.map g) (t.track.entries.map g) :=
    List.forall₂_map_right_iff.2 (List.forall₂_map_left_iff.2 (hst.imp fun e f hef => (hg e f hef).symm))
  rw [List.forall₂_eq_eq_eq] at hrel
  exact hrel.symm

/-- An entry comes from one of before, from which it differs by a lost curve at most. -/
theorem InOrder.source (hst : InOrder s t) {f : Entry} (hf : f ∈ t.track.entries) :
    ∃ e ∈ s.track.entries, MayLose e f := by
  obtain ⟨n, hn, rfl⟩ := List.mem_iff_getElem.1 hf
  have hlen := hst.length_eq
  exact ⟨s.track.entries[n], List.getElem_mem _, hst.get (hlen ▸ hn) hn⟩

theorem inOrder_leaveScan (p : Head) (s : State) : InOrder s (leaveScan p s) :=
  inOrder_displaceFetch p (modLine p (fun l => { l with slot := .empty, unconfirmed := none }) s)

/-- Which heads hold a jar in the turret follows from the labels of the entries. -/
theorem holdsTurretJar_of_labels (hl : t.track.entries.map Entry.label = s.track.entries.map Entry.label)
    (hg : t.track.geometry = s.track.geometry) (p : Head) : holdsTurretJar p t = holdsTurretJar p s := by
  have hany (v : State) : holdsTurretJar p v
      = (v.track.entries.map Entry.label).any (fun m => m.pocket == p && decide (m.position < v.track.geometry.x)) := by
    rw [holdsTurretJar_eq, List.any_map]
    rfl
  rw [hany, hany, hl, hg]

theorem holdsTurretJar_iff (p : Head) (s : State) : holdsTurretJar p s = true
    ↔ ∃ e ∈ s.track.entries, e.pocket = p ∧ e.position < s.track.geometry.x := by
  simp [holdsTurretJar_eq]

theorem inScanSet_of_labels (hh : t.heads = s.heads)
    (hl : t.track.entries.map Entry.label = s.track.entries.map Entry.label)
    (hg : t.track.geometry = s.track.geometry) (p : Head) : inScanSet p t = inScanSet p s := by
  unfold inScanSet
  rw [hh, holdsTurretJar_of_labels hl hg]

/-! ### The heads whose state is another (R70, R71, R82, R83) -/

/-- No head of the list stands MARKED_OUT with LINK. -/
def NoneLinked (ps : List Head) (s : State) : Prop := ∀ p ∈ ps, s.heads[p].service ≠ .markedOut .link

/-- What a changed state or reason other than LINK leaves as it was: all but lines and lost curves. -/
theorem serviceChanged_hosted (hl : s.heads[p].service ≠ .markedOut .link) :
    LinesAndEntries s (serviceChanged p s) ∧ InOrder s (serviceChanged p s) := by
  refine ⟨linesAndEntries_serviceChanged p s, ?_⟩
  cases hin : inScanSet p s with
  | true => rw [serviceChanged_scanned hin]; exact .refl s
  | false => rw [serviceChanged_unscanned hin hl]; exact inOrder_leaveScan p s

theorem LinesAndEntries.inScanSet_eq (hst : LinesAndEntries s t) (ho : InOrder s t) (p : Head) :
    inScanSet p t = inScanSet p s :=
  inScanSet_of_labels (by rw [hst]) (ho.map_eq fun _ _ h => h.label) (by rw [hst]) p

/-- The changed heads are handed on one after another (R66). -/
def handOnHeads (ps : List Head) (s : State) : State := ps.foldl (fun u p => serviceChanged p u) s

theorem handOnHeads_cons (p : Head) (ps : List Head) (s : State) :
    handOnHeads (p :: ps) s = handOnHeads ps (serviceChanged p s) := rfl

theorem NoneLinked.tail (hn : NoneLinked (p :: ps) s) (hst : LinesAndEntries s t) : NoneLinked ps t := fun q hq => by
  rw [hst]
  exact hn q (List.mem_cons_of_mem p hq)

theorem handOnHeads_stands (hn : NoneLinked ps s) :
    LinesAndEntries s (handOnHeads ps s) ∧ InOrder s (handOnHeads ps s) := by
  induction ps generalizing s with
  | nil => exact ⟨.refl s, .refl s⟩
  | cons p ps ih =>
    obtain ⟨h1, h2⟩ := serviceChanged_hosted (hn p (List.mem_cons_self ..))
    obtain ⟨h3, h4⟩ := ih (hn.tail h1)
    exact ⟨h1.trans h3, h2.trans h4⟩

theorem emptied_emptied (l : HeadLine) : l.emptied.emptied = l.emptied := rfl

/-- The lines of the heads that have left the scan set are emptied, and all others stand. -/
theorem handOnHeads_line (hn : NoneLinked ps s) (h : Head) : (handOnHeads ps s).link.lines[h]
    = if h ∈ ps ∧ inScanSet h s = false then s.link.lines[h].emptied else s.link.lines[h] := by
  induction ps generalizing s with
  | nil => simp [handOnHeads]
  | cons p ps ih =>
    obtain ⟨h1, h2⟩ := serviceChanged_hosted (hn p (List.mem_cons_self ..))
    rw [handOnHeads_cons, ih (hn.tail h1), h1.inScanSet_eq h2]
    by_cases hp : p = h
    · subst hp
      rw [lines_serviceChanged_same]
      cases inScanSet p s <;> simp [emptied_emptied]
    · rw [lines_serviceChanged_other hp]
      simp [Ne.symm hp]

/-- The jar of an open fetch of a head that has left the scan set has lost its curve (R83, R101). -/
theorem handOnHeads_lost (hn : NoneLinked ps s) (hp : p ∈ ps) (hout : inScanSet p s = false) {f : CurveFetch}
    (hf : s.link.lines[p].fetch = some f) :
    ∀ e ∈ (handOnHeads ps s).track.entries, e.jar = f.jar → e.flags.has .traceLost = true := by
  induction ps generalizing s with
  | nil => cases hp
  | cons q ps ih =>
    obtain ⟨h1, h2⟩ := serviceChanged_hosted (hn q (List.mem_cons_self ..))
    by_cases hq : q = p
    · subst hq
      intro e he hj
      obtain ⟨e', he', hlose⟩ := (handOnHeads_stands (hn.tail h1)).2.source he
      have hj' : e'.jar = f.jar := (congrArg Label.jar hlose.label).symm.trans hj
      rw [serviceChanged_unscanned hout (hn q (List.mem_cons_self ..)), leaveScan_entries] at he'
      obtain ⟨e0, _, rfl⟩ := List.mem_map.1 he'
      have hfetch : fetches e0.jar s.link.lines[q] = true := (fetches_iff _ _).2 ⟨f, hf, hj'.symm⟩
      refine hlose.grown _ ?_
      change (e0.flags.addIf (fetches e0.jar s.link.lines[q]) .traceLost).has .traceLost = true
      rw [has_addIf, hfetch]
      simp
    · have hps : p ∈ ps := (List.mem_cons.1 hp).resolve_left (Ne.symm hq)
      exact ih (hn.tail h1) hps (by rw [h1.inScanSet_eq h2]; exact hout)
        (by rw [lines_serviceChanged_other hq]; exact hf)

theorem mem_changedHeads (old new : Vector HeadRecord 18) (h : Head) :
    h ∈ changedHeads old new ↔ new[h].service ≠ old[h].service := by
  simp [changedHeads]

/-! ### SET HEAD SERVICE (R66) -/

/-- The part with the records that the list leaves. -/
def withPairs (l : List (Head × Bool)) (s : State) : State := { s with heads := l.foldl applyPair s.heads }

theorem withPairs_head (l : List (Head × Bool)) (s : State) (h : Head) :
    (withPairs l s).heads[h] = serviced h l s.heads[h] :=
  foldl_applyPair_get l s.heads h

/-- The heads that the list gives another state or reason. -/
def changedBy (l : List (Head × Bool)) (s : State) : List Head := changedHeads s.heads (withPairs l s).heads

theorem applyService_steps (l : List (Head × Bool)) (s : State) :
    applyService l s = headsFollowed (handOnHeads (changedBy l s) (withPairs l s)) := rfl

theorem noneLinked_changedBy (l : List (Head × Bool)) (s : State) : NoneLinked (changedBy l s) (withPairs l s) := by
  intro p hp hlink
  have hchange := (mem_changedHeads _ _ _).1 hp
  have hstate : servicedState p l s.heads[p].service = .markedOut .link :=
    (congrArg HeadRecord.service (withPairs_head l s p)).symm.trans hlink
  rcases servicedState_cases p l s.heads[p].service with h | h | h
  · rw [hlink, ← hstate, h] at hchange
    exact hchange rfl
  · rw [hstate] at h; cases h
  · rw [hstate] at h; cases h

theorem applyService_stands (l : List (Head × Bool)) (s : State) :
    LinesAndEntries (withPairs l s) (handOnHeads (changedBy l s) (withPairs l s))
      ∧ InOrder (withPairs l s) (handOnHeads (changedBy l s) (withPairs l s)) :=
  handOnHeads_stands (noneLinked_changedBy l s)

theorem applyService_head (l : List (Head × Bool)) (s : State) (h : Head) :
    (applyService l s).heads[h] = serviced h l s.heads[h] := by
  rw [applyService_steps, headsFollowed_heads, (applyService_stands l s).1]
  exact withPairs_head l s h

theorem applyService_latch {k : AlertKind} (hk : k ≠ .holdEntered) (l : List (Head × Bool)) (s : State) :
    (applyService l s).alerts.latch[alertIx k] = s.alerts.latch[alertIx k] := by
  rw [applyService_steps, headsFollowed_latch hk, (applyService_stands l s).1]
  rfl

theorem applyService_inOrder (l : List (Head × Bool)) (s : State) : InOrder s (applyService l s) := by
  have h := (applyService_stands l s).2
  unfold InOrder at h ⊢
  rw [applyService_steps, headsFollowed_track]
  exact h

theorem applyService_geometry (l : List (Head × Bool)) (s : State) :
    (applyService l s).track.geometry = s.track.geometry := by
  rw [applyService_steps, headsFollowed_track, (applyService_stands l s).1]
  rfl

theorem applyService_holdsTurretJar (l : List (Head × Bool)) (s : State) (h : Head) :
    holdsTurretJar h (applyService l s) = holdsTurretJar h s :=
  holdsTurretJar_of_labels ((applyService_inOrder l s).map_eq fun _ _ a => a.label) (applyService_geometry l s) h

/-- The head leaves the scan set by the list (R83). -/
def LeavesBy (l : List (Head × Bool)) (s : State) (h : Head) : Prop :=
  (applyService l s).heads[h].service ≠ s.heads[h].service
    ∧ (applyService l s).heads[h].service = .markedOut .host ∧ holdsTurretJar h s = false

theorem leavesBy_iff (l : List (Head × Bool)) (s : State) (h : Head) :
    LeavesBy l s h ↔ h ∈ changedBy l s ∧ inScanSet h (withPairs l s) = false := by
  have hhead : (applyService l s).heads[h].service = (withPairs l s).heads[h].service := by
    rw [applyService_head, withPairs_head]
  have hstate : (withPairs l s).heads[h].service = servicedState h l s.heads[h].service :=
    congrArg HeadRecord.service (withPairs_head l s h)
  have hholds : holdsTurretJar h (withPairs l s) = holdsTurretJar h s := rfl
  unfold LeavesBy changedBy
  rw [mem_changedHeads, hhead]
  refine and_congr_right fun hchange => ?_
  unfold inScanSet
  rw [hholds]
  rcases servicedState_cases h l s.heads[h].service with hs | hs | hs
  · exact absurd (hstate.trans hs) hchange
  · rw [hstate, hs]; simp
  · rw [hstate, hs]; simp

theorem applyService_line (l : List (Head × Bool)) (s : State) (h : Head) :
    (LeavesBy l s h → (applyService l s).link.lines[h] = s.link.lines[h].emptied)
      ∧ (¬LeavesBy l s h → (applyService l s).link.lines[h] = s.link.lines[h]) := by
  rw [applyService_steps, headsFollowed_link, handOnHeads_line (noneLinked_changedBy l s), leavesBy_iff]
  exact ⟨fun a => if_pos a, fun a => if_neg a⟩

theorem applyService_lost (hleaves : LeavesBy l s h) {f : CurveFetch} (hf : s.link.lines[h].fetch = some f) :
    ∀ e ∈ (applyService l s).track.entries, e.jar = f.jar → e.flags.has .traceLost = true := by
  obtain ⟨hmem, hout⟩ := (leavesBy_iff l s h).1 hleaves
  rw [applyService_steps, headsFollowed_track]
  exact handOnHeads_lost (noneLinked_changedBy l s) hmem hout hf

theorem setHeadServiceBlock_refused {q : List Byte} (hq : ∃ a ∈ pairsOf (q.drop 1), ¬PairTaken a) (s : State) :
    setHeadServiceBlock q s = .plain .badValue s := by
  unfold setHeadServiceBlock
  rw [mapM_pairOf_refused hq]

theorem setHeadServiceBlock_taken {q : List Byte} (hq : pairsOf (q.drop 1) = l.map servicePair) (s : State) :
    setHeadServiceBlock q s = .plain .done (applyService l s) := by
  unfold setHeadServiceBlock
  rw [hq, mapM_servicePairs]

/-! ### CLEAR HEAD STATS (R73) -/

theorem clearHeadStatsBlock_all (s : State) : clearHeadStatsBlock [0] s
    = .plain .done { s with heads := s.heads.map (fun h => { h with stats := clearStats }) } := rfl

theorem clearHeadStatsBlock_one (h : Head) (s : State) : clearHeadStatsBlock [BitVec.ofNat 8 h.number] s
    = .plain .done (modHead h (fun r => { r with stats := clearStats }) s) := by
  unfold clearHeadStatsBlock
  rw [field_headNumber, if_neg (by simp [Head.number]), headOf_number]

theorem clearHeadStatsBlock_refused {b : Byte} (hb : 18 < b.toNat) (s : State) :
    clearHeadStatsBlock [b] s = .plain .badValue s := by
  unfold clearHeadStatsBlock
  rw [field_byte, if_neg (by omega), headOf_none (.inr hb)]

end Sys2Proof.Machine

namespace Sys2Proof.Proofs

open Sys2Proof.Machine

/-- The scan set, the slot and the fetch of a head after SET HEAD SERVICE (R70, R71, R82, R83). -/
theorem headService_scan (l : List (Head × Bool)) (g : State) (h : Head) :
    let t := applyService l g
    let riding := ∃ e ∈ g.track.entries, e.pocket = h ∧ e.position < g.track.geometry.x
    let leaves := t.heads[h].service ≠ g.heads[h].service ∧ t.heads[h].service = .markedOut .host ∧ ¬riding
    (leaves → t.link.lines[h] = { g.link.lines[h] with slot := .empty, fetch := none, unconfirmed := none }
        ∧ ∀ f, g.link.lines[h].fetch = some f → ∀ e ∈ t.track.entries, e.jar = f.jar → e.flags.has .traceLost = true)
      ∧ (¬leaves → t.link.lines[h] = g.link.lines[h])
      ∧ (t.heads[h].service = .inService → InScan h t)
      ∧ (t.heads[h].service = .markedOut .host → (InScan h t ↔ riding)) := by
  intro t riding leaves
  have hriding : riding ↔ holdsTurretJar h g = true := (holdsTurretJar_iff h g).symm
  have hleaves : leaves ↔ LeavesBy l g h := by
    refine and_congr_right fun _ => and_congr_right fun _ => ?_
    rw [hriding, Bool.not_eq_true]
  obtain ⟨hout, hstay⟩ := applyService_line l g h
  refine ⟨fun a => ⟨hout (hleaves.1 a), fun f hf => applyService_lost (hleaves.1 a) hf⟩,
    fun a => hstay fun b => a (hleaves.2 b), .inl, fun hhost => ?_⟩
  rw [← inScanSet_iff, hriding, ← applyService_holdsTurretJar l g h]
  unfold inScanSet
  rw [hhost]

/-- The records after SET HEAD SERVICE, each by the last pair of its head (R66). -/
theorem headService_records (l : List (Head × Bool)) (g : State) (h : Head) :
    let t := applyService l g
    let pairs := l.map servicePair
    t.heads[h].stats = g.heads[h].stats
      ∧ ((∀ q ∈ pairs, q.1 ≠ h.number) → t.heads[h] = g.heads[h])
      ∧ ((pairs.filter (fun q => q.1 == h.number)).getLast? = some (h.number, 0) →
        t.heads[h] = { g.heads[h] with service := .inService, failures := 0, noReplies := 0 })
      ∧ ((pairs.filter (fun q => q.1 == h.number)).getLast? = some (h.number, 1) →
        t.heads[h] = { g.heads[h] with
          service := .markedOut .host
          failures := if (h.number, 0) ∈ pairs then 0 else g.heads[h].failures
          noReplies := if (h.number, 0) ∈ pairs then 0 else g.heads[h].noReplies }) := by
  intro t pairs
  have hlast (b : Bool) : (pairs.filter (fun q => q.1 == h.number)).getLast? = some (servicePair (h, b))
      → (l.filter (fun q => q.1 == h)).getLast? = some (h, b) := by
    rw [filter_servicePairs, List.getLast?_map, Option.map_eq_some_iff]
    rintro ⟨q, hq, hp⟩
    rw [hq, servicePair_injective hp]
  have hmem : (h.number, 0) ∈ pairs ↔ (h, true) ∈ l :=
    List.mem_map_of_injective servicePair_injective (a := (h, true))
  rw [applyService_head]
  refine ⟨rfl, fun hnone => serviced_untouched ?_ _, fun hin => serviced_inService (hlast true hin) _, fun hout => ?_⟩
  · refine List.filter_eq_nil_iff.2 fun q hq hqh => hnone (servicePair q) (List.mem_map_of_mem hq) ?_
    rw [beq_iff_eq] at hqh
    exact congrArg Head.number hqh
  · simp only [hmem]
    exact serviced_markedOut (hlast false hout) _

/-- Settles O45: the records follow from the last pair of each head, and lines and entries from the heads that the list
gives another state, which are handed on one after another. -/
theorem headServiceSet : Obligations.HeadServiceSet := by
  intro s hready g
  refine ⟨?_, next_ready hready rfl rfl (clearHeadStatsBlock_all _),
    fun h => next_ready hready rfl rfl (clearHeadStatsBlock_one h _),
    fun b hb => next_ready hready rfl rfl (clearHeadStatsBlock_refused hb _)⟩
  intro q hfits pairs
  refine ⟨fun hbad => next_ready hready hfits rfl (setHeadServiceBlock_refused hbad _), fun hgood => ?_⟩
  obtain ⟨l, hl⟩ := exists_servicePairs hgood
  refine ⟨applyService l g, next_ready hready hfits rfl (setHeadServiceBlock_taken hl _), headsFollowed_decision _,
    headsFollowed_fewHeads _, applyService_latch (by decide) l g,
    (applyService_inOrder l g).map_eq fun e f hef => by rw [hef.core], headService_scan l g, fun h => ?_⟩
  rw [show pairs = l.map servicePair from hl]
  exact headService_records l g h

end Sys2Proof.Proofs
end

