-- ==== Sys2Proof/Proofs/Exchanges.lean ====
section
/-! PROOFS. The turns of the scan and the exchanges that fail: what starts an exchange, what its failure reports to the
Head Map, and what is left of an APPLY and of a curve fetch (R69, R76, R77, R82, R85, R88, R89, R173). -/

-- One declaration is checked after another: side by side they take more threads than the memory limit allows.
set_option Elab.async false

namespace Sys2Proof.Machine

variable {s t u : State} {p : Head} {x : Exchange} {r : Report} {f : CurveFetch}

/-! ### A turn of the scan (R82, R85) -/

theorem exec_exchangeStart (h : s.power = .running) : exec .exchangeStart s = .next (scanTurn s) :=
  congrArg Host.Outcome.next (whenRunning_of_running _ h)

theorem scanTurn_busy (h : s.link.exchange.isSome = true) : scanTurn s = s := if_pos h

theorem scanTurn_idle (h : ∀ p, ¬InScan p s) : scanTurn s = s := by
  have hnone : ∀ p, inScanSet p s = false := fun p => by
    rw [← Bool.not_eq_true, inScanSet_iff]
    exact h p
  unfold scanTurn
  rw [nextInSet_none 18 s.link.pointer hnone]
  split <;> rfl

/-- The exchange of a turn is made with the first head of the set from the pointer on. -/
theorem scanTurn_first {n : Head} (hx : s.link.exchange = none) (hin : InScan (s.link.pointer + n) s)
    (hskip : ∀ m, m < n → ¬InScan (s.link.pointer + m) s) :
    scanTurn s = beginExchange (s.link.pointer + n) { s with link.pointer := s.link.pointer + n } := by
  have hofNat (m : Head) : Fin.ofNat 18 m.val = m := Fin.ext (Nat.mod_eq_of_lt m.isLt)
  have hfound : nextInSet s 18 s.link.pointer = some (s.link.pointer + n) := by
    have h := nextInSet_first (s := s) 18 n.val s.link.pointer n.isLt (by rw [hofNat, inScanSet_iff]; exact hin)
      (fun k hk => by
        have hlt : k < 18 := hk.trans n.isLt
        rw [← Bool.not_eq_true, inScanSet_iff, hofNat ⟨k, hlt⟩]
        exact hskip ⟨k, hlt⟩ hk)
    rwa [hofNat] at h
  unfold scanTurn
  rw [if_neg (by simp [hx]), hfound]

/-- The line of a head whose command has left its slot: a sent CURVE moves its fetch to SENT (R89). -/
def HeadLine.taken (l : HeadLine) : HeadLine :=
  { l with slot := .empty
           fetch := if l.slot = .curve then l.fetch.map (fun f => { f with stage := .sent }) else l.fetch }

/-- The record of a head after its command has been sent: an APPLY is counted (R72). -/
def HeadRecord.sent (c : Slot) (h : HeadRecord) : HeadRecord :=
  match c with
  | .apply _ => { h with stats := { h.stats with applySent := satInc max32 h.stats.applySent } }
  | .empty | .abort | .curve => h

theorem takeCommand_eq (p : Head) (s : State) : takeCommand p s = { s with
    link.lines := s.link.lines.set p s.link.lines[p].taken
    heads := s.heads.set p (s.heads[p].sent s.link.lines[p].slot) } := by
  have hheads : s.heads.set p s.heads[p] = s.heads := by simp
  unfold takeCommand HeadLine.taken HeadRecord.sent
  cases hslot : s.link.lines[p].slot with
  | apply a => rfl
  | curve =>
    simp only [hheads]
    rfl
  | empty =>
    simp only [hheads]
    rfl
  | abort =>
    simp only [hheads]
    rfl

theorem beginExchange_eq (p : Head) (s : State) : beginExchange p s = { s with
    heads := s.heads.set p (s.heads[p].sent s.link.lines[p].slot)
    link := { s.link with
      lines := s.link.lines.set p s.link.lines[p].taken
      exchange := some ⟨p, slotCommand s.link.lines[p].slot, s.params.replyWindow⟩
      hlTxd := commandFrame p (slotCommand s.link.lines[p].slot)
      hlDe := false } } := by
  unfold beginExchange
  rw [takeCommand_eq]

/-! ### A failed exchange in the Head Map (R69) -/

/-- The record of a head after an exchange without a reply, its test made. -/
def HeadRecord.missed (h : HeadRecord) : HeadRecord :=
  { h with noReplies := satInc 3 h.noReplies, silenceOpen := false
           stats := { h.stats with noReply := satInc max32 h.stats.noReply } }

/-- One failed exchange more marks the head out with LINK (R69). -/
def SilentNext (p : Head) (s : State) : Prop :=
  satInc 3 s.heads[p].noReplies = 3 ∧ s.heads[p].service ≠ .markedOut .link

/-- The failed exchange is counted, its test still open. -/
def silenced (p : Head) (s : State) : State :=
  modHead p (fun h => { h with
    noReplies := satInc 3 h.noReplies, silenceOpen := true
    stats := { h.stats with noReply := satInc max32 h.stats.noReply } }) s

theorem reportToHeadMap_failed (p : Head) (s : State) : reportToHeadMap p false s = linkMarkOut p (silenced p s) := rfl

theorem silenced_head (p : Head) (s : State) : (silenced p s).heads[p] = { s.heads[p] with
    noReplies := satInc 3 s.heads[p].noReplies, silenceOpen := true
    stats := { s.heads[p].stats with noReply := satInc max32 s.heads[p].stats.noReply } } := by
  unfold silenced
  rw [heads_modHead_same]

theorem close_silenced (p : Head) (s : State) :
    modHead p (fun h => { h with silenceOpen := false }) (silenced p s) = modHead p HeadRecord.missed s :=
  modHead_modHead p _ _

theorem reportToHeadMap_out (h : SilentNext p s) :
    reportToHeadMap p false s = markOut p .link (modHead p HeadRecord.missed s) := by
  rw [reportToHeadMap_failed, linkMarkOut_due (by rw [silenced_head]) (by rw [silenced_head]; exact h), close_silenced]

theorem reportToHeadMap_counted (h : ¬SilentNext p s) :
    reportToHeadMap p false s = modHead p HeadRecord.missed s := by
  rw [reportToHeadMap_failed, linkMarkOut_below (by rw [silenced_head]) (by rw [silenced_head]; exact h),
    close_silenced]

/-- What the report of a failed exchange leaves: the count and the statistic, and with the third failure in a row the
mark-out and the emptied line. -/
theorem reportToHeadMap_leaves (p : Head) (s : State) :
    (reportToHeadMap p false s).capping = s.capping
      ∧ (SilentNext p s → (reportToHeadMap p false s).heads[p]
          = { s.heads[p].missed with service := .markedOut .link }
        ∧ (reportToHeadMap p false s).alerts.latch[alertIx .headMarked] = true
        ∧ (reportToHeadMap p false s).link.lines[p] = s.link.lines[p].emptied)
      ∧ (¬SilentNext p s → (reportToHeadMap p false s).heads[p] = s.heads[p].missed
        ∧ (reportToHeadMap p false s).link.lines[p] = s.link.lines[p]) := by
  by_cases h : SilentNext p s
  · rw [reportToHeadMap_out h]
    refine ⟨markOut_capping _ _ _, fun _ => ⟨?_, markOut_latch _ _ _, ?_⟩, fun a => absurd h a⟩
    · rw [markOut_head, heads_modHead_same]
    · rw [markOut_line]
      rfl
  · rw [reportToHeadMap_counted h]
    exact ⟨rfl, fun a => absurd a h, fun _ => ⟨heads_modHead_same _ _, rfl⟩⟩

/-! ### What is left of an APPLY (R88) -/

/-- A change that leaves the line as it is leaves the state as it is. -/
theorem modLine_self {g : HeadLine → HeadLine} (h : g s.link.lines[p] = s.link.lines[p]) : modLine p g s = s := by
  have hset : s.link.lines.set p s.link.lines[p] = s.link.lines := by simp
  unfold modLine
  rw [h, hset]

/-- A failed exchange keeps the APPLY that it sent. -/
def HeadLine.keeping (c : HeadCommand) (l : HeadLine) : HeadLine :=
  match c with
  | .apply a => { l with unconfirmed := some a }
  | .abort | .poll | .curve => l

theorem settleUnconfirmed_failed (x : Exchange) (b : Bool) (s : State) :
    settleUnconfirmed x none b s = modLine x.head (HeadLine.keeping x.command) s := by
  unfold settleUnconfirmed
  cases h : x.command with
  | apply a => rfl
  | abort => exact (modLine_self rfl).symm
  | poll => exact (modLine_self rfl).symm
  | curve => exact (modLine_self rfl).symm

/-! ### What is left of a curve fetch (R89) -/

/-- Of the line of a head no more than slot and fetch has changed. -/
def SlotAndFetch (l m : HeadLine) : Prop := m = { l with slot := m.slot, fetch := m.fetch }

theorem SlotAndFetch.refl (l : HeadLine) : SlotAndFetch l l := rfl

theorem SlotAndFetch.tag {l m : HeadLine} (h : SlotAndFetch l m) : m.tag = l.tag := by rw [h]

theorem SlotAndFetch.unconfirmed {l m : HeadLine} (h : SlotAndFetch l m) : m.unconfirmed = l.unconfirmed := by rw [h]

theorem SlotAndFetch.applyConfirmed {l m : HeadLine} (h : SlotAndFetch l m) :
    m.applyConfirmed = l.applyConfirmed := by rw [h]

theorem placeCurveAgain_free (h : s.link.lines[p].slot = .empty) : (placeCurveAgain p s).link.lines[p]
    = { s.link.lines[p] with
        slot := .curve, fetch := s.link.lines[p].fetch.map (fun f => { f with stage := .wanted }) } := by
  unfold placeCurveAgain
  rw [h]
  exact lines_modLine_same _ _ _

/-- A CURVE placed again changes slot and fetch of its line, or its jar has lost the curve. -/
theorem placeCurveAgain_stands (p : Head) (s : State) : LinesAndEntries s (placeCurveAgain p s)
    ∧ CurvesLost s (placeCurveAgain p s) ∧ SlotAndFetch s.link.lines[p] (placeCurveAgain p s).link.lines[p] := by
  have hplaced : SlotAndFetch s.link.lines[p] { s.link.lines[p] with
      slot := .curve, fetch := s.link.lines[p].fetch.map (fun f => { f with stage := .wanted }) } := rfl
  have hdropped : SlotAndFetch s.link.lines[p] { s.link.lines[p] with fetch := none } := rfl
  unfold placeCurveAgain
  split
  · exact ⟨linesAndEntries_modLine _ _ _, .refl s, by rw [lines_modLine_same]; exact hplaced⟩
  · exact ⟨linesAndEntries_modLine _ _ _, .refl s, by rw [lines_modLine_same]; exact hplaced⟩
  · exact ⟨linesAndEntries_displaceFetch p s, curvesLost_displaceFetch p s,
      by rw [lines_displaceFetch_same]; exact hdropped⟩
  · exact ⟨linesAndEntries_displaceFetch p s, curvesLost_displaceFetch p s,
      by rw [lines_displaceFetch_same]; exact hdropped⟩

theorem settleFetch_closed (h : s.link.lines[x.head].fetch = none) (good : Option Report) (current : Bool) :
    settleFetch x good current s = s := by
  unfold settleFetch
  rw [h]

/-- A fetch whose curve has not come: a CURVE sent in an earlier exchange is placed again. -/
theorem settleFetch_open {good : Option Report} {current : Bool} (hf : s.link.lines[x.head].fetch = some f)
    (hc : fetchedCurve current f good = none) : settleFetch x good current s
      = if f.stage = .sent ∧ x.command ≠ .curve then placeCurveAgain x.head s else s := by
  unfold settleFetch
  rw [hf]
  simp only [hc, Bool.and_eq_true, beq_iff_eq, bne_iff_ne]

/-- An exchange that brings no curve changes slot and fetch of its line at most, and may lose a curve. -/
theorem settleFetch_noCurve {good : Option Report} {current : Bool} (hc : ∀ f, fetchedCurve current f good = none)
    (s : State) : LinesAndEntries s (settleFetch x good current s) ∧ CurvesLost s (settleFetch x good current s)
      ∧ SlotAndFetch s.link.lines[x.head] (settleFetch x good current s).link.lines[x.head] := by
  cases hf : s.link.lines[x.head].fetch with
  | none =>
    rw [settleFetch_closed hf]
    exact ⟨.refl s, .refl s, .refl _⟩
  | some f =>
    rw [settleFetch_open hf (hc f)]
    split
    · exact placeCurveAgain_stands x.head s
    · exact ⟨.refl s, .refl s, .refl _⟩

/-! ### The end of a failed exchange (R69, R77) -/

/-- The exchange has ended, and the scan goes on with the next head (R77). -/
def scanOn (x : Exchange) (s : State) : State := { s with link.exchange := none, link.pointer := x.head + 1 }

/-- The steps of R77 after the report to the Head Map of a failed exchange. -/
def settledFailed (x : Exchange) (s : State) : State :=
  settleFetch x none true (modLine x.head (HeadLine.keeping x.command) s)

theorem endExchange_failed (x : Exchange) (s : State) :
    endExchange none x s = scanOn x (settledFailed x (reportToHeadMap x.head false s)) := by
  unfold settledFailed
  rw [← settleUnconfirmed_failed x s.link.lines[x.head].applyConfirmed]
  rfl

/-- The two rows by which an exchange brings no whole reply. -/
theorem exec_exchangeFails {c : Instr} (hc : c = .replyWindowExpiry ∨ c = .replyGapTimeout) (h : s.power = .running)
    (hx : s.link.exchange = some x) : exec c s = .next (endExchange none x s) := by
  have hflight : whenInFlight (endExchange none) s = endExchange none x s := by
    unfold whenInFlight
    rw [hx]
  rcases hc with rfl | rfl
  · exact congrArg Host.Outcome.next ((whenRunning_of_running _ h).trans hflight)
  · exact congrArg Host.Outcome.next ((whenRunning_of_running _ h).trans hflight)

theorem HeadLine.keeping_stands (c : HeadCommand) (l : HeadLine) : l.keeping c = { l with
    unconfirmed := (l.keeping c).unconfirmed } := by cases c <;> rfl

theorem settledFailed_stands (x : Exchange) (s : State) : LinesAndEntries s (settledFailed x s)
    ∧ SlotAndFetch (s.link.lines[x.head].keeping x.command) (settledFailed x s).link.lines[x.head] := by
  obtain ⟨h1, _, h2⟩ := settleFetch_noCurve (x := x) (good := none) (current := true) (fun _ => rfl)
    (modLine x.head (HeadLine.keeping x.command) s)
  rw [lines_modLine_same] at h2
  exact ⟨(linesAndEntries_modLine _ _ _).trans h1, h2⟩

/-- A CURVE sent in an earlier exchange is placed again into an empty slot (R89). -/
theorem settledFailed_again (hf : s.link.lines[x.head].fetch = some f) (hsent : f.stage = .sent)
    (hc : x.command ≠ .curve) (hslot : s.link.lines[x.head].slot = .empty) :
    (settledFailed x s).link.lines[x.head].slot = .curve
      ∧ (settledFailed x s).link.lines[x.head].fetch = some { f with stage := .wanted } := by
  have hline := lines_modLine_same x.head (HeadLine.keeping x.command) s
  rw [HeadLine.keeping_stands] at hline
  unfold settledFailed
  rw [settleFetch_open (f := f) (by rw [hline]; exact hf) rfl, if_pos ⟨hsent, hc⟩,
    placeCurveAgain_free (by rw [hline]; exact hslot), hline]
  exact ⟨rfl, by simp only [hf, Option.map_some]⟩

end Sys2Proof.Machine

namespace Sys2Proof.Proofs

open Sys2Proof.Machine

/-- The exchange that a turn of the scan starts (R76, R82, R85, R173). -/
theorem exchange_started {s : State} (hrun : s.power = .running) (n : Head) :
    let p := s.link.pointer + n
    s.link.exchange = none → InScan p s → (∀ m, m < n → ¬InScan (s.link.pointer + m) s) →
    ∃ t, exec .exchangeStart s = .next t
    ∧ t = { s with link := t.link, heads := t.heads }
    ∧ t.link.exchange = some ⟨p, slotCommand s.link.lines[p].slot, s.params.replyWindow⟩
    ∧ t.link.hlTxd = commandFrame p (slotCommand s.link.lines[p].slot) ∧ t.link.pointer = p
    ∧ t.link.lines = s.link.lines.set p s.link.lines[p].taken
    ∧ t.heads = s.heads.set p (s.heads[p].sent s.link.lines[p].slot) := by
  intro p hx hin hskip
  refine ⟨beginExchange p { s with link.pointer := p }, ?_, ?_⟩
  · rw [exec_exchangeStart hrun, scanTurn_first hx hin hskip]
  · rw [beginExchange_eq]
    exact ⟨rfl, rfl, rfl, rfl, rfl, rfl⟩

/-- The end of an exchange that brings no whole reply (R69, R77, R88, R89). -/
theorem exchange_failed {s : State} (hrun : s.power = .running) (x : Exchange) (c : Instr) :
    s.link.exchange = some x → s.heads[x.head].noReplies ≤ 3 → c = .replyWindowExpiry ∨ c = .replyGapTimeout →
    ∃ t, exec c s = .next t ∧ t.link.exchange = none ∧ t.link.pointer = x.head + 1
      ∧ t.capping = s.capping ∧ t.link.lines[x.head].tag = s.link.lines[x.head].tag
      ∧ t.heads[x.head].noReplies = min 3 (s.heads[x.head].noReplies + 1)
      ∧ t.heads[x.head].stats = { s.heads[x.head].stats with
          noReply := satInc max32 s.heads[x.head].stats.noReply }
      ∧ (∀ a, x.command = .apply a → t.link.lines[x.head].unconfirmed = some a)
      ∧ (∀ f, s.heads[x.head].noReplies < 2 → s.link.lines[x.head].fetch = some f → f.stage = .sent →
        x.command ≠ .curve → s.link.lines[x.head].slot = .empty →
        t.link.lines[x.head].slot = .curve
          ∧ t.link.lines[x.head].fetch = some { f with stage := .wanted })
      ∧ (2 ≤ s.heads[x.head].noReplies → s.heads[x.head].service ≠ .markedOut .link →
        t.heads[x.head].service = .markedOut .link ∧ t.alerts.latch[alertIx .headMarked] = true)
      ∧ (s.heads[x.head].noReplies < 2 → t.heads[x.head].service = s.heads[x.head].service) := by
  intro hx hcount hc
  obtain ⟨hcap, hout, hin⟩ := reportToHeadMap_leaves x.head s
  obtain ⟨hframe, hline⟩ := settledFailed_stands x (reportToHeadMap x.head false s)
  have hsat : satInc 3 s.heads[x.head].noReplies = min 3 (s.heads[x.head].noReplies + 1) := by
    unfold satInc
    split <;> omega
  have hthird : SilentNext x.head s ↔ 2 ≤ s.heads[x.head].noReplies ∧ s.heads[x.head].service ≠ .markedOut .link := by
    unfold SilentNext
    rw [hsat]
    exact and_congr_left fun _ => by omega
  have hheads : (settledFailed x (reportToHeadMap x.head false s)).heads = (reportToHeadMap x.head false s).heads := by
    rw [hframe]
  have halerts : (settledFailed x (reportToHeadMap x.head false s)).alerts
      = (reportToHeadMap x.head false s).alerts := by rw [hframe]
  have htag : (reportToHeadMap x.head false s).link.lines[x.head].tag = s.link.lines[x.head].tag := by
    by_cases h : SilentNext x.head s
    · rw [(hout h).2.2]; rfl
    · rw [(hin h).2]
  have hrecord : (reportToHeadMap x.head false s).heads[x.head] = { s.heads[x.head].missed with
      service := (reportToHeadMap x.head false s).heads[x.head].service } := by
    by_cases h : SilentNext x.head s
    · rw [(hout h).1]
    · rw [(hin h).1]
  have hbelow (h : s.heads[x.head].noReplies < 2) : ¬SilentNext x.head s := fun a => by
    have := (hthird.1 a).1
    omega
  refine ⟨_, exec_exchangeFails hc hrun hx, ?_⟩
  rw [endExchange_failed]
  unfold scanOn
  simp only [hheads, halerts]
  refine ⟨trivial, trivial, ?_, ?_, ?_, ?_, fun a ha => ?_, fun f h2 hf hsent hcurve hslot => ?_, fun h2 hs => ?_,
    fun h2 => ?_⟩
  · rw [hframe]
    exact hcap
  · rw [hline.tag, HeadLine.keeping_stands]
    exact htag
  · rw [hrecord]
    exact hsat
  · rw [hrecord]
    rfl
  · rw [hline.unconfirmed, ha]
    rfl
  · have hstands := (hin (hbelow h2)).2
    exact settledFailed_again (by rw [hstands]; exact hf) hsent hcurve (by rw [hstands]; exact hslot)
  · obtain ⟨h1, h2, _⟩ := hout (hthird.2 ⟨h2, hs⟩)
    exact ⟨by rw [h1], h2⟩
  · rw [(hin (hbelow h2)).1]
    rfl

/-- Settles O47: a turn is the search for the first head of the set and the start of its exchange, and a failed exchange
is the report to the Head Map followed by the steps for its APPLY and its curve fetch. -/
theorem exchangesStartAndFail : Obligations.ExchangesStartAndFail := by
  intro s hrun
  refine ⟨fun hx => by rw [exec_exchangeStart hrun, scanTurn_busy hx],
    fun hnone => by rw [exec_exchangeStart hrun, scanTurn_idle hnone], ?_, exchange_failed hrun⟩
  intro n p hx hin hskip
  obtain ⟨t, hexec, hframe, hexchange, htxd, hpointer, hlines, hheads⟩ := exchange_started hrun n hx hin hskip
  refine ⟨t, hexec, hframe, hexchange, htxd, hpointer, hlines, hheads.trans ?_⟩
  have hself : s.heads.set p s.heads[p] = s.heads := by simp
  cases s.link.lines[p].slot with
  | apply a => rfl
  | empty => exact hself
  | abort => exact hself
  | curve => exact hself

end Sys2Proof.Proofs
end

