-- ==== Sys2Proof/Proofs/ReportFrames.lean ====
section
/-! PROOFS. A report in range is read back from its reply frame by the exchange with the head that sent it (R77, R80,
R173). -/

-- One declaration is checked after another: side by side they take more threads than the memory limit allows.
set_option Elab.async false

namespace Sys2Proof.Machine

/-! ### The frame around the contents of a report (R173) -/

/-- The reply frame of head `p` with a kind byte and contents, up to its CRC-8. -/
def replyBody (p : Head) (kind : Byte) (c : List Byte) : List Byte :=
  BitVec.ofNat 8 p.number :: kind :: BitVec.ofNat 8 c.length :: c

theorem reportFrame_eq (p : Head) (r : Report) : reportFrame p r
    = replyBody p (reportBody r).1 (reportBody r).2 ++ [crc8 (replyBody p (reportBody r).1 (reportBody r).2)] := rfl

theorem length_replyBody (p : Head) (kind : Byte) (c : List Byte) : (replyBody p kind c).length = 3 + c.length := by
  simp only [replyBody, List.length_cons]
  omega

/-- A frame with its own length, CRC-8 and head number is read by its kind and contents. -/
theorem parseReply_replyBody (p : Head) (kind : Byte) (c : List Byte) (hc : c.length < 256) :
    parseReply p (replyBody p kind c ++ [crc8 (replyBody p kind c)]) = reportOf kind c := by
  have hnum : p.number < 256 := by
    have := p.isLt
    unfold Head.number
    omega
  have hlen : field (replyBody p kind c ++ [crc8 (replyBody p kind c)]) 2 1 = c.length := by
    simp [field, beValue, replyBody, Nat.mod_eq_of_lt hc]
  have hhead : field (replyBody p kind c ++ [crc8 (replyBody p kind c)]) 0 1 = p.number := by
    simp [field, beValue, replyBody, Nat.mod_eq_of_lt hnum]
  have htake : (replyBody p kind c ++ [crc8 (replyBody p kind c)]).take (3 + c.length) = replyBody p kind c :=
    List.take_left' (length_replyBody p kind c)
  have hcrc : (replyBody p kind c ++ [crc8 (replyBody p kind c)]).getD (3 + c.length) 0
      = crc8 (replyBody p kind c) := by
    rw [← length_replyBody p kind c]
    simp
  have hcontents : ((replyBody p kind c ++ [crc8 (replyBody p kind c)]).drop 3).take c.length = c :=
    List.take_left' rfl
  have hwhole : (replyBody p kind c ++ [crc8 (replyBody p kind c)]).length = 4 + c.length := by
    rw [List.length_append, length_replyBody, List.length_singleton]
    omega
  unfold parseReply
  simp only [hlen, hhead, htake, hcrc, hcontents, hwhole, beq_self_eq_true, Bool.and_self, if_true]
  rfl

/-! ### The contents of each report (R80, R173) -/

theorem beBytes_one (n : Nat) : beBytes 1 n = [BitVec.ofNat 8 n] := rfl

theorem beBytes_two (n : Nat) : beBytes 2 n = [BitVec.ofNat 8 (n / 256), BitVec.ofNat 8 n] := rfl

theorem beValue_two {n : Nat} (h : n < 65536) :
    beValue [BitVec.ofNat 8 (n / 256), BitVec.ofNat 8 n] = n := by
  rw [← beBytes_two, beValue_beBytes]
  exact Nat.mod_eq_of_lt h

theorem beValue_one {n : Nat} (h : n < 256) : beValue [BitVec.ofNat 8 n] = n := by
  rw [← beBytes_one, beValue_beBytes]
  exact Nat.mod_eq_of_lt h

theorem outcomeOf_code (o : CycleOutcome) : outcomeOf o.code = some o := by cases o <;> rfl

theorem flagOf_flagByte (b : Bool) : flagOf (flagByte b).toNat = some b := by cases b <;> rfl

theorem code_lt (o : CycleOutcome) : o.code < 256 := by cases o <;> decide

/-- The ten content bytes of a DONE. -/
def doneBytes (d : DoneReport) : List Byte :=
  [d.tag, BitVec.ofNat 8 d.attempt, BitVec.ofNat 8 d.outcome.code, BitVec.ofNat 8 (d.peakTorque / 256),
    BitVec.ofNat 8 d.peakTorque, BitVec.ofNat 8 (d.seatAngle / 256), BitVec.ofNat 8 d.seatAngle, flagByte d.steam,
    BitVec.ofNat 8 d.seatAge, BitVec.ofNat 8 d.curveLength]

theorem reportBody_busy (t : Byte) (a : Nat) : reportBody (.busy t a) = (0x02, [t, BitVec.ofNat 8 a]) := rfl

theorem reportBody_curve (t : Byte) (xs : List Sample) :
    reportBody (.curve t xs) = (0x04, t :: BitVec.ofNat 8 xs.length :: xs.flatMap sampleBytes) := rfl

theorem reportBody_done (d : DoneReport) : reportBody (.done d) = (0x03, doneBytes d) := rfl

theorem doneOf_doneBytes {d : DoneReport} (h : (Report.done d).inRange = true) :
    doneOf (doneBytes d) = some (.done d) := by
  simp only [Report.inRange, Bool.and_eq_true, decide_eq_true_eq] at h
  obtain ⟨⟨⟨⟨⟨hlow, hhigh⟩, htorque⟩, hangle⟩, hage⟩, hcurve⟩ := h
  have hattempt : field (doneBytes d) 1 1 = d.attempt := beValue_one (by omega)
  have houtcome : field (doneBytes d) 2 1 = d.outcome.code := beValue_one (code_lt _)
  have hpeak : field (doneBytes d) 3 2 = d.peakTorque := beValue_two htorque
  have hseat : field (doneBytes d) 5 2 = d.seatAngle := beValue_two hangle
  have hsteam : field (doneBytes d) 7 1 = (flagByte d.steam).toNat := field_byte _
  have hseatAge : field (doneBytes d) 8 1 = d.seatAge := beValue_one (by omega)
  have hlength : field (doneBytes d) 9 1 = d.curveLength := beValue_one (by omega)
  have htag : (doneBytes d).getD 0 0 = d.tag := rfl
  unfold doneOf
  simp only [hattempt, houtcome, hpeak, hseat, hsteam, hseatAge, hlength, htag, outcomeOf_code, flagOf_flagByte]
  rw [if_pos (by simp [hlow, hhigh, hcurve])]

theorem sampleBytes_length (x : Sample) : (sampleBytes x).length = 4 := rfl

theorem flatMap_sampleBytes_length (xs : List Sample) : (xs.flatMap sampleBytes).length = 4 * xs.length := by
  induction xs with
  | nil => rfl
  | cons x xs ih =>
    rw [List.flatMap_cons, List.length_append, sampleBytes_length, ih, List.length_cons]
    omega

/-- A 16-bit word is its high byte before its low byte. -/
theorem byte_append_byte (v : BitVec 16) : BitVec.ofNat 8 (v.toNat / 256) ++ BitVec.ofNat 8 v.toNat = v := by
  apply BitVec.eq_of_toNat_eq
  have := v.isLt
  rw [BitVec.toNat_append, BitVec.toNat_ofNat, BitVec.toNat_ofNat,
    ← Nat.shiftLeft_add_eq_or_of_lt (Nat.mod_lt _ (by decide)), Nat.shiftLeft_eq]
  omega

theorem samplesOf_sampleBytes (xs : List Sample) : samplesOf (xs.flatMap sampleBytes) = xs := by
  induction xs with
  | nil => rfl
  | cons x xs ih =>
    change (⟨_, _⟩ : Sample) :: samplesOf (xs.flatMap sampleBytes) = _
    rw [ih, byte_append_byte, byte_append_byte]

theorem reportOf_reportBody {r : Report} (h : r.inRange = true) :
    reportOf (reportBody r).1 (reportBody r).2 = some r := by
  cases r with
  | idle => rfl
  | busy t a =>
    simp only [Report.inRange, Bool.and_eq_true, decide_eq_true_eq] at h
    have hattempt : field [t, BitVec.ofNat 8 a] 1 1 = a := beValue_one (by omega)
    rw [reportBody_busy]
    change (if _ then some (Report.busy t (field [t, BitVec.ofNat 8 a] 1 1)) else none) = _
    rw [hattempt, if_pos (by simp [h])]
  | done d =>
    rw [reportBody_done]
    exact doneOf_doneBytes h
  | curve t xs =>
    simp only [Report.inRange, Bool.and_eq_true, decide_eq_true_eq] at h
    have hcount : field (t :: BitVec.ofNat 8 xs.length :: xs.flatMap sampleBytes) 1 1 = xs.length :=
      beValue_one (by omega)
    have hlength : (t :: BitVec.ofNat 8 xs.length :: xs.flatMap sampleBytes).length = 2 + 4 * xs.length := by
      rw [List.length_cons, List.length_cons, flatMap_sampleBytes_length]
      omega
    rw [reportBody_curve]
    change (if _ then some (Report.curve t (samplesOf (xs.flatMap sampleBytes))) else none) = _
    rw [hcount, hlength, samplesOf_sampleBytes, if_pos (by simp [h])]

theorem reportBody_length {r : Report} (h : r.inRange = true) : (reportBody r).2.length < 256 := by
  cases r with
  | idle => decide
  | busy t a => exact (by decide : 2 < 256)
  | done d => exact (by decide : 10 < 256)
  | curve t xs =>
    simp only [Report.inRange, Bool.and_eq_true, decide_eq_true_eq] at h
    change (t :: BitVec.ofNat 8 xs.length :: xs.flatMap sampleBytes).length < 256
    rw [List.length_cons, List.length_cons, flatMap_sampleBytes_length]
    omega

/-- A report in range is read back from its frame. -/
theorem parseReply_reportFrame (p : Head) {r : Report} (h : r.inRange = true) :
    parseReply p (reportFrame p r) = some r := by
  rw [reportFrame_eq, parseReply_replyBody p _ _ (reportBody_length h), reportOf_reportBody h]

end Sys2Proof.Machine
end

