-- ==== Sys2Proof/Proofs/GoodReplies.lean ====
section
/-! PROOFS. The exchanges that bring a report: its classification, what Capping Control takes from it, and the steps of
R77 after it (R69, R72, R77, R87 to R89, R94 to R99, R106). -/

-- One declaration is checked after another: side by side they take more threads than the memory limit allows.
set_option Elab.async false

namespace Sys2Proof.Machine

variable {s t u : State} {p : Head} {x : Exchange} {r : Report} {d : DoneReport} {e : Entry} {jar : Word32}
  {l : HeadLine} {a : ApplyCmd} {b : Bool}

/-! ### Classification (R87) -/

theorem sentApply_iff (c : HeadCommand) : sentApply c = true ↔ ∃ a, c = .apply a := by
  cases c <;> simp [sentApply]

/-- The report is stale, as R87 words it. -/
def Stale (x : Exchange) (l : HeadLine) (r : Report) : Prop :=
  (reportTag r).isSome = true
    ∧ (reportTag r ≠ some l.tag ∨ (∃ a, x.command = .apply a) ∨ l.applyConfirmed = false)

theorem isStale_iff (x : Exchange) (l : HeadLine) (r : Report) : isStale x.command l r = true ↔ Stale x l r := by
  unfold isStale Stale
  rw [← sentApply_iff]
  cases reportTag r <;> simp [or_assoc]

theorem isStale_current (h : ¬Stale x l r) : isStale x.command l r = false := by
  rw [← Bool.not_eq_true, isStale_iff]
  exact h

/-- A current report with a tag carries that of its head, and its exchange sent no APPLY (R87). -/
theorem current_tagged {tag : Byte} (ht : reportTag r = some tag) (h : ¬Stale x l r) :
    tag = l.tag ∧ sentApply x.command = false ∧ l.applyConfirmed = true := by
  rw [← isStale_iff] at h
  unfold isStale at h
  rw [ht] at h
  simp only [Bool.or_eq_true, bne_iff_ne, Bool.not_eq_true', not_or, not_not, Bool.not_eq_true,
    Bool.not_eq_false] at h
  exact ⟨h.1.1, h.1.2, h.2⟩

/-! ### Statistics (R72) -/

theorem modStats_head (p : Head) (g : HeadStats → HeadStats) (s : State) :
    (modStats p g s).heads[p] = { s.heads[p] with stats := g s.heads[p].stats } :=
  heads_modHead_same (fun h => { h with stats := g h.stats }) s

/-- One more stale report of the head. -/
def staleCounted (n : HeadStats) : HeadStats := { n with stale := satInc max32 n.stale }

theorem countStale_eq (p : Head) (s : State) : countStale p s = modStats p staleCounted s := rfl

theorem countOutcome_eq (o : CycleOutcome) (n : HeadStats) : countOutcome o n = { n with
    seated := if o = .seated then satInc max32 n.seated else n.seated
    crossThread := if o = .crossThread then satInc max32 n.crossThread else n.crossThread
    noCap := if o = .noCap then satInc max32 n.noCap else n.noCap
    overAngle := if o = .overAngle then satInc max32 n.overAngle else n.overAngle
    aborted := if o = .aborted then satInc max32 n.aborted else n.aborted } := by
  cases o <;> rfl

/-! ### The curve of a final result (R99) -/

theorem placeCurve_empty (h : s.link.lines[p].slot = .empty) : placeCurve p jar s
    = modLine p (fun l => { l with slot := .curve, fetch := some ⟨jar, l.tag, .wanted⟩ }) s := by
  unfold placeCurve
  rw [h]

/-- A slot that holds APPLY or ABORT refuses the CURVE (R84, R90). -/
theorem placeCurve_refused (h : s.link.lines[p].slot = .abort ∨ ∃ a, s.link.lines[p].slot = .apply a) :
    placeCurve p jar s = displaceFetch p (addFlag jar .traceLost s) := by
  unfold placeCurve
  rcases h with h | ⟨a, h⟩
  · rw [h]
  · rw [h]

theorem linesAndEntries_addFlag (jar : Word32) (k : JarFlag) (s : State) : LinesAndEntries s (addFlag jar k s) :=
  linesAndEntries_modEntry _ _ _

theorem mem_addFlag_same (k : JarFlag) (he : e ∈ s.track.entries) :
    { e with flags := e.flags.add k } ∈ (addFlag e.jar k s).track.entries :=
  mem_modEntry_same (F := fun f => { f with flags := f.flags.add k }) he

theorem curvesLost_addLost (jar : Word32) (s : State) : CurvesLost s (addFlag jar .traceLost s) := fun e he => by
  refine ⟨_, mem_modEntry he, ?_⟩
  split
  · exact { flags := fun k h => has_add_other h.symm, grown := fun _ h => has_add_grown h }
  · exact {}

theorem placeCurve_stands (p : Head) (jar : Word32) (s : State) : LinesAndEntries s (placeCurve p jar s)
    ∧ CurvesLost s (placeCurve p jar s) ∧ SlotAndFetch s.link.lines[p] (placeCurve p jar s).link.lines[p] := by
  have hrefused (h : s.link.lines[p].slot = .abort ∨ ∃ a, s.link.lines[p].slot = .apply a) :
      LinesAndEntries s (placeCurve p jar s) ∧ CurvesLost s (placeCurve p jar s)
        ∧ SlotAndFetch s.link.lines[p] (placeCurve p jar s).link.lines[p] := by
    rw [placeCurve_refused h]
    refine ⟨(linesAndEntries_addFlag _ _ _).trans (linesAndEntries_displaceFetch _ _),
      (curvesLost_addLost _ _).trans (curvesLost_displaceFetch _ _), ?_⟩
    rw [lines_displaceFetch_same]
    rfl
  cases hslot : s.link.lines[p].slot with
  | empty =>
    rw [placeCurve_empty hslot]
    refine ⟨linesAndEntries_modLine _ _ _, .refl s, ?_⟩
    rw [lines_modLine_same]
    rfl
  | curve =>
    have hsame : placeCurve p jar s = s := by unfold placeCurve; rw [hslot]
    rw [hsame]
    exact ⟨.refl s, .refl s, .refl _⟩
  | abort => exact hrefused (.inl hslot)
  | apply a => exact hrefused (.inr ⟨a, hslot⟩)

theorem askCurve_off {n : Nat} (h : s.traces.modeAll = false) : askCurve p jar n s = addFlag jar .traceOff s := by
  simp [askCurve, h]

theorem askCurve_none (h : s.traces.modeAll = true) : askCurve p jar 0 s = s := by simp [askCurve, h]

theorem askCurve_placed {n : Nat} (h : s.traces.modeAll = true) (hn : 1 ≤ n) :
    askCurve p jar n s = placeCurve p jar s := by simp [askCurve, h, hn]

/-- The request for a curve touches slot and fetch of its line, and the flags of the jar. -/
theorem askCurve_stands (p : Head) (jar : Word32) (n : Nat) (s : State) : LinesAndEntries s (askCurve p jar n s)
    ∧ SlotAndFetch s.link.lines[p] (askCurve p jar n s).link.lines[p] := by
  cases hmode : s.traces.modeAll with
  | false =>
    rw [askCurve_off hmode]
    exact ⟨linesAndEntries_addFlag _ _ _, .refl _⟩
  | true =>
    cases n with
    | zero =>
      rw [askCurve_none hmode]
      exact ⟨.refl s, .refl _⟩
    | succ n =>
      rw [askCurve_placed hmode (Nat.succ_pos n)]
      exact ⟨(placeCurve_stands p jar s).1, (placeCurve_stands p jar s).2.2⟩

/-- Slot and fetch after the request for a curve (R89, R90, R99). -/
theorem askCurve_line (p : Head) (jar : Word32) (n : Nat) (s : State) :
    (s.traces.modeAll = true → 1 ≤ n → s.link.lines[p].slot = .empty → (askCurve p jar n s).link.lines[p]
        = { s.link.lines[p] with slot := .curve, fetch := some ⟨jar, s.link.lines[p].tag, .wanted⟩ })
      ∧ (s.traces.modeAll = true → 1 ≤ n → (s.link.lines[p].slot = .abort ∨ ∃ a, s.link.lines[p].slot = .apply a) →
        (askCurve p jar n s).link.lines[p] = { s.link.lines[p] with fetch := none })
      ∧ (s.traces.modeAll = false ∨ n = 0 → (askCurve p jar n s).link.lines[p] = s.link.lines[p]) := by
  refine ⟨fun hmode hn hslot => ?_, fun hmode hn hslot => ?_, fun h => ?_⟩
  · rw [askCurve_placed hmode hn, placeCurve_empty hslot, lines_modLine_same]
  · rw [askCurve_placed hmode hn, placeCurve_refused hslot, lines_displaceFetch_same]
    rfl
  · cases hmode : s.traces.modeAll with
    | false => rw [askCurve_off hmode]; rfl
    | true =>
      have hzero : n = 0 := h.resolve_left (by simp [hmode])
      rw [hzero, askCurve_none hmode]

/-- The jar of a final result after the request for its curve: at most the flags of R90 and R99 have joined. -/
theorem askCurve_entry {n : Nat} (he : e ∈ s.track.entries) : ∃ f ∈ (askCurve p e.jar n s).track.entries,
    f = { e with flags := f.flags }
      ∧ (s.traces.modeAll = false → f.flags.has .traceOff = true)
      ∧ (s.traces.modeAll = true → 1 ≤ n → (s.link.lines[p].slot = .abort ∨ ∃ a, s.link.lines[p].slot = .apply a) →
        f.flags.has .traceLost = true) := by
  cases hmode : s.traces.modeAll with
  | false =>
    rw [askCurve_off hmode]
    exact ⟨_, mem_addFlag_same _ he, rfl, fun _ => has_add_same _ _, fun h => Bool.noConfusion h⟩
  | true =>
    cases n with
    | zero =>
      rw [askCurve_none hmode]
      exact ⟨e, he, rfl, fun h => Bool.noConfusion h, fun _ h => absurd h (by decide)⟩
    | succ n =>
      rw [askCurve_placed hmode (Nat.succ_pos n)]
      by_cases hslot : s.link.lines[p].slot = .abort ∨ ∃ a, s.link.lines[p].slot = .apply a
      · rw [placeCurve_refused hslot]
        obtain ⟨f, hf, hef⟩ := curvesLost_displaceFetch p _ _ (mem_addFlag_same .traceLost he)
        exact ⟨f, hf, hef.core, fun h => Bool.noConfusion h, fun _ _ _ => hef.grown _ (has_add_same _ _)⟩
      · obtain ⟨f, hf, hef⟩ := (placeCurve_stands p e.jar s).2.1 e he
        exact ⟨f, hf, hef.core, fun h => Bool.noConfusion h, fun _ _ h => absurd h hslot⟩

/-! ### A DONE taken for the bound jar (R95 to R98) -/

theorem entryOf_mem (h : entryOf jar s = some e) : e ∈ s.track.entries := List.mem_of_find?_eq_some h

theorem entryOf_jar (h : entryOf jar s = some e) : e.jar = jar := by
  have := List.find?_some h
  simpa using this

theorem entryOf_modEntry {F : Entry → Entry} (hF : ∀ e, (F e).jar = e.jar) (s : State) :
    entryOf jar (modEntry jar F s) = (entryOf jar s).map F := by
  unfold entryOf
  rw [modEntry_track]
  simp only
  induction s.track.entries with
  | nil => rfl
  | cons e es ih =>
    rw [List.map_cons]
    by_cases hj : (e.jar == jar) = true
    · rw [if_pos hj, List.find?_cons_of_pos (p := fun e : Entry => e.jar == jar) (by rw [hF]; exact hj),
        List.find?_cons_of_pos (p := fun e : Entry => e.jar == jar) hj]
      rfl
    · rw [if_neg hj, List.find?_cons_of_neg (p := fun e : Entry => e.jar == jar) hj,
        List.find?_cons_of_neg (p := fun e : Entry => e.jar == jar) hj, ih]

/-- The outcome is counted, and the fields of R96 are written. -/
def cycleWritten (p : Head) (jar : Word32) (d : DoneReport) (s : State) : State :=
  modEntry jar (writeCycle d) (modStats p (countOutcome d.outcome) s)

theorem entryOf_cycleWritten (h : entryOf jar s = some e) :
    entryOf jar (cycleWritten p jar d s) = some (writeCycle d e) := by
  unfold cycleWritten
  rw [entryOf_modEntry (F := writeCycle d) fun _ => rfl]
  exact congrArg (Option.map (writeCycle d)) h

/-- The conditions of R97, of the entry as the DONE finds it. -/
def Reapply (d : DoneReport) (e : Entry) (s : State) : Prop :=
  d.outcome = .crossThread ∧ e.capClass = none ∧ e.attempts < (recipeOf e.bank s).attemptsLimit
    ∧ e.position < s.track.geometry.e

theorem reapplies_iff (p : Head) (jar : Word32) (d : DoneReport) (e : Entry) (s : State) :
    reapplies d (writeCycle d e) (cycleWritten p jar d s) = true ↔ Reapply d e s := by
  have hrecipe : recipeOf e.bank (cycleWritten p jar d s) = recipeOf e.bank s := by
    unfold recipeOf
    rfl
  unfold reapplies Reapply
  simp only [Bool.and_eq_true, beq_iff_eq, Option.isNone_iff_eq_none, decide_eq_true_eq, and_assoc]
  change _ ∧ _ ∧ e.attempts < (recipeOf e.bank (cycleWritten p jar d s)).attemptsLimit ∧ _ ↔ _
  rw [hrecipe]
  rfl

theorem takeDone_reapplied (h : entryOf jar s = some e) (ha : Reapply d e s) : takeDone p jar d s
    = applyForJar (writeCycle d e) (addFlag jar .retried (cycleWritten p jar d s)) := by
  change (match entryOf jar (cycleWritten p jar d s) with | some e => _ | none => _) = _
  rw [entryOf_cycleWritten h]
  exact if_pos ((reapplies_iff p jar d e s).2 ha)

theorem takeDone_final (h : entryOf jar s = some e) (ha : ¬Reapply d e s) : takeDone p jar d s
    = finalResult p jar d (cycleWritten p jar d s) := by
  change (match entryOf jar (cycleWritten p jar d s) with | some e => _ | none => _) = _
  rw [entryOf_cycleWritten h]
  exact if_neg fun a => ha ((reapplies_iff p jar d e s).1 a)

/-- The final result before its curve is asked for: the stage, and with SEATED the seal time (R98). -/
def resultTaken (p : Head) (jar : Word32) (d : DoneReport) (s : State) : State :=
  let t := setBinding p { s.capping[p] with stage := .result } s
  if d.outcome = .seated then
    modEntry jar (fun e => { e with sealTime := some (s.timeBase - BitVec.ofNat 32 (10 * d.seatAge)) }) t
  else t

theorem finalResult_eq (p : Head) (jar : Word32) (d : DoneReport) (s : State) :
    finalResult p jar d s = askCurve p jar d.curveLength (resultTaken p jar d s) := by
  unfold finalResult resultTaken
  simp only [beq_iff_eq]

theorem resultTaken_frame (p : Head) (jar : Word32) (d : DoneReport) (s : State) : resultTaken p jar d s = { s with
    capping := s.capping.set p { s.capping[p] with stage := .result }
    track.entries := (resultTaken p jar d s).track.entries } := by
  unfold resultTaken
  simp only
  split <;> rfl

/-- The entry of a jar as its final result leaves it (R96, R98). -/
def finishedBy (d : DoneReport) (now : Word32) (e : Entry) : Entry :=
  { writeCycle d e with
    sealTime := (if d.outcome = .seated then some (now - BitVec.ofNat 32 (10 * d.seatAge)) else e.sealTime) }

theorem mem_resultTaken (he : e ∈ s.track.entries) :
    finishedBy d s.timeBase e ∈ (resultTaken p e.jar d (cycleWritten p e.jar d s)).track.entries := by
  have hwritten : writeCycle d e ∈ (cycleWritten p e.jar d s).track.entries :=
    mem_modEntry_same (s := modStats p (countOutcome d.outcome) s) he
  unfold resultTaken finishedBy
  simp only
  split
  · exact mem_modEntry_same (e := writeCycle d e)
      (s := setBinding p { (cycleWritten p e.jar d s).capping[p] with stage := .result } (cycleWritten p e.jar d s))
      (F := fun f => { f with sealTime := some (s.timeBase - BitVec.ofNat 32 (10 * d.seatAge)) }) hwritten
  · exact hwritten

/-- A refused APPLY raises the attempts of its jar and makes it HEAD_FAULT, and no more than its curve is lost. -/
theorem applyForJar_refused_entry (h : s.link.lines[e.pocket].slot = .abort) (he : e ∈ s.track.entries) :
    ∃ f ∈ (applyForJar e s).track.entries,
      MayLose { e with attempts := e.attempts + 1, capClass := some .headFault } f := by
  unfold applyForJar slotHoldsAbort
  simp only
  rw [if_pos (by simpa using h)]
  have hm := mem_modEntry_same (F := fun f => { f with attempts := f.attempts + 1 }) he
  obtain ⟨f, hf, hef⟩ := curvesLost_placeApply (p := e.pocket) (e.attempts + 1) (recipeOf e.bank s).torqueSet
    (recipeOf e.bank s).angleMax (recipeOf e.bank s).steamDwell _ _ hm
  have hjar : f.jar = e.jar := congrArg Label.jar hef.label
  refine ⟨_, mem_modEntry hf, ?_⟩
  rw [if_pos (by simp [hjar])]
  exact { core := by rw [hef.core], flags := hef.flags, grown := hef.grown }

theorem lines_placeApply_other {q : Head} (h : q ≠ p) (n a b c : Nat) (s : State) :
    (placeApply q n a b c s).link.lines[p] = s.link.lines[p] := by
  have hraised : (displaceFetch q (modLine q (fun l => { l with tag := s.link.lines[q].tag + 1 }) s)).link.lines[p]
      = s.link.lines[p] := by rw [lines_displaceFetch_other h, lines_modLine_other _ h]
  unfold placeApply
  simp only
  split
  · exact hraised
  · rw [lines_modLine_other _ h]
    exact hraised

theorem lines_applyForJar_other (h : e.pocket ≠ p) (s : State) :
    (applyForJar e s).link.lines[p] = s.link.lines[p] := by
  have hplaced := lines_placeApply_other h (e.attempts + 1) (recipeOf e.bank s).torqueSet (recipeOf e.bank s).angleMax
    (recipeOf e.bank s).steamDwell (modEntry e.jar (fun f => { f with attempts := f.attempts + 1 }) s)
  unfold applyForJar
  simp only
  split
  · exact hplaced
  · exact hplaced

/-! ### What a report changes of its head -/

/-- Of the record of the head only its statistics have changed, and of its line neither the unconfirmed APPLY nor the
APPLY-confirmed record. -/
structure ReportStands (p : Head) (s t : State) : Prop where
  record : t.heads[p] = { s.heads[p] with stats := t.heads[p].stats } := by exact rfl
  unconfirmed : t.link.lines[p].unconfirmed = s.link.lines[p].unconfirmed := by exact rfl
  applyConfirmed : t.link.lines[p].applyConfirmed = s.link.lines[p].applyConfirmed := by exact rfl

theorem ReportStands.trans (h : ReportStands p s t) (g : ReportStands p t u) : ReportStands p s u where
  record := by rw [g.record, h.record]
  unconfirmed := g.unconfirmed.trans h.unconfirmed
  applyConfirmed := g.applyConfirmed.trans h.applyConfirmed

theorem reportStands_modStats (p : Head) (g : HeadStats → HeadStats) (s : State) : ReportStands p s (modStats p g s) where
  record := by rw [modStats_head]

/-- The APPLY of a jar, at whatever head it rides, leaves unconfirmed APPLYs alone. -/
theorem reportStands_applyForJar (p : Head) (e : Entry) (s : State) : ReportStands p s (applyForJar e s) := by
  have hrecord : (applyForJar e s).heads[p] = s.heads[p] := by rw [(applyForJar_stands e s).1]
  have hline : SlotAndFetch { s.link.lines[p] with tag := (applyForJar e s).link.lines[p].tag }
      (applyForJar e s).link.lines[p] := by
    by_cases hp : e.pocket = p
    · subst hp
      by_cases hslot : s.link.lines[e.pocket].slot = .abort
      · rw [(applyForJar_refused hslot).2.1]
        rfl
      · rw [(applyForJar_free hslot).2.1]
        rfl
    · have hother : (applyForJar e s).link.lines[p] = s.link.lines[p] := lines_applyForJar_other hp s
      rw [hother]
      rfl
  exact { record := by rw [hrecord], unconfirmed := hline.unconfirmed, applyConfirmed := hline.applyConfirmed }

theorem reportStands_finalResult (p : Head) (jar : Word32) (d : DoneReport) (s : State) :
    ReportStands p s (finalResult p jar d s) := by
  obtain ⟨hframe, hline⟩ := askCurve_stands p jar d.curveLength (resultTaken p jar d s)
  have hlink : (resultTaken p jar d s).link = s.link := by rw [resultTaken_frame]
  have hheads : (finalResult p jar d s).heads = s.heads := by
    rw [finalResult_eq, hframe, resultTaken_frame]
  rw [finalResult_eq] at hheads ⊢
  rw [hlink] at hline
  exact { record := by rw [hheads], unconfirmed := hline.unconfirmed, applyConfirmed := hline.applyConfirmed }

theorem reportStands_takeDone (p : Head) (jar : Word32) (d : DoneReport) (s : State) :
    ReportStands p s (takeDone p jar d s) := by
  have hcounted := reportStands_modStats p (countOutcome d.outcome) s
  have hwritten : ReportStands p s (cycleWritten p jar d s) :=
    ⟨hcounted.record, hcounted.unconfirmed, hcounted.applyConfirmed⟩
  have hretried : ReportStands p (cycleWritten p jar d s) (addFlag jar .retried (cycleWritten p jar d s)) := {}
  change ReportStands p s (match entryOf jar (cycleWritten p jar d s) with | some e => _ | none => _)
  split
  · split
    · exact hwritten.trans (hretried.trans (reportStands_applyForJar p _ _))
    · exact hwritten.trans (reportStands_finalResult p jar d _)
  · exact hwritten.trans (reportStands_finalResult p jar d _)

/-! ### Reports (R95, R106) -/

theorem takeReport_done (hs : s.capping[p].stage = .applied) (hb : s.capping[p].bound = some jar) (d : DoneReport) :
    takeReport p (.done d) s = takeDone p jar d s := by
  unfold takeReport
  simp only [hs, hb]

theorem takeReport_busy (hs : s.capping[p].stage = .none) (tag : Byte) (n : Nat) : takeReport p (.busy tag n) s
    = if s.capping[p].lateWatch = some tag then countStale p s else s := by
  unfold takeReport lateReport
  simp only [hs, beq_iff_eq]
  rfl

theorem takeReport_lateDone (hs : s.capping[p].stage = .none) (d : DoneReport) : takeReport p (.done d) s
    = if s.capping[p].lateWatch = some d.tag
      then setBinding p { s.capping[p] with lateWatch := none } (countStale p s) else s := by
  unfold takeReport lateReport
  simp only [hs, beq_iff_eq]
  rfl

theorem takeReport_idle (p : Head) (s : State) : takeReport p .idle s = s := by
  unfold takeReport
  simp only
  cases s.capping[p].stage <;> rfl

theorem takeReport_curve (p : Head) (tag : Byte) (xs : List Sample) (s : State) :
    takeReport p (.curve tag xs) s = s := by
  unfold takeReport
  simp only
  cases s.capping[p].stage <;> rfl

/-- A report that is no DONE at most counts as stale. -/
theorem takeReport_other (h : ∀ d, r ≠ .done d) : takeReport p r s = s ∨ takeReport p r s = countStale p s := by
  cases r with
  | done d => exact absurd rfl (h d)
  | idle => exact .inl (takeReport_idle p s)
  | curve tag xs => exact .inl (takeReport_curve p tag xs s)
  | busy tag n =>
    cases hs : s.capping[p].stage with
    | none =>
      rw [takeReport_busy hs]
      split
      · exact .inr rfl
      · exact .inl rfl
    | applied => exact .inl (by unfold takeReport; simp only [hs])
    | result => exact .inl (by unfold takeReport; simp only [hs])

end Sys2Proof.Machine
end

