-- ==== Sys2Proof/Proofs/GoodExchanges.lean ====
section
/-! PROOFS. The end of an exchange that brings a report: the steps of R77 one after another, and what stands after them
for each kind of report (R69, R72, R77, R87 to R89, R94 to R99, R106). -/

-- One declaration is checked after another: side by side they take more threads than the memory limit allows.
set_option Elab.async false

namespace Sys2Proof.Machine

variable {s t u : State} {p : Head} {x : Exchange} {r : Report} {d : DoneReport} {e : Entry} {jar : Word32}
  {l : HeadLine} {a : ApplyCmd} {b current : Bool}

/-! ### A stored curve (R89, R100, R150) -/

theorem captureStored_frame (s : State) : captureStored s = { s with
    capture := (captureStored s).capture, alerts := (captureStored s).alerts } := by
  unfold captureStored captureFreezes
  split
  · split <;> rfl
  · rfl

/-- A curve that is handed over touches the entries, the Trace Store, the Capture Unit and the Alert Latch alone. -/
theorem handCurve_frame (jar : Word32) (xs : List Sample) (s : State) : handCurve jar xs s = { s with
    track.entries := (handCurve jar xs s).track.entries, traces := (handCurve jar xs s).traces
    capture := (handCurve jar xs s).capture, alerts := (handCurve jar xs s).alerts } := by
  unfold handCurve
  split
  · rfl
  · split
    · rfl
    · unfold storeSegment
      rw [captureStored_frame]
      rfl

/-- From `s` to `t` the steps after the report of an exchange have been taken: heads and bindings stand, and of the line
of the head the tag and the APPLY-confirmed record. -/
structure Settles (p : Head) (s t : State) : Prop where
  heads : t.heads = s.heads := by exact rfl
  capping : t.capping = s.capping := by exact rfl
  tag : t.link.lines[p].tag = s.link.lines[p].tag := by exact rfl
  applyConfirmed : t.link.lines[p].applyConfirmed = s.link.lines[p].applyConfirmed := by exact rfl

theorem Settles.trans (h : Settles p s t) (g : Settles p t u) : Settles p s u where
  heads := g.heads.trans h.heads
  capping := g.capping.trans h.capping
  tag := g.tag.trans h.tag
  applyConfirmed := g.applyConfirmed.trans h.applyConfirmed

theorem settles_of_line (h : LinesAndEntries s t) (hl : SlotAndFetch s.link.lines[p] t.link.lines[p]) :
    Settles p s t where
  heads := by rw [h]
  capping := by rw [h]
  tag := hl.tag
  applyConfirmed := hl.applyConfirmed

/-- The step for the curve fetch leaves the unconfirmed APPLY as well. -/
theorem settles_settleFetch (x : Exchange) (good : Option Report) (current : Bool) (s : State) :
    Settles x.head s (settleFetch x good current s)
      ∧ (settleFetch x good current s).link.lines[x.head].unconfirmed = s.link.lines[x.head].unconfirmed := by
  cases hf : s.link.lines[x.head].fetch with
  | none =>
    rw [settleFetch_closed hf]
    exact ⟨{}, rfl⟩
  | some f =>
    cases hc : fetchedCurve current f good with
    | none =>
      rw [settleFetch_open hf hc]
      split
      · obtain ⟨hframe, _, hline⟩ := placeCurveAgain_stands x.head s
        exact ⟨settles_of_line hframe hline, hline.unconfirmed⟩
      · exact ⟨{}, rfl⟩
    | some xs =>
      have htaken : settleFetch x good current s
          = handCurve f.jar xs (modLine x.head (fun l => { l with fetch := none }) s) := by
        unfold settleFetch
        rw [hf]
        simp only [hc]
      have hline : (settleFetch x good current s).link.lines[x.head] = { s.link.lines[x.head] with fetch := none } := by
        rw [htaken, handCurve_frame]
        exact lines_modLine_same x.head (fun l => { l with fetch := none }) s
      exact ⟨{ heads := by rw [htaken, handCurve_frame]; rfl
               capping := by rw [htaken, handCurve_frame]; rfl
               tag := by rw [hline]
               applyConfirmed := by rw [hline] }, by rw [hline]⟩

/-! ### The unconfirmed APPLY and a report (R88) -/

/-- The APPLY `a` is placed again: the report does not show that the head received it, and the three further conditions
of R88 hold. -/
def PlacedAgain (x : Exchange) (r : Report) (confirmed : Bool) (l : HeadLine) (a : ApplyCmd) : Prop :=
  confirmsApply a confirmed r = false ∧ a.tag = l.tag ∧ x.command = .poll ∧ l.slot = .empty

/-- The unconfirmed APPLY is removed. -/
def unconfirm (p : Head) (s : State) : State := modLine p (fun l => { l with unconfirmed := none }) s

@[simp] theorem unconfirm_line (p : Head) (s : State) :
    (unconfirm p s).link.lines[p] = { s.link.lines[p] with unconfirmed := none } := lines_modLine_same _ _ _

theorem settleUnconfirmed_again (hu : s.link.lines[x.head].unconfirmed = some a)
    (ha : PlacedAgain x r b s.link.lines[x.head] a) : settleUnconfirmed x (some r) b s
      = modLine x.head (fun l => { l with slot := .apply a }) (displaceFetch x.head (unconfirm x.head s)) := by
  obtain ⟨hmissed, htag, hpoll, hslot⟩ := ha
  unfold settleUnconfirmed
  simp only [hu]
  exact if_pos (by rw [hmissed, htag, hpoll, hslot]; simp)

theorem settleUnconfirmed_dropped
    (h : ∀ a, s.link.lines[x.head].unconfirmed = some a → ¬PlacedAgain x r b s.link.lines[x.head] a) :
    settleUnconfirmed x (some r) b s = unconfirm x.head s := by
  unfold settleUnconfirmed
  cases hu : s.link.lines[x.head].unconfirmed with
  | none =>
    simp only [hu]
    exact (modLine_self (g := fun l => { l with unconfirmed := none }) (by simp only [← hu])).symm
  | some a =>
    simp only [hu]
    refine if_neg fun hagain => h a hu ?_
    simp only [Bool.and_eq_true, Bool.not_eq_true', beq_iff_eq, and_assoc] at hagain
    exact hagain

/-- The step for the unconfirmed APPLY: it is removed in every case. -/
theorem settleUnconfirmed_stands (x : Exchange) (r : Report) (b : Bool) (s : State) :
    LinesAndEntries s (settleUnconfirmed x (some r) b s)
      ∧ SlotAndFetch { s.link.lines[x.head] with unconfirmed := none }
          (settleUnconfirmed x (some r) b s).link.lines[x.head]
      ∧ (s.link.lines[x.head].fetch = none → (settleUnconfirmed x (some r) b s).track = s.track
        ∧ (settleUnconfirmed x (some r) b s).link.lines[x.head].fetch = none) := by
  by_cases h : ∃ a, s.link.lines[x.head].unconfirmed = some a ∧ PlacedAgain x r b s.link.lines[x.head] a
  · obtain ⟨a, hu, ha⟩ := h
    have hclosed (hf : s.link.lines[x.head].fetch = none) :
        displaceFetch x.head (unconfirm x.head s) = unconfirm x.head s := by
      unfold displaceFetch
      rw [unconfirm_line]
      simp only [hf]
    rw [settleUnconfirmed_again hu ha, lines_modLine_same, lines_displaceFetch_same, unconfirm_line]
    exact ⟨((linesAndEntries_modLine _ _ _).trans (linesAndEntries_displaceFetch _ _)).trans
      (linesAndEntries_modLine _ _ _), rfl, fun hf => ⟨by rw [hclosed hf]; rfl, rfl⟩⟩
  · rw [settleUnconfirmed_dropped fun a hu ha => h ⟨a, hu, ha⟩, unconfirm_line]
    exact ⟨linesAndEntries_modLine _ _ _, rfl, fun hf => ⟨rfl, hf⟩⟩

/-! ### Both steps after a report (R77) -/

/-- The steps of R77 for the unconfirmed APPLY and for the curve fetch. -/
def settledGood (x : Exchange) (r : Report) (b current : Bool) (s : State) : State :=
  settleFetch x (some r) current (settleUnconfirmed x (some r) b s)

theorem settles_settledGood (x : Exchange) (r : Report) (b current : Bool) (s : State) :
    Settles x.head s (settledGood x r b current s)
      ∧ (settledGood x r b current s).link.lines[x.head].unconfirmed = none := by
  obtain ⟨hframe, hline, _⟩ := settleUnconfirmed_stands x r b s
  obtain ⟨hfetch, hkept⟩ := settles_settleFetch x (some r) current (settleUnconfirmed x (some r) b s)
  have hfirst : Settles x.head s (settleUnconfirmed x (some r) b s) := {
    heads := by rw [hframe]
    capping := by rw [hframe]
    tag := hline.tag
    applyConfirmed := hline.applyConfirmed }
  exact ⟨hfirst.trans hfetch, hkept.trans hline.unconfirmed⟩

/-- With no fetch open the steps leave the Track alone. -/
theorem settledGood_track (h : s.link.lines[x.head].fetch = none) :
    (settledGood x r b current s).track = s.track ∧ (settledGood x r b current s).link.lines[x.head].fetch = none := by
  obtain ⟨_, _, hclosed⟩ := settleUnconfirmed_stands x r b s
  unfold settledGood
  rw [settleFetch_closed (hclosed h).2]
  exact hclosed h

/-- An APPLY placed again displaces an open fetch (R88, R90). -/
theorem settledGood_again (hu : s.link.lines[x.head].unconfirmed = some a)
    (ha : PlacedAgain x r b s.link.lines[x.head] a) : (settledGood x r b current s).link.lines[x.head]
      = { s.link.lines[x.head] with unconfirmed := none, fetch := none, slot := .apply a } := by
  have hline : (settleUnconfirmed x (some r) b s).link.lines[x.head]
      = { s.link.lines[x.head] with unconfirmed := none, fetch := none, slot := .apply a } := by
    rw [settleUnconfirmed_again hu ha, lines_modLine_same, lines_displaceFetch_same, unconfirm_line]
  unfold settledGood
  rw [settleFetch_closed (by rw [hline]), hline]

/-- Without an APPLY to place again, and with no CURVE to place again, the unconfirmed APPLY is removed and no more. -/
theorem settledGood_quiet
    (hdrop : ∀ a, s.link.lines[x.head].unconfirmed = some a → ¬PlacedAgain x r b s.link.lines[x.head] a)
    (hfetch : ∀ f, s.link.lines[x.head].fetch = some f → f.stage = .wanted ∧ fetchedCurve current f (some r) = none) :
    settledGood x r b current s = unconfirm x.head s := by
  unfold settledGood
  rw [settleUnconfirmed_dropped hdrop]
  cases hf : s.link.lines[x.head].fetch with
  | none => exact settleFetch_closed (by rw [unconfirm_line]; exact hf) _ _
  | some f =>
    obtain ⟨hwanted, hcurve⟩ := hfetch f hf
    rw [settleFetch_open (f := f) (by rw [unconfirm_line]; exact hf) hcurve, if_neg]
    rw [hwanted]
    exact fun h => nomatch h.1

/-- Where no APPLY is placed again, a DONE costs the jars no more than curves. -/
theorem settledGood_curvesLost
    (hdrop : ∀ a, s.link.lines[x.head].unconfirmed = some a → ¬PlacedAgain x (.done d) b s.link.lines[x.head] a) :
    CurvesLost s (settledGood x (.done d) b current s) := by
  unfold settledGood
  rw [settleUnconfirmed_dropped hdrop]
  exact (settleFetch_noCurve (x := x) (good := some (.done d)) (current := current) (fun _ => rfl)
    (unconfirm x.head s)).2.1

/-! ### The report taken (R69, R77, R87) -/

/-- The exchange reported good to the Head Map: the no-reply count is 0 again (R69). -/
def heard (p : Head) (s : State) : State := modHead p (fun h => { h with noReplies := 0 }) s

theorem heard_head (p : Head) (s : State) : (heard p s).heads[p] = { s.heads[p] with noReplies := 0 } :=
  heads_modHead_same _ _

theorem endExchange_good (x : Exchange) (r : Report) (s : State) : endExchange (some r) x s
    = scanOn x (settledGood x r s.link.lines[x.head].applyConfirmed
        (!isStale x.command s.link.lines[x.head] r) (takeGood x r (heard x.head s))) := rfl

theorem exec_replyReceived (h : s.power = .running) (hx : s.link.exchange = some x) (frame : List Byte) :
    exec (.replyReceived frame) s = .next (endExchange (parseReply x.head frame) x s) := by
  have hflight : whenInFlight (fun x => endExchange (parseReply x.head frame) x) s
      = endExchange (parseReply x.head frame) x s := by
    unfold whenInFlight
    rw [hx]
  exact congrArg Host.Outcome.next ((whenRunning_of_running _ h).trans hflight)

/-- The report handed on, or counted stale (R87). -/
def classified (x : Exchange) (r : Report) (s : State) : State :=
  if isStale x.command s.link.lines[x.head] r then countStale x.head s else takeReport x.head r s

theorem takeGood_eq (x : Exchange) (r : Report) (s : State) : takeGood x r s = modLine x.head
    (fun l => { l with applyConfirmed := sentApply x.command || l.applyConfirmed }) (classified x r s) := by
  unfold takeGood
  cases sentApply x.command with
  | true => rfl
  | false => exact (modLine_self rfl).symm

theorem takeGood_line (x : Exchange) (r : Report) (s : State) : (takeGood x r s).link.lines[x.head]
    = { (classified x r s).link.lines[x.head] with
        applyConfirmed := sentApply x.command || (classified x r s).link.lines[x.head].applyConfirmed } := by
  rw [takeGood_eq, lines_modLine_same]

theorem classified_stale (h : Stale x s.link.lines[x.head] r) : classified x r s = countStale x.head s :=
  if_pos ((isStale_iff _ _ _).2 h)

theorem classified_current (h : ¬Stale x s.link.lines[x.head] r) : classified x r s = takeReport x.head r s :=
  if_neg (by rw [isStale_current h]; exact Bool.false_ne_true)

/-- A stale report, and one that is no DONE, changes no line and no entry. -/
theorem classified_quiet (h : Stale x s.link.lines[x.head] r ∨ ∀ d, r ≠ .done d) :
    (classified x r s).link = s.link ∧ (classified x r s).track = s.track := by
  by_cases hs : Stale x s.link.lines[x.head] r
  · rw [classified_stale hs]
    exact ⟨rfl, rfl⟩
  · rw [classified_current hs]
    rcases takeReport_other (p := x.head) (s := s) (h.resolve_left hs) with ht | ht
    · rw [ht]
      exact ⟨rfl, rfl⟩
    · rw [ht]
      exact ⟨rfl, rfl⟩

theorem reportStands_takeReport (p : Head) (r : Report) (s : State) : ReportStands p s (takeReport p r s) := by
  by_cases hr : ∀ d, r ≠ .done d
  · rcases takeReport_other (p := p) (s := s) hr with h | h
    · rw [h]
      exact {}
    · rw [h]
      exact reportStands_modStats p staleCounted s
  · obtain ⟨d, rfl⟩ : ∃ d, r = .done d := by
      by_contra h
      exact hr fun d hd => h ⟨d, hd⟩
    cases hs : s.capping[p].stage with
    | none =>
      rw [takeReport_lateDone hs]
      split
      · have h := reportStands_modStats p staleCounted s
        exact ⟨h.record, h.unconfirmed, h.applyConfirmed⟩
      · exact {}
    | applied =>
      cases hb : s.capping[p].bound with
      | none =>
        have hsame : takeReport p (.done d) s = s := by
          unfold takeReport
          simp only [hs, hb]
        rw [hsame]
        exact {}
      | some jar =>
        rw [takeReport_done hs hb]
        exact reportStands_takeDone p jar d s
    | result =>
      have hsame : takeReport p (.done d) s = s := by
        unfold takeReport
        simp only [hs]
      rw [hsame]
      exact {}

theorem reportStands_classified (x : Exchange) (r : Report) (s : State) :
    ReportStands x.head s (classified x r s) := by
  unfold classified
  split
  · exact reportStands_modStats x.head staleCounted s
  · exact reportStands_takeReport x.head r s

theorem takeGood_current (h : ¬Stale x s.link.lines[x.head] r) (hs : sentApply x.command = false) :
    takeGood x r s = takeReport x.head r s := by
  rw [takeGood_eq, classified_current h, hs]
  exact modLine_self rfl

/-- The end of a good exchange after its report. -/
theorem endExchange_settles (x : Exchange) (r : Report) (s : State) :
    Settles x.head (takeGood x r (heard x.head s)) (endExchange (some r) x s)
      ∧ (endExchange (some r) x s).link.lines[x.head].unconfirmed = none := by
  obtain ⟨h, hu⟩ := settles_settledGood x r s.link.lines[x.head].applyConfirmed
    (!isStale x.command s.link.lines[x.head] r) (takeGood x r (heard x.head s))
  rw [endExchange_good]
  exact ⟨⟨h.heads, h.capping, h.tag, h.applyConfirmed⟩, hu⟩

/-! ### A DONE that is no final result, and one that is (R96 to R98) -/

/-- An APPLY is not placed again after a DONE of its own cycle, or into a slot that is taken (R88). -/
theorem not_placedAgain_done (hc : b = true) (ht : d.tag = l.tag) : ¬PlacedAgain x (.done d) b l a := by
  rintro ⟨hmissed, htag, _⟩
  rw [hc] at hmissed
  simp [confirmsApply, ht, htag] at hmissed

theorem not_placedAgain_slot (h : l.slot ≠ .empty) : ¬PlacedAgain x r b l a := fun ha => h ha.2.2.2

/-- The part with the final result of the bound jar taken, before its curve is asked for. -/
def finished (x : Exchange) (jar : Word32) (d : DoneReport) (s : State) : State :=
  resultTaken x.head jar d (cycleWritten x.head jar d (heard x.head s))

theorem finished_frame (x : Exchange) (jar : Word32) (d : DoneReport) (s : State) : finished x jar d s = { s with
    heads := (modStats x.head (countOutcome d.outcome) (heard x.head s)).heads
    capping := s.capping.set x.head { s.capping[x.head] with stage := .result }
    track.entries := (finished x jar d s).track.entries } := by
  unfold finished
  rw [resultTaken_frame]
  rfl

@[simp] theorem finished_link (x : Exchange) (jar : Word32) (d : DoneReport) (s : State) :
    (finished x jar d s).link = s.link := by rw [finished_frame]

@[simp] theorem finished_traces (x : Exchange) (jar : Word32) (d : DoneReport) (s : State) :
    (finished x jar d s).traces = s.traces := by rw [finished_frame]

/-- A current DONE for a jar bound at stage APPLIED. -/
structure DoneFor (x : Exchange) (d : DoneReport) (jar : Word32) (e : Entry) (s : State) : Prop where
  current : ¬Stale x s.link.lines[x.head] (.done d)
  bound : s.capping[x.head].bound = some jar
  applied : s.capping[x.head].stage = .applied
  entry : entryOf jar s = some e

theorem DoneFor.tagged (h : DoneFor x d jar e s) : d.tag = s.link.lines[x.head].tag
    ∧ sentApply x.command = false ∧ s.link.lines[x.head].applyConfirmed = true :=
  current_tagged rfl h.current

theorem DoneFor.takeGood_eq (h : DoneFor x d jar e s) :
    takeGood x (.done d) (heard x.head s) = takeDone x.head jar d (heard x.head s) := by
  rw [takeGood_current (s := heard x.head s) h.current h.tagged.2.1]
  exact takeReport_done (s := heard x.head s) h.applied h.bound d

theorem DoneFor.takeGood_final (h : DoneFor x d jar e s) (ha : ¬Reapply d e s) :
    takeGood x (.done d) (heard x.head s) = askCurve x.head jar d.curveLength (finished x jar d s) := by
  rw [h.takeGood_eq, takeDone_final (s := heard x.head s) h.entry ha, finalResult_eq]
  rfl

/-- The state in which the next APPLY of a jar is placed: its cycle is written, and RETRIED is set (R97). -/
def retried (x : Exchange) (jar : Word32) (d : DoneReport) (s : State) : State :=
  addFlag jar .retried (cycleWritten x.head jar d (heard x.head s))

/-- The entry of a jar before its next APPLY. -/
def retriedEntry (d : DoneReport) (e : Entry) : Entry :=
  { writeCycle d e with flags := (writeCycle d e).flags.add .retried }

theorem mem_retried (he : e ∈ s.track.entries) : retriedEntry d e ∈ (retried x e.jar d s).track.entries := by
  have hwritten : writeCycle d e ∈ (cycleWritten x.head e.jar d (heard x.head s)).track.entries :=
    mem_modEntry_same (s := modStats x.head (countOutcome d.outcome) (heard x.head s)) he
  exact mem_addFlag_same (e := writeCycle d e) .retried hwritten

theorem DoneFor.takeGood_reapplied (h : DoneFor x d jar e s) (ha : Reapply d e s) :
    takeGood x (.done d) (heard x.head s) = applyForJar (retriedEntry d e) (retried x jar d s) := by
  rw [h.takeGood_eq, takeDone_reapplied (s := heard x.head s) h.entry ha]
  rfl

theorem DoneFor.counted (h : DoneFor x d jar e s) :
    (takeGood x (.done d) (heard x.head s)).heads[x.head].stats = countOutcome d.outcome s.heads[x.head].stats := by
  have hstats : (modStats x.head (countOutcome d.outcome) (heard x.head s)).heads[x.head].stats
      = countOutcome d.outcome s.heads[x.head].stats := by rw [modStats_head, heard_head]
  by_cases ha : Reapply d e s
  · rw [h.takeGood_reapplied ha, (applyForJar_stands _ _).1]
    exact hstats
  · rw [h.takeGood_final ha, (askCurve_stands _ _ _ _).1, finished_frame]
    exact hstats

/-! ### The end of an exchange with a final result (R98, R99) -/

/-- A final result places no APPLY again, its own cycle being the one reported. -/
theorem DoneFor.final_drops (h : DoneFor x d jar e s) (a : ApplyCmd) :
    ¬PlacedAgain x (.done d) s.link.lines[x.head].applyConfirmed
      (askCurve x.head jar d.curveLength (finished x jar d s)).link.lines[x.head] a := by
  refine not_placedAgain_done h.tagged.2.2 ?_
  rw [(askCurve_stands _ _ _ _).2.tag, finished_link]
  exact h.tagged.1

/-- Where the request for the curve leaves no fetch to place again, it says what stands in the line. -/
theorem DoneFor.final_line (h : DoneFor x d jar e s) (ha : ¬Reapply d e s)
    (hfetch : ∀ f, (askCurve x.head jar d.curveLength (finished x jar d s)).link.lines[x.head].fetch = some f →
      f.stage = .wanted) :
    (endExchange (some (.done d)) x s).link.lines[x.head]
      = { (askCurve x.head jar d.curveLength (finished x jar d s)).link.lines[x.head] with unconfirmed := none } := by
  rw [endExchange_good, h.takeGood_final ha,
    settledGood_quiet (fun a _ => h.final_drops a) (fun f hf => ⟨hfetch f hf, rfl⟩)]
  exact unconfirm_line _ _

theorem DoneFor.final_capping (h : DoneFor x d jar e s) (ha : ¬Reapply d e s) :
    (endExchange (some (.done d)) x s).capping = s.capping.set x.head { s.capping[x.head] with stage := .result } := by
  rw [(endExchange_settles x (.done d) s).1.capping, h.takeGood_final ha, (askCurve_stands _ _ _ _).1, finished_frame]

/-- The entry of the jar after its final result. -/
theorem DoneFor.final_entry (h : DoneFor x d jar e s) (ha : ¬Reapply d e s) :
    ∃ f ∈ (endExchange (some (.done d)) x s).track.entries,
      f = { finishedBy d s.timeBase e with flags := f.flags }
      ∧ (s.traces.modeAll = false → f.flags.has .traceOff = true)
      ∧ (s.traces.modeAll = true → 1 ≤ d.curveLength →
        (s.link.lines[x.head].slot = .abort ∨ ∃ a, s.link.lines[x.head].slot = .apply a) →
        f.flags.has .traceLost = true) := by
  obtain rfl := entryOf_jar h.entry
  have hmem : finishedBy d s.timeBase e ∈ (finished x e.jar d s).track.entries :=
    mem_resultTaken (s := heard x.head s) (entryOf_mem h.entry)
  obtain ⟨f, hf, hcore, hoff, hlost⟩ := askCurve_entry (p := x.head) (n := d.curveLength) hmem
  rw [finished_traces, finished_link] at hlost
  rw [finished_traces] at hoff
  have hlater := settledGood_curvesLost (x := x) (b := s.link.lines[x.head].applyConfirmed)
    (current := !isStale x.command s.link.lines[x.head] (.done d))
    (s := askCurve x.head e.jar d.curveLength (finished x e.jar d s)) (d := d) fun a _ => h.final_drops a
  obtain ⟨f', hf', hlose⟩ := hlater f hf
  rw [← h.takeGood_final ha] at hf'
  refine ⟨f', hf', ?_, fun hm => hlose.grown _ (hoff hm), fun hm hn hs => hlose.grown _ (hlost hm hn hs)⟩
  rw [hlose.core, hcore]

/-! ### The end of an exchange with a reapply (R94, R97) -/

/-- A reapply leaves an APPLY or an ABORT in the slot and no fetch, so that the steps of R77 find nothing to place. -/
theorem DoneFor.reapply_end (h : DoneFor x d jar e s) (ha : Reapply d e s)
    (hslot : (applyForJar (retriedEntry d e) (retried x jar d s)).link.lines[x.head].slot ≠ .empty)
    (hfetch : (applyForJar (retriedEntry d e) (retried x jar d s)).link.lines[x.head].fetch = none) :
    endExchange (some (.done d)) x s
      = scanOn x (unconfirm x.head (applyForJar (retriedEntry d e) (retried x jar d s))) := by
  rw [endExchange_good, h.takeGood_reapplied ha, settledGood_quiet (fun a _ => not_placedAgain_slot hslot)
    (fun f hf => by rw [hfetch] at hf; cases hf)]

/-- The binding set at a pocket is read back at the head of that number. -/
theorem bindings_set_at {q : Head} (h : q = p) (v : Vector Binding 18) (b : Binding) : (v.set q b)[p] = b := by
  subst h
  exact bindings_set _ _ _

theorem DoneFor.reapply_refused (h : DoneFor x d jar e s) (ha : Reapply d e s) (hp : e.pocket = x.head)
    (hslot : s.link.lines[x.head].slot = .abort) :
    let t := endExchange (some (.done d)) x s
    t.capping[x.head] = ⟨none, .none, none⟩ ∧ t.link.lines[x.head].tag = s.link.lines[x.head].tag + 1
      ∧ t.link.lines[x.head].slot = .abort
      ∧ ∃ f ∈ t.track.entries, f.jar = jar ∧ f.attempts = e.attempts + 1
        ∧ f.flags.has .retried = true ∧ f.capClass = some .headFault := by
  obtain rfl := entryOf_jar h.entry
  have hpocket : (retriedEntry d e).pocket = x.head := hp
  have hstop : (retried x e.jar d s).link.lines[(retriedEntry d e).pocket].slot = .abort := by
    rw [lines_at hpocket]
    exact hslot
  obtain ⟨hcapping, hline, _⟩ := applyForJar_refused hstop
  rw [lines_at hpocket, lines_at hpocket] at hline
  have hmem : retriedEntry d e ∈ (retried x e.jar d s).track.entries := mem_retried (entryOf_mem h.entry)
  obtain ⟨f, hf, hlose⟩ := applyForJar_refused_entry hstop hmem
  intro t
  have ht : t = scanOn x (unconfirm x.head (applyForJar (retriedEntry d e) (retried x e.jar d s))) :=
    h.reapply_end ha (by rw [hline]; exact fun a => Slot.noConfusion (hslot.symm.trans a)) (by rw [hline])
  have htline : t.link.lines[x.head] = { (applyForJar (retriedEntry d e) (retried x e.jar d s)).link.lines[x.head] with
      unconfirmed := none } := by
    rw [ht]
    exact unconfirm_line _ _
  refine ⟨?_, by rw [htline, hline]; rfl, by rw [htline, hline]; exact hslot, f, by rw [ht]; exact hf,
    congrArg Label.jar hlose.label, by rw [hlose.core]; rfl, hlose.grown _ (has_add_same _ _), by rw [hlose.core]⟩
  rw [ht]
  change (applyForJar (retriedEntry d e) (retried x e.jar d s)).capping[x.head] = _
  rw [hcapping]
  exact bindings_set_at hpocket _ _

theorem DoneFor.reapply_placed (h : DoneFor x d jar e s) (ha : Reapply d e s) (hp : e.pocket = x.head)
    (hslot : s.link.lines[x.head].slot ≠ .abort) :
    let t := endExchange (some (.done d)) x s
    t.capping = s.capping ∧ t.link.lines[x.head].tag = s.link.lines[x.head].tag + 1
      ∧ t.link.lines[x.head].slot = .apply ⟨s.link.lines[x.head].tag + 1, e.attempts + 1,
        (recipeOf e.bank s).torqueSet, (recipeOf e.bank s).angleMax, (recipeOf e.bank s).steamDwell⟩
      ∧ ∃ f ∈ t.track.entries, f.jar = jar ∧ f.attempts = e.attempts + 1
        ∧ f.flags.has .retried = true ∧ f.lastOutcome = some .crossThread := by
  obtain rfl := entryOf_jar h.entry
  have hpocket : (retriedEntry d e).pocket = x.head := hp
  have hfree : (retried x e.jar d s).link.lines[(retriedEntry d e).pocket].slot ≠ .abort := by
    rw [lines_at hpocket]
    exact hslot
  obtain ⟨hcapping, hline, hentry⟩ := applyForJar_free hfree
  rw [lines_at hpocket, lines_at hpocket] at hline
  have hrecipe : recipeOf (retriedEntry d e).bank (retried x e.jar d s) = recipeOf e.bank s := by
    change recipeOf e.bank (retried x e.jar d s) = _
    unfold recipeOf
    rfl
  rw [hrecipe] at hline
  obtain ⟨f, hf, hlose⟩ := hentry (mem_retried (entryOf_mem h.entry))
  intro t
  have ht : t = scanOn x (unconfirm x.head (applyForJar (retriedEntry d e) (retried x e.jar d s))) :=
    h.reapply_end ha (by rw [hline]; exact fun a => nomatch a) (by rw [hline])
  have htline : t.link.lines[x.head] = { (applyForJar (retriedEntry d e) (retried x e.jar d s)).link.lines[x.head] with
      unconfirmed := none } := by
    rw [ht]
    exact unconfirm_line _ _
  refine ⟨by rw [ht]; exact hcapping, by rw [htline, hline]; rfl, by rw [htline, hline]; rfl, f, by rw [ht]; exact hf,
    congrArg Label.jar hlose.label, by rw [hlose.core]; rfl, hlose.grown _ (has_add_same _ _), ?_⟩
  rw [hlose.core, ← ha.1]
  rfl

end Sys2Proof.Machine

namespace Sys2Proof.Proofs

open Sys2Proof.Machine

variable {x : Exchange} {s : State} {r : Report}

/-- What every good exchange leaves (R69, R77, R88). -/
theorem goodReply_always (x : Exchange) (r : Report) (s : State) :
    let t := endExchange (some r) x s
    t.heads[x.head].noReplies = 0 ∧ t.heads[x.head].service = s.heads[x.head].service
      ∧ t.heads[x.head].failures = s.heads[x.head].failures
      ∧ ((∃ a, x.command = .apply a) → t.link.lines[x.head].applyConfirmed = true) := by
  intro t
  obtain ⟨hsettles, _⟩ := endExchange_settles x r s
  have htaken : (takeGood x r (heard x.head s)).heads = (classified x r (heard x.head s)).heads := by
    rw [takeGood_eq]
    rfl
  have hrecord : t.heads[x.head] = { s.heads[x.head] with noReplies := 0, stats := t.heads[x.head].stats } := by
    have h := (reportStands_classified x r (heard x.head s)).record
    rw [heard_head, ← htaken, ← hsettles.heads] at h
    exact h
  refine ⟨by rw [hrecord], by rw [hrecord], by rw [hrecord], fun ha => ?_⟩
  rw [hsettles.applyConfirmed, takeGood_line, (sentApply_iff _).2 ha]
  rfl

/-- A stale report is counted and reaches no binding (R87). -/
theorem goodReply_stale (hs : Stale x s.link.lines[x.head] r) :
    let t := endExchange (some r) x s
    t.capping = s.capping ∧ t.link.lines[x.head].tag = s.link.lines[x.head].tag
      ∧ t.heads[x.head].stats = staleCounted s.heads[x.head].stats := by
  obtain ⟨hsettles, _⟩ := endExchange_settles x r s
  have hclassified : classified x r (heard x.head s) = countStale x.head (heard x.head s) :=
    classified_stale (s := heard x.head s) hs
  refine ⟨?_, ?_, ?_⟩
  · rw [hsettles.capping, takeGood_eq, hclassified]
    rfl
  · rw [hsettles.tag, takeGood_line, hclassified]
    rfl
  · rw [hsettles.heads, takeGood_eq, hclassified, countStale_eq]
    change (modStats x.head staleCounted (heard x.head s)).heads[x.head].stats = _
    rw [modStats_head, heard_head]

/-- A current BUSY or DONE of a head with no jar bound (R106). -/
theorem goodReply_late {d : DoneReport} (hcurrent : ¬Stale x s.link.lines[x.head] r)
    (hstage : s.capping[x.head].stage = .none) (hr : (∃ n, r = .busy s.link.lines[x.head].tag n) ∨ r = .done d) :
    let l := s.link.lines[x.head]
    let t := endExchange (some r) x s
    t.link.lines[x.head].tag = l.tag
      ∧ (s.capping[x.head].lateWatch = some l.tag → t.heads[x.head].stats = staleCounted s.heads[x.head].stats
        ∧ t.capping = (if r = .done d then s.capping.set x.head { s.capping[x.head] with lateWatch := none }
          else s.capping))
      ∧ (s.capping[x.head].lateWatch ≠ some l.tag → t.heads[x.head].stats = s.heads[x.head].stats
        ∧ t.capping = s.capping)
      ∧ (l.fetch = none → t.track = s.track) := by
  intro l t
  have htag : reportTag r = some l.tag ∧ sentApply x.command = false := by
    rcases hr with ⟨n, rfl⟩ | rfl
    · exact ⟨rfl, (current_tagged rfl hcurrent).2.1⟩
    · obtain ⟨hd, hs, _⟩ := current_tagged rfl hcurrent
      exact ⟨congrArg some hd, hs⟩
  obtain ⟨hsettles, _⟩ := endExchange_settles x r s
  have htaken : takeGood x r (heard x.head s) = takeReport x.head r (heard x.head s) :=
    takeGood_current (s := heard x.head s) hcurrent htag.2
  have hreport : takeReport x.head r (heard x.head s)
      = if s.capping[x.head].lateWatch = some l.tag then
          (if r = .done d then setBinding x.head { s.capping[x.head] with lateWatch := none }
            (countStale x.head (heard x.head s)) else countStale x.head (heard x.head s))
        else heard x.head s := by
    rcases hr with ⟨n, rfl⟩ | rfl
    · rw [takeReport_busy (s := heard x.head s) hstage, if_neg (fun h : Report.busy _ _ = .done d => nomatch h)]
      rfl
    · rw [takeReport_lateDone (s := heard x.head s) hstage, if_pos rfl, Option.some.inj htag.1]
      rfl
  have hfetch : (takeReport x.head r (heard x.head s)).link = s.link
      ∧ (takeReport x.head r (heard x.head s)).track = s.track := by
    rw [hreport]
    split
    · split
      · exact ⟨rfl, rfl⟩
      · exact ⟨rfl, rfl⟩
    · exact ⟨rfl, rfl⟩
  have hcounted : (countStale x.head (heard x.head s)).heads[x.head].stats
      = staleCounted s.heads[x.head].stats := by
    rw [countStale_eq, modStats_head, heard_head]
  refine ⟨?_, fun hwatch => ?_, fun hwatch => ?_, fun hclosed => ?_⟩
  · rw [hsettles.tag, htaken, hfetch.1]
  · rw [hsettles.heads, hsettles.capping, htaken, hreport, if_pos hwatch]
    split
    · exact ⟨hcounted, rfl⟩
    · exact ⟨hcounted, rfl⟩
  · rw [hsettles.heads, hsettles.capping, htaken, hreport, if_neg hwatch, heard_head]
    exact ⟨rfl, rfl⟩
  · have htrack := settledGood_track (x := x) (r := r) (b := l.applyConfirmed) (current := !isStale x.command l r)
      (s := takeGood x r (heard x.head s)) (by rw [htaken, hfetch.1]; exact hclosed)
    exact htrack.1.trans (by rw [htaken, hfetch.2])

/-! ### The unconfirmed APPLY and the report (R88) -/

/-- A report that is stale or no DONE changes of the line of its head the APPLY-confirmed record alone. -/
theorem takeGood_quiet (h : Stale x s.link.lines[x.head] r ∨ ∀ d, r ≠ .done d) :
    (takeGood x r (heard x.head s)).link.lines[x.head] = { s.link.lines[x.head] with
      applyConfirmed := sentApply x.command || s.link.lines[x.head].applyConfirmed } := by
  rw [takeGood_line, (classified_quiet (s := heard x.head s) h).1]
  rfl

/-- The report shows that the head received the APPLY `a`. -/
def Received (a : ApplyCmd) (confirmed : Bool) (r : Report) : Prop :=
  confirmed = true ∧ ((∃ n, r = .busy a.tag n) ∨ ∃ d : DoneReport, r = .done d ∧ d.tag = a.tag)

theorem confirmsApply_iff (a : ApplyCmd) (b : Bool) (r : Report) : confirmsApply a b r = true ↔ Received a b r := by
  unfold Received
  cases r with
  | idle => simp [confirmsApply]
  | curve tag xs => simp [confirmsApply]
  | busy tag n => simp [confirmsApply, and_comm]
  | done d => simp [confirmsApply, and_comm]

theorem goodReply_again {a : ApplyCmd} (hu : s.link.lines[x.head].unconfirmed = some a)
    (hmissed : ¬Received a s.link.lines[x.head].applyConfirmed r) (htag : a.tag = s.link.lines[x.head].tag)
    (hpoll : x.command = .poll) (hslot : s.link.lines[x.head].slot = .empty) :
    let t := endExchange (some r) x s
    t.link.lines[x.head].slot = .apply a ∧ t.link.lines[x.head].tag = s.link.lines[x.head].tag
      ∧ t.link.lines[x.head].fetch = none := by
  have hquiet : Stale x s.link.lines[x.head] r ∨ ∀ d, r ≠ .done d := by
    by_contra hboth
    obtain ⟨hcurrent, hdone⟩ := not_or.1 hboth
    obtain ⟨d, hd⟩ := not_forall_not.1 hdone
    obtain ⟨hdtag, _, hconfirmed⟩ := current_tagged (tag := d.tag) (by rw [hd]; rfl) hcurrent
    exact hmissed ⟨hconfirmed, .inr ⟨d, hd, hdtag.trans htag.symm⟩⟩
  have hline := takeGood_quiet hquiet
  have hagain : PlacedAgain x r s.link.lines[x.head].applyConfirmed
      (takeGood x r (heard x.head s)).link.lines[x.head] a := by
    rw [hline]
    exact ⟨Bool.eq_false_iff.2 fun h => hmissed ((confirmsApply_iff _ _ _).1 h), htag, hpoll, hslot⟩
  intro t
  have ht : t.link.lines[x.head] = { (takeGood x r (heard x.head s)).link.lines[x.head] with
      unconfirmed := none, fetch := none, slot := .apply a } :=
    settledGood_again (s := takeGood x r (heard x.head s)) (by rw [hline]; exact hu) hagain
  rw [ht, hline]
  exact ⟨rfl, rfl, rfl⟩

theorem goodReply_notAgain {a : ApplyCmd} (hu : s.link.lines[x.head].unconfirmed = some a)
    (h : Received a s.link.lines[x.head].applyConfirmed r ∨ ¬(a.tag = s.link.lines[x.head].tag ∧ x.command = .poll
      ∧ s.link.lines[x.head].slot = .empty))
    (hfetch : s.link.lines[x.head].fetch = none) (hold : ∀ d, r = .done d → d.tag ≠ s.link.lines[x.head].tag) :
    (endExchange (some r) x s).link.lines[x.head].slot = s.link.lines[x.head].slot := by
  have hquiet : Stale x s.link.lines[x.head] r ∨ ∀ d, r ≠ .done d := by
    by_contra hboth
    obtain ⟨hcurrent, hdone⟩ := not_or.1 hboth
    obtain ⟨d, hd⟩ := not_forall_not.1 hdone
    exact hold d hd (current_tagged (tag := d.tag) (by rw [hd]; rfl) hcurrent).1
  have hline := takeGood_quiet hquiet
  have hdrop (a' : ApplyCmd) (hu' : (takeGood x r (heard x.head s)).link.lines[x.head].unconfirmed = some a') :
      ¬PlacedAgain x r s.link.lines[x.head].applyConfirmed (takeGood x r (heard x.head s)).link.lines[x.head] a' := by
    rw [hline] at hu' ⊢
    obtain rfl : a = a' := Option.some.inj (hu.symm.trans hu')
    rintro ⟨hmissed, hconditions⟩
    rcases h with hreceived | hnot
    · rw [(confirmsApply_iff _ _ _).2 hreceived] at hmissed
      cases hmissed
    · exact hnot hconditions
  rw [endExchange_good, settledGood_quiet hdrop fun f hf => by rw [hline] at hf; rw [hfetch] at hf; cases hf]
  change (unconfirm x.head (takeGood x r (heard x.head s))).link.lines[x.head].slot = _
  rw [unconfirm_line, hline]

/-! ### The final result of a jar (R96, R98, R99) -/

section
variable {d : DoneReport} {jar : Word32} {e : Entry}

theorem goodReply_final (h : DoneFor x d jar e s) (ha : ¬Reapply d e s) :
    let l := s.link.lines[x.head]
    let t := endExchange (some (.done d)) x s
    t.capping[x.head] = { s.capping[x.head] with stage := .result }
      ∧ (s.traces.modeAll = true → 1 ≤ d.curveLength → l.slot = .empty →
        t.link.lines[x.head].slot = .curve ∧ t.link.lines[x.head].fetch = some ⟨jar, l.tag, .wanted⟩)
      ∧ (s.traces.modeAll = false ∨ d.curveLength = 0 → l.fetch = none →
        t.link.lines[x.head].slot = l.slot ∧ t.link.lines[x.head].fetch = none)
      ∧ ∃ f ∈ t.track.entries, f.jar = jar ∧ f.position = e.position
        ∧ f.lastOutcome = some d.outcome ∧ f.peakTorque = some d.peakTorque
        ∧ f.seatAngle = some d.seatAngle ∧ f.steam = d.steam ∧ f.capClass = e.capClass
        ∧ f.sealTime = (if d.outcome = .seated
            then some (s.timeBase - BitVec.ofNat 32 (10 * d.seatAge)) else e.sealTime)
        ∧ (s.traces.modeAll = false → f.flags.has .traceOff = true)
        ∧ (s.traces.modeAll = true → 1 ≤ d.curveLength →
          l.slot = .abort ∨ (∃ a, l.slot = .apply a) → f.flags.has .traceLost = true
            ∧ t.link.lines[x.head].slot = l.slot ∧ t.link.lines[x.head].fetch = none) := by
  intro l t
  obtain ⟨hplaced, hrefused, hnone⟩ := askCurve_line x.head jar d.curveLength (finished x jar d s)
  rw [finished_link, finished_traces] at hplaced hrefused hnone
  obtain ⟨f, hf, hcore, hoff, hlost⟩ := h.final_entry ha
  refine ⟨by rw [h.final_capping ha]; exact bindings_set _ _ _, fun hmode hn hslot => ?_, fun hno hclosed => ?_,
    f, hf, by rw [hcore]; exact entryOf_jar (e := e) h.entry, by rw [hcore]; rfl, by rw [hcore]; rfl, by rw [hcore]; rfl,
    by rw [hcore]; rfl, by rw [hcore]; rfl, by rw [hcore]; rfl, by rw [hcore]; rfl, hoff,
    fun hmode hn hslot => ⟨hlost hmode hn hslot, ?_⟩⟩
  · have hline := hplaced hmode hn hslot
    have ht := h.final_line ha fun f hf => by rw [hline] at hf; rw [← Option.some.inj hf]
    rw [hline] at ht
    rw [ht]
    exact ⟨rfl, rfl⟩
  · have hline := hnone hno
    have ht := h.final_line ha fun f hf => by rw [hline] at hf; rw [hclosed] at hf; cases hf
    rw [hline] at ht
    rw [ht]
    exact ⟨rfl, hclosed⟩
  · have hline := hrefused hmode hn hslot
    have ht := h.final_line ha fun f hf => by rw [hline] at hf; cases hf
    rw [hline] at ht
    rw [ht]
    exact ⟨rfl, rfl⟩

/-- The statistic of the outcome has risen by one (R72). -/
theorem goodReply_counted (h : DoneFor x d jar e s) : (endExchange (some (.done d)) x s).heads[x.head].stats
    = countOutcome d.outcome s.heads[x.head].stats := by
  rw [(endExchange_settles x (.done d) s).1.heads]
  exact h.counted

end

/-- Settles O48: the frame is read back as its report, each kind of report has its lemma above, and a frame that is no
report ends the exchange as a silence does. -/
theorem goodReplyEndsExchange : Obligations.GoodReplyEndsExchange := by
  unfold Obligations.GoodReplyEndsExchange
  intro x s hpower hx
  refine ⟨fun frame hbroken => ?_, fun r hr => ⟨endExchange (some r) x s, ?_, rfl, rfl, ?_⟩⟩
  · rw [exec_replyReceived hpower hx, hbroken]
    exact (exec_exchangeFails (.inl rfl) hpower hx).symm
  · rw [exec_replyReceived hpower hx, parseReply_reportFrame x.head hr]
  · obtain ⟨hreplies, hservice, hfailures, hconfirmed⟩ := goodReply_always x r s
    refine ⟨hreplies, hservice, hfailures, hconfirmed, fun hstale => goodReply_stale hstale,
      fun d hcurrent hstage hlate => goodReply_late hcurrent hstage hlate, (endExchange_settles x r s).2,
      fun a hu => ⟨fun hmissed hagain => ?_, fun h hfetch hold => goodReply_notAgain hu h hfetch hold⟩, ?_⟩
    · obtain ⟨htag, hpoll, hslot⟩ := hagain
      exact goodReply_again hu hmissed htag hpoll hslot
    · rintro d jar e rfl hcurrent hbound hstage hentry
      have hdone : DoneFor x d jar e s := ⟨hcurrent, hbound, hstage, hentry⟩
      refine ⟨(goodReply_counted hdone).trans (countOutcome_eq _ _), fun ha => goodReply_final hdone ha,
        fun ha hp hslot => hdone.reapply_refused ha hp hslot, fun ha hp hslot => hdone.reapply_placed ha hp hslot⟩

end Sys2Proof.Proofs
end

