-- ==== Sys2Proof/Proofs/Curves.lean ====
section
/-! PROOFS. Curves: what the ring holds after a segment is written, the answer of the Trace Store to a curve, the
exchanges that end a curve fetch or place its CURVE again, and READ TRACE (R89, R100, R149 to R151, R154). -/

-- One declaration is checked after another: side by side they take more threads than the memory limit allows.
set_option Elab.async false

namespace Sys2Proof.Machine

variable {s : State} {t u : TraceStore} {x : Exchange} {f : CurveFetch} {r : Report} {jar : Word32} {xs : List Sample}
  {v w start : Word32} {n : Nat}

/-! ### The ring (R149) -/

@[simp] theorem readSlot_writeSlot_same (epoch k : Nat) (y : Sample) (m : List (Nat × Sample)) :
    readSlot epoch k (writeSlot k y m) = y := by
  induction m with
  | nil => simp [writeSlot, readSlot]
  | cons q rest ih =>
    obtain ⟨n, z⟩ := q
    unfold writeSlot
    split
    · simp [readSlot]
    · split
      · simp [readSlot]
      · next hne =>
        unfold readSlot at ih ⊢
        rw [List.find?_cons_of_neg (by simpa using Ne.symm hne)]
        exact ih

theorem readSlot_writeSlot_other {k j : Nat} (h : k ≠ j) (epoch : Nat) (y : Sample) (m : List (Nat × Sample)) :
    readSlot epoch k (writeSlot j y m) = readSlot epoch k m := by
  induction m with
  | nil => simp [writeSlot, readSlot, Ne.symm h]
  | cons q rest ih =>
    obtain ⟨n, z⟩ := q
    unfold writeSlot
    split
    · simp [readSlot, Ne.symm h]
    · split
      · next heq => simp [readSlot, Ne.symm h, ← heq]
      · unfold readSlot at ih ⊢
        by_cases hn : n = k
        · rw [List.find?_cons_of_pos (by simpa using hn), List.find?_cons_of_pos (by simpa using hn)]
        · rw [List.find?_cons_of_neg (by simpa using hn), List.find?_cons_of_neg (by simpa using hn)]
          exact ih

/-- Two write counts less than 8192 apart have slots of their own: 8192 divides 2^32, so the wrap of the write count
does not bring them together. -/
theorem slotOf_ne (h : 0 < (w - v).toNat) (hn : (w - v).toNat < 8192) : slotOf v ≠ slotOf w := by
  have hv := v.isLt
  have hw := w.isLt
  rw [BitVec.toNat_sub] at h hn
  unfold slotOf ringSize
  omega

/-- A sample that the write count stays within 8192 of is not written over. -/
theorem readSlot_writeSamples_older (epoch : Nat) (xs : List Sample) : ∀ (w : Word32) (m : List (Nat × Sample)),
    0 < (w - v).toNat → (w - v).toNat + xs.length ≤ 8192 →
      readSlot epoch (slotOf v) (writeSamples w xs m) = readSlot epoch (slotOf v) m := by
  induction xs with
  | nil => exact fun _ _ _ _ => rfl
  | cons y ys ih =>
    intro w m h hn
    rw [List.length_cons] at hn
    have hnext : (w + 1 - v).toNat = (w - v).toNat + 1 := by bv_omega
    rw [writeSamples, ih (w + 1) _ (by omega) (by omega)]
    exact readSlot_writeSlot_other (slotOf_ne h (by omega)) _ _ _

/-- A segment reads back as it was written (R149, R151). -/
theorem readSamples_written (xs : List Sample) : ∀ (w : Word32) (m : List (Nat × Sample)), xs.length ≤ 8192 →
    t.slots = writeSamples w xs m → readSamples t xs.length w = xs := by
  induction xs with
  | nil => exact fun _ _ _ _ => rfl
  | cons y ys ih =>
    intro w m hn ht
    rw [List.length_cons] at hn
    have hnext : (w + 1 - w).toNat = 1 := by bv_omega
    have hfirst : readSlot t.epoch (slotOf w) t.slots = y := by
      rw [ht, writeSamples, readSlot_writeSamples_older _ ys _ _ (by omega) (by omega), readSlot_writeSlot_same]
    rw [List.length_cons, readSamples, hfirst, ih (w + 1) _ (by omega) ht]

/-- Samples behind the write count that a segment does not reach read as before it. -/
theorem readSamples_older (hepoch : u.epoch = t.epoch) (hu : u.slots = writeSamples w xs t.slots) (n : Nat) :
    ∀ start : Word32, n ≤ (w - start).toNat → (w - start).toNat + xs.length ≤ 8192 →
      readSamples u n start = readSamples t n start := by
  induction n with
  | zero => exact fun _ _ _ => rfl
  | succ n ih =>
    intro start h hn
    have hnext : (w - (start + 1)).toNat + 1 = (w - start).toNat := by bv_omega
    rw [readSamples, readSamples, hepoch, hu, readSlot_writeSamples_older _ xs _ _ (by omega) hn,
      ih (start + 1) (by omega) (by omega)]

@[simp] theorem readSamples_length (t : TraceStore) (n : Nat) : ∀ w, (readSamples t n w).length = n := by
  induction n with
  | zero => exact fun _ => rfl
  | succ n ih => exact fun w => congrArg (· + 1) (ih (w + 1))

/-- A reference is intact when the write count has passed its samples and the ring has not come round to them. -/
theorem intact_iff : intact t start n = true
    ↔ n ≤ (t.writeCount - start).toNat ∧ (t.writeCount - start).toNat ≤ 8192 := by
  unfold intact ringSize
  rw [Bool.and_eq_true, decide_eq_true_eq, decide_eq_true_eq]

/-! ### The Capture Unit and a stored segment (R154) -/

theorem captureStored_untriggered (h : s.capture.state ≠ .triggered) : captureStored s = s :=
  if_neg (by simpa using h)

theorem captureStored_counted (h : s.capture.state = .triggered) (hn : 1 < s.capture.remaining) :
    captureStored s = { s with capture.remaining := s.capture.remaining - 1 } := by
  have hleft : s.capture.remaining - 1 ≠ 0 := by omega
  unfold captureStored captureFreezes
  rw [if_pos (by simpa using h)]
  exact if_neg (by simp [hleft])

theorem captureStored_last (h : s.capture.state = .triggered) (hn : s.capture.remaining ≤ 1) :
    captureStored s = latchAlert .captureFrozen { s with capture.state := .frozen, capture.remaining := 0 } := by
  have hzero : s.capture.remaining - 1 = 0 := by omega
  unfold captureStored captureFreezes
  rw [if_pos (by simpa using h), hzero]
  exact if_pos (by simp [h])

/-! ### A stored segment (R150) -/

/-- The segment written, before the Capture Unit is told. -/
def segmentWritten (jar : Word32) (xs : List Sample) (s : State) : State :=
  { s with traces.slots := writeSamples s.traces.writeCount xs s.traces.slots
           traces.writeCount := s.traces.writeCount + BitVec.ofNat 32 xs.length
           traces.protectedSegs := s.traces.protectedSegs ++ [⟨jar, s.traces.writeCount⟩] }

theorem storeSegment_eq (jar : Word32) (xs : List Sample) (s : State) :
    storeSegment jar xs s = captureStored (segmentWritten jar xs s) := rfl

@[simp] theorem storeSegment_track (jar : Word32) (xs : List Sample) (s : State) :
    (storeSegment jar xs s).track = s.track := by
  rw [storeSegment_eq, captureStored_frame]
  rfl

@[simp] theorem storeSegment_traces (jar : Word32) (xs : List Sample) (s : State) :
    (storeSegment jar xs s).traces = (segmentWritten jar xs s).traces := by
  rw [storeSegment_eq, captureStored_frame]

theorem storeSegment_readsBack (jar : Word32) (s : State) (hn : xs.length ≤ 8192) :
    readSamples (storeSegment jar xs s).traces xs.length s.traces.writeCount = xs := by
  rw [storeSegment_traces]
  exact readSamples_written xs _ _ hn rfl

theorem storeSegment_intact (jar : Word32) (s : State) (hn : xs.length ≤ 8192) :
    intact (storeSegment jar xs s).traces s.traces.writeCount xs.length = true := by
  have hpassed : (s.traces.writeCount + BitVec.ofNat 32 xs.length - s.traces.writeCount).toNat = xs.length := by
    bv_omega
  rw [storeSegment_traces, intact_iff]
  exact ⟨hpassed.ge, hpassed.trans_le hn⟩

/-- A reference that stays intact reads the same after another segment (R151). -/
theorem storeSegment_keepsIntact (jar : Word32) (hn : xs.length ≤ 8192) (hs : intact s.traces start n = true)
    (ht : intact (storeSegment jar xs s).traces start n = true) :
    readSamples (storeSegment jar xs s).traces n start = readSamples s.traces n start := by
  rw [storeSegment_traces] at ht ⊢
  rw [intact_iff] at hs ht
  obtain ⟨hpassed, hbefore⟩ := hs
  have hafter : (s.traces.writeCount + BitVec.ofNat 32 xs.length - start).toNat ≤ 8192 := ht.2
  have hgrown : (s.traces.writeCount + BitVec.ofNat 32 xs.length - start).toNat
      = (s.traces.writeCount - start).toNat + xs.length := by bv_omega
  exact readSamples_older (t := s.traces) (u := (segmentWritten jar xs s).traces) rfl rfl n start hpassed
    (hgrown ▸ hafter)

/-! ### The answer to a curve (R100, R150) -/

/-- The segment would write over a sample of the protected segment stored earliest (R150). -/
def OverProtected (t : TraceStore) (n : Nat) : Prop :=
  ∃ g, t.protectedSegs.head? = some g ∧ 8192 < (t.writeCount + BitVec.ofNat 32 n - g.start).toNat

theorem overwritesProtected_iff : overwritesProtected t n = true ↔ OverProtected t n := by
  unfold overwritesProtected protectedStart OverProtected
  cases t.protectedSegs.head? <;> simp [ringSize]

theorem handCurve_frozen (h : s.capture.state = .frozen) : handCurve jar xs s = addFlag jar .traceFrozen s :=
  if_pos (by simpa using h)

theorem handCurve_lost (h : s.capture.state ≠ .frozen) (hlost : OverProtected s.traces xs.length) :
    handCurve jar xs s = addFlag jar .traceLost s := by
  unfold handCurve
  rw [if_neg (by simpa using h), if_pos (overwritesProtected_iff.2 hlost)]

theorem handCurve_stored (h : s.capture.state ≠ .frozen) (hkept : ¬OverProtected s.traces xs.length) :
    handCurve jar xs s = modEntry jar
      (fun e => { e with trace := some ⟨s.traces.writeCount, xs.length⟩, flags := e.flags.add .tracePresent })
      (storeSegment jar xs s) := by
  unfold handCurve
  rw [if_neg (by simpa using h), if_neg (overwritesProtected_iff.not.2 hkept)]

theorem curveTaken_handCurve (jar : Word32) (s : State) (hn : xs.length ≤ 8192) :
    CurveTaken jar xs s (handCurve jar xs s) := by
  refine ⟨fun hfrozen => ?_, fun hopen hlost => ?_, fun hopen hkept => ?_⟩
  · rw [handCurve_frozen hfrozen]
    exact ⟨rfl, rfl, rfl, rfl⟩
  · rw [handCurve_lost hopen hlost]
    exact ⟨rfl, rfl, rfl, rfl⟩
  · rw [handCurve_stored hopen hkept]
    have htraces := storeSegment_traces jar xs s
    refine ⟨by rw [modEntry_track, storeSegment_track], congrArg TraceStore.writeCount htraces,
      storeSegment_readsBack jar s hn, congrArg TraceStore.protectedSegs htraces,
      fun hstate => ?_, fun hstate hmore => ?_, fun hstate hlast => ?_⟩
    · rw [modEntry_capture, modEntry_alerts, storeSegment_eq,
        captureStored_untriggered (s := segmentWritten jar xs s) hstate]
      exact ⟨rfl, rfl⟩
    · rw [modEntry_capture, modEntry_alerts, storeSegment_eq,
        captureStored_counted (s := segmentWritten jar xs s) hstate hmore]
      exact ⟨rfl, rfl⟩
    · rw [modEntry_capture, modEntry_alerts, storeSegment_eq,
        captureStored_last (s := segmentWritten jar xs s) hstate hlast]
      exact ⟨rfl, rfl⟩

/-! ### The curve fetch after a report (R89, R100) -/

/-- A current CURVE of the fetch's own tag completes the fetch and closes it. -/
theorem settleFetch_completed {good : Option Report} {current : Bool} (hf : s.link.lines[x.head].fetch = some f)
    (hc : fetchedCurve current f good = some xs) : settleFetch x good current s
      = handCurve f.jar xs (modLine x.head (fun l => { l with fetch := none }) s) := by
  unfold settleFetch
  rw [hf]
  simp only [hc]

theorem fetchedCurve_current (tag : Byte) (hf : f.tag = tag) (xs : List Sample) :
    fetchedCurve true f (some (.curve tag xs)) = some xs := by simp [fetchedCurve, hf]

theorem fetchedCurve_stale (f : CurveFetch) (good : Option Report) : fetchedCurve false f good = none := by
  rcases good with _ | _ | _ | _ | _ <;> rfl

theorem fetchedCurve_other (h : ∀ tag xs, r ≠ .curve tag xs) (current : Bool) (f : CurveFetch) :
    fetchedCurve current f (some r) = none := by
  cases r with
  | curve tag xs => exact absurd rfl (h tag xs)
  | idle => rfl
  | busy tag n => rfl
  | done d => rfl

theorem placeCurveAgain_empty {p : Head} (h : s.link.lines[p].slot = .empty) : placeCurveAgain p s = modLine p
    (fun l => { l with slot := .curve, fetch := l.fetch.map (fun f => { f with stage := .wanted }) }) s := by
  unfold placeCurveAgain
  rw [h]

/-- With no APPLY unconfirmed, the step of R88 does nothing. -/
theorem settleUnconfirmed_none (h : s.link.lines[x.head].unconfirmed = none) (r : Report) (b : Bool) :
    settleUnconfirmed x (some r) b s = s := by
  unfold settleUnconfirmed
  simp only [h]

/-- A stale report, and one that is no DONE, at most counts in the statistics of its head (R72, R87). -/
theorem classified_heads (h : Stale x s.link.lines[x.head] r ∨ ∀ d, r ≠ .done d) :
    classified x r s = { s with heads := (classified x r s).heads } := by
  by_cases hstale : Stale x s.link.lines[x.head] r
  · rw [classified_stale hstale]
    rfl
  · rw [classified_current hstale]
    rcases takeReport_other (p := x.head) (s := s) (h.resolve_left hstale) with ht | ht
    · rw [ht]
    · rw [ht]
      rfl

/-- An exchange about a curve fetch: it sent no APPLY, and none is unconfirmed. Of R77 the step for the fetch is left,
taken from a state with other counts of the heads at most. -/
theorem endExchange_fetchOnly (hu : s.link.lines[x.head].unconfirmed = none) (hsent : ∀ a, x.command ≠ .apply a)
    (h : Stale x s.link.lines[x.head] r ∨ ∀ d, r ≠ .done d) : ∃ u, u = { s with heads := u.heads }
      ∧ endExchange (some r) x s
        = scanOn x (settleFetch x (some r) (!isStale x.command s.link.lines[x.head] r) u) := by
  have hsent' : sentApply x.command = false := by
    rw [← Bool.not_eq_true, sentApply_iff]
    exact fun ⟨a, ha⟩ => hsent a ha
  have hclass := classified_heads (s := heard x.head s) h
  have htaken : takeGood x r (heard x.head s) = classified x r (heard x.head s) := by
    rw [takeGood_eq, hsent']
    exact modLine_self rfl
  refine ⟨classified x r (heard x.head s), hclass, ?_⟩
  rw [endExchange_good, htaken]
  unfold settledGood
  rw [settleUnconfirmed_none (by rw [hclass]; exact hu)]

theorem exec_reportFrame (hpower : s.power = .running) (hx : s.link.exchange = some x) (hr : r.inRange = true) :
    exec (.replyReceived (reportFrame x.head r)) s = .next (endExchange (some r) x s) := by
  rw [exec_replyReceived hpower hx, parseReply_reportFrame x.head hr]

/-- The current CURVE of an open fetch, whatever command its exchange sent, is handed to the Trace Store (log entry
19). -/
theorem endExchange_curve (hf : s.link.lines[x.head].fetch = some f) (hu : s.link.lines[x.head].unconfirmed = none)
    (hsent : ∀ a, x.command ≠ .apply a) (hn : xs.length ≤ 8192) (htag : f.tag = s.link.lines[x.head].tag)
    (hconfirmed : s.link.lines[x.head].applyConfirmed = true) :
    let t := endExchange (some (.curve f.tag xs)) x s
    CurveTaken f.jar xs s t ∧ t.link.lines[x.head] = { s.link.lines[x.head] with fetch := none } := by
  have hcurrent : ¬Stale x s.link.lines[x.head] (.curve f.tag xs) := by
    rintro ⟨_, hother | ⟨a, ha⟩ | hno⟩
    · exact hother (congrArg some htag)
    · exact hsent a ha
    · exact Bool.false_ne_true (hno.symm.trans hconfirmed)
  obtain ⟨u, hframe, hend⟩ :=
    endExchange_fetchOnly hu hsent (.inr fun d (h : Report.curve f.tag xs = .done d) => nomatch h)
  rw [isStale_current hcurrent, Bool.not_false,
    settleFetch_completed (by rw [hframe]; exact hf) (fetchedCurve_current f.tag rfl xs)] at hend
  have htaken := curveTaken_handCurve f.jar (modLine x.head (fun l => { l with fetch := none }) u) hn
  have hline := lines_modLine_same x.head (fun l => { l with fetch := none }) u
  rw [hend]
  refine ⟨?_, ?_⟩
  · rw [hframe] at htaken ⊢
    exact htaken
  · change (handCurve f.jar xs _).link.lines[x.head] = _
    rw [handCurve_frame]
    exact hline.trans (by rw [hframe])

/-- After a good exchange without the curve, a CURVE sent in an earlier exchange is placed again (R89). -/
theorem endExchange_curveAgain (hf : s.link.lines[x.head].fetch = some f)
    (hu : s.link.lines[x.head].unconfirmed = none) (hsent : ∀ a, x.command ≠ .apply a) (hstage : f.stage = .sent)
    (hearlier : x.command ≠ .curve) (hslot : s.link.lines[x.head].slot = .empty)
    (h : Stale x s.link.lines[x.head] r ∨ (∀ d, r ≠ .done d) ∧ ∀ tag xs, r ≠ .curve tag xs) :
    let t := endExchange (some r) x s
    t.traces = s.traces ∧ t.track = s.track ∧ t.link.lines[x.head]
      = { s.link.lines[x.head] with slot := .curve, fetch := some { f with stage := .wanted } } := by
  have hcurve : fetchedCurve (!isStale x.command s.link.lines[x.head] r) f (some r) = none := by
    rcases h with hstale | ⟨_, hother⟩
    · rw [(isStale_iff x _ r).2 hstale]
      exact fetchedCurve_stale f _
    · exact fetchedCurve_other hother _ f
  obtain ⟨u, hframe, hend⟩ := endExchange_fetchOnly hu hsent (h.imp_right And.left)
  rw [settleFetch_open (by rw [hframe]; exact hf) hcurve, if_pos ⟨hstage, hearlier⟩,
    placeCurveAgain_empty (by rw [hframe]; exact hslot)] at hend
  have hline := lines_modLine_same x.head
    (fun l => { l with slot := .curve, fetch := l.fetch.map (fun f => { f with stage := .wanted }) }) u
  rw [hend]
  refine ⟨by rw [hframe]; rfl, by rw [hframe]; rfl, hline.trans ?_⟩
  rw [hframe]
  simp only [hf, Option.map_some]

/-! ### READ TRACE (R151) -/

theorem readTraceBlock_badLength {p : List Byte} (h : field p 4 1 < 1 ∨ 32 < field p 4 1) :
    readTraceBlock p s = .plain .badValue s := if_pos (by simpa using h)

theorem readTraceBlock_gone {p : List Byte} (hlow : 1 ≤ field p 4 1) (hhigh : field p 4 1 ≤ 32)
    (h : ¬intact s.traces (BitVec.ofNat 32 (field p 0 4)) (field p 4 1) = true) :
    readTraceBlock p s = .plain .gone s := by
  unfold readTraceBlock
  simp only
  rw [if_neg (by simp [Nat.ne_of_gt hlow, hhigh]), if_pos (by simpa using h)]

theorem readTraceBlock_done {p : List Byte} (hlow : 1 ≤ field p 4 1) (hhigh : field p 4 1 ≤ 32)
    (h : intact s.traces (BitVec.ofNat 32 (field p 0 4)) (field p 4 1) = true) :
    readTraceBlock p s = ⟨s, .done,
      (readSamples s.traces (field p 4 1) (BitVec.ofNat 32 (field p 0 4))).flatMap sampleBytes⟩ := by
  unfold readTraceBlock
  simp only
  rw [if_neg (by simp [Nat.ne_of_gt hlow, hhigh]), if_neg (by simpa using h)]

theorem exec_readTrace {p : List Byte} {g t : State} {result : ResultCode} {q : List Byte} (h : Ready s)
    (hp : p.length = 5) (hg : goodFrame s = g) (hb : readTraceBlock p g = ⟨t, result, q⟩) :
    exec (.readTrace p) s = .next (replied g 0x11 result q t) :=
  next_ready h (by simpa using hp) hg hb

end Sys2Proof.Machine

namespace Sys2Proof.Proofs

open Sys2Proof.Machine

/-- Settles O58, clause by clause: the Trace Store's answer, the exchange that completes a fetch and the one that has
the CURVE placed again, the segment in the ring, and READ TRACE. -/
theorem curveReadsBack : Obligations.CurveReadsBack := by
  unfold Obligations.CurveReadsBack
  refine ⟨fun jar xs s _ hn => curveTaken_handCurve jar s (by omega), ?_, ?_, ?_⟩
  · intro x f s hpower hx p l hf hu hsent
    refine ⟨fun xs hlow hhigh htag hconfirmed =>
      ⟨_, exec_reportFrame hpower hx (by simp [Report.inRange, hlow, hhigh]),
        endExchange_curve hf hu hsent (by omega) htag hconfirmed⟩,
      fun r hr hstage hearlier hslot hreport =>
        ⟨_, exec_reportFrame hpower hx hr, endExchange_curveAgain hf hu hsent hstage hearlier hslot ?_⟩⟩
    rcases hreport with rfl | ⟨n, rfl⟩ | ⟨tag, hne, htag⟩
    · exact .inr ⟨fun _ h => (nomatch h), fun _ _ h => (nomatch h)⟩
    · exact .inr ⟨fun _ h => (nomatch h), fun _ _ h => (nomatch h)⟩
    · exact .inl ⟨by simp [htag], .inl (by rw [htag]; exact fun h => hne (Option.some.inj h))⟩
  · intro jar xs s _ hn
    exact ⟨storeSegment_readsBack jar s (by omega), storeSegment_intact jar s (by omega),
      fun start n => storeSegment_keepsIntact jar (by omega)⟩
  · intro p s hready hp g start n
    refine ⟨fun hlength => exec_readTrace hready hp rfl (readTraceBlock_badLength hlength), fun hlow hhigh =>
      ⟨fun hgone => ?_, fun hpassed hbefore => ⟨?_, ?_⟩⟩⟩
    · exact exec_readTrace hready hp rfl (readTraceBlock_gone hlow hhigh fun hintact => by
        obtain ⟨hpassed, hbefore⟩ := intact_iff.1 hintact
        exact hgone.elim hpassed.not_gt hbefore.not_gt)
    · exact exec_readTrace hready hp rfl (readTraceBlock_done hlow hhigh (intact_iff.2 ⟨hpassed, hbefore⟩))
    · rw [flatMap_sampleBytes_length, readSamples_length]

end Sys2Proof.Proofs
end

/-! PROOFS. The arithmetic of the check: the deflection, the two factors of the required deflection and the dud
threshold, each with its exact values and its range (R121, R123 to R125). -/

namespace Sys2Proof

/-! ### The clamp of an integer -/

theorem clampInt_eq {lo hi : Int} (h : lo ≤ hi) (n : Int) : clampInt lo hi n = max lo (min hi n) := by
  unfold clampInt
  split_ifs <;> omega

theorem le_clampInt {lo hi : Int} (h : lo ≤ hi) (n : Int) : lo ≤ clampInt lo hi n :=
  (le_max_left lo _).trans_eq (clampInt_eq h n).symm

theorem clampInt_le {lo hi : Int} (h : lo ≤ hi) (n : Int) : clampInt lo hi n ≤ hi :=
  (clampInt_eq h n).trans_le (max_le h (min_le_left hi n))

theorem clampInt_of_le {lo hi n : Int} (h : lo ≤ hi) (hn : n ≤ lo) : clampInt lo hi n = lo := by
  rw [clampInt_eq h]
  omega

theorem clampInt_natCast {lo : Int} (h : lo ≤ 0) (hi n : Nat) : clampInt lo hi n = (min hi n : Nat) := by
  rw [clampInt_eq (by omega)]
  omega

/-- A clamp that is symmetric about 0 commutes with a change of sign. -/
theorem clampInt_neg {b : Int} (h : 0 ≤ b) (n : Int) : clampInt (-b) b (-n) = -clampInt (-b) b n := by
  rw [clampInt_eq (by omega), clampInt_eq (by omega)]
  omega

end Sys2Proof

namespace Sys2Proof.Machine

/-! ### The deflection (R121) -/

theorem deflection_of_le {sample z : Nat} (gain : Nat) (h : z ≤ sample) :
    deflection sample z gain = (min 2000 ((sample - z) * gain / 64) : Nat) := by
  have hquotient : (((sample : Int) - z) * gain).tdiv 64 = ((sample - z) * gain / 64 : Nat) := by
    rw [← Nat.cast_sub h, ← Nat.cast_mul]
    exact (Int.ofNat_tdiv _ 64).symm
  rw [deflection, hquotient]
  exact clampInt_natCast (by decide) 2000 _

/-- Truncation toward zero and the symmetric clamp make the deflection odd in the distance from Z. -/
theorem deflection_swap (sample z gain : Nat) : deflection sample z gain = -deflection z sample gain := by
  have hdistance : ((sample : Int) - z) * gain = -(((z : Int) - sample) * gain) := by ring
  rw [deflection, hdistance, Int.neg_tdiv, clampInt_neg (by decide), deflection]

theorem deflection_of_ge {sample z : Nat} (gain : Nat) (h : sample ≤ z) :
    deflection sample z gain = -((min 2000 ((z - sample) * gain / 64) : Nat) : Int) := by
  rw [deflection_swap, deflection_of_le gain h]

/-! ### The temperature factor (R123) -/

theorem tempFactor_le (fill : Option Nat) (tAmb tRef : Nat) : tempFactor fill tAmb tRef ≤ 256 := by
  cases fill with
  | none => exact le_rfl
  | some t => exact Int.toNat_le.2 (clampInt_le (by decide) _)

theorem tempFactor_of_le_amb {t tAmb tRef : Nat} (hrange : tAmb < tRef) (h : t ≤ tAmb) :
    tempFactor (some t) tAmb tRef = 0 := by
  have hquotient : (((t : Int) - tAmb) * 256).fdiv ((tRef : Int) - tAmb) ≤ 0 := by
    rw [Int.fdiv_eq_ediv_of_nonneg _ (by omega)]
    exact Int.ediv_le_of_le_mul (by omega) (by omega)
  exact congrArg Int.toNat (clampInt_of_le (by decide) hquotient)

theorem tempFactor_of_amb_le {t tAmb tRef : Nat} (hrange : tAmb < tRef) (h : tAmb ≤ t) :
    tempFactor (some t) tAmb tRef = min 256 ((t - tAmb) * 256 / (tRef - tAmb)) := by
  have hquotient : (((t : Int) - tAmb) * 256).fdiv ((tRef : Int) - tAmb)
      = ((t - tAmb) * 256 / (tRef - tAmb) : Nat) := by
    rw [← Nat.cast_sub h, ← Nat.cast_sub hrange.le]
    exact (Int.ofNat_fdiv ((t - tAmb) * 256) (tRef - tAmb)).symm
  rw [tempFactor, hquotient]
  exact congrArg Int.toNat (clampInt_natCast le_rfl 256 _)

theorem tempFactor_of_ref_le {t tAmb tRef : Nat} (hrange : tAmb < tRef) (h : tRef ≤ t) :
    tempFactor (some t) tAmb tRef = 256 := by
  have hscaled : 256 ≤ (t - tAmb) * 256 / (tRef - tAmb) := by
    rw [Nat.le_div_iff_mul_le (by omega)]
    omega
  rw [tempFactor_of_amb_le hrange (by omega), min_eq_left hscaled]

/-! ### The cooling factor (R124) -/

theorem coolingFactor_of_lt {dt tau : Nat} (h : dt < tau) : coolingFactor dt tau = dt * 256 / tau := by
  rw [coolingFactor, min_eq_left h.le]

theorem coolingFactor_of_ge {dt tau : Nat} (hpos : 0 < tau) (h : tau ≤ dt) : coolingFactor dt tau = 256 := by
  rw [coolingFactor, min_eq_right h, Nat.mul_div_cancel_left 256 hpos]

theorem coolingFactor_le {tau : Nat} (hpos : 0 < tau) (dt : Nat) : coolingFactor dt tau ≤ 256 :=
  calc coolingFactor dt tau ≤ tau * 256 / tau := Nat.div_le_div_right (Nat.mul_le_mul_right 256 (min_le_right dt tau))
    _ = 256 := Nat.mul_div_cancel_left 256 hpos

/-! ### The required deflection and the dud threshold (R125) -/

theorem requiredDeflection_le {kT c : Nat} (dFull : Nat) (hkT : kT ≤ 256) (hc : c ≤ 256) :
    requiredDeflection dFull kT c ≤ dFull := by
  have hproduct : dFull * kT * c ≤ dFull * 65536 :=
    calc dFull * kT * c ≤ dFull * 256 * 256 := Nat.mul_le_mul (Nat.mul_le_mul_left dFull hkT) hc
      _ = dFull * 65536 := Nat.mul_assoc dFull 256 256
  exact Nat.div_le_of_le_mul (by omega)

/-- A jar hot and cooled enough, both factors at 256, is held to the full deflection. -/
theorem requiredDeflection_full (dFull : Nat) : requiredDeflection dFull 256 256 = dFull := by
  rw [requiredDeflection, Nat.mul_assoc]
  exact Nat.mul_div_cancel dFull (by decide)

theorem dudThreshold_le {fraction : Nat} (dReq : Nat) (h : fraction ≤ 100) : dudThreshold dReq fraction ≤ dReq := by
  have hproduct : dReq * fraction ≤ dReq * 100 := Nat.mul_le_mul_left dReq h
  exact Nat.div_le_of_le_mul (by omega)

end Sys2Proof.Machine

namespace Sys2Proof.Proofs

open Sys2Proof.Machine

/-- Settles O52, stage by stage: the deflection, the two factors, and the two values they scale. -/
theorem sealArithmeticBounded : Obligations.SealArithmeticBounded := by
  unfold Obligations.SealArithmeticBounded
  refine ⟨fun sample z gain => ?deflection, tempFactor_le, fun t tAmb tRef hrange => ?temperature,
    fun dt tau hpos => ?cooling, fun dFull kT c fraction hkT hc hfraction => ?required⟩
  case deflection =>
    exact ⟨le_clampInt (by decide) _, clampInt_le (by decide) _, deflection_of_le gain, deflection_of_ge gain⟩
  case temperature =>
    exact ⟨rfl, tempFactor_of_le_amb hrange, tempFactor_of_amb_le hrange, tempFactor_of_ref_le hrange⟩
  case cooling =>
    exact ⟨coolingFactor_le hpos dt, coolingFactor_of_lt, coolingFactor_of_ge hpos⟩
  case required =>
    exact ⟨rfl, requiredDeflection_le dFull hkT hc, requiredDeflection_full dFull, rfl, dudThreshold_le _ hfraction⟩

end Sys2Proof.Proofs

section
/-! PROOFS. The Reject Gate: what its own events and commands do to the list and the pulse, what an arrival at j does to
them, and that no other act of a pitch touches them (R137 to R142). -/

-- One declaration is checked after another: side by side they take more threads than the memory limit allows.
set_option Elab.async false

namespace Sys2Proof.Machine

variable {s t u : State} {rs : RunState} {d : Decision} {pins : PitchPins} {a : PitchAct} {l m : List PitchAct}
  {e : Entry}

/-! ### Operations that leave the gate alone -/

/-- The stations behind the turret are followed, and nothing else. -/
def Reach.benchOnly : Reach :=
  ⟨false, false, false, false, false, true, false, false, false, false, false⟩

/-- An operation that leaves the stations behind the turret alone leaves the gate alone. -/
theorem Beside.gateStands (h : Beside Reach.benchOnly 0 0 0 s t) : t.reject = s.reject := (h.bench rfl).reject

theorem raiseCause_reject (c : Cause) (s : State) : (raiseCause c s).reject = s.reject :=
  (beside_raiseCause fun a => Bool.noConfusion a).gateStands

theorem depart_reject (disp : Disposition) (e : Entry) (s : State) :
    (depart disp e s).reject = countDisposition disp s.reject := (depart_hands disp e s).2.2.1

/-! ### The gate's own events (R138, R140, R141) -/

/-- The deadlines take the due entries from the list and leave the rest of the gate alone. -/
theorem confirmDeadlines_reject (s : State) : (confirmDeadlines s).reject = { s.reject with
    confirms := s.reject.confirms.filter (fun c => c.deadline != s.track.pitchCount) } := by
  by_cases h : ∃ c ∈ s.reject.confirms, c.deadline = s.track.pitchCount
  · rw [confirmDeadlines_due h]
    exact raiseCause_reject _ _
  · rw [confirmDeadlines_none (by simpa using h)]
    rfl

theorem withoutDue_of_none (h : ∀ c ∈ s.reject.confirms, c.deadline ≠ s.track.pitchCount) : withoutDue s = s := by
  have hall : s.reject.confirms.filter (fun c => c.deadline != s.track.pitchCount) = s.reject.confirms :=
    List.filter_eq_self.2 fun c hc => bne_iff_ne.2 (h c hc)
  unfold withoutDue
  rw [hall]

theorem exec_confirmDeadline (h : s.power = .running) : exec .confirmDeadline s = .next (confirmDeadlines s) :=
  congrArg Host.Outcome.next (whenRunning_of_running _ h)

theorem exec_rejConf (h : s.power = .running) : exec .rejConf s = .next (confirmPulse s) :=
  congrArg Host.Outcome.next (whenRunning_of_running _ h)

/-- The pulse is asserted and its 40 ms are over (R138). -/
def PulseOver (s : State) : Prop := s.reject.rejOut = true ∧ 40 ≤ (s.timeBase - s.reject.since).toNat

theorem pulseOver_iff (s : State) : (s.reject.rejOut && elapsed s.reject.since 40 s) = true ↔ PulseOver s := by
  simp only [elapsed, PulseOver, Bool.and_eq_true, decide_eq_true_eq]

theorem exec_rejOutPulseEnd_over (h : s.power = .running) (hover : PulseOver s) :
    exec .rejOutPulseEnd s = .next { s with reject.rejOut := false } :=
  congrArg Host.Outcome.next ((whenRunning_of_running _ h).trans (if_pos ((pulseOver_iff s).2 hover)))

theorem exec_rejOutPulseEnd_early (h : s.power = .running) (hearly : ¬PulseOver s) :
    exec .rejOutPulseEnd s = .next s :=
  congrArg Host.Outcome.next ((whenRunning_of_running _ h).trans (if_neg fun a => hearly ((pulseOver_iff s).1 a)))

theorem confirmPulse_cons {c : ConfirmEntry} {rest : List ConfirmEntry} (h : s.reject.confirms = c :: rest) :
    confirmPulse s = { s with reject.confirms := rest } := by
  unfold confirmPulse
  rw [h]

theorem confirmPulse_nil (h : s.reject.confirms = []) : confirmPulse s = latchAlert .strayReject s := by
  unfold confirmPulse
  rw [h]

/-! ### An arrival at j (R137 to R139, R142) -/

/-- The confirm entry that a rejected jar leaves in the list (R139). -/
def confirmFor (jar : Word32) (s : State) : ConfirmEntry :=
  ⟨jar, s.track.pitchCount + BitVec.ofNat 32 s.params.confirmWindow⟩

theorem arriveJ_rejected (h : e.action = some .reject) (s : State) : (arriveJ e s).reject = { s.reject with
    rejOut := true, since := s.timeBase, confirms := s.reject.confirms ++ [confirmFor e.jar s]
    rejected := satInc max32 s.reject.rejected } := by
  unfold arriveJ
  rw [h]
  exact depart_reject _ _ _

theorem arriveJ_passed (h : e.action = some .pass) (s : State) :
    (arriveJ e s).reject = { s.reject with passed := satInc max32 s.reject.passed } := by
  unfold arriveJ
  rw [h]
  exact depart_reject _ _ _

theorem arriveJ_undecided (h : e.action = none) (s : State) : arriveJ e s = s := by
  unfold arriveJ
  rw [h]

/-- An entry with an action leaves the Track at j. -/
theorem arriveJ_departs (h : e.action ≠ none) (s : State) :
    ∀ f ∈ (arriveJ e s).track.entries, f.position ≠ e.position := by
  unfold arriveJ
  split
  · exact depart_position _ _ _
  · exact depart_position _ _ _
  · rename_i hnone
    exact absurd hnone h

/-- An arrival at j adds its own confirm entry to the list, or none. -/
theorem arriveJ_confirms (e : Entry) (s : State) : (arriveJ e s).reject.confirms = s.reject.confirms
    ∨ (arriveJ e s).reject.confirms = s.reject.confirms ++ [confirmFor e.jar s] := by
  cases h : e.action with
  | none => exact .inl (by rw [arriveJ_undecided h])
  | some action =>
    cases action with
    | pass => exact .inl (by rw [arriveJ_passed h])
    | reject => exact .inr (by rw [arriveJ_rejected h])

/-! ### The other acts of a pitch -/

/-- Of the gate at most the count of MISSING jars has moved. -/
def OnlyMissing (s t : State) : Prop := t.reject = { s.reject with missing := t.reject.missing }

theorem OnlyMissing.ofStands (h : t.reject = s.reject) : OnlyMissing s t := by
  unfold OnlyMissing
  rw [h]

theorem OnlyMissing.trans (h : OnlyMissing s t) (g : OnlyMissing t u) : OnlyMissing s u := by
  unfold OnlyMissing at *
  rw [g, h]

theorem arriveA_reject (e : Entry) (s : State) : (arriveA e s).reject = s.reject := by
  have happly (u : State) : (applyForJar e u).reject = u.reject := by
    unfold applyForJar
    simp only
    split
    · rw [setBinding_reject, modEntry_reject, linesAndEntries_placeApply]
      rfl
    · rw [linesAndEntries_placeApply]
      rfl
  unfold arriveA
  split
  · rfl
  · split
    · rfl
    · split
      · rfl
      · exact happly _

theorem arriveE_reject (e : Entry) (s : State) : (arriveE e s).reject = s.reject :=
  (beside_arriveE fun a => Bool.noConfusion a).gateStands

theorem arriveX_reject (e : Entry) (s : State) : (arriveX e s).reject = s.reject := by
  rw [arriveX_eq, dischargeHead_frame]
  rfl

/-- A jar missing at k is counted, and the check leaves the gate alone (R16). -/
theorem actAtK_onlyMissing (s : State) : OnlyMissing s (actAtK rs pins s) := by
  unfold actAtK
  split
  · split
    · unfold OnlyMissing
      rw [raiseCause_reject, depart_reject]
      rfl
    · exact .ofStands (beside_checkJar _ (fun a => Bool.noConfusion a) rfl).gateStands
  · split
    · split
      · exact .ofStands (raiseCause_reject _ _)
      · exact .ofStands (beside_emptyArrival _ rfl).gateStands
    · exact .ofStands rfl

theorem admission_reject (irt : Nat) (s : State) : (admission irt s).reject = s.reject := by
  rw [admission_eq]
  calc _ = (faultAdmitted _ (joined irt (admissionSwap s))).reject := (beside_countAdmission rfl rfl).gateStands
    _ = (joined irt (admissionSwap s)).reject := (beside_faultAdmitted (fun a => Bool.noConfusion a)
      fun a => Bool.noConfusion a).gateStands
    _ = s.reject := (beside_admissionSwap rfl).gateStands

theorem actAtInfeed_reject (s : State) : (actAtInfeed rs d pins s).reject = s.reject := by
  unfold actAtInfeed
  split
  · split
    · exact admission_reject _ s
    · rfl
  · simp only
    split
    · exact raiseCause_reject _ _
    · rfl
  · split
    · exact raiseCause_reject _ _
    · rfl

theorem arrivalAt_reject {act : Entry → State → State} (h : ∀ e s, (act e s).reject = s.reject) (pos : Nat)
    (s : State) : (arrivalAt pos act s).reject = s.reject := by
  unfold arrivalAt
  split
  · exact h _ s
  · rfl

/-- An act that is not the gate's moves the count of MISSING jars at most. -/
theorem pitchAct_onlyMissing (hd : a ≠ .deadlines) (hj : a ≠ .atJ) : OnlyMissing s (pitchAct rs d pins s a) := by
  cases a with
  | deadlines => exact absurd rfl hd
  | atJ => exact absurd rfl hj
  | atA => exact .ofStands (arrivalAt_reject arriveA_reject _ s)
  | atE => exact .ofStands (arrivalAt_reject arriveE_reject _ s)
  | atX => exact .ofStands (arrivalAt_reject arriveX_reject _ s)
  | atK => exact actAtK_onlyMissing s
  | infeed => exact .ofStands (actAtInfeed_reject s)

theorem takeActs_onlyMissing (l : List PitchAct) (hd : PitchAct.deadlines ∉ l) (hj : PitchAct.atJ ∉ l) :
    ∀ s, OnlyMissing s (takeActs rs d pins l s) := by
  induction l with
  | nil => exact fun _ => .ofStands rfl
  | cons a l ih =>
    rw [List.mem_cons, not_or] at hd hj
    exact fun s => (pitchAct_onlyMissing (Ne.symm hd.1) (Ne.symm hj.1)).trans (ih hd.2 hj.2 _)

end Sys2Proof.Machine

namespace Sys2Proof.Proofs

open Sys2Proof.Machine

/-- Settles O14, by the two forms of the list. -/
theorem confirmPulseTakesOldest : Obligations.ConfirmPulseTakesOldest := by
  intro s hrun
  rw [exec_rejConf hrun]
  refine ⟨fun c rest h => by rw [confirmPulse_cons h], fun h => ⟨_, by rw [confirmPulse_nil h], rfl, rfl⟩⟩

/-- Settles O56: a deadline reached raises its cause once, and the pulse ends by the test of its 40 ms. -/
theorem gateEventsTaken : Obligations.GateEventsTaken := by
  intro s hrun hlstop
  rw [exec_confirmDeadline hrun]
  refine ⟨fun hnone => ?_, fun hdue => ⟨_, rfl, ?_, confirmDeadlines_reject s, ?_⟩,
    fun hout hover => exec_rejOutPulseEnd_over hrun ⟨hout, hover⟩, fun hearly => exec_rejOutPulseEnd_early hrun ?_⟩
  · rw [confirmDeadlines_none hnone, withoutDue_of_none hnone]
  · rw [confirmDeadlines_due hdue]
    exact raiseCause_faultFor hlstop
  · rw [confirmDeadlines_due hdue]
    exact labels_eq_pairs (raiseCause_labels _ _)
  · rintro ⟨hout, hover⟩
    rcases hearly with h | h
    · rw [hout] at h
      cases h
    · omega

end Sys2Proof.Proofs
end

section
/-! PROOFS. The arrival at j in a forward pitch, in any order of its acts: what the acts before it and after it leave of
the gate and of the jar that comes to j (R15, R137 to R140, R142). -/

-- One declaration is checked after another: side by side they take more threads than the memory limit allows.
set_option Elab.async false

namespace Sys2Proof.Machine

variable {s t u v : State} {rs : RunState} {d : Decision} {pins : PitchPins} {a : PitchAct} {l m : List PitchAct}
  {e f : Entry} {order : List PitchAct}

/-! ### The order of the gate's acts (R140) -/

/-- The deadlines of a pitch come before its arrival at j, and each once. -/
theorem pitchActs_gate (order : List PitchAct) :
    ∃ k l m, pitchActs order = k ++ .deadlines :: (l ++ .atJ :: m) ∧ (k ++ .deadlines :: (l ++ .atJ :: m)).Nodup
      ∧ PitchAct.deadlines ∉ k ∧ PitchAct.atJ ∉ k ∧ PitchAct.deadlines ∉ l ∧ PitchAct.atJ ∉ l
      ∧ PitchAct.deadlines ∉ m ∧ PitchAct.atJ ∉ m := by
  obtain ⟨k, n, horder, hk, hn, hnodup⟩ := pitchActs_split order .deadlines
  have hjk : PitchAct.atJ ∉ k := gateFirst_deadlines (mem_schedule order defaultActs (by decide)).1 horder
  have hj : PitchAct.atJ ∈ k ++ .deadlines :: n := horder ▸ (pitchActs_each_once order).2 .atJ
  have hjn : PitchAct.atJ ∈ n := by simpa [hjk] using hj
  obtain ⟨l, m, rfl⟩ := List.append_of_mem hjn
  have hn' : (l ++ .atJ :: m).Nodup := (List.nodup_cons.1 (List.nodup_append.1 hnodup).2.1).2
  refine ⟨k, l, m, horder, hnodup, hk, hjk, fun h => hn (List.mem_append_left _ h), fun h => ?_,
    fun h => hn (List.mem_append_right _ (List.mem_cons_of_mem _ h)), ?_⟩
  · exact (List.disjoint_of_nodup_append hn') h (List.mem_cons_self ..)
  · exact (List.nodup_cons.1 (List.nodup_append.1 hn').2.1).1

/-! ### Positions through the acts (R9) -/

theorem positionsFall_iff (s : State) : PositionsFall s
    ↔ (s.track.entries.map Entry.label).Pairwise (fun x y => y.position < x.position) := by
  rw [List.pairwise_map]
  rfl

/-- Positions fall along the Track after each act: a jar joins behind all others. -/
theorem act_positionsFall (hi : InfeedReady d (a :: l) s) (h : PositionsFall s) :
    PositionsFall (pitchAct rs d pins s a) := by
  rw [positionsFall_iff] at *
  by_cases ha : a = .infeed ∧ d = .admitJar ∧ pins.jarIn = true
  · obtain ⟨rfl, hd, hj⟩ := ha
    obtain ⟨hpositive, _⟩ := hi (List.mem_cons_self ..) hd
    rw [actAtInfeed_admits hd hj]
    refine List.Pairwise.sublist (admission_joins s).2 (List.pairwise_append.2 ⟨h, List.pairwise_singleton _ _, ?_⟩)
    intro x hx y hy
    obtain ⟨e, he, rfl⟩ := List.mem_map.1 hx
    rw [List.mem_singleton.1 hy]
    exact hpositive e he
  · exact List.Pairwise.sublist ((act_noJoin ha).joins rfl).2 h

theorem takeActs_positionsFall (hn : l.Nodup) (hi : InfeedReady d l s) (h : PositionsFall s) :
    PositionsFall (takeActs rs d pins l s) :=
  takeActs_induction (P := fun _ v => PositionsFall v) (fun _ _ _ _ hi h => act_positionsFall hi h) l s hn hi h

theorem pitchStart_positionsFall (h : PositionsFall s) : PositionsFall (pitchStart pins s) := by
  unfold PositionsFall at *
  rw [pitchStart_track, List.pairwise_map]
  exact h.imp fun hlt => Nat.succ_lt_succ hlt

/-! ### A pitch about its arrival at j -/

/-- The deadlines reached by a pitch have left the list (R140). -/
def notDue (s : State) : List ConfirmEntry := s.reject.confirms.filter (fun c => c.deadline != s.track.pitchCount + 1)

/-- A pitch about its arrival at j, which finds the state `v`: of the gate the acts before it have taken the deadlines,
and the acts after it leave alone all but the count of MISSING jars. -/
structure ArrivalCut (pins : PitchPins) (order : List PitchAct) (s v : State) : Prop where
  before : v.reject = { s.reject with confirms := notDue s, missing := v.reject.missing }
  clocks : v.track.pitchCount = s.track.pitchCount + 1 ∧ v.timeBase = s.timeBase ∧ v.params = s.params
    ∧ v.track.geometry = s.track.geometry
  positions : PositionsFall s → PositionsFall v
  jar : GeometryOk s.track.geometry → JarsDistinct s → ∀ e ∈ s.track.entries,
    e.position + 1 = s.track.geometry.j → ∃ f ∈ v.track.entries, Aside (pitchStart pins s) v e.moved f
  after : OnlyMissing (arrivalAt v.track.geometry.j arriveJ v) (forwardPitch pins order s)
  noneAfter : ∀ pos, pos ≠ 0 → (∀ f ∈ (arrivalAt v.track.geometry.j arriveJ v).track.entries, f.position ≠ pos) →
    ∀ f ∈ (forwardPitch pins order s).track.entries, f.position ≠ pos

/-- The acts before the arrival at j take the deadlines of the pitch count they begin with. -/
theorem takeActs_deadlines {k : List PitchAct} (hk : PitchAct.deadlines ∉ k) (hjk : PitchAct.atJ ∉ k)
    (hl : PitchAct.deadlines ∉ l) (hjl : PitchAct.atJ ∉ l)
    (hcount : (takeActs rs d pins k s).track.pitchCount = s.track.pitchCount) :
    OnlyMissing (withoutDue s) (takeActs rs d pins (k ++ .deadlines :: l) s) := by
  have hbefore : OnlyMissing s (takeActs rs d pins k s) := takeActs_onlyMissing k hk hjk s
  rw [takeActs_append, takeActs_cons]
  refine OnlyMissing.trans ?_ (takeActs_onlyMissing l hl hjl _)
  change OnlyMissing _ (confirmDeadlines _)
  unfold OnlyMissing at *
  rw [confirmDeadlines_reject, hcount, hbefore]
  rfl

/-- The acts before the arrival at j leave the jar that comes to j where it is. -/
theorem takeActs_aside (hg : GateAndBanks s) (hgeo : GeometryOk s.track.geometry) (hd : JarsDistinct s)
    (he : e ∈ s.track.entries) (hp : e.position + 1 = s.track.geometry.j) (hj : PitchAct.atJ ∉ l) (hn : l.Nodup) :
    ∃ f ∈ (takeActs s.run.state s.gate.decision pins l (pitchStart pins s)).track.entries,
      Aside (pitchStart pins s) (takeActs s.run.state s.gate.decision pins l (pitchStart pins s)) e.moved f := by
  have hplaced := placed_pitchStart (pins := pins) hd he
  rw [hp] at hplaced
  have hserved (a : PitchAct) (ha : a ∈ l) :
      actPlace (pitchStart pins s).track.geometry a ≠ some s.track.geometry.j := by
    rw [pitchStart_track]
    exact actPlace_other (b := .atJ) hgeo (fun h => hj (h ▸ ha)) rfl
  have hbeside := (beside_acts_about (m := []) (rs := s.run.state) (d := s.gate.decision) (pins := pins) (p := 0)
    (j := true) (n := false) hj (by simpa using hn) (infeedReady_pitchStart hg _) (fun a => Bool.noConfusion a)
    (fun _ => ⟨hplaced, hserved, fun _ => by simpa using nextJar_ne hd he⟩) (fun a => Bool.noConfusion a)).1
  exact hbeside.entry rfl hplaced e.moved (by simpa using ⟨e, he, rfl⟩) rfl

theorem pitchTail_reject (s : State) : (remakeDecision (waitTurretEnd s)).reject = s.reject :=
  Beside.gateStands beside_pitchTail

theorem pitch_arrivalCut (order : List PitchAct) (hg : GateAndBanks s) (hf : frozen s = false) :
    ∃ v, ArrivalCut pins order s v := by
  obtain ⟨k, l, m, horder, hn, hk, hjk, hl, hjl, hm, hjm⟩ := pitchActs_gate order
  have hsplit : k ++ .deadlines :: (l ++ .atJ :: m) = (k ++ .deadlines :: l) ++ .atJ :: m := by simp
  have hjb : PitchAct.atJ ∉ k ++ .deadlines :: l := by simp [hjk, hjl]
  have hnk : k.Nodup := (List.nodup_append.1 hn).1
  rw [hsplit] at horder hn
  have hnb : (k ++ .deadlines :: l).Nodup := (List.nodup_append.1 hn).1
  have kk : Keeps Scope.acts (pitchStart pins s) (takeActs s.run.state s.gate.decision pins k (pitchStart pins s)) :=
    keeps_acts _ _ _ k hnk _ (infeedReady_pitchStart hg k)
  have kv := keeps_acts s.run.state s.gate.decision pins _ hnb (pitchStart pins s) (infeedReady_pitchStart hg _)
  obtain ⟨_, hcount, htime, hgeo, hparams, _⟩ := kv.fixedFields rfl
  have hend : forwardPitch pins order s = remakeDecision (waitTurretEnd (takeActs s.run.state s.gate.decision pins m
      (pitchAct s.run.state s.gate.decision pins
        (takeActs s.run.state s.gate.decision pins (k ++ .deadlines :: l) (pitchStart pins s)) .atJ))) := by
    rw [forwardPitch_moving order hf, pitchEnd, horder, takeActs_append, takeActs_cons]
  refine ⟨takeActs s.run.state s.gate.decision pins (k ++ .deadlines :: l) (pitchStart pins s), ?_, ⟨?_, ?_, ?_, ?_⟩,
    fun h => takeActs_positionsFall hnb (infeedReady_pitchStart hg _) (pitchStart_positionsFall h),
    fun hgeo hd e he hp => takeActs_aside hg hgeo hd he hp hjb hnb, ?_, fun pos h0 h => ?_⟩
  · have h := takeActs_deadlines (rs := s.run.state) (d := s.gate.decision) (pins := pins) hk hjk hl hjl
      (kk.fixedFields rfl).2.1
    unfold OnlyMissing withoutDue at h
    simpa [notDue] using h
  · exact hcount.trans (by simp)
  · exact htime.trans (by simp)
  · exact hparams.trans (by simp)
  · exact hgeo.trans (by simp)
  · rw [hend]
    exact (takeActs_onlyMissing m hm hjm _).trans (.ofStands (pitchTail_reject _))
  · rw [hend]
    exact (keeps_pitchTail (o := Scope.actsNoJoin)).noneAt rfl (acts_noneAt h0 m _ h)

/-- The arrival at j finds the jar that comes there, with the action its check gave it. -/
theorem ArrivalCut.arrives (h : ArrivalCut pins order s v) (hgeo : GeometryOk s.track.geometry)
    (hpos : PositionsFall s) (hd : JarsDistinct s) (he : e ∈ s.track.entries)
    (hp : e.position + 1 = s.track.geometry.j) :
    ∃ f, arrivalAt v.track.geometry.j arriveJ v = arriveJ f v ∧ f.action = e.action ∧ f.jar = e.jar
      ∧ f.position = s.track.geometry.j := by
  obtain ⟨f, hf, haside⟩ := h.jar hgeo hd e he hp
  have hfp : f.position = s.track.geometry.j := haside.position.trans hp
  have hat : entryAt v.track.geometry.j v = some f := by
    rw [h.clocks.2.2.2, ← hfp]
    exact entryAt_eq (h.positions hpos) hf
  refine ⟨f, ?_, by rw [haside.eq]; rfl, haside.sameJar, hfp⟩
  unfold arrivalAt
  rw [hat]

/-- A pitch in which a jar comes to j. -/
theorem forwardPitch_arrives (order : List PitchAct) (hg : GateAndBanks s) (hf : frozen s = false)
    (hgeo : GeometryOk s.track.geometry) (hpos : PositionsFall s) (hd : JarsDistinct s) (he : e ∈ s.track.entries)
    (hp : e.position + 1 = s.track.geometry.j) :
    let t := forwardPitch pins order s
    (e.action = some .reject → t.reject = { s.reject with
        rejOut := true, since := s.timeBase, rejected := satInc max32 s.reject.rejected, missing := t.reject.missing
        confirms := notDue s ++ [⟨e.jar, s.track.pitchCount + 1 + BitVec.ofNat 32 s.params.confirmWindow⟩] })
      ∧ (e.action = some .pass → t.reject = { s.reject with
        confirms := notDue s, passed := satInc max32 s.reject.passed, missing := t.reject.missing })
      ∧ (e.action ≠ none → ∀ f ∈ t.track.entries, f.position ≠ s.track.geometry.j) := by
  obtain ⟨v, hcut⟩ := pitch_arrivalCut (pins := pins) order hg hf
  obtain ⟨f, hact, haction, hjar, hfp⟩ := hcut.arrives hgeo hpos hd he hp
  obtain ⟨hcount, htime, hparams, _⟩ := hcut.clocks
  have hbefore := hcut.before
  have hafter := hcut.after
  have hnone := hcut.noneAfter s.track.geometry.j (by omega)
  unfold OnlyMissing at hafter
  rw [hact] at hafter hnone
  rw [← haction]
  refine ⟨fun h => ?_, fun h => ?_, fun h => hnone (hfp ▸ arriveJ_departs h v)⟩
  · rw [hafter, arriveJ_rejected h, confirmFor, hcount, htime, hparams, hjar, hbefore]
  · rw [hafter, arriveJ_passed h, hbefore]

end Sys2Proof.Machine

namespace Sys2Proof.Proofs

open Sys2Proof.Machine

/-- Settles O10: the acts before the arrival at j leave the jar there, and of the gate they move the deadlines and the
MISSING count alone. -/
theorem rejectArrivalFires : Obligations.RejectArrivalFires := by
  intro pins order s e hrun hf hg hgeo hpos hd he hp left
  obtain ⟨hreject, hpass, hgone⟩ := forwardPitch_arrives (pins := pins) order hg hf hgeo hpos hd he hp
  refine ⟨_, exec_forwardPitch order hrun, fun h => ?_, fun h => ?_⟩
  · have hgone := hgone (by simp [h])
    rw [hreject h]
    exact ⟨rfl, rfl, rfl, rfl, rfl, hgone⟩
  · have hgone := hgone (by simp [h])
    rw [hpass h]
    exact ⟨rfl, rfl, rfl, rfl, rfl, hgone⟩

end Sys2Proof.Proofs
end

section
/-! PROOFS. The Reject Confirm List never holds more than 8 entries: a pitch counts every deadline down by one and adds
one entry at most, and no other command adds any (R139 to R141). -/

-- One declaration is checked after another: side by side they take more threads than the memory limit allows.
set_option Elab.async false

namespace Sys2Proof.Machine

variable {s t u v : State} {pins : PitchPins} {c : Instr} {e : ConfirmEntry} {cs ds : List ConfirmEntry} {top : Nat}
  {pitch : Word32}

/-! ### Deadlines spread over the pitches to come -/

/-- Every entry has 1 to `top` pitches left, and at most `top + 1 - n` entries have `n` or more. -/
def SpreadWithin (top : Nat) (pitch : Word32) (cs : List ConfirmEntry) : Prop :=
  (∀ c ∈ cs, 1 ≤ pitchesLeft pitch c ∧ pitchesLeft pitch c ≤ top)
    ∧ ∀ n, 1 ≤ n → n ≤ 8 → cs.countP (fun c => decide (n ≤ pitchesLeft pitch c)) ≤ top + 1 - n

theorem confirmsSpread_iff (s : State) : ConfirmsSpread s ↔ SpreadWithin 8 s.track.pitchCount s.reject.confirms :=
  Iff.rfl

theorem SpreadWithin.sublist (h : SpreadWithin top pitch cs) (hs : ds.Sublist cs) : SpreadWithin top pitch ds :=
  ⟨fun c hc => h.1 c (hs.subset hc), fun n h1 h8 => (hs.countP_le).trans (h.2 n h1 h8)⟩

theorem SpreadWithin.length_le (h : SpreadWithin 8 pitch cs) : cs.length ≤ 8 := by
  have hall : cs.countP (fun c => decide (1 ≤ pitchesLeft pitch c)) = cs.length :=
    List.countP_eq_length.2 fun c hc => decide_eq_true (h.1 c hc).1
  have := h.2 1 (by omega) (by omega)
  omega

theorem pitchesLeft_next (h : 1 ≤ pitchesLeft pitch e) : pitchesLeft (pitch + 1) e + 1 = pitchesLeft pitch e := by
  unfold pitchesLeft at *
  bv_omega

theorem one_le_pitchesLeft (h : e.deadline ≠ pitch) : 1 ≤ pitchesLeft pitch e := by
  unfold pitchesLeft
  bv_omega

/-- A pitch counts the deadlines down and takes those it reaches (R140). -/
theorem SpreadWithin.next (h : SpreadWithin 8 pitch cs) :
    SpreadWithin 7 (pitch + 1) (cs.filter (fun c => c.deadline != pitch + 1)) := by
  have hleft (c : ConfirmEntry) (hc : c ∈ cs) : pitchesLeft (pitch + 1) c + 1 = pitchesLeft pitch c :=
    pitchesLeft_next (h.1 c hc).1
  have hrange : ∀ c ∈ cs.filter (fun c => c.deadline != pitch + 1),
      1 ≤ pitchesLeft (pitch + 1) c ∧ pitchesLeft (pitch + 1) c ≤ 7 := by
    intro c hc
    obtain ⟨hmem, hd⟩ := List.mem_filter.1 hc
    have hcount := hleft c hmem
    have hlong := (h.1 c hmem).2
    exact ⟨one_le_pitchesLeft (bne_iff_ne.1 hd), by omega⟩
  refine ⟨hrange, fun n h1 h8 => ?_⟩
  by_cases hn : n = 8
  · refine (Nat.le_of_eq (List.countP_eq_zero.2 fun c hc => ?_)).trans (Nat.zero_le _)
    have := (hrange c hc).2
    simp only [decide_eq_true_eq]
    omega
  · calc (cs.filter _).countP (fun c => decide (n ≤ pitchesLeft (pitch + 1) c))
        ≤ cs.countP (fun c => decide (n ≤ pitchesLeft (pitch + 1) c)) := List.filter_sublist.countP_le
      _ ≤ cs.countP (fun c => decide (n + 1 ≤ pitchesLeft pitch c)) := List.countP_mono_left fun c hc a => by
          rw [← hleft c hc]
          simpa using a
      _ ≤ 7 + 1 - n := (h.2 (n + 1) (by omega) (by omega)).trans (by omega)

/-- One entry within the confirm window joins a list from which the pitch has taken its deadlines (R139). -/
theorem SpreadWithin.join {w : Nat} (h : SpreadWithin 7 pitch cs) (jar : Word32) (hw : 1 ≤ w ∧ w ≤ 8) :
    SpreadWithin 8 pitch (cs ++ [⟨jar, pitch + BitVec.ofNat 32 w⟩]) := by
  have hleft : pitchesLeft pitch ⟨jar, pitch + BitVec.ofNat 32 w⟩ = w := by
    unfold pitchesLeft
    bv_omega
  refine ⟨fun c hc => ?_, fun n h1 h8 => ?_⟩
  · rcases List.mem_append.1 hc with hc | hc
    · have := h.1 c hc
      omega
    · rw [List.mem_singleton.1 hc, hleft]
      omega
  · have := h.2 n h1 h8
    rw [List.countP_append, List.countP_singleton]
    split <;> omega

theorem SpreadWithin.grown (h : SpreadWithin 7 pitch cs) : SpreadWithin 8 pitch cs :=
  ⟨fun c hc => ⟨(h.1 c hc).1, (h.1 c hc).2.trans (by decide)⟩, fun n h1 h8 => (h.2 n h1 h8).trans (by omega)⟩

/-! ### A forward pitch (R139, R140) -/

theorem ConfirmsSpread.ofList (h : SpreadWithin 8 pitch cs) (hp : s.track.pitchCount = pitch)
    (hc : s.reject.confirms = cs) : ConfirmsSpread s := by
  rw [confirmsSpread_iff, hp, hc]
  exact h

theorem forwardPitch_pitchCount (pins : PitchPins) (order : List PitchAct) (hg : GateAndBanks s) :
    (forwardPitch pins order s).track.pitchCount = s.track.pitchCount + 1 := by
  obtain ⟨u, hu, _, _, _, _, k, _⟩ := forwardPitch_keeps pins order hg
  exact (k.fixedFields rfl).2.1.trans (congrArg Fixed.pitchCount hu)

/-- A pitch takes its deadlines from the list, and adds one entry at most, whose deadline lies a confirm window on. -/
theorem forwardPitch_confirms (order : List PitchAct) (hg : GateAndBanks s) :
    (forwardPitch pins order s).reject.confirms = notDue s
      ∨ ∃ jar, (forwardPitch pins order s).reject.confirms
        = notDue s ++ [⟨jar, s.track.pitchCount + 1 + BitVec.ofNat 32 s.params.confirmWindow⟩] := by
  cases hf : frozen s with
  | true =>
    refine .inl ?_
    rw [forwardPitch_frozen order hf, remakeDecision_reject, confirmDeadlines_reject]
    rfl
  | false =>
    obtain ⟨v, hcut⟩ := pitch_arrivalCut (pins := pins) order hg hf
    obtain ⟨hcount, _, hparams, _⟩ := hcut.clocks
    have hbefore : v.reject.confirms = notDue s := by rw [hcut.before]
    have hafter : (forwardPitch pins order s).reject.confirms
        = (arrivalAt v.track.geometry.j arriveJ v).reject.confirms := by rw [hcut.after]
    rw [hafter, ← hbefore]
    unfold arrivalAt
    split
    · rename_i e _
      refine (arriveJ_confirms e v).imp_right fun h => ⟨e.jar, ?_⟩
      rw [h, confirmFor, hcount, hparams]
    · exact .inl rfl

theorem forwardPitch_spread (order : List PitchAct) (hg : GateAndBanks s) (hp : ParamsOk s.params)
    (h : ConfirmsSpread s) : ConfirmsSpread (forwardPitch pins order s) := by
  have hnext : SpreadWithin 7 (s.track.pitchCount + 1) (notDue s) := ((confirmsSpread_iff s).1 h).next
  have hcount := forwardPitch_pitchCount pins order hg
  obtain ⟨_, _, _, _, _, _, _, _, _, hwindow⟩ := hp
  rcases forwardPitch_confirms (pins := pins) order hg with hc | ⟨jar, hc⟩
  · exact .ofList hnext.grown hcount hc
  · exact .ofList (hnext.join jar hwindow) hcount hc

/-! ### The other commands -/

/-- The pitch count stands, and no confirm entry joins the list. -/
def NoneConfirms (s t : State) : Prop :=
  t.track.pitchCount = s.track.pitchCount ∧ t.reject.confirms.Sublist s.reject.confirms

theorem NoneConfirms.spread (h : NoneConfirms s t) (hs : ConfirmsSpread s) : ConfirmsSpread t :=
  .ofList (((confirmsSpread_iff s).1 hs).sublist h.2) h.1 rfl

theorem Keeps.noneConfirms {o : Scope} (k : Keeps o s t) (h : o.conf = true) : NoneConfirms s t :=
  ⟨(k.confirms h).2.1, by rw [(k.confirms h).1]⟩

/-- The commands of the Reject Gate itself. -/
def gateCommand : Instr → Bool
  | .rejConf | .rejOutPulseEnd | .confirmDeadline => true
  | _ => false

/-- The confirm list, the pulse and the pitch count are followed, and nothing else. -/
def Scope.gateOnly : Scope := ⟨false, false, false, false, true, false, false, false, false, false⟩

/-- A plain command that is not the gate's leaves the list and the pitch count alone, of which `exec_plain_keeps` claims
nothing, since it holds of the gate's commands too. -/
theorem exec_gateStands (h : plainCommand c = true) (hg : gateCommand c = false) : KeepsNext Scope.gateOnly c s := by
  cases c with
  | forwardPitch | reversePitch | indexPulse | powerOn | resetInput | startup => simp [plainCommand] at h
  | rejConf | rejOutPulseEnd | confirmDeadline => simp [gateCommand] at hg
  | capLowAsserted | capLowReleased =>
    exact keepsNext_running rfl ((keeps_inputs _).trans (keeps_setHold _ _ (fun a => Bool.noConfusion a)))
  | liftFltAsserted => exact keepsNext_running rfl ((keeps_inputs _).trans keeps_liftFault)
  | frameIgnored => exact ⟨_, rfl, keeps_whenReceiving _ (keeps_foldl _ _ (fun _ b => keeps_rxByte b rfl) s)⟩
  | frameGapTimeout => exact keepsNext_running rfl (keeps_port _ rfl)
  | unknown | queryUnit | readStatus | readSettings | readCounts | readDisposition =>
    exact keepsNext_query rfl (fun _ => rfl) rfl
  | readHead => exact keepsNext_query rfl (fun _ => by unfold readHeadBlock; split <;> rfl) rfl
  | readRecipe => exact keepsNext_request rfl (fun _ => keeps_readRecipe _) rfl
  | fetchRecords => exact keepsNext_request rfl (fun _ => keeps_fetchRecords _) rfl
  | readTrace => exact keepsNext_request rfl (fun _ => keeps_readTrace _) rfl
  | armCapture => exact keepsNext_request rfl (fun _ => keeps_armCapture _) rfl
  | releaseCapture => exact keepsNext_request rfl (fun _ => keeps_capture _) rfl
  | stageRecipe => exact keepsNext_request rfl (fun _ => keeps_stageRecipe _) rfl
  | discardStaged => exact keepsNext_request rfl (fun _ => keeps_discardStaged) rfl
  | setDisposition => exact keepsNext_request rfl (fun _ => keeps_setDisposition rfl _) rfl
  | setGeometry => exact keepsNext_request rfl (fun _ => keeps_setGeometry rfl rfl _) rfl
  | setHeadService => exact keepsNext_request rfl (fun _ => keeps_setHeadService _) rfl
  | setLineParameters => exact keepsNext_request rfl (fun _ => keeps_setLineParameters rfl _) rfl
  | setAlertMask => exact keepsNext_request rfl (fun _ => keeps_setAlertMask rfl rfl _) rfl
  | setZeroReference => exact keepsNext_request rfl (fun _ => keeps_setZero rfl) rfl
  | setTraceMode => exact keepsNext_request rfl (fun _ => keeps_setTraceMode rfl _) rfl
  | commitSettings => exact keepsNext_request rfl (fun _ => keeps_commitSettings rfl) rfl
  | startRun => exact keepsNext_request rfl (fun _ => keeps_startRun rfl _ _) rfl
  | stopRun => exact ⟨_, rfl, keeps_serveAt _ _ _ _ (fun _ => keeps_stopRun rfl) rfl⟩
  | hold => exact ⟨_, rfl, keeps_serveAt _ _ _ _ (fun _ => keeps_holdBlock) rfl⟩
  | resume => exact ⟨_, rfl, keeps_serveAt _ _ _ _ (fun _ => keeps_resumeBlock) rfl⟩
  | requestChangeover => exact keepsNext_request rfl (fun _ => keeps_requestChangeover rfl _ _) rfl
  | cancelChangeover => exact keepsNext_request rfl (fun _ => keeps_cancelChangeover rfl) rfl
  | insertGaps => exact keepsNext_request rfl (fun _ => keeps_insertGaps _) rfl
  | clearFault => exact keepsNext_request rfl (fun _ => keeps_clearFault rfl rfl _) rfl
  | homeLift => exact keepsNext_request rfl (fun _ => keeps_homeLift _) rfl
  | ackAlerts => exact keepsNext_request rfl (fun _ => keeps_ackAlerts rfl _) rfl
  | clearHeadStats => exact keepsNext_request rfl (fun _ => keeps_clearHeadStats _) rfl
  | linkTimeout =>
    exact keepsNext_running rfl (keeps_ite
      ((keeps_port _ rfl).trans (keeps_setHold _ _ (fun a => Bool.noConfusion a))) (.refl s))
  | commitWriteEnd =>
    refine keepsNext_running rfl ?_
    split
    · exact keeps_writeEnd rfl _ ‹_›
    · exact .refl s
  | homeStep => exact keepsNext_running rfl (keeps_homeStep _)
  | homeFailure => exact keepsNext_running rfl (keeps_ite ((keeps_inputs _).trans keeps_homeFails) (.refl s))
  | seekStep => exact keepsNext_running rfl keeps_seekStep
  | settleEnd => exact keepsNext_running rfl (keeps_ite keeps_settleEnd (.refl s))
  | exchangeStart => exact keepsNext_running rfl (keeps_scanTurn rfl)
  | replyReceived | replyWindowExpiry | replyGapTimeout =>
    exact keepsNext_running rfl (keeps_whenInFlight _ (fun _ => keeps_endExchange rfl _ _))
  | zeroStale => exact keepsNext_running rfl (keeps_ite keeps_zeroStaleTest (.refl s))
  | batchEnd =>
    exact keepsNext_running rfl (keeps_ite
      ((keeps_sampleLift _).trans (keeps_batchEnd (fun a => Bool.noConfusion a))) (keeps_sampleLift _))
  | retiringEmptied lp =>
    refine keepsNext_running rfl ?_
    simp only
    split
    · rename_i h
      simp only [Bool.and_eq_true, beq_iff_eq] at h
      exact ((keeps_sampleLift lp).trans (keeps_retiringEmptied h.1)).trans keeps_waitTurretEnd
    · exact keeps_sampleLift lp
  | waitTurretEnd => exact keepsNext_running rfl ((keeps_sampleLift _).trans keeps_waitTurretEnd)
  | drainEnd => exact keepsNext_running rfl keeps_drainEnd
  | autoMarkOut => exact keepsNext_running rfl (keeps_autoMarkOut _)
  | linkMarkOut => exact keepsNext_running rfl (keeps_linkMarkOut _)
  | captureFrozen => exact keepsNext_running rfl keeps_captureFreezes
  | millisecondTick => exact keepsNext_running rfl ((keeps_time _ rfl).trans (keeps_port _ rfl))
  | lineReplySent =>
    refine keepsNext_running rfl ?_
    split
    · exact keeps_port _ rfl
    · exact .refl s

theorem NoneConfirms.refl (s : State) : NoneConfirms s s := ⟨rfl, List.Sublist.refl _⟩

theorem confirmPulse_noneConfirms (s : State) : NoneConfirms s (confirmPulse s) := by
  cases h : s.reject.confirms with
  | nil =>
    rw [confirmPulse_nil h]
    exact .refl s
  | cons c rest =>
    rw [confirmPulse_cons h]
    exact ⟨rfl, h ▸ List.sublist_cons_self c rest⟩

theorem confirmDeadlines_noneConfirms (s : State) : NoneConfirms s (confirmDeadlines s) := by
  refine ⟨((keeps_confirmDeadlines (o := Scope.acts) rfl).fixedFields rfl).2.1, ?_⟩
  rw [confirmDeadlines_reject]
  exact List.filter_sublist

/-- The commands of the gate take entries from the list at most (R138, R140, R141). -/
theorem exec_gateCommand_noneConfirms (hg : gateCommand c = true) (he : exec c s = .next t) : NoneConfirms s t := by
  cases c <;> simp [gateCommand] at hg
  case rejConf => cases he; exact whenRunning_keeps (.refl s) (confirmPulse_noneConfirms s)
  case confirmDeadline => cases he; exact whenRunning_keeps (.refl s) (confirmDeadlines_noneConfirms s)
  case rejOutPulseEnd =>
    cases he
    refine whenRunning_keeps (.refl s) ?_
    split
    · exact ⟨rfl, List.Sublist.refl _⟩
    · exact .refl s

theorem exec_plain_noneConfirms (h : plainCommand c = true) (he : exec c s = .next t) : NoneConfirms s t := by
  cases hg : gateCommand c with
  | true => exact exec_gateCommand_noneConfirms hg he
  | false =>
    obtain ⟨t', he', k⟩ := exec_gateStands (s := s) h hg
    cases he.symm.trans he'
    exact k.noneConfirms rfl

theorem reversePitch_noneConfirms (s : State) : NoneConfirms s (reversePitch s) :=
  (reversePitch_keeps (o := Scope.gateOnly)).noneConfirms rfl

theorem indexPulse_noneConfirms (s : State) : NoneConfirms s (indexPulse s) :=
  (indexPulse_keeps (o := Scope.gateOnly)).noneConfirms rfl

/-! ### Every command -/

theorem confirmsSpread_ofEmpty (h : s.reject.confirms = []) : ConfirmsSpread s := by
  rw [confirmsSpread_iff, h]
  exact ⟨fun _ hc => absurd hc List.not_mem_nil, fun _ _ _ => Nat.zero_le _⟩

theorem startUp_confirms (pins : StartupPins) (s : State) : (startUp pins s).reject.confirms = [] := by
  rw [startUp_eq, startWith_frame]
  rfl

theorem exec_spread (c : Instr) (hg : GateAndBanks s) (hp : AllParamsOk s) (h : ConfirmsSpread s)
    (he : exec c s = .next t) : ConfirmsSpread t := by
  cases hc : plainCommand c with
  | true => exact (exec_plain_noneConfirms hc he).spread h
  | false =>
    rcases exec_turns_and_resets hc with ⟨pins, order, rfl⟩ | rfl | rfl | ⟨cause, hreset⟩ | ⟨pins, rfl⟩
    · cases he; exact whenRunning_keeps h (forwardPitch_spread order hg hp.1 h)
    · cases he; exact whenRunning_keeps h ((reversePitch_noneConfirms s).spread h)
    · cases he; exact whenRunning_keeps h ((indexPulse_noneConfirms s).spread h)
    · cases (hreset s).symm.trans he
      exact confirmsSpread_ofEmpty rfl
    · cases he
      split
      · exact confirmsSpread_ofEmpty (startUp_confirms pins s)
      · exact h

end Sys2Proof.Machine

namespace Sys2Proof.Proofs

open Sys2Proof.Machine

/-- Settles O23: a pitch makes room for the one entry it may add, and the entries with one or more pitches left are all
of the list. -/
theorem confirmListBounded : Obligations.ConfirmListBounded := by
  intro s t hg hp h hstep
  have hspread : ConfirmsSpread t := by
    rcases step_cases hstep with rfl | ⟨c, rest, _, he⟩
    · exact h
    · exact exec_spread (s := { s with pending := rest }) c hg hp h he
  exact ⟨hspread, SpreadWithin.length_le hspread⟩

end Sys2Proof.Proofs
end

section
/-! PROOFS. SET DISPOSITION: the codes of its list entries, the table they leave, and the result code (R134 to R136). -/

-- One declaration is checked after another: side by side they take more threads than the memory limit allows.
set_option Elab.async false

namespace Sys2Proof.Machine

variable {s : State} {p : List Byte} {q : RawDisp} {x : FinalClass × DispEntry} {l : List (FinalClass × DispEntry)}
  {raws : List RawDisp} {n : Nat} {c : FinalClass}

/-! ### The codes of a list entry (Table 12-2) -/

/-- A list entry that R136 takes: each value is a code. -/
def DispTaken (q : RawDisp) : Prop := 1 ≤ q.cls ∧ q.cls ≤ 13 ∧ q.action ≤ 1 ∧ q.policy ≤ 2 ∧ q.alert ≤ 1

/-- The list entry that gives a class its disposition. -/
def rawDisp (x : FinalClass × DispEntry) : RawDisp :=
  ⟨(classIx x.1).val + 1, x.2.action.code, x.2.policy.code, bit x.2.alert⟩

theorem classOf_classIx (c : FinalClass) : classOf ((classIx c).val + 1) = some c := by cases c <;> rfl

theorem actionOf_code (a : Action) : actionOf a.code = some a := by cases a <;> rfl

theorem policyOf_code (r : RecordPolicy) : policyOf r.code = some r := by cases r <;> rfl

theorem flagOf_bit (b : Bool) : flagOf (bit b) = some b := by cases b <;> rfl

theorem dispOf_rawDisp (x : FinalClass × DispEntry) : dispOf (rawDisp x) = some x := by
  simp only [dispOf, rawDisp, classOf_classIx, actionOf_code, policyOf_code, flagOf_bit]

theorem classIx_surjective : Function.Surjective classIx := fun i =>
  ⟨[FinalClass.noCap, .headFault, .interrupted, .crossThread, .overTorque, .underTorque, .angleOut, .steamLow, .bulge,
    .unverified, .dud, .lowVacuum, .good][i], by fin_cases i <;> rfl⟩

theorem exists_action_of_le (h : n ≤ 1) : ∃ a : Action, a.code = n := by
  interval_cases n
  · exact ⟨.pass, rfl⟩
  · exact ⟨.reject, rfl⟩

theorem exists_policy_of_le (h : n ≤ 2) : ∃ r : RecordPolicy, r.code = n := by
  interval_cases n
  · exact ⟨.none, rfl⟩
  · exact ⟨.record, rfl⟩
  · exact ⟨.trace, rfl⟩

theorem exists_bit_of_le (h : n ≤ 1) : ∃ b, bit b = n := by
  interval_cases n
  · exact ⟨false, rfl⟩
  · exact ⟨true, rfl⟩

theorem exists_rawDisp (h : DispTaken q) : ∃ x, rawDisp x = q := by
  obtain ⟨hlow, hhigh, haction, hpolicy, halert⟩ := h
  obtain ⟨c, hc⟩ := classIx_surjective ⟨q.cls - 1, by omega⟩
  obtain ⟨a, ha⟩ := exists_action_of_le haction
  obtain ⟨r, hr⟩ := exists_policy_of_le hpolicy
  obtain ⟨b, hb⟩ := exists_bit_of_le halert
  refine ⟨(c, ⟨a, r, b⟩), ?_⟩
  have hcls : (classIx c).val + 1 = q.cls := by
    rw [hc]
    exact Nat.sub_add_cancel hlow
  simp only [rawDisp, hcls, ha, hr, hb]

theorem classOf_range (h : classOf n = some c) : 1 ≤ n ∧ n ≤ 13 := by
  unfold classOf at h
  split at h <;> simp at h ⊢

theorem actionOf_range {a : Action} (h : actionOf n = some a) : n ≤ 1 := by
  unfold actionOf at h
  split_ifs at h <;> omega

theorem policyOf_range {r : RecordPolicy} (h : policyOf n = some r) : n ≤ 2 := by
  unfold policyOf at h
  split_ifs at h <;> omega

theorem flagOf_range {b : Bool} (h : flagOf n = some b) : n ≤ 1 := by
  unfold flagOf at h
  split_ifs at h <;> omega

theorem dispTaken_of_dispOf (h : dispOf q = some x) : DispTaken q := by
  unfold dispOf at h
  split at h
  · rename_i hclass haction hpolicy halert
    obtain ⟨hlow, hhigh⟩ := classOf_range hclass
    exact ⟨hlow, hhigh, actionOf_range haction, policyOf_range hpolicy, flagOf_range halert⟩
  · cases h

/-- A list entry with a value that is no code is refused. -/
theorem dispOf_refused (h : ¬DispTaken q) : dispOf q = none :=
  Option.eq_none_iff_forall_ne_some.2 fun _ hx => h (dispTaken_of_dispOf hx)

/-! ### The whole list (R136) -/

theorem exists_rawDisps (h : ∀ q ∈ raws, DispTaken q) : ∃ l : List (FinalClass × DispEntry), l.map rawDisp = raws :=
  (Set.range_list_map rawDisp).ge fun q hq => exists_rawDisp (h q hq)

theorem mapM_rawDisps (l : List (FinalClass × DispEntry)) : (l.map rawDisp).mapM dispOf = some l := by
  induction l with
  | nil => rfl
  | cons x l ih => rw [List.map_cons, List.mapM_cons, dispOf_rawDisp, ih]; rfl

theorem mapM_dispOf_refused (h : ∃ q ∈ raws, ¬DispTaken q) : raws.mapM dispOf = none := by
  induction raws with
  | nil => obtain ⟨q, hq, _⟩ := h; cases hq
  | cons q raws ih =>
    rw [List.mapM_cons]
    rw [List.exists_mem_cons_iff] at h
    rcases h with hq | hrest
    · rw [dispOf_refused hq]; rfl
    · rw [ih hrest]
      cases dispOf q <;> rfl

theorem setDispositionBlock_refused (h : ∃ q ∈ rawDispsOf (p.drop 1), ¬DispTaken q) :
    setDispositionBlock p s = .plain .badValue s := by
  rw [setDispositionBlock, mapM_dispOf_refused h]

theorem setDispositionBlock_taken (h : l.map rawDisp = rawDispsOf (p.drop 1)) : setDispositionBlock p s
    = .plain (doneOr (l.any clampsAction)) { s with dispTable := l.foldl writeDisp s.dispTable } := by
  rw [setDispositionBlock, ← h, mapM_rawDisps]

/-! ### The table (R135, R136) -/

/-- What the table holds for a class that is given `d`: a fixed class keeps REJECT (R135). -/
def clamped (c : FinalClass) (d : DispEntry) : DispEntry :=
  { d with action := if fixedReject c then .reject else d.action }

theorem fixedReject_iff (c : FinalClass) : fixedReject c = true ↔ (classIx c).val ≤ 3 ∨ (classIx c).val = 8 := by
  cases c <;> simp [fixedReject, classIx]

theorem clamped_code (c : FinalClass) (d : DispEntry) : (clamped c d).action.code
    = if (classIx c).val ≤ 3 ∨ (classIx c).val = 8 then 1 else d.action.code := by
  rw [clamped, apply_ite Action.code]
  exact if_congr (fixedReject_iff c) rfl rfl

theorem writeDisp_same (t : Vector DispEntry 13) (c : FinalClass) (d : DispEntry) :
    (writeDisp t (c, d))[classIx c] = clamped c d := Vector.getElem_set_self _

theorem writeDisp_other (h : x.1 ≠ c) (t : Vector DispEntry 13) : (writeDisp t x)[classIx c] = t[classIx c] := by
  simp only [writeDisp, Fin.getElem_fin, Vector.getElem_set]
  exact if_neg fun a => h (classIx_injective (Fin.ext a))

/-- The last list entry of a class gives its disposition, and a class with none keeps its own. -/
theorem foldl_writeDisp_get (l : List (FinalClass × DispEntry)) (t : Vector DispEntry 13) (c : FinalClass) :
    (l.foldl writeDisp t)[classIx c]
      = (((l.filter (fun x => x.1 == c)).getLast?).map (fun x => clamped c x.2)).getD t[classIx c] := by
  induction l using List.reverseRecOn with
  | nil => rfl
  | append_singleton l x ih =>
    obtain ⟨k, d⟩ := x
    rw [List.foldl_append, List.foldl_cons, List.foldl_nil, List.filter_append]
    by_cases hk : k = c
    · subst hk
      rw [writeDisp_same]
      simp
    · rw [writeDisp_other hk, ih]
      simp [hk]

/-- The list entries of one class. -/
theorem filter_rawDisps (c : FinalClass) (l : List (FinalClass × DispEntry)) :
    (l.map rawDisp).filter (fun q => q.cls == (classIx c).val + 1) = (l.filter (fun x => x.1 == c)).map rawDisp := by
  rw [List.filter_map]
  refine congrArg _ (List.filter_congr fun x _ => ?_)
  rw [Bool.eq_iff_iff, Function.comp_apply, beq_iff_eq, beq_iff_eq, rawDisp, Nat.add_right_cancel_iff]
  exact ⟨fun h => classIx_injective (Fin.ext h), fun h => by rw [h]⟩

/-- A list entry gives PASS to a fixed class (R135). -/
def PassesFixed (q : RawDisp) : Prop := q.action = 0 ∧ (q.cls ≤ 4 ∨ q.cls = 9)

theorem clampsAction_iff (x : FinalClass × DispEntry) : clampsAction x = true ↔ PassesFixed (rawDisp x) := by
  have haction : x.2.action = .pass ↔ x.2.action.code = 0 := by cases x.2.action <;> simp [Action.code]
  rw [clampsAction, Bool.and_eq_true, fixedReject_iff, beq_iff_eq, haction, and_comm, PassesFixed, rawDisp]
  exact and_congr_right fun _ => or_congr Nat.lt_succ_iff.symm (by simp)

theorem any_clampsAction_iff (l : List (FinalClass × DispEntry)) :
    l.any clampsAction = true ↔ ∃ q ∈ l.map rawDisp, PassesFixed q := by
  simp only [List.any_eq_true, clampsAction_iff, List.mem_map, exists_exists_and_eq_and]

/-- A class with no list entry keeps its disposition. -/
theorem foldl_writeDisp_kept (h : ∀ q ∈ l.map rawDisp, q.cls ≠ (classIx c).val + 1) (t : Vector DispEntry 13) :
    (l.foldl writeDisp t)[classIx c] = t[classIx c] := by
  have hnone : l.filter (fun x => x.1 == c) = [] := by
    rw [← List.map_eq_nil_iff (f := rawDisp), ← filter_rawDisps, List.filter_eq_nil_iff]
    simpa using h
  rw [foldl_writeDisp_get, hnone]
  rfl

/-- The last list entry of a class gives its three fields, a fixed class its action. -/
theorem foldl_writeDisp_given
    (h : ((l.map rawDisp).filter (fun q => q.cls == (classIx c).val + 1)).getLast? = some q) (t : Vector DispEntry 13) :
    (l.foldl writeDisp t)[classIx c].policy.code = q.policy ∧ bit (l.foldl writeDisp t)[classIx c].alert = q.alert
      ∧ (l.foldl writeDisp t)[classIx c].action.code
        = if (classIx c).val ≤ 3 ∨ (classIx c).val = 8 then 1 else q.action := by
  rw [filter_rawDisps, List.getLast?_map, Option.map_eq_some_iff] at h
  obtain ⟨x, hlast, rfl⟩ := h
  have hentry : (l.foldl writeDisp t)[classIx c] = clamped c x.2 := by
    rw [foldl_writeDisp_get, hlast]
    rfl
  rw [hentry]
  exact ⟨rfl, rfl, clamped_code c x.2⟩

end Sys2Proof.Machine

namespace Sys2Proof.Proofs

open Sys2Proof.Machine

/-- Settles O55: a list with each value a code is the list of dispositions it gives, and these are written in turn. -/
theorem dispositionSet : Obligations.DispositionSet := by
  intro p s h hp g raws fits
  refine ⟨fun hbad => next_ready h hp rfl (setDispositionBlock_refused hbad), fun hall => ?_⟩
  obtain ⟨l, hl⟩ := exists_rawDisps hall
  refine ⟨_, _, next_ready h hp rfl (setDispositionBlock_taken hl), fun hclamp => ?_, fun hclean => ?_, fun c => ?_⟩
  · rw [(any_clampsAction_iff l).2 (by rw [hl]; exact hclamp)]
    rfl
  · have hnone : l.any clampsAction = false := Bool.eq_false_iff.2 fun a => by
      obtain ⟨q, hq, haction, hfixed⟩ := (any_clampsAction_iff l).1 a
      exact hclean q (hl ▸ hq) haction hfixed
    rw [hnone]
    rfl
  · obtain ⟨k, rfl⟩ := classIx_surjective c
    refine ⟨fun hnone => foldl_writeDisp_kept (by rw [hl]; exact hnone) _, fun q hq => ?_⟩
    exact foldl_writeDisp_given (by rw [hl]; exact hq) _

end Sys2Proof.Proofs
end

section
/-! PROOFS. Records on the line and the Capture Unit: the fields of a Jar Record with the codes of what is absent, FETCH
RECORDS, ARM CAPTURE, RELEASE CAPTURE, and the freeze (R146, R148, R153 to R155, R169, R172). -/

-- One declaration is checked after another: side by side they take more threads than the memory limit allows.
set_option Elab.async false

namespace Sys2Proof.Machine

variable {s : State}

/-! ### The codes of a Jar Record (R172, Tables 12-2 and 12-3) -/

theorem recordCodes : RecordCodes := ⟨rfl, rfl, rfl, rfl⟩

theorem classNumber_eq (c : Option FinalClass) : classNumber c = (c.map (fun c => (classIx c).val + 1)).getD 0 := by
  cases c <;> rfl

/-- A seal time that is the code of an absent one is carried 1 ms early (R169). -/
theorem sealTimeCode_some (v : Word32) :
    sealTimeCode (some v) = if v = 0xFFFFFFFF#32 then 0xFFFFFFFE else v.toNat :=
  if_congr (BitVec.toNat_inj (y := 0xFFFFFFFF#32)) rfl rfl

theorem deflectionCode_some (d : Int) : deflectionCode (some d) = (d % 65536).toNat := BitVec.toNat_ofInt d

/-! ### A Jar Record on the line (Table 12-6) -/

theorem length_recordBytes (r : JarRecord) : (recordBytes r).length = 44 := by
  unfold recordBytes
  simp only [List.length_append, length_beBytes]

/-- The fields of Table 12-6, with the seal time carried as `v` and the deflection as `d`. -/
def recordFields (r : JarRecord) (v d : Nat) : List (Nat × Nat) :=
  [(4, r.jar.toNat), (2, r.batch), (2, r.recipeId), (1, r.head.number),
    (1, (r.finalClass.map (fun c => (classIx c).val + 1)).getD 0), (1, r.disposition.code), (2, setBits r.flags),
    (4, r.admissionPitch.toNat), (4, r.admissionTime.toNat), (4, v), (1, r.attempts),
    (1, (r.lastOutcome.map CycleOutcome.code).getD 0), (2, r.peakTorque.getD 0xFFFF), (2, r.seatAngle.getD 0xFFFF),
    (2, r.fillTemp.getD 0xFFFF), (2, d), (2, r.dReq.getD 0xFFFF), (2, r.dt.getD 0xFFFF),
    (4, (r.trace.map (fun t => t.start.toNat)).getD 0), (1, (r.trace.map (·.length)).getD 0)]

theorem recordBytes_fields (r : JarRecord) :
    recordBytes r = fieldBytes (recordFields r (sealTimeCode r.sealTime) (deflectionCode r.d)) := by
  unfold recordBytes recordFields
  simp only [classNumber_eq, fieldBytes_cons, fieldBytes_nil, List.append_assoc, List.append_nil]

theorem carries_recordBytes (r : JarRecord) {v d : Nat} (hv : sealTimeCode r.sealTime = v)
    (hd : deflectionCode r.d = d) : Carries (recordBytes r) (recordFields r v d) := by
  rw [recordBytes_fields, hv, hd]
  exact carries_fieldBytes _

/-! ### FETCH RECORDS (R148) -/

theorem fetchRecordsBlock_byte (b : Byte) (s : State) :
    let n := clampTo 1 5 b.toNat
    fetchRecordsBlock [b] s = ⟨{ s with records.queue := s.records.queue.drop n },
      if n = b.toNat then .done else .doneClamped,
      BitVec.ofNat 8 (s.records.queue.take n).length :: (s.records.queue.take n).flatMap recordBytes
        ++ beBytes 2 (s.records.queue.length - n)⟩ := by
  simp only [fetchRecordsBlock, field_byte, doneOr_bne, List.length_drop, beBytes_one]
  rfl

/-! ### ARM CAPTURE (R153) -/

theorem field_firstByte (a : Byte) (q : List Byte) : field (a :: q) 0 1 = a.toNat := by simp [field, beValue]

theorem field_secondByte (a b : Byte) (q : List Byte) : field (a :: b :: q) 1 1 = b.toNat := by simp [field, beValue]

/-- Two clamped values are answered DONE only when the clamp moves neither (R153). -/
theorem doneOr_bne_or_bne (k a n b : Nat) :
    doneOr (k != a || n != b) = if k = a ∧ n = b then .done else .doneClamped := by
  by_cases hk : k = a <;> by_cases hn : n = b <;> simp [doneOr, hk, hn]

/-- The result code of ARM CAPTURE with the class `a` and the segments `b`. -/
def armResult (a b : Byte) : ResultCode :=
  if clampTo 1 13 a.toNat = a.toNat ∧ min b.toNat 64 = b.toNat then .done else .doneClamped

theorem clampPost_eq (n : Nat) : clampTo 0 64 n = min n 64 := (clampTo_eq _ (Nat.zero_le _)).trans (Nat.zero_max _)

theorem armCaptureBlock_off (a b : Byte) (h : s.capture.state = .off) : armCaptureBlock [a, b] s
    = .plain (armResult a b) { s with capture := ⟨.armed, clampTo 1 13 a.toNat, min b.toNat 64, 0⟩ } := by
  simp only [armCaptureBlock, h, field_firstByte, field_secondByte, clampPost_eq, doneOr_bne_or_bne, armResult]

theorem armCaptureBlock_armed (a b : Byte) (h : s.capture.state = .armed) : armCaptureBlock [a, b] s
    = .plain (armResult a b) { s with capture.trigger := clampTo 1 13 a.toNat, capture.post := min b.toNat 64 } := by
  simp only [armCaptureBlock, h, field_firstByte, field_secondByte, clampPost_eq, doneOr_bne_or_bne, armResult]

theorem armCaptureBlock_refused (p : List Byte) (h : s.capture.state = .triggered ∨ s.capture.state = .frozen) :
    armCaptureBlock p s = .plain .wrongState s := by
  rcases h with h | h <;> simp only [armCaptureBlock, h]

/-! ### The freeze (R154) -/

theorem captureFreezes_notDue (h : ¬(s.capture.state = .triggered ∧ s.capture.remaining = 0)) : captureFreezes s = s :=
  if_neg (by simpa using h)

theorem captureFreezes_due (h : s.capture.state = .triggered) (hr : s.capture.remaining = 0) :
    captureFreezes s = latchAlert .captureFrozen { s with capture.state := .frozen } :=
  if_pos (by simp [h, hr])

theorem exec_captureFrozen (h : s.power = .running) : exec .captureFrozen s = .next (captureFreezes s) :=
  congrArg Host.Outcome.next (whenRunning_of_running _ h)

end Sys2Proof.Machine

namespace Sys2Proof.Proofs

open Sys2Proof.Machine

/-- Settles O57: the record as the bytes of its fields, each message as the answer of its block after the good frame,
and the freeze by whether it is due. -/
theorem recordsFetchedAndCaptureServed : Obligations.RecordsFetchedAndCaptureServed := by
  refine ⟨recordCodes, setsCarried, fun s => ?_⟩
  intro g
  refine ⟨fun r => ⟨length_recordBytes r, ?_⟩, fun b hready => ?_, fun a b hready => ⟨fun hoff => ?_, fun harmed => ?_,
    fun hbusy => ?_⟩, fun hready => ?_, fun hrun => ⟨fun hidle => ?_, fun htriggered hnone => ?_⟩⟩
  · refine carries_recordBytes r ?_ ?_
    · cases r.sealTime with
      | none => rfl
      | some v => exact sealTimeCode_some v
    · cases r.d with
      | none => rfl
      | some d => exact deflectionCode_some d
  · exact next_ready hready rfl rfl (fetchRecordsBlock_byte b g)
  · exact next_ready hready rfl rfl (armCaptureBlock_off a b hoff)
  · exact next_ready hready rfl rfl (armCaptureBlock_armed a b harmed)
  · exact next_ready hready rfl rfl (armCaptureBlock_refused _ hbusy)
  · exact next_ready hready rfl rfl rfl
  · rw [exec_captureFrozen hrun, captureFreezes_notDue hidle]
  · rw [exec_captureFrozen hrun, captureFreezes_due htriggered hnone]
    exact ⟨_, rfl, rfl, rfl⟩

end Sys2Proof.Proofs
end

/-! PROOFS. The line port: what a good frame does, the bytes of a frame that is not served, how a request is answered or
refused, and the sending of a reply (R156 to R158, R162, R171). -/

namespace Sys2Proof.Machine

variable {s : State} {c : Instr} {code : Byte} {fits : Bool} {payload : List Byte} {block : State → Answer}

/-! ### The good frame and the link timer (R156, R162) -/

/-- The state a good frame leaves before a silence ends by it: the buffer empty and the timer restarted. -/
def frameTaken (s : State) : State := restartTimer { s with port.rxBuf := [] }

theorem goodFrame_eq (s : State) :
    goodFrame s = if s.port.timer.state = .expired then setHold .linkSilent false (frameTaken s) else frameTaken s := by
  unfold goodFrame
  simp only [beq_iff_eq]
  rfl

theorem frameTaken_frame (s : State) : frameTaken s = { s with port := (frameTaken s).port } := restartTimer_frame _

theorem frameTaken_rxBuf (s : State) : (frameTaken s).port.rxBuf = [] := by
  unfold frameTaken restartTimer; split <;> rfl

/-- What a good frame does to the port is done before a silence ends. -/
theorem goodFrame_port (s : State) : (goodFrame s).port = (frameTaken s).port := by
  rw [goodFrame_eq]
  split
  · rw [setHold_frame]
  · rfl

theorem goodFrame_timer (s : State) : (s.params.linkTimeout = 0 → (goodFrame s).port.timer.state = .stopped)
    ∧ (s.params.linkTimeout ≠ 0 →
      (goodFrame s).port.timer = ⟨.running, s.timeBase + BitVec.ofNat 32 s.params.linkTimeout⟩) := by
  rw [goodFrame_port]
  exact ⟨restartTimer_stopped (s := { s with port.rxBuf := [] }),
    restartTimer_running (s := { s with port.rxBuf := [] })⟩

theorem goodFrame_connected (h : s.port.timer.state ≠ .expired) :
    goodFrame s = { s with port := (goodFrame s).port } := by
  rw [goodFrame_port, goodFrame_eq, if_neg h]
  exact frameTaken_frame s

/-- A good frame after an expiry ends the silence. -/
theorem goodFrame_silent (hm : HoldMatches s) (h : s.port.timer.state = .expired) :
    HoldTaken .linkSilent false { s with port := (goodFrame s).port } (goodFrame s) := by
  rw [goodFrame_port, ← frameTaken_frame, goodFrame_eq, if_pos h]
  refine setHold_taken .linkSilent false ?_
  rw [frameTaken_frame]
  exact hm

theorem timerDue_iff (s : State) : timerDue s = true ↔
    s.port.timer.state = .running ∧ (s.timeBase - s.port.timer.expiresAt).toNat < 2147483648 := by
  simp [timerDue]

theorem exec_linkTimeout (h : s.power = .running) : exec .linkTimeout s = .next (if timerDue s then
    setHold .linkSilent true { s with port.timer.state := .expired } else s) :=
  congrArg Host.Outcome.next (whenRunning_of_running _ h)

/-! ### Bytes that are not served (R156) -/

/-- Without a lead byte no frame begins. -/
theorem rxBytes_noLead (bytes : List Byte) (hbuf : s.port.rxBuf = []) (h : leadByte ∉ bytes) :
    bytes.foldl rxByte s = s := by
  induction bytes with
  | nil => rfl
  | cons b bytes ih =>
    obtain ⟨hb, hrest⟩ := not_or.1 (List.mem_cons.not.1 h)
    have hstep : rxByte s b = s := by simp [rxByte, hbuf, Ne.symm hb]
    rw [List.foldl_cons, hstep]
    exact ih hrest

/-- The state with these bytes of a frame in progress. -/
def withBuffer (buf : List Byte) (s : State) : State := { s with port.rxBuf := buf }

theorem withBuffer_empty (h : s.port.rxBuf = []) : withBuffer [] s = s := by
  unfold withBuffer
  rw [← h]

/-- The lead, address, code and length bytes of a frame with at most 240 bytes of payload join the empty buffer. -/
theorem rxBytes_head {addr len : Byte} (h : s.port.rxBuf = []) (hlen : len.toNat ≤ 240) :
    [leadByte, addr, code, len].foldl rxByte s = withBuffer [leadByte, addr, code, len] s := by
  have hlong : ¬240 < len.toNat := by omega
  simp [rxByte, h, hlong, withBuffer]

/-- A byte after the length byte ends its frame, which is then judged, or joins it. -/
theorem rxByte_pastLength {buf : List Byte} (b : Byte) (h4 : 4 ≤ buf.length) : rxByte (withBuffer buf s) b
    = if buf.length + 1 = 6 + field (buf ++ [b]) 3 1 then
        if frameIsGood (judgedAddress s) (buf ++ [b]) then goodFrame s else withBuffer [] s
      else withBuffer (buf ++ [b]) s := by
  have hnonempty : buf ≠ [] := List.ne_nil_of_length_pos (by omega)
  have hlength : buf.length ≠ 3 := by omega
  simp [rxByte, withBuffer, hnonempty, hlength, h4]
  rfl

/-- The length byte of a frame in progress stands. -/
theorem field_length_append {buf : List Byte} (h : 4 ≤ buf.length) (l : List Byte) :
    field (buf ++ l) 3 1 = field buf 3 1 := by
  unfold field
  rw [List.drop_append_of_le_length (by omega), List.take_append_of_le_length (by simp; omega)]

/-- Bytes that do not end their frame join it one after another. -/
theorem rxBytes_join (l : List Byte) : ∀ buf : List Byte, 4 ≤ buf.length →
    buf.length + l.length < 6 + field buf 3 1 → l.foldl rxByte (withBuffer buf s) = withBuffer (buf ++ l) s := by
  induction l with
  | nil => intro buf _ _; simp
  | cons b l ih =>
    intro buf h4 h
    rw [List.length_cons] at h
    have hmore : ¬buf.length + 1 = 6 + field (buf ++ [b]) 3 1 := by rw [field_length_append h4]; omega
    have hrest : (buf ++ [b]).length + l.length < 6 + field (buf ++ [b]) 3 1 := by
      rw [field_length_append h4, List.length_append, List.length_singleton]; omega
    rw [List.foldl_cons, rxByte_pastLength b h4, if_neg hmore, ih (buf ++ [b]) (by simp; omega) hrest,
      List.append_assoc, List.singleton_append]

/-- A whole frame: its lead byte, its address, code and length bytes, the payload and the two bytes of its CRC-16. -/
def wholeFrame (addr code : Byte) (payload : List Byte) (crcHi crcLo : Byte) : List Byte :=
  leadByte :: (addr :: code :: BitVec.ofNat 8 payload.length :: payload) ++ [crcHi, crcLo]

/-- A whole frame is good when its CRC-16 is that of its body and its address is the unit's or 0. -/
theorem frameIsGood_wholeFrame (unit : Nat) (addr code crcHi crcLo : Byte) (h : payload.length ≤ 240) :
    frameIsGood unit (wholeFrame addr code payload crcHi crcLo) = true ↔
      beValue [crcHi, crcLo] = (crc16 (addr :: code :: BitVec.ofNat 8 payload.length :: payload)).toNat
        ∧ (addr.toNat = unit ∨ addr.toNat = 0) := by
  have hlen : field (wholeFrame addr code payload crcHi crcLo) 3 1 = payload.length := by
    simp [wholeFrame, field, beValue]; omega
  have haddr : field (wholeFrame addr code payload crcHi crcLo) 1 1 = addr.toNat := by
    simp [wholeFrame, field, beValue]
  have hcrc : (wholeFrame addr code payload crcHi crcLo).drop (4 + payload.length) = [crcHi, crcLo] := by
    simp [wholeFrame, Nat.add_comm 4]
  have hbody : ((wholeFrame addr code payload crcHi crcLo).drop 1).take (3 + payload.length)
      = addr :: code :: BitVec.ofNat 8 payload.length :: payload := by
    simp [wholeFrame, Nat.add_comm 3]
  simp only [frameIsGood, hlen, haddr, hcrc, hbody, Bool.and_eq_true, Bool.or_eq_true, beq_iff_eq]

/-- A whole frame from an empty buffer: it is judged at its last byte, and a bad one changes nothing. -/
theorem rxBytes_wholeFrame (addr code crcHi crcLo : Byte) (hbuf : s.port.rxBuf = []) (h : payload.length ≤ 240) :
    (wholeFrame addr code payload crcHi crcLo).foldl rxByte s
      = if frameIsGood (judgedAddress s) (wholeFrame addr code payload crcHi crcLo) then goodFrame s else s := by
  have hlen : (BitVec.ofNat 8 payload.length).toNat = payload.length := by
    simp only [BitVec.toNat_ofNat]; omega
  have hfield (l : List Byte) : field ([leadByte, addr, code, BitVec.ofNat 8 payload.length] ++ l) 3 1
      = payload.length := by
    rw [field_length_append (by simp), ← hlen]
    simp [field, beValue]
  have hsplit : wholeFrame addr code payload crcHi crcLo
      = [leadByte, addr, code, BitVec.ofNat 8 payload.length] ++ (payload ++ [crcHi]) ++ [crcLo] := by
    simp [wholeFrame]
  rw [hsplit, List.foldl_append, List.foldl_append, rxBytes_head hbuf (by rw [hlen]; exact h),
    rxBytes_join _ _ (by simp) (by have := hfield []; simp at this ⊢; omega), List.foldl_cons, List.foldl_nil,
    rxByte_pastLength crcLo (by simp), if_pos (by rw [List.append_assoc, hfield]; simp; omega), withBuffer_empty hbuf]

theorem exec_frameIgnored (bytes : List Byte) (h : s.power = .running) :
    exec (.frameIgnored bytes) s = .next (if sending s then s else bytes.foldl rxByte s) :=
  congrArg Host.Outcome.next (whenRunning_of_running _ h)

theorem exec_frameGapTimeout (h : s.power = .running) : exec .frameGapTimeout s = .next (withBuffer [] s) :=
  congrArg Host.Outcome.next (whenRunning_of_running _ h)

/-! ### Requests (R156 to R158) -/

/-- A request to this unit is served under its code, by the block of its message and with its length judged. -/
theorem exec_request (hm : c.message = some (code, payload)) (hu : toUnit c = true) :
    ∃ block, ∀ s, exec c s = .next (serve code (lengthFits c) block s) := by
  have hempty (p : List Byte) : p.isEmpty = (p.length == 0) := by cases p <;> rfl
  cases c with
  | stopRun a p | hold a p | resume a p =>
    cases a with
    | unit => cases hm; exact ⟨_, fun s => by simp only [lengthFits, ← hempty]; rfl⟩
    | broadcast => simp [toUnit] at hu
  | _ => cases hm <;> exact ⟨_, fun s => by simp only [lengthFits, ← hempty]; rfl⟩

/-- HOLD, RESUME and STOP RUN as broadcasts. -/
theorem exec_broadcast (hu : toUnit c = false) :
    ∃ code p block, lengthFits c = p.isEmpty ∧ ∀ s, exec c s = .next (serveAt .broadcast code p block s) := by
  cases c with
  | stopRun a p | hold a p | resume a p =>
    cases a with
    | unit => simp [toUnit] at hu
    | broadcast => exact ⟨_, p, _, by cases p <;> rfl, fun _ => rfl⟩
  | _ => simp [toUnit] at hu

/-- A broadcast that carries a payload is ignored (R158). -/
theorem serveAt_broadcast_payload (hrun : s.power = .running) (hsend : sending s = false)
    (hp : payload.isEmpty = false) : serveAt .broadcast code payload block s = goodFrame s := by
  unfold serveAt whenReceiving
  rw [whenRunning_of_running _ hrun]
  simp [hsend, hp]

/-- A frame that arrives while a reply is being sent is discarded (R156). -/
theorem whenReceiving_sending (f : State → State) (h : sending s = true) : whenReceiving f s = s := by
  simp [whenReceiving, whenRunning, h]

/-- A request to a ready part whose length does not fit (R157). -/
theorem serve_badLength (h : Ready s) :
    serve code false block s = replied (goodFrame s) code .badLength [] (goodFrame s) := by
  obtain ⟨hrun, hreply⟩ := h
  simp [serve_eq, hrun, sending, goodFrame_reply, hreply, replied]

/-- A request that completes while a reply waits gets none (R157). -/
theorem serve_waiting (hrun : s.power = .running) (hreply : s.port.reply.isSome = true) (hsend : sending s = false) :
    serve code fits block s = goodFrame s := by
  simp [serve_eq, hrun, hsend, goodFrame_reply, hreply]

/-- A command that is a request is received as a frame: served, or taken as a broadcast. -/
theorem exec_whenReceiving (hm : c.message.isSome = true) : ∃ f, ∀ s, exec c s = .next (whenReceiving f s) := by
  cases hu : toUnit c with
  | true =>
    obtain ⟨⟨code, payload⟩, hmessage⟩ := Option.isSome_iff_exists.1 hm
    obtain ⟨block, hserve⟩ := exec_request hmessage hu
    exact ⟨_, hserve⟩
  | false =>
    obtain ⟨code, p, block, _, hserve⟩ := exec_broadcast hu
    exact ⟨_, hserve⟩

/-! ### The reply (R156, R157) -/

theorem exec_lineReplySent_idle (h : s.power = .running) (hr : s.port.reply = none) :
    exec .lineReplySent s = .next s := by
  refine congrArg Host.Outcome.next ((whenRunning_of_running _ h).trans ?_)
  simp only [hr]

/-- A waiting reply begins to be sent at the next tick. -/
theorem startSending_waiting (h : s.port.reply.isSome = true) :
    startSending s = { s with port := { s.port with lpDe := true } } := by
  simp [startSending, h]

end Sys2Proof.Machine

namespace Sys2Proof.Proofs

open Sys2Proof.Machine

/-- Settles O26: the frame restarts the timer, and each end of a silence is a change of the hold-reason set. -/
theorem linkTimerFollowsFrames : Obligations.LinkTimerFollowsFrames := by
  intro s hm due
  have hdue : timerDue s = true ↔ due := timerDue_iff s
  obtain ⟨hstopped, hrunning⟩ := goodFrame_timer s
  refine ⟨⟨by rw [goodFrame_port, frameTaken_rxBuf], goodFrame_reply s, hstopped, hrunning, goodFrame_connected,
    goodFrame_silent hm⟩, fun hrun h => ?_, fun hrun h => ?_⟩
  · rw [exec_linkTimeout hrun, if_pos (hdue.2 h)]
    exact ⟨_, rfl, setHold_taken .linkSilent true hm⟩
  · rw [exec_linkTimeout hrun, if_neg fun a => h (hdue.1 a)]

/-- Settles O27: bytes are received one after another, and a whole frame is judged at its last one. -/
theorem ignoredFramesOnlyRestartTimer : Obligations.IgnoredFramesOnlyRestartTimer := by
  intro s hrun unit
  refine ⟨fun bytes hsend => ?_, fun bytes hbuf hlead => ?_, fun addr code crcHi crcLo payload hsend hbuf hlen => ?_,
    exec_frameGapTimeout hrun⟩
  · rw [exec_frameIgnored bytes hrun, if_pos hsend]
  · rw [exec_frameIgnored bytes hrun, rxBytes_noLead bytes hbuf hlead, ite_self]
  · intro body
    have haddress : judgedAddress s = unit := rfl
    have hgood := frameIsGood_wholeFrame unit addr code crcHi crcLo hlen
    change exec (.frameIgnored (wholeFrame addr code payload crcHi crcLo)) s = _
    rw [exec_frameIgnored _ hrun, hsend, if_neg Bool.false_ne_true, rxBytes_wholeFrame addr code crcHi crcLo hbuf hlen,
      haddress]
    exact congrArg Host.Outcome.next (if_congr hgood rfl rfl)

/-- Settles O28: every request goes to `serve` under its code and with its length judged, or is a broadcast. -/
theorem unfitRequestsRefused : Obligations.UnfitRequestsRefused := by
  refine ⟨fun code payload s hready => next_ready hready rfl rfl rfl, fun c code payload s hready hm hu hfit => ?_,
    fun c s hrun hreply hsend hm hu => ?_, fun c s hsend hm => ?_, fun c s hrun hsend hu hfit => ?_⟩
  · obtain ⟨block, hserve⟩ := exec_request hm hu
    rw [hserve, hfit, serve_badLength hready]
  · obtain ⟨⟨code, payload⟩, hmessage⟩ := Option.isSome_iff_exists.1 hm
    obtain ⟨block, hserve⟩ := exec_request hmessage hu
    rw [hserve, serve_waiting hrun hreply hsend]
  · obtain ⟨f, hreceive⟩ := exec_whenReceiving hm
    rw [hreceive, whenReceiving_sending f hsend]
  · obtain ⟨code, p, block, hlength, hserve⟩ := exec_broadcast hu
    rw [hserve, serveAt_broadcast_payload hrun hsend (hlength.symm.trans hfit)]

/-- Settles O29: the end of a reply and the tick that begins one, each by whether a reply waits. -/
theorem replyFrameSent : Obligations.ReplyFrameSent := by
  intro s hrun
  refine ⟨fun r hreply => ⟨exec_lineReplySent hrun hreply, rfl, _, exec_millisecondTick hrun, ?_, ?_⟩,
    exec_lineReplySent_idle hrun⟩
  · exact startSending_sends (by simp [hreply])
  · rw [startSending_waiting (by simp [hreply])]

end Sys2Proof.Proofs

/-! PROOFS. The Retained Store over a reset: what a reset keeps of it, a commit that ends and one that is cut short
(R165 to R168). -/

namespace Sys2Proof.Machine

variable {s : State} {i : Image} {cause : ResetCause}

/-! ### What a reset keeps (R166, R167) -/

/-- With no commit in progress the store stands. -/
theorem enterReset_store_idle (h : s.commit = none) : (enterReset cause s).store = s.store := by
  unfold enterReset
  simp only [h]

/-- A commit in progress is cut short. -/
theorem enterReset_store_writing {j : StoredImage} (h : s.commit = some j) :
    (enterReset cause s).store = cutShort j.image := by
  unfold enterReset
  simp only [h]

theorem cutShort_crc (i : Image) : (cutShort i).crc ≠ imageCrc (cutShort i).image := by
  rw [Ne, ← crcMatches_iff, crcMatches_cutShort]
  exact Bool.false_ne_true

/-! ### What a start-up takes (R168) -/

theorem startUp_liveImage (pins : StartupPins) (s : State) : liveImage (startUp pins s) = startImage s.store := by
  rw [startUp_eq, startWith_liveImage]

theorem startWith_storeDefaulted (pins : StartupPins) (good : Bool) (i : Image) (s : State) :
    (startWith pins good i s).storeDefaulted = !good := by
  rw [startWith_frame]
  rfl

theorem startUp_storeDefaulted (pins : StartupPins) (s : State) :
    (startUp pins s).storeDefaulted = !crcMatches s.store := by
  rw [startUp_eq, startWith_storeDefaulted]

theorem startUp_latch (pins : StartupPins) (s : State) (k : AlertKind) :
    (startUp pins s).alerts.latch[alertIx k] = (!crcMatches s.store && k == .settingsDefaulted) := by
  rw [startUp_eq, startWith_latch]

/-- A store with its CRC gives its settings back. -/
theorem startUp_committed (pins : StartupPins) (h : s.store = withCrc i) :
    liveImage (startUp pins s) = i ∧ (startUp pins s).storeDefaulted = false := by
  rw [startUp_liveImage, startUp_storeDefaulted, h]
  exact ⟨startImage_withCrc, by rw [crcMatches_withCrc]; rfl⟩

/-- A store whose commit was cut short gives the factory values. -/
theorem startUp_cutShort (pins : StartupPins) (h : s.store = cutShort i) :
    liveImage (startUp pins s) = factoryImage ∧ (startUp pins s).storeDefaulted = true
      ∧ (startUp pins s).alerts.latch[alertIx .settingsDefaulted] = true := by
  rw [startUp_liveImage, startUp_storeDefaulted, startUp_latch, h]
  exact ⟨startImage_cutShort, by rw [crcMatches_cutShort]; rfl, by rw [crcMatches_cutShort]; rfl⟩

/-! ### The commit (R166) -/

/-- A good frame changes no setting. -/
theorem goodFrame_liveImage (s : State) : liveImage (goodFrame s) = liveImage s := by
  have hmask : (goodFrame s).alerts.mask = s.alerts.mask := by
    rw [goodFrame_eq, frameTaken_frame]
    split
    · exact congrArg Fixed.mask
        ((keeps_setHold (o := Scope.actsNoJoin) .linkSilent false (fun _ a => HoldReason.noConfusion a)).settings rfl)
    · rfl
  refine (congrArg liveImage (goodFrame_frame s)).trans ?_
  simp only [liveImage, hmask]

/-- The state a commit leaves that begins from `s`: its good frame taken, the live settings being written, the reply
waiting. -/
def commitBegun (s : State) : State :=
  replied (goodFrame s) 0x29 .done [] { goodFrame s with commit := some (withCrc (liveImage s)) }

theorem exec_commitSettings (hready : Ready s) (hc : s.commit = none) :
    exec (.commitSettings []) s = .next (commitBegun s) := by
  have hgood : (goodFrame s).commit = none := by rw [goodFrame_frame]; exact hc
  refine next_ready hready rfl rfl ?_
  rw [commitSettingsBlock, hgood, goodFrame_liveImage]
  rfl

theorem commitBegun_power (h : s.power = .running) : (commitBegun s).power = .running := (goodFrame_power s).trans h

/-- The state a commit leaves whose write has ended. -/
def commitEnded (s : State) : State := { commitBegun s with store := withCrc (liveImage s), commit := none }

theorem exec_commitWriteEnd (hrun : s.power = .running) :
    exec .commitWriteEnd (commitBegun s) = .next (commitEnded s) :=
  congrArg Host.Outcome.next (whenRunning_of_running _ (commitBegun_power hrun))

end Sys2Proof.Machine

namespace Sys2Proof.Proofs

open Sys2Proof.Machine

/-- Settles O15: both commands enter the reset state, whose store is judged by whether a commit was in progress. -/
theorem resetEndsOperations : Obligations.ResetEndsOperations := by
  intro s
  refine ⟨enterReset .powerOn s, rfl, rfl, rfl, rfl, rfl, rfl, rfl, rfl, rfl, rfl, rfl, rfl, rfl, rfl, rfl,
    enterReset_store_idle, fun hc => ?_, rfl, rfl, rfl, rfl, rfl, rfl, rfl⟩
  obtain ⟨j, hj⟩ := Option.isSome_iff_exists.1 hc
  rw [enterReset_store_writing hj]
  exact cutShort_crc j.image

/-- Settles O17: the reset finds the store written with its CRC, or the commit in progress. -/
theorem committedSettingsSurviveReset : Obligations.CommittedSettingsSurviveReset := by
  intro c pins s hready hnone hc
  have hcommit := exec_commitSettings hready hnone
  have hend := exec_commitWriteEnd hready.1
  obtain ⟨cause, hkept⟩ := runCommands_reset_startup hc pins (commitEnded s)
  obtain ⟨cause', hcut⟩ := runCommands_reset_startup hc pins (commitBegun s)
  have hwritten : (enterReset cause (commitEnded s)).store = withCrc (liveImage s) := enterReset_store_idle rfl
  have hwriting : (enterReset cause' (commitBegun s)).store = cutShort (liveImage s) :=
    enterReset_store_writing (j := withCrc (liveImage s)) rfl
  refine ⟨⟨_, ?_, startUp_committed pins hwritten⟩, ⟨_, ?_, startUp_cutShort pins hwriting⟩⟩
  · rw [runCommands_cons hcommit, runCommands_cons hend, hkept]
  · rw [runCommands_cons hcommit, hcut]

end Sys2Proof.Proofs

/-! PROOFS. Every command as a whole: it answers a next state with the queue as it was, and from a reset to start-up it
changes nothing unless it is one of R167 and R168 (log entries 7 and 22). -/

namespace Sys2Proof.Machine

variable {s : State} {c : Instr} {rs : RunState} {d : Decision} {pins : PitchPins}

/-! ### Commands while the part is in reset (R167, R168) -/

/-- Every command but the resets and start-up acts only while the part runs. -/
theorem exec_whenRunning (h : resets c = false) : ∃ f, ∀ s, exec c s = .next (whenRunning f s) := by
  cases c with
  | powerOn | resetInput | startup _ => simp [resets] at h
  | stopRun a p | hold a p | resume a p => cases a <;> exact ⟨_, fun _ => rfl⟩
  | _ => exact ⟨_, fun _ => rfl⟩

theorem whenRunning_inReset (f : State → State) (h : s.power = .inReset) : whenRunning f s = s := by
  simp [whenRunning, h]

/-! ### The queue through a forward pitch -/

/-- An admission keeps the queue, whatever the Track and the banks hold. -/
theorem admission_pending (irt : Nat) (s : State) : (admission irt s).pending = s.pending := by
  have hswap : (admissionSwap s).pending = s.pending := (keeps_admissionSwap (o := Scope.acts)).pending
  rw [admission_eq, (keeps_countAdmission (o := Scope.acts) fun _ => rfl).pending,
    (keeps_faultAdmitted (o := Scope.acts) _).pending]
  exact hswap

theorem actAtInfeed_pending (s : State) : (actAtInfeed rs d pins s).pending = s.pending := by
  by_cases hd : d = .admitJar
  · subst hd
    unfold actAtInfeed
    simp only
    split
    · exact admission_pending _ s
    · rfl
  · exact (keeps_actAtInfeed (o := Scope.acts) rs d pins (fun a => absurd a hd) rfl (fun a => absurd a hd)).pending

theorem pitchAct_pending (a : PitchAct) (s : State) : (pitchAct rs d pins s a).pending = s.pending := by
  by_cases ha : a = .infeed
  · subst ha
    exact actAtInfeed_pending s
  · exact (keeps_act_noJoin ha).pending

theorem takeActs_pending (l : List PitchAct) : ∀ s, (takeActs rs d pins l s).pending = s.pending := by
  induction l with
  | nil => exact fun _ => rfl
  | cons a l ih => exact fun s => (ih _).trans (pitchAct_pending a s)

theorem forwardPitch_pending (order : List PitchAct) (s : State) : (forwardPitch pins order s).pending = s.pending := by
  cases hf : frozen s with
  | true =>
    rw [forwardPitch_frozen order hf, remakeDecision_pending, (keeps_confirmDeadlines (o := Scope.acts) rfl).pending]
    rfl
  | false =>
    rw [forwardPitch_moving order hf, remakeDecision_pending, (keeps_waitTurretEnd (o := Scope.acts)).pending]
    exact (takeActs_pending _ _).trans pitchStart_keeps.pending

/-! ### The queue through every command -/

theorem startUp_pending (p : StartupPins) (s : State) : (startUp p s).pending = s.pending := by
  rw [startUp_eq, startWith_frame]
  rfl

/-- A change made only while the part runs keeps the queue when it does so. -/
theorem whenRunning_pending {f : State → State} (h : (f s).pending = s.pending) :
    (whenRunning f s).pending = s.pending := by
  unfold whenRunning
  split
  · exact h
  · rfl

/-- A command answers a next state with the queue as it was: a plain one by its `Keeps`, a turn of the turret by its
acts, a reset by what it leaves. -/
theorem exec_pending (c : Instr) (s : State) : ∃ t, exec c s = .next t ∧ t.pending = s.pending := by
  cases hp : plainCommand c with
  | true =>
    obtain ⟨t, he, k⟩ := exec_plain_keeps (s := s) hp
    exact ⟨t, he, k.pending⟩
  | false =>
    cases c with
    | forwardPitch pins order => exact ⟨_, rfl, whenRunning_pending (forwardPitch_pending order s)⟩
    | reversePitch => exact ⟨_, rfl, whenRunning_pending (keeps_reversePitch (c := .reversePitch)).pending⟩
    | indexPulse => exact ⟨_, rfl, whenRunning_pending (keeps_indexPulse (c := .indexPulse)).pending⟩
    | powerOn => exact ⟨_, rfl, rfl⟩
    | resetInput => exact ⟨_, rfl, rfl⟩
    | startup p =>
      refine ⟨_, rfl, ?_⟩
      split
      · exact startUp_pending p s
      · rfl
    | _ => simp [plainCommand] at hp

end Sys2Proof.Machine

namespace Sys2Proof.Proofs

open Sys2Proof.Machine

/-- Settles O2: no arm of `exec` stops the part or writes the queue, and only the resets act on a part in reset. -/
theorem everyCommandAnswersNext : Obligations.EveryCommandAnswersNext := by
  refine ⟨exec_pending, fun c s hreset hc => ?_⟩
  obtain ⟨f, hexec⟩ := exec_whenRunning hc
  rw [hexec, whenRunning_inReset f hreset]

end Sys2Proof.Proofs

/-! PROOFS. The frames of the head link in both directions: a frame names the one head it is sent to or from, a reply
frame that is read is the frame of the report read from it, and a command is read back by its head (R77, R79, R173). -/

namespace Sys2Proof.Machine

variable {p q : Head} {r : Report} {c : HeadCommand} {frame content : List Byte} {kind : Byte}

/-! ### The head a frame names (R173) -/

theorem field_head (p : Head) (rest : List Byte) : field (BitVec.ofNat 8 p.number :: rest) 0 1 = p.number := by
  rw [field_firstByte, ← field_byte, field_headNumber]

theorem field_reportFrame_head (p : Head) (r : Report) : field (reportFrame p r) 0 1 = p.number := field_head p _

theorem field_commandFrame_head (p : Head) (c : HeadCommand) : field (commandFrame p c) 0 1 = p.number :=
  field_head p _

/-- The frame names another head than `p`: the exchange with `p` fails. -/
theorem parseReply_otherHead (h : field frame 0 1 ≠ p.number) : parseReply p frame = none := by
  simp [parseReply, h]

/-- The frame names another head than `p`: head `p` ignores it. -/
theorem commandOf_otherHead (h : field frame 0 1 ≠ p.number) : commandOf p frame = none := by
  simp [commandOf, h]

theorem parseReply_reportFrame_other (h : q ≠ p) : parseReply q (reportFrame p r) = none :=
  parseReply_otherHead fun heq => h (number_injective.1 ((field_reportFrame_head p r).symm.trans heq)).symm

theorem commandOf_commandFrame_other (h : q ≠ p) : commandOf q (commandFrame p c) = none :=
  commandOf_otherHead fun heq => h (number_injective.1 ((field_commandFrame_head p c).symm.trans heq)).symm

/-! ### A frame that is read is its own body with its CRC-8 (R77, R170) -/

theorem eq_take_append_getD {n : Nat} (h : frame.length = n + 1) : frame = frame.take n ++ [frame.getD n 0] := by
  have hn : n < frame.length := by omega
  rw [List.getD_eq_getElem _ _ hn, List.take_append_getElem hn, ← h, List.take_length]

/-- A body that opens with the number of head `p` and carries its own length byte is a reply body of `p`. -/
theorem eq_replyBody {body : List Byte} (hlen : body.length = 3 + field body 2 1) (hhead : field body 0 1 = p.number) :
    ∃ kind content, content.length < 256 ∧ body = replyBody p kind content := by
  match body, hlen, hhead with
  | [], hlen, _ | [_], hlen, _ | [_, _], hlen, _ =>
    simp only [List.length_cons, List.length_nil] at hlen
    omega
  | head :: kind :: size :: content, hlen, hhead =>
    have hsize : field (head :: kind :: size :: content) 2 1 = size.toNat := field_firstByte size content
    have hcontent : content.length = size.toNat := by
      simp only [List.length_cons, hsize] at hlen
      omega
    rw [field_firstByte] at hhead
    refine ⟨kind, content, hcontent ▸ size.isLt, ?_⟩
    rw [replyBody, hcontent, ← hhead, BitVec.ofNat_toNat, BitVec.ofNat_toNat, BitVec.setWidth_eq, BitVec.setWidth_eq]

/-- A field that lies within a list is not changed by what follows the list. -/
theorem field_append_within {a b : List Byte} {off len : Nat} (h : off + len ≤ a.length) :
    field (a ++ b) off len = field a off len := by
  rw [field, field, List.drop_append_of_le_length (by omega),
    List.take_append_of_le_length (by rw [List.length_drop]; omega)]

/-- An exchange with head `p` has a report exactly when its frame is the body of `p` with a kind and contents that make
the report, followed by the CRC-8 of the body. -/
theorem parseReply_eq_some_iff : parseReply p frame = some r ↔ ∃ kind content, content.length < 256
    ∧ frame = replyBody p kind content ++ [crc8 (replyBody p kind content)] ∧ reportOf kind content = some r := by
  constructor
  · intro h
    obtain ⟨⟨hlen, hcrc⟩, hhead⟩ : (frame.length = 4 + field frame 2 1
        ∧ crc8 (frame.take (3 + field frame 2 1)) = frame.getD (3 + field frame 2 1) 0)
        ∧ field frame 0 1 = p.number := by
      unfold parseReply at h
      simp only [Option.ite_none_right_eq_some, Bool.and_eq_true, beq_iff_eq] at h
      exact h.1
    have hframe := eq_take_append_getD (frame := frame) (n := 3 + field frame 2 1) (by omega)
    rw [← hcrc] at hframe
    have hbody : (frame.take (3 + field frame 2 1)).length = 3 + field frame 2 1 := by
      rw [List.length_take]
      omega
    generalize frame.take (3 + field frame 2 1) = body at hframe hbody
    subst hframe
    have hsize := field_append_within (a := body) (b := [crc8 body]) (off := 2) (len := 1) (by omega)
    rw [field_append_within (by omega)] at hhead
    rw [hsize] at hbody
    obtain ⟨kind, content, hcontent, rfl⟩ := eq_replyBody hbody hhead
    rw [parseReply_replyBody p kind content hcontent] at h
    exact ⟨kind, content, hcontent, rfl, h⟩
  · rintro ⟨kind, content, hcontent, rfl, h⟩
    rw [parseReply_replyBody p kind content hcontent, h]

/-! ### The contents a report is read from are its own (R173) -/

theorem ofNat_beValue_one (b : Byte) : BitVec.ofNat 8 (beValue [b]) = b := by simp [beValue]

theorem ofNat_beValue_low (hi lo : Byte) : BitVec.ofNat 8 (beValue [hi, lo]) = lo := by
  apply BitVec.eq_of_toNat_eq
  have := lo.isLt
  simp only [beValue, List.foldl_cons, List.foldl_nil, BitVec.toNat_ofNat]
  omega

theorem ofNat_beValue_high (hi lo : Byte) : BitVec.ofNat 8 (beValue [hi, lo] / 256) = hi := by
  apply BitVec.eq_of_toNat_eq
  have := hi.isLt
  have := lo.isLt
  simp only [beValue, List.foldl_cons, List.foldl_nil, BitVec.toNat_ofNat]
  omega

theorem code_of_outcomeOf {n : Nat} {o : CycleOutcome} (h : outcomeOf n = some o) : o.code = n := by
  unfold outcomeOf at h
  split at h <;> cases h <;> rfl

theorem flagByte_of_flagOf {f : Byte} {b : Bool} (h : flagOf f.toNat = some b) : flagByte b = f := by
  unfold flagOf at h
  split_ifs at h with h0 h1
  · cases h
    exact (BitVec.eq_of_toNat_eq h0).symm
  · cases h
    exact (BitVec.eq_of_toNat_eq h1).symm

/-- Ten bytes read as a DONE are the contents of that DONE. -/
theorem reportBody_of_doneOf (hlen : content.length = 10) (h : doneOf content = some r) :
    reportBody r = (0x03, content) := by
  match content, hlen with
  | [tag, attempt, outcome, peak1, peak0, seat1, seat0, steam, age, size], _ =>
    unfold doneOf at h
    split at h
    next o b houtcome hsteam =>
      split at h
      · cases h
        have hcode : o.code = beValue [outcome] := code_of_outcomeOf houtcome
        have hflag : flagByte b = steam := flagByte_of_flagOf (field_byte steam ▸ hsteam)
        rw [reportBody_done]
        simp only [doneBytes, hcode, hflag, field, List.drop, List.take, List.getD_cons_zero, ofNat_beValue_one,
          ofNat_beValue_low, ofNat_beValue_high]
      · cases h
    next => cases h

theorem sampleBytes_of_bytes (a1 a0 t1 t0 : Byte) : sampleBytes ⟨a1 ++ a0, t1 ++ t0⟩ = [a1, a0, t1, t0] := by
  have hword (hi lo : Byte) : (hi ++ lo : BitVec 16).toNat = beValue [hi, lo] := by
    rw [BitVec.toNat_append, ← Nat.shiftLeft_add_eq_or_of_lt lo.isLt, Nat.shiftLeft_eq]
    simp [beValue]
  rw [sampleBytes, beBytes_two, beBytes_two, hword, hword, ofNat_beValue_low, ofNat_beValue_high, ofNat_beValue_low,
    ofNat_beValue_high]
  rfl

/-- Four bytes for each of `n` samples are read as `n` samples, which have these bytes. -/
theorem samplesOf_of_length (n : Nat) (bytes : List Byte) (h : bytes.length = 4 * n) :
    (samplesOf bytes).length = n ∧ (samplesOf bytes).flatMap sampleBytes = bytes := by
  induction n generalizing bytes with
  | zero =>
    obtain rfl := List.eq_nil_of_length_eq_zero h
    exact ⟨rfl, rfl⟩
  | succ n ih =>
    match bytes, h with
    | a1 :: a0 :: t1 :: t0 :: rest, h =>
      obtain ⟨hcount, hbytes⟩ := ih rest (by simp only [List.length_cons] at h; omega)
      rw [samplesOf, List.length_cons, hcount, List.flatMap_cons, hbytes, sampleBytes_of_bytes]
      exact ⟨rfl, rfl⟩

/-- Contents read as a CURVE report are the contents of that report. -/
theorem reportBody_of_curve (hlen : content.length = 2 + 4 * field content 1 1) :
    reportBody (.curve (content.getD 0 0) (samplesOf (content.drop 2))) = (0x04, content) := by
  match content, hlen with
  | [], hlen | [_], hlen =>
    simp only [List.length_cons, List.length_nil] at hlen
    omega
  | tag :: count :: rest, hlen =>
    rw [field_secondByte] at hlen
    obtain ⟨hcount, hbytes⟩ := samplesOf_of_length count.toNat rest (by simp only [List.length_cons] at hlen; omega)
    rw [reportBody_curve]
    simp only [List.drop, List.getD_cons_zero, hcount, hbytes, BitVec.ofNat_toNat, BitVec.setWidth_eq]

/-- A kind and contents that are read as a report are the kind and the contents of that report. -/
theorem reportBody_of_reportOf (h : reportOf kind content = some r) : reportBody r = (kind, content) := by
  unfold reportOf at h
  split_ifs at h with hidle hempty hbusy hfields hdone hlen hcurve hcount
  · cases h
    rw [hidle, List.isEmpty_iff.1 hempty]
    rfl
  · simp only [Bool.and_eq_true, beq_iff_eq] at hfields
    obtain ⟨⟨htwo, -⟩, -⟩ := hfields
    match content, htwo with
    | [tag, attempt], _ =>
      cases h
      rw [hbusy, reportBody_busy, field_secondByte, BitVec.ofNat_toNat, BitVec.setWidth_eq]
      rfl
  · rw [hdone]
    exact reportBody_of_doneOf (beq_iff_eq.1 hlen) h
  · cases h
    simp only [Bool.and_eq_true, beq_iff_eq] at hcount
    rw [hcurve]
    exact reportBody_of_curve hcount.2

/-- The frame a report is read from is the frame of that report. -/
theorem eq_reportFrame_of_parseReply (h : parseReply p frame = some r) : frame = reportFrame p r := by
  obtain ⟨kind, content, -, rfl, hreport⟩ := parseReply_eq_some_iff.1 h
  rw [reportFrame_eq, reportBody_of_reportOf hreport]

/-! ### A command is read back by its head (R79, R173) -/

/-- The values read from the bytes of an APPLY in range are its own. -/
theorem applyCmd_of_bytes {a : ApplyCmd} (h : (HeadCommand.apply a).inRange) :
    (⟨a.tag, (BitVec.ofNat 8 a.attempt).toNat,
      beValue [BitVec.ofNat 8 (a.torqueSet / 256), BitVec.ofNat 8 a.torqueSet],
      beValue [BitVec.ofNat 8 (a.angleMax / 256), BitVec.ofNat 8 a.angleMax],
      beValue [BitVec.ofNat 8 (a.steamDwell / 256), BitVec.ofNat 8 a.steamDwell]⟩ : ApplyCmd) = a := by
  obtain ⟨hattempt, htorque, hangle, hdwell⟩ := h
  rw [beValue_two htorque, beValue_two hangle, beValue_two hdwell, BitVec.toNat_ofNat, Nat.mod_eq_of_lt hattempt]

/-- A command in range is read back by the head its frame names. -/
theorem commandOf_commandFrame (p : Head) (h : c.inRange) : commandOf p (commandFrame p c) = some c := by
  obtain ⟨body, hbody⟩ : ∃ body, body = BitVec.ofNat 8 p.number :: commandBody c := ⟨_, rfl⟩
  have hframe : commandFrame p c = body ++ [crc8 body] := by rw [hbody, commandFrame]
  have hhead := field_commandFrame_head p c
  rw [hframe] at hhead ⊢
  have hcontents : body.drop 1 = commandBody c := by rw [hbody, List.drop_one, List.tail_cons]
  have hsize : (body ++ [crc8 body]).length - 1 = body.length := by
    rw [List.length_append, List.length_singleton, Nat.add_sub_cancel]
  have hcrc : (body ++ [crc8 body]).getD body.length 0 = crc8 body := by simp
  have hgood : crc8 ((body ++ [crc8 body]).take body.length) == (body ++ [crc8 body]).getD body.length 0
      && field (body ++ [crc8 body]) 0 1 == p.number := by
    rw [List.take_left, hcrc, hhead, beq_self_eq_true, beq_self_eq_true, Bool.and_self]
  unfold commandOf
  extract_lets n
  rw [show n = body.length from hsize, if_pos hgood, List.take_left, hcontents]
  cases c with
  | apply a => exact congrArg (fun x => some (HeadCommand.apply x)) (applyCmd_of_bytes h)
  | abort | poll | curve => rfl

end Sys2Proof.Machine

namespace Sys2Proof.Proofs

open Sys2Proof.Machine

/-- Settles O49: a frame is read only with its own head, length and CRC-8, and its contents are then those of the report
or command read from them. -/
theorem headLinkFramesRoundTrip : Obligations.HeadLinkFramesRoundTrip :=
  ⟨fun p _ h => parseReply_reportFrame p h, fun _ _ _ h => parseReply_reportFrame_other h,
    fun _ _ _ h => eq_reportFrame_of_parseReply h, fun p _ h => commandOf_commandFrame p h,
    fun _ _ _ h => commandOf_commandFrame_other h⟩

end Sys2Proof.Proofs

/-! PROOFS. One step of the part, by what waits in the queue of commands (log entry 3). -/

namespace Sys2Proof.Machine

/-- A step with a command waiting is that command on the state with the queue's rest. -/
theorem step_of_pending_cons {c : Instr} {rest : List Instr} {s : State} (h : s.pending = c :: rest) :
    step s = exec c { s with pending := rest } := by
  rw [step, h]

/-- A step with no command waiting leaves the state as it is. -/
theorem step_of_pending_nil {s : State} (h : s.pending = []) : step s = .next s := by
  rw [step, h]

end Sys2Proof.Machine

namespace Sys2Proof.Proofs

open Sys2Proof.Machine

/-- Settles O1: a step by whether a command waits in the queue. -/
theorem stepTakesFrontCommand : Obligations.StepTakesFrontCommand :=
  ⟨fun _ _ _ => step_of_pending_cons rfl, fun _ h => step_of_pending_nil h⟩

end Sys2Proof.Proofs
